-- ==== Sys2Proof/Word.lean ====
section
/-! DEFINITION. Word types (spec/02_numbers.md R22, spec/01_machine.md R9, spec/06_group.md R93). -/

namespace Sys2Proof

abbrev Byte := BitVec 8
/-- One 32-bit lane of a vector register (R9). -/
abbrev W32 := BitVec 32
/-- One scalar register (R23). -/
abbrev W64 := BitVec 64
/-- One bit per lane: EM, LIVE, a predicate or a flag set (R38, R92). -/
abbrev Mask := BitVec 64
/-- An 80-bit virtual address (R138). -/
abbrev VAddr := BitVec 80

end Sys2Proof
end

