-- ==== Sys2Proof/Machine/Bits.lean ====
section
/-! DEFINITION. Bit fields and byte orders (spec/00_scope.md R4, spec/02_numbers.md R22, spec/17_encoding.md R273). -/

namespace Sys2Proof

/-- Bits [hi:lo] of a natural number, in the manual's own notation (R4). -/
def bits (x hi lo : Nat) : Nat := (x >>> lo) % 2 ^ (hi + 1 - lo)

/-- Bit `i` of a natural number. -/
def bitAt (x i : Nat) : Bool := x.testBit i

/-- The signed value of the low `n` bits of `x`. -/
def signedOf (n x : Nat) : Int :=
  let y := x % 2 ^ n
  if y < 2 ^ (n - 1) then (y : Int) else (y : Int) - (2 : Int) ^ n

/-- The `n`-bit pattern of an integer: the value modulo 2^n. -/
def wrapInt (n : Nat) (x : Int) : Nat := (x % (2 : Int) ^ n).toNat

/-- The little-endian value of a byte string (R22). -/
def leValue : List Byte → Nat
  | [] => 0
  | b :: bs => b.toNat + 256 * leValue bs

/-- The `n` bytes of `x`, lowest first (R22). -/
def leBytes : Nat → Nat → List Byte
  | 0, _ => []
  | n + 1, x => BitVec.ofNat 8 x :: leBytes n (x / 256)

/-- The big-endian value of a byte string: the integer F of R273. -/
def beValue (bs : List Byte) : Nat := bs.foldl (fun a b => a * 256 + b.toNat) 0

/-- The `n` bytes of `x`, highest first: the byte stream of F (R273). -/
def beBytes (n x : Nat) : List Byte := (leBytes n x).reverse

end Sys2Proof
end

