-- ==== Sys2Proof/Syntax.lean ====
section
/-! DEFINITION. The whole syntax: the fields of the internal word (spec/17_encoding.md R275 to R281), and one
constructor of `Instr` for every row of spec/opcode_table.json: the instructions, the two-byte and four-byte
forms (R285, R286), and the device's own steps (spec/95_what_each_step_holds.md). -/

namespace Sys2Proof

/-- A selector byte (R276). `rsv` keeps a reserved byte, which an unused selector field may hold (R277). -/
inductive Sel where
  | v (n : Fin 128) | s (n : Fin 64) | p (n : Fin 8) | q (n : Fin 8) | fl (n : Fin 5)
  | em | zero | imm | immLo | immHi | none | rsv (b : Byte)
deriving DecidableEq, Repr

/-- The type codes of R278. -/
inductive Ty where
  | none | i8 | n8 | i16 | n16 | i32 | n32 | i64 | n64 | f32 | bf16 | f16 | sx2 | sx4 | sx7 | rsv
deriving DecidableEq, Repr

/-- The scopes of R279; 6 and 7 are reserved. -/
inductive Scope where
  | none | grp | team | die | dev | sys | rsv6 | rsv7
deriving DecidableEq, Repr

/-- The byte-stream form an instruction came in (R283); it fixes the length k and nothing else. -/
inductive Form where
  | f2 | f4 | f6a | f6b | f6c | f8a | f8b | f13
deriving DecidableEq, Repr

/-- The internal word but for OPC (R275). -/
structure Fields where
  form : Form := .f13
  mod : BitVec 4 := 0
  pred : Fin 8 := 0
  pn : Bool := false
  dst : Sel := .none
  sa : Sel := .none
  sb : Sel := .none
  sc : Sel := .none
  fep : BitVec 3 := 0
  scope : Scope := .none
  ty : Ty := .none
  aux : BitVec 4 := 0
  imm : BitVec 32 := 0
deriving DecidableEq, Repr

/-- The fields of a four-byte form: FA, FB and three SEL7 values (R282, R283). -/
structure Four where
  fa : Bool := false
  fb : Bool := false
  dst : BitVec 7 := 0
  sa : BitVec 7 := 0
  sb : BitVec 7 := 0
deriving DecidableEq, Repr

/-- The instructions of the opcode map (R292), with `cpy`, `mdrain` and `mov` split by MOD or source as the
table splits them. -/
inductive Op where
  | nop | bra | brc | brd | fuse | jmpi | call | ret | exit | yield | sleepClk | movem | brk
  | region | commit | sigchk | sigrst | trap | eret | rdspec | wrspec | laneget | laneset | fmode
  | flclr | mov | movFromQueue | movi | add | sub | addc | mul | mulh | mad | neg | abs | min
  | max | and | or | xor | not | andn | shl | shr | sar | rot | clz | popc | brev | bfe | bfi
  | sel | cmp | lea | div | rem | fadd | fsub | fmul | ffma | fmin | fmax | fabs | fneg | fcmp
  | fclass | frnd | frcp | frsq | fsqrt | fexp2 | flog2 | fsin | fcos | ftanh | fdot2 | cvt
  | pack | unpack | sxq | sxd | tag | tagof | shfl | ballot | vote | lred | scan | matchKeys
  | bcast | firstLane | pand | por | pxor | pnot | pmov | pcnt | ld | st | lds | sts | pref
  | clean | inval | clinv | fence | fprobe | atom | mred | waitc | bara | bars | barq | talloc
  | tfree | tstat | tset | cpyIn | cpyOut | cpyMm | mma | mzero | mload | mdrain | mdrainAdd
  | stash | restore | xcfg | xpool | xration | xrun | xgate | xstat | post
deriving DecidableEq, Repr

/-- What a peer device asks of this one (R242, R361): a read, a write, or an atomic with its operation, type and operands. -/
inductive PeerReq where
  | read | write
  | atomic (mod : BitVec 4) (ty : Ty) (b c : W64)
deriving DecidableEq, Repr

/-- A replay at a link (R239): the sequence number from which this end's sender is asked to resend, or none where the other end answers what this
end's receiver has asked. -/
structure ReplayReq where
  link : Nat
  number : Option (BitVec 12)
deriving DecidableEq, Repr

/-- Every row of spec/opcode_table.json. The instructions carry the fields of their word; the two-byte forms carry
D and B; the four-byte forms their SEL7 fields; a device step carries the unit it happens in, and what the
outside or the implementation supplies. -/
inductive Instr where
  /-- R300. Does nothing except the SIG update of R122. -/
  | nop (f : Fields)
  /-- R297. Unconditional PC-relative branch under the scalar guard. -/
  | bra (f : Fields)
  /-- R297. Branch taken when any lane enabled in EM has the predicate or FL set bit set. -/
  | brc (f : Fields)
  /-- R298. Divergent branch that may split the sub-group into nodes 2n and 2n+1. -/
  | brd (f : Fields)
  /-- R298. Stands at a fuse point and merges with the sibling after the fuse check. -/
  | fuse (f : Fields)
  /-- R297. Indirect jump to a code address in the same 2^64-byte span. -/
  | jmpi (f : Fields)
  /-- R297. Writes the return address to a link register and branches. -/
  | call (f : Fields)
  /-- R297. Jumps to the address held in the link register. -/
  | ret (f : Fields)
  /-- R299. Commits an open region and makes the sub-group EXITED. -/
  | exit (f : Fields)
  /-- R300. Restarts the sub-group's issue wait so that other sub-groups are preferred. -/
  | yield (f : Fields)
  /-- R301. Puts the sub-group in SLEEPING for n core clk. -/
  | sleepClk (f : Fields)
  /-- R302. Sets EM to a value masked by LIVE. -/
  | movem (f : Fields)
  /-- R305. Raises cause TRAP with bit 63 of the value set. -/
  | brk (f : Fields)
  /-- R303. Opens a region with protected counts P and Q, committing any open region first. -/
  | region (f : Fields)
  /-- R303. Performs Commit() and closes the open region. -/
  | commit (f : Fields)
  /-- R304. Compares SIG with the immediate, resets SIG, and on mismatch rolls back or raises CHECK_MISMATCH. -/
  | sigchk (f : Fields)
  /-- R304. Sets SIG to 0. -/
  | sigrst (f : Fields)
  /-- R305. Raises cause TRAP with an immediate code. -/
  | trap (f : Fields)
  /-- R306. Ends the handler, restores SIG and resumes at s(S-3). -/
  | eret (f : Fields)
  /-- R308. Reads a special register into a scalar or vector destination. -/
  | rdspec (f : Fields)
  /-- R311. Writes REENTRY, the only writable special register. -/
  | wrspec (f : Fields)
  /-- R312. Moves one lane of a vector register into a scalar register. -/
  | laneget (f : Fields)
  /-- R312. Writes one lane of a vector register from a scalar. -/
  | laneset (f : Fields)
  /-- R313. Sets FPM and optionally returns its old value. -/
  | fmode (f : Fields)
  /-- R314. Clears the selected sticky flag sets in active lanes after earlier flags are written back. -/
  | flclr (f : Fields)
  /-- R324. Copies a source into a vector or scalar register. -/
  | mov (f : Fields)
  /-- R76. Pops the oldest completion record of an engine queue into a scalar register. -/
  | movFromQueue (f : Fields)
  /-- R324. Writes an immediate, extended by type. -/
  | movi (f : Fields)
  /-- R320. Integer add modulo 2^n. -/
  | add (f : Fields)
  /-- R320. Integer subtract modulo 2^n. -/
  | sub (f : Fields)
  /-- R320. Add with carry in and carry out through a predicate. -/
  | addc (f : Fields)
  /-- R320. Low half of an integer product. -/
  | mul (f : Fields)
  /-- R320. High half of an integer product. -/
  | mulh (f : Fields)
  /-- R320. Integer multiply-add modulo 2^n. -/
  | mad (f : Fields)
  /-- R320. Integer negate. -/
  | neg (f : Fields)
  /-- R320. Integer absolute value. -/
  | abs (f : Fields)
  /-- R320. Integer minimum. -/
  | min (f : Fields)
  /-- R320. Integer maximum. -/
  | max (f : Fields)
  /-- R322. Bitwise AND. -/
  | and (f : Fields)
  /-- R322. Bitwise OR. -/
  | or (f : Fields)
  /-- R322. Bitwise exclusive OR. -/
  | xor (f : Fields)
  /-- R322. Bitwise complement. -/
  | not (f : Fields)
  /-- R322. a AND NOT b. -/
  | andn (f : Fields)
  /-- R322. Logical shift left. -/
  | shl (f : Fields)
  /-- R322. Logical shift right. -/
  | shr (f : Fields)
  /-- R322. Arithmetic shift right. -/
  | sar (f : Fields)
  /-- R322. Rotate left. -/
  | rot (f : Fields)
  /-- R323. Counts leading zero bits. -/
  | clz (f : Fields)
  /-- R323. Counts one bits. -/
  | popc (f : Fields)
  /-- R323. Reverses bit order. -/
  | brev (f : Fields)
  /-- R323. Extracts a bit field. -/
  | bfe (f : Fields)
  /-- R323. Inserts a bit field into the destination. -/
  | bfi (f : Fields)
  /-- R324. Selects between two values by predicate. -/
  | sel (f : Fields)
  /-- R325. Integer compare into a predicate. -/
  | cmp (f : Fields)
  /-- R324. Computes a + (b << k). -/
  | lea (f : Fields)
  /-- R321. Long-latency integer division without traps. -/
  | div (f : Fields)
  /-- R321. Long-latency integer remainder. -/
  | rem (f : Fields)
  /-- R327. Floating add with one rounding under FPM. -/
  | fadd (f : Fields)
  /-- R327. Floating subtract. -/
  | fsub (f : Fields)
  /-- R327. Floating multiply. -/
  | fmul (f : Fields)
  /-- R327. Fused multiply-add with one rounding. -/
  | ffma (f : Fields)
  /-- R328. Floating minimum with NaN and signed-zero rules. -/
  | fmin (f : Fields)
  /-- R328. Floating maximum. -/
  | fmax (f : Fields)
  /-- R328. Clears the sign bit. -/
  | fabs (f : Fields)
  /-- R328. Inverts the sign bit. -/
  | fneg (f : Fields)
  /-- R329. Floating compare into a predicate. -/
  | fcmp (f : Fields)
  /-- R330. Writes a class mask of each element. -/
  | fclass (f : Fields)
  /-- R331. Rounds to an integral value in the same format. -/
  | frnd (f : Fields)
  /-- R332. Long-latency reciprocal. -/
  | frcp (f : Fields)
  /-- R332. Long-latency reciprocal square root. -/
  | frsq (f : Fields)
  /-- R332. Correctly rounded square root. -/
  | fsqrt (f : Fields)
  /-- R332. Long-latency 2^x. -/
  | fexp2 (f : Fields)
  /-- R332. Long-latency log2 x. -/
  | flog2 (f : Fields)
  /-- R332. Long-latency sine. -/
  | fsin (f : Fields)
  /-- R332. Long-latency cosine. -/
  | fcos (f : Fields)
  /-- R332. Long-latency hyperbolic tangent. -/
  | ftanh (f : Fields)
  /-- R327. Two-term dot product plus addend with one rounding. -/
  | fdot2 (f : Fields)
  /-- R334. Converts elements between types. -/
  | cvt (f : Fields)
  /-- R335. Narrows two registers into one. -/
  | pack (f : Fields)
  /-- R336. Widens one element or element pair of each lane. -/
  | unpack (f : Fields)
  /-- R337. Quantises 4W values into SX blocks with scales. -/
  | sxq (f : Fields)
  /-- R338. Dequantises SX blocks to F32 exactly. -/
  | sxd (f : Fields)
  /-- R339. Copies a register and sets its format tag. -/
  | tag (f : Fields)
  /-- R339. Reads a register's tag. -/
  | tagof (f : Fields)
  /-- R341. Moves values between lanes by up, down, xor or index. -/
  | shfl (f : Fields)
  /-- R342. Writes the mask of active lanes with the predicate set. -/
  | ballot (f : Fields)
  /-- R342. Writes any, all or uniform of the predicate over active lanes. -/
  | vote (f : Fields)
  /-- R343. Reduces active lanes in a fixed tree into a scalar. -/
  | lred (f : Fields)
  /-- R344. Running inclusive or exclusive combination across lanes. -/
  | scan (f : Fields)
  /-- R345. Marks the first lane of each distinct key. -/
  | matchKeys (f : Fields)
  /-- R341. Broadcasts one lane to all active lanes. -/
  | bcast (f : Fields)
  /-- R342. Writes the lowest active lane with the predicate set. -/
  | firstLane (f : Fields)
  /-- R346. Predicate AND. -/
  | pand (f : Fields)
  /-- R346. Predicate OR. -/
  | por (f : Fields)
  /-- R346. Predicate exclusive OR. -/
  | pxor (f : Fields)
  /-- R346. Predicate complement. -/
  | pnot (f : Fields)
  /-- R346. Copies a predicate, FL set, EM, scalar or immediate into a predicate. -/
  | pmov (f : Fields)
  /-- R346. Counts set bits of a predicate into a scalar. -/
  | pcnt (f : Fields)
  /-- R354. Loads from memory, optionally as an acquire. -/
  | ld (f : Fields)
  /-- R354. Stores to memory, held in a region or committing as a release. -/
  | st (f : Fields)
  /-- R356. Loads from the team scratchpad, optionally through a tile handle. -/
  | lds (f : Fields)
  /-- R356. Stores to the team scratchpad. -/
  | sts (f : Fields)
  /-- R357. Prefetches lines with no architectural effect. -/
  | pref (f : Fields)
  /-- R358. Starts writing dirty copies of a range toward their home at a scope. -/
  | clean (f : Fields)
  /-- R358. Starts dropping copies of a range without writing them. -/
  | inval (f : Fields)
  /-- R358. Starts writing then dropping copies of a range. -/
  | clinv (f : Fields)
  /-- R359. Full, acquire or release fence at a scope. -/
  | fence (f : Fields)
  /-- R135. Sends mayfly probes on the selected channels and waits for them. -/
  | fprobe (f : Fields)
  /-- R360. Atomic read-modify-write at the home slice. -/
  | atom (f : Fields)
  /-- R360. Reduction into memory at the home slice without a result. -/
  | mred (f : Fields)
  /-- R131. Reads and compares a value, parking on a monitor until it holds. -/
  | waitc (f : Fields)
  /-- R126. Arrives at a named barrier without waiting. -/
  | bara (f : Fields)
  /-- R126. Arrives at a named barrier and waits for the phase. -/
  | bars (f : Fields)
  /-- R128. Reads a barrier's PAR, ARRIVED and COUNT. -/
  | barq (f : Fields)
  /-- R368. Allocates a tile entry from FREE to EMPTY. -/
  | talloc (f : Fields)
  /-- R369. Returns a tile to FREE after commands on it finish. -/
  | tfree (f : Fields)
  /-- R369. Reads a tile entry. -/
  | tstat (f : Fields)
  /-- R368. Rewrites an EMPTY tile entry, optionally marking it READY. -/
  | tset (f : Fields)
  /-- R371. Queues a copy-engine fill of a tile from memory. -/
  | cpyIn (f : Fields)
  /-- R371. Commits and queues a copy-engine write of a tile to memory. -/
  | cpyOut (f : Fields)
  /-- R372. Commits and queues a memory-to-memory copy. -/
  | cpyMm (f : Fields)
  /-- R374. Queues a matrix multiply-accumulate into an accumulator tile, optionally checked. -/
  | mma (f : Fields)
  /-- R377. Queues clearing of an accumulator tile to +0. -/
  | mzero (f : Fields)
  /-- R377. Queues loading of an accumulator rectangle from memory or a tile. -/
  | mload (f : Fields)
  /-- R377. Queues writing of an accumulator rectangle to memory or a tile. -/
  | mdrain (f : Fields)
  /-- R377. Queues an indivisible add-on-store of an accumulator rectangle. -/
  | mdrainAdd (f : Fields)
  /-- R378. Commits and queues Cicada encoding of a tile into a stash region. -/
  | stash (f : Fields)
  /-- R378. Queues reconstruction of a stash region into a tile. -/
  | restore (f : Fields)
  /-- R380. Sends a granule change to an array's sequencer. -/
  | xcfg (f : Fields)
  /-- R380. Sends a scratch pool setting for one axis. -/
  | xpool (f : Fields)
  /-- R380. Sends a ration window setting. -/
  | xration (f : Fields)
  /-- R381. Commits and starts a memory or ROM schedule on an array. -/
  | xrun (f : Fields)
  /-- R381. Commits and runs a single gate word as a schedule. -/
  | xgate (f : Fields)
  /-- R382. Reads array configuration, state, map or wear. -/
  | xstat (f : Fields)
  /-- R383. Translates ARG0, commits and posts a continuation record. -/
  | post (f : Fields)
  | mov2B (d b : Fin 32)
  | not2B (d b : Fin 32)
  | and2B (d b : Fin 32)
  | or2B (d b : Fin 32)
  | xor2B (d b : Fin 32)
  | andn2B (d b : Fin 32)
  | shl2B (d b : Fin 32)
  | shr2B (d b : Fin 32)
  | addI322B (d b : Fin 32)
  | addN322B (d b : Fin 32)
  | subI322B (d b : Fin 32)
  | subN322B (d b : Fin 32)
  | mulI322B (d b : Fin 32)
  | mulN322B (d b : Fin 32)
  | minI322B (d b : Fin 32)
  | maxI322B (d b : Fin 32)
  | minN322B (d b : Fin 32)
  | maxN322B (d b : Fin 32)
  | sarI322B (d b : Fin 32)
  | negI322B (d b : Fin 32)
  | addI162B (d b : Fin 32)
  | addI82B (d b : Fin 32)
  | absI322B (d b : Fin 32)
  | fnegF322B (d b : Fin 32)
  | faddF322B (d b : Fin 32)
  | fsubF322B (d b : Fin 32)
  | fmulF322B (d b : Fin 32)
  | fminF322B (d b : Fin 32)
  | fmaxF322B (d b : Fin 32)
  | faddBf162B (d b : Fin 32)
  | fmulBf162B (d b : Fin 32)
  | fabsF322B (d b : Fin 32)
  | mov4B (r : Four)
  | movi4B (r : Four)
  | and4B (r : Four)
  | or4B (r : Four)
  | xor4B (r : Four)
  | andn4B (r : Four)
  | shl4B (r : Four)
  | shr4B (r : Four)
  | addI324B (r : Four)
  | addN324B (r : Four)
  | addI644B (r : Four)
  | addN644B (r : Four)
  | subI324B (r : Four)
  | subN324B (r : Four)
  | subI644B (r : Four)
  | subN644B (r : Four)
  | mulI324B (r : Four)
  | mulN324B (r : Four)
  | mulN644B (r : Four)
  | mulhN324B (r : Four)
  | minI324B (r : Four)
  | maxI324B (r : Four)
  | minN324B (r : Four)
  | maxN324B (r : Four)
  | sarI324B (r : Four)
  | sarI644B (r : Four)
  | rot4B (r : Four)
  | not4B (r : Four)
  | popc4B (r : Four)
  | clz4B (r : Four)
  | negI324B (r : Four)
  | divN324B (r : Four)
  | cmpEqI324B (r : Four)
  | cmpNeI324B (r : Four)
  | cmpLtI324B (r : Four)
  | cmpGeI324B (r : Four)
  | cmpEqN324B (r : Four)
  | cmpNeN324B (r : Four)
  | cmpLtN324B (r : Four)
  | cmpGeN324B (r : Four)
  | cmpEqI644B (r : Four)
  | cmpNeI644B (r : Four)
  | cmpLtI644B (r : Four)
  | cmpGtI644B (r : Four)
  | cmpLtN644B (r : Four)
  | cmpGeN644B (r : Four)
  | fcmpLtF324B (r : Four)
  | fcmpGeF324B (r : Four)
  | faddF324B (r : Four)
  | fsubF324B (r : Four)
  | fmulF324B (r : Four)
  | fminF324B (r : Four)
  | fmaxF324B (r : Four)
  | faddBf164B (r : Four)
  | fmulBf164B (r : Four)
  | frcpF324B (r : Four)
  | shflUp4B (r : Four)
  | shflDn4B (r : Four)
  | shflXor4B (r : Four)
  | shflIdx4B (r : Four)
  | ballot4B (r : Four)
  | voteAny4B (r : Four)
  | voteAll4B (r : Four)
  | lredAddF324B (r : Four)
  /-- R277. An ILLEGAL word reaching issue raises ILLEGAL from the S slot whatever its guard. -/
  | illegalWordIssue (len : Nat)
  /-- R289. A FETCH_FAULT word at issue is refetched and raises its fetch fault if it faults again. -/
  | fetchFaultIssue (len : Nat)
  /-- R289. The I-cache fill expands an instruction into its internal word, marking ILLEGAL or FETCH_FAULT. -/
  | icacheFill (core ctx : Nat) (pc : VAddr)
  /-- R100. A long-latency producer writes its destination and marks it full. -/
  | longLatencyWriteback (gid id : Nat)
  /-- R113. Commit() releases held stores and frees region state once the region's producers and fills complete. -/
  | commitProceed (gid node : Nat)
  /-- R183. A committed store leaves the group's store queue and is written into L1 or performed at its home. -/
  | storeQueueRetire (gid : Nat)
  /-- R108. A matched waiter becomes RUNNABLE with the satisfying value. -/
  | monitorWake (gid node : Nat)
  /-- R132. An unarmed monitor wait re-reads its location every 4,096 clk. -/
  | monitorRecheck (gid node : Nat)
  /-- R127. An arrival is counted once the arriver's committed stores and popped effects have landed. -/
  | barrierArrive (gid node : Nat)
  /-- R135. All destinations have acknowledged a mayfly probe and the sets are cleared. -/
  | probeComplete (gid node : Nat)
  /-- R301. The sleep period ends and the sub-group becomes RUNNABLE. -/
  | sleepExpire (gid node : Nat)
  /-- R165. A clean, inval or clinv completes once every reached copy is written or dropped. -/
  | rangeOpComplete (gid id : Nat)
  /-- R191. An access refused by a pinned line is re-sent every 256 clk. -/
  | retryResend (gid id : Nat)
  /-- R145. A walker finishes a translation and delivers it to every merged requester. -/
  | pageWalkComplete (die idx : Nat)
  /-- R161. A slice evicts or writes back a line, recalling L1 and guest copies. -/
  | l2Eviction (line : Nat) (guest : Option Nat) (drop : Bool) (code : BitVec 2) (bad : Bool)
  /-- R374. The matrix engine starts a queued command, taking shadows as needed. -/
  | matrixCmdStart (gid : Nat)
  /-- R201. A home slice grants a hold on a line for an mdrain.add. -/
  | mdrainHoldGrant (gid : Nat)
  /-- R374. The matrix engine finishes a command and delivers its record. -/
  | matrixCmdComplete (gid : Nat)
  /-- R371. The copy engine starts a fill, drain or copy, moving the tile to FILLING or DRAINING. -/
  | copyCmdStart (gid : Nat)
  /-- R371. The copy engine finishes, sets checksums and READY, and delivers the record. -/
  | copyCmdComplete (gid : Nat)
  /-- R378. A stash or restore starts on the copy engine. -/
  | cicadaCmdStart (gid : Nat)
  /-- R378. A stash or restore finishes its blocks and delivers its record. -/
  | cicadaCmdComplete (gid : Nat)
  /-- R74. A posted continuation record is stored at its home die when room exists. -/
  | taskRecordStore (gid : Nat)
  /-- R80. The hub reads a stored record's launch record and starts it as a one-group team. -/
  | continuationStart (die core : Nat)
  /-- R213. A waiting schedule gets a sequencer slot, is fetched, checked and start-checked. -/
  | scheduleStart (arr : Nat)
  /-- R209. One gate of a running schedule is applied to its lanes. -/
  | gateStep (arr : Nat)
  /-- R213. A paused schedule resumes when ALLOW_LEVEL falls to 0. -/
  | scheduleResume (arr : Nat)
  /-- R213. A schedule ends, makes its end update, applies held writes and delivers its record. -/
  | scheduleEnd (arr : Nat)
  /-- R216. A read waiting on a running or paused array is admitted at a gate boundary. -/
  | arrayReadAdmit (arr idx : Nat)
  /-- R206. A configuration command takes effect at the sequencer after any running schedule. -/
  | arrayConfigApply (arr : Nat)
  /-- R85. The distributor places a team on a core with room and allocates its resources. -/
  | teamPlace (kernel core : Nat)
  /-- R86. A placed team's stagger delay ends and its groups may issue. -/
  | teamStartDelayExpire (team : Nat)
  /-- R56. The distributor begins evicting a team, rolling back its groups and cancelling region work. -/
  | teamEvict (team : Nat)
  /-- R56. After the probe, the team image is written with its CRC and resources are released. -/
  | teamImageWritten (team : Nat)
  /-- R82. After the last team exits and all commands complete, a probe is sent to every core that ran a team. -/
  | kernelRetiring (kernel : Nat)
  /-- R83. The probe returns, the DONE write is made and the kernel-table entry freed. -/
  | kernelRetire (kernel : Nat)
  /-- R66. The host writes the context command queue producer index. -/
  | commandDoorbell (pi : BitVec 32)
  /-- R44. Creates a context from a descriptor at the lowest free identifier. -/
  | cmdCreate
  /-- R45. Moves a LOADED context to RUNNING. -/
  | cmdStart
  /-- R45. Evicts every resident team of a RUNNING context. -/
  | cmdSave
  /-- R45. RESTORE command: reads and checks every team image of a SAVED context. -/
  | ctxRestore
  /-- R45. Raises the context's halt line. -/
  | cmdHalt
  /-- R45. Destroys a context and starts its teardown. -/
  | cmdDestroy
  /-- R68. Attaches a work queue to a context. -/
  | cmdBind
  /-- R68. Detaches a work queue after its current entry. -/
  | cmdUnbind
  /-- R149. Declares the device fault queue and restarts SEQ. -/
  | cmdFaultq
  /-- R148. Frees fault-queue slots and enters kept faults. -/
  | cmdFqConsume
  /-- R150. Ends parking on a page, waking or failing parked sub-groups. -/
  | cmdResolve
  /-- R151. Removes translations, rolls back affected regions and probes. -/
  | cmdShootdown
  /-- R259. Sets the clock ratio r of masked partitions. -/
  | cmdRatio
  /-- R259. Replaces one phase-table entry. -/
  | cmdPhase
  /-- R261. Sets drain protection, preservation count and list. -/
  | cmdDrain
  /-- R262. Selects an event counter's source and clears it. -/
  | cmdCntCfg
  /-- R262. Writes every counter of a class to a buffer. -/
  | cmdCntDump
  /-- R263. SCAN command: tests one core or reports BUSY. -/
  | infieldScan
  /-- R263. An in-field scan test finishes, aborts or fails and completes its command. -/
  | scanTestComplete (result : BitVec 16)
  /-- R264. Samples the hub reference count and every core's CYCLE. -/
  | cmdClksample
  /-- R259. Sets the upper bound on every die's frequency step. -/
  | cmdFreqCap
  /-- R67. A command with a reserved opcode completes with BAD_STATE. -/
  | reservedCommand
  /-- R47. The hub asserts a context's halt line and starts the stop sequence. -/
  | haltLineAssert (ctx : Nat)
  /-- R45. All units stopped; stop records and summary written, context STOPPED or FAILED. -/
  | contextStopComplete (ctx : Nat)
  /-- R59. All images of a RESTORE have been read; the context runs or fails. -/
  | restoreImagesChecked (ctx : Nat)
  /-- R45. A DESTROYED context's teardown completes and it becomes FREE. -/
  | contextTeardownComplete (ctx : Nat)
  /-- R65. A die's logical core map is rebuilt when no group is resident on it. -/
  | coreMapRebuild (die : Nat)
  /-- R69. The host writes a work queue's producer index, possibly overrunning into ERROR. -/
  | workQueueDoorbell (q : Nat) (pi : BitVec 32)
  /-- R79. The work-queue engine consumes a LAUNCH entry and copies its launch record. -/
  | wqLaunch (q : Nat)
  /-- R72. A WAIT_VALUE entry arms a monitor and stops the queue until its condition holds. -/
  | wqWaitValue (q : Nat)
  /-- R72. A WAIT_VALUE condition holds and the entry is consumed. -/
  | waitValueSatisfied (q : Nat)
  /-- R72. A WAIT_VALUE on host memory re-reads every 4,096 clk. -/
  | waitValueRecheck (q : Nat)
  /-- R72. A SIGNAL entry is translated and consumed. -/
  | wqSignal (q : Nat)
  /-- R72. A pending SIGNAL writes or adds after its earlier launches retire. -/
  | signalExecute (q : Nat)
  /-- R71. A FENCE entry is consumed once earlier launches have retired. -/
  | wqFence (q : Nat)
  /-- R255. Each clk the allowance counter gains F and loses issue and engine charges. -/
  | allowanceTick (core : Nat)
  /-- R254. After each 20 µs window the controller trims the refill rate. -/
  | measurementWindow (pkg rails dramW other : BitVec 16)
  /-- R254. At 200 µs and every 100 µs while over the set point, die steps are lowered. -/
  | freqStepAdjust
  /-- R254. Each ms below 90% of the set point, each die rises one step. -/
  | freqStepRaise
  /-- R258. BOOST_LEFT is charged or refilled per µs by the die step. -/
  | boostTick (die : Nat)
  /-- R260. A die's temperature band changes, capping or lowering its step. -/
  | tempBandChange (die : Nat) (band : BitVec 3)
  /-- R252. A POWER_STEP write with STATE RUN sets the package set point. -/
  | powerStepSet (value : W64)
  /-- R253. A POWER_STEP write with STATE HOLD holds every core at level 6 and every die at step 0. -/
  | powerHold (value : W64)
  /-- R61. Supply failure halts contexts and drains state into the arrays. -/
  | pwrfail
  /-- R250. The device boots, verifies firmware, trains links, recreates contexts and reports READY. -/
  | powerUp
  /-- R249. Software rings the attestation doorbell with a nonce. -/
  | attestationDoorbell (nonce : List Byte)
  /-- R249. The signed attestation report is written and the doorbell clears. -/
  | attestationReportComplete
  /-- R240. A RETRAIN command through the link capability retrains a link. -/
  | retrain (link : Nat)
  /-- R238. A receiver takes a link flit, rebuilding a beat or asking for replay. -/
  | linkFlitReceive (link : Nat) (beats : List (Option (BitVec 144)))
  /-- R239. A sender resends from the bad flit, failing the link after 8 replays. -/
  | replayRequest (req : ReplayReq)
  /-- R240. A rail loses lock or fails beat checks, degrading or failing the link. -/
  | railLockLoss (link rail : Nat)
  /-- R240. Training ends with the link UP or DEGRADED. -/
  | linkTrainComplete (link : Nat) (rails : BitVec 5)
  /-- R240. Training without enough locked rails for 100 ms leaves the link FAILED. -/
  | linkTrainTimeout (link : Nat) (rails : BitVec 5)
  /-- R242. A peer request is admitted through an inbound window or refused. -/
  | peerInboundRequest (port : Nat) (req : PeerReq) (addr : Nat) (data : List Byte)
  /-- R195. A host CXL.mem read or write is performed at the home slice. -/
  | hostMemAccess (write : Bool) (addr : Nat) (data : List Byte)
  /-- R245. A write to a capability register that has no row of its own. -/
  | registerWrite (cap : Nat) (offset : Nat) (value : W64)
  /-- R194. The host, through CXL.cache, snoops or invalidates a host line that a home slice holds for a HOST page with CACHE 0 or 1. -/
  | cxlCacheSnoop (line : Nat) (invalidate : Bool)
  /-- R252. With RAMP nonzero, the set point in force rises toward SET_W at RAMP W per ms. -/
  | setPointRamp
  /-- R254. A die's frequency step change finishes within 20 µs, and F is then recomputed for that die's cores. -/
  | stepChangeComplete (die : Nat)
deriving DecidableEq, Repr

/-- The instruction that an operation and its fields make. -/
def Op.instr : Op → Fields → Instr
  | .nop, f => .nop f
  | .bra, f => .bra f
  | .brc, f => .brc f
  | .brd, f => .brd f
  | .fuse, f => .fuse f
  | .jmpi, f => .jmpi f
  | .call, f => .call f
  | .ret, f => .ret f
  | .exit, f => .exit f
  | .yield, f => .yield f
  | .sleepClk, f => .sleepClk f
  | .movem, f => .movem f
  | .brk, f => .brk f
  | .region, f => .region f
  | .commit, f => .commit f
  | .sigchk, f => .sigchk f
  | .sigrst, f => .sigrst f
  | .trap, f => .trap f
  | .eret, f => .eret f
  | .rdspec, f => .rdspec f
  | .wrspec, f => .wrspec f
  | .laneget, f => .laneget f
  | .laneset, f => .laneset f
  | .fmode, f => .fmode f
  | .flclr, f => .flclr f
  | .mov, f => .mov f
  | .movFromQueue, f => .movFromQueue f
  | .movi, f => .movi f
  | .add, f => .add f
  | .sub, f => .sub f
  | .addc, f => .addc f
  | .mul, f => .mul f
  | .mulh, f => .mulh f
  | .mad, f => .mad f
  | .neg, f => .neg f
  | .abs, f => .abs f
  | .min, f => .min f
  | .max, f => .max f
  | .and, f => .and f
  | .or, f => .or f
  | .xor, f => .xor f
  | .not, f => .not f
  | .andn, f => .andn f
  | .shl, f => .shl f
  | .shr, f => .shr f
  | .sar, f => .sar f
  | .rot, f => .rot f
  | .clz, f => .clz f
  | .popc, f => .popc f
  | .brev, f => .brev f
  | .bfe, f => .bfe f
  | .bfi, f => .bfi f
  | .sel, f => .sel f
  | .cmp, f => .cmp f
  | .lea, f => .lea f
  | .div, f => .div f
  | .rem, f => .rem f
  | .fadd, f => .fadd f
  | .fsub, f => .fsub f
  | .fmul, f => .fmul f
  | .ffma, f => .ffma f
  | .fmin, f => .fmin f
  | .fmax, f => .fmax f
  | .fabs, f => .fabs f
  | .fneg, f => .fneg f
  | .fcmp, f => .fcmp f
  | .fclass, f => .fclass f
  | .frnd, f => .frnd f
  | .frcp, f => .frcp f
  | .frsq, f => .frsq f
  | .fsqrt, f => .fsqrt f
  | .fexp2, f => .fexp2 f
  | .flog2, f => .flog2 f
  | .fsin, f => .fsin f
  | .fcos, f => .fcos f
  | .ftanh, f => .ftanh f
  | .fdot2, f => .fdot2 f
  | .cvt, f => .cvt f
  | .pack, f => .pack f
  | .unpack, f => .unpack f
  | .sxq, f => .sxq f
  | .sxd, f => .sxd f
  | .tag, f => .tag f
  | .tagof, f => .tagof f
  | .shfl, f => .shfl f
  | .ballot, f => .ballot f
  | .vote, f => .vote f
  | .lred, f => .lred f
  | .scan, f => .scan f
  | .matchKeys, f => .matchKeys f
  | .bcast, f => .bcast f
  | .firstLane, f => .firstLane f
  | .pand, f => .pand f
  | .por, f => .por f
  | .pxor, f => .pxor f
  | .pnot, f => .pnot f
  | .pmov, f => .pmov f
  | .pcnt, f => .pcnt f
  | .ld, f => .ld f
  | .st, f => .st f
  | .lds, f => .lds f
  | .sts, f => .sts f
  | .pref, f => .pref f
  | .clean, f => .clean f
  | .inval, f => .inval f
  | .clinv, f => .clinv f
  | .fence, f => .fence f
  | .fprobe, f => .fprobe f
  | .atom, f => .atom f
  | .mred, f => .mred f
  | .waitc, f => .waitc f
  | .bara, f => .bara f
  | .bars, f => .bars f
  | .barq, f => .barq f
  | .talloc, f => .talloc f
  | .tfree, f => .tfree f
  | .tstat, f => .tstat f
  | .tset, f => .tset f
  | .cpyIn, f => .cpyIn f
  | .cpyOut, f => .cpyOut f
  | .cpyMm, f => .cpyMm f
  | .mma, f => .mma f
  | .mzero, f => .mzero f
  | .mload, f => .mload f
  | .mdrain, f => .mdrain f
  | .mdrainAdd, f => .mdrainAdd f
  | .stash, f => .stash f
  | .restore, f => .restore f
  | .xcfg, f => .xcfg f
  | .xpool, f => .xpool f
  | .xration, f => .xration f
  | .xrun, f => .xrun f
  | .xgate, f => .xgate f
  | .xstat, f => .xstat f
  | .post, f => .post f

/-- The operation and fields of an instruction that is not a short form and not a device step. -/
def Instr.word? : Instr → Option (Op × Fields)
  | .nop f => some (.nop, f)
  | .bra f => some (.bra, f)
  | .brc f => some (.brc, f)
  | .brd f => some (.brd, f)
  | .fuse f => some (.fuse, f)
  | .jmpi f => some (.jmpi, f)
  | .call f => some (.call, f)
  | .ret f => some (.ret, f)
  | .exit f => some (.exit, f)
  | .yield f => some (.yield, f)
  | .sleepClk f => some (.sleepClk, f)
  | .movem f => some (.movem, f)
  | .brk f => some (.brk, f)
  | .region f => some (.region, f)
  | .commit f => some (.commit, f)
  | .sigchk f => some (.sigchk, f)
  | .sigrst f => some (.sigrst, f)
  | .trap f => some (.trap, f)
  | .eret f => some (.eret, f)
  | .rdspec f => some (.rdspec, f)
  | .wrspec f => some (.wrspec, f)
  | .laneget f => some (.laneget, f)
  | .laneset f => some (.laneset, f)
  | .fmode f => some (.fmode, f)
  | .flclr f => some (.flclr, f)
  | .mov f => some (.mov, f)
  | .movFromQueue f => some (.movFromQueue, f)
  | .movi f => some (.movi, f)
  | .add f => some (.add, f)
  | .sub f => some (.sub, f)
  | .addc f => some (.addc, f)
  | .mul f => some (.mul, f)
  | .mulh f => some (.mulh, f)
  | .mad f => some (.mad, f)
  | .neg f => some (.neg, f)
  | .abs f => some (.abs, f)
  | .min f => some (.min, f)
  | .max f => some (.max, f)
  | .and f => some (.and, f)
  | .or f => some (.or, f)
  | .xor f => some (.xor, f)
  | .not f => some (.not, f)
  | .andn f => some (.andn, f)
  | .shl f => some (.shl, f)
  | .shr f => some (.shr, f)
  | .sar f => some (.sar, f)
  | .rot f => some (.rot, f)
  | .clz f => some (.clz, f)
  | .popc f => some (.popc, f)
  | .brev f => some (.brev, f)
  | .bfe f => some (.bfe, f)
  | .bfi f => some (.bfi, f)
  | .sel f => some (.sel, f)
  | .cmp f => some (.cmp, f)
  | .lea f => some (.lea, f)
  | .div f => some (.div, f)
  | .rem f => some (.rem, f)
  | .fadd f => some (.fadd, f)
  | .fsub f => some (.fsub, f)
  | .fmul f => some (.fmul, f)
  | .ffma f => some (.ffma, f)
  | .fmin f => some (.fmin, f)
  | .fmax f => some (.fmax, f)
  | .fabs f => some (.fabs, f)
  | .fneg f => some (.fneg, f)
  | .fcmp f => some (.fcmp, f)
  | .fclass f => some (.fclass, f)
  | .frnd f => some (.frnd, f)
  | .frcp f => some (.frcp, f)
  | .frsq f => some (.frsq, f)
  | .fsqrt f => some (.fsqrt, f)
  | .fexp2 f => some (.fexp2, f)
  | .flog2 f => some (.flog2, f)
  | .fsin f => some (.fsin, f)
  | .fcos f => some (.fcos, f)
  | .ftanh f => some (.ftanh, f)
  | .fdot2 f => some (.fdot2, f)
  | .cvt f => some (.cvt, f)
  | .pack f => some (.pack, f)
  | .unpack f => some (.unpack, f)
  | .sxq f => some (.sxq, f)
  | .sxd f => some (.sxd, f)
  | .tag f => some (.tag, f)
  | .tagof f => some (.tagof, f)
  | .shfl f => some (.shfl, f)
  | .ballot f => some (.ballot, f)
  | .vote f => some (.vote, f)
  | .lred f => some (.lred, f)
  | .scan f => some (.scan, f)
  | .matchKeys f => some (.matchKeys, f)
  | .bcast f => some (.bcast, f)
  | .firstLane f => some (.firstLane, f)
  | .pand f => some (.pand, f)
  | .por f => some (.por, f)
  | .pxor f => some (.pxor, f)
  | .pnot f => some (.pnot, f)
  | .pmov f => some (.pmov, f)
  | .pcnt f => some (.pcnt, f)
  | .ld f => some (.ld, f)
  | .st f => some (.st, f)
  | .lds f => some (.lds, f)
  | .sts f => some (.sts, f)
  | .pref f => some (.pref, f)
  | .clean f => some (.clean, f)
  | .inval f => some (.inval, f)
  | .clinv f => some (.clinv, f)
  | .fence f => some (.fence, f)
  | .fprobe f => some (.fprobe, f)
  | .atom f => some (.atom, f)
  | .mred f => some (.mred, f)
  | .waitc f => some (.waitc, f)
  | .bara f => some (.bara, f)
  | .bars f => some (.bars, f)
  | .barq f => some (.barq, f)
  | .talloc f => some (.talloc, f)
  | .tfree f => some (.tfree, f)
  | .tstat f => some (.tstat, f)
  | .tset f => some (.tset, f)
  | .cpyIn f => some (.cpyIn, f)
  | .cpyOut f => some (.cpyOut, f)
  | .cpyMm f => some (.cpyMm, f)
  | .mma f => some (.mma, f)
  | .mzero f => some (.mzero, f)
  | .mload f => some (.mload, f)
  | .mdrain f => some (.mdrain, f)
  | .mdrainAdd f => some (.mdrainAdd, f)
  | .stash f => some (.stash, f)
  | .restore f => some (.restore, f)
  | .xcfg f => some (.xcfg, f)
  | .xpool f => some (.xpool, f)
  | .xration f => some (.xration, f)
  | .xrun f => some (.xrun, f)
  | .xgate f => some (.xgate, f)
  | .xstat f => some (.xstat, f)
  | .post f => some (.post, f)
  | _ => none

end Sys2Proof
end

