-- ==== Sys2Proof/Machine/State.lean ====
section
/-! DEFINITION. The machine's whole state as plain data, the reasons a step can stop, and the state after reset. Every field
names the rule of spec/ that gives it; MODEL marks a field of the model's own (log entries 1 and 2). Maps are lists of
key and value in rising order of keys. -/

namespace Sys2Proof.Machine

/-- A finite map with natural-number keys, in rising order of keys. -/
abbrev Map (α : Type) := List (Nat × α)

/-- A byte memory: cells in rising order of addresses, none holding 0, which an unlisted address reads as (log 3). -/
abbrev Memory := List Host.Cell

/-! ### Stops -/

/-- Why the machine stops with a fault. -/
inductive Fault where
  /-- A page-table leaf, or an address the hub was given, names device DRAM at or above 768 GiB, which no die holds
  (R1). Raised by the walker, by instruction fetch and by the hub; safe. -/
  | noSuchAddress
deriving DecidableEq, Repr

/-- Why an instruction is refused. -/
inductive Refusal where
  /-- The instruction has no meaning in this model yet. Raised by `exec`'s own arms; safe. -/
  | notModelled (mnemonic : String)
deriving DecidableEq, Repr

/-! ### Addresses and accesses -/

/-- Where a physical address lies: device DRAM (kinds NORMAL, COMP, STASH), an array window, host memory, or a peer
device behind a port (R142). -/
inductive Space where
  | dram | array | host | peer (port : Nat)
deriving DecidableEq, Repr

/-- The page kinds of R140. -/
inductive Kind where
  | normal | comp | stash | scarab | host | peer
deriving DecidableEq, Repr

/-- A translation as a TLB holds it (R144): context, virtual page number in units of 64 KiB, pages covered (1 or 8192), leaf
fields, and for a G entry the further contexts whose walk produced the same leaf. -/
structure Trans where
  ctx : Nat
  also : List Nat
  vpn : Nat
  span : Nat
  pa : Nat
  kind : Kind
  cache : Nat
  port : Nat
  r : Bool
  w : Bool
  x : Bool
  g : Bool
deriving DecidableEq, Repr

/-- How a walk of the page table ends (R139 to R145): a leaf, an entry with V = 0 at a level, a malformed entry, an uncorrectable table entry, or
an address that no die holds. -/
inductive WalkEnd where
  | leaf (t : Trans)
  | absent (level : Nat)
  | malformed
  | poisoned
  | beyond
deriving DecidableEq, Repr

/-- What a walk has delivered to the instruction at a PC, for a virtual page (R145). -/
structure Walked where
  pc : VAddr
  vpn : Nat
  found : WalkEnd
deriving DecidableEq, Repr

/-- One byte's physical place with its page's CACHE field and whether its page is COMP (R156, R160). -/
structure Loc where
  space : Space
  addr : Nat
  cache : Nat
  comp : Bool
deriving DecidableEq, Repr

/-- One access of an instruction, or one byte of an access that is not single-copy atomic: its lane, its offset in the
lane, the address and the place of each of its bytes (R349, R351). -/
structure Acc where
  lane : Nat
  off : Nat
  va : VAddr
  locs : List Loc
deriving DecidableEq, Repr

/-- The access codes of a fault entry (R147). -/
inductive Access where
  | read | write | fetch | engineRead | engineWrite | atomic
deriving DecidableEq, Repr

/-! ### The group (R90, R100, R111, R115) -/

/-- A vector register: 64 lanes, tag and full bit (R9, R32, R100). -/
structure VReg where
  lanes : List W32
  tag : BitVec 4
  full : Bool
deriving DecidableEq, Repr

/-- A scalar register and its full bit (R9, R100). -/
structure SReg where
  val : W64
  full : Bool
deriving DecidableEq, Repr

/-- What a sub-group that traps into its handler keeps (R53 to R55, R306): SIG at entry and the trapped PC. -/
structure Handler where
  sigAtEntry : W32
  trapPc : VAddr
deriving DecidableEq, Repr

/-- The states of a sub-group (R91), with the waits of `bars` (R126), of Commit() (R113), of `fprobe` (R135), and the stop
at a halt (R48). AT_FUSE, MONITOR, the arrivals and the probe carry the length of their instruction, SLEEPING the clk
until the last at which it ends, 256 behind the first (R301). -/
inductive SubState where
  | runnable
  | atFuse (len : Nat)
  | monitor (producer : Nat) (armed : Bool) (len : Nat) (cmp : BitVec 4)
  | parked (addr : VAddr) (straddle : Bool)
  | sleeping (left : Nat)
  | exited
  | arriving (bar count : Nat) (wait : Bool) (after : Nat)
  | waitBars (bar : Nat)
  | committing
  | probing (mask : BitVec 4) (after : Nat)
  | performing (producer : Nat) (after : Nat)
  | stopped
deriving DecidableEq, Repr

/-- A sub-group (R90): node number, PC, EM, LIVE, REGION_PC, state, its handler, the PC of the `bars` it waits after, the translations that
walks have delivered to the instruction in flight at its PC (R145), and whether its REGION_PC is the cut point at the `fuse` where it stands
(R109, R114). -/
structure Sub where
  node : Nat
  pc : VAddr
  em : Mask
  live : Mask
  regionPc : VAddr
  st : SubState
  handler : Option Handler
  barsPc : VAddr
  walked : List Walked
  cutAtFuse : Bool
deriving DecidableEq, Repr

/-- A recorded line of R116: of memory or of scratchpad. -/
inductive LineId where
  | mem (space : Space) (line : Nat)
  | scratch (line : Nat)
deriving DecidableEq, Repr

/-- The region state of a group (R111, R116, R117). `reopen` holds the node, P and Q while a committing instruction of
that sub-group runs between two regions (R118). -/
structure Region where
  isOpen : Bool
  p : Nat
  q : Nat
  reentry : BitVec 8
  fpmSnap : BitVec 3
  sigSnap : W32
  lines : List LineId
  tallocs : List Nat
  tfrees : List Nat
  reopen : Option (Nat × Nat × Nat)
deriving DecidableEq, Repr

/-- One atomic operation on one location (R360): operation, type, operands. -/
structure AtomOp where
  acc : Acc
  mod : BitVec 4
  ty : Ty
  b : W64
  c : W64
deriving DecidableEq, Repr

/-- A party of the memory model (R178): the groups of a core, whose L1 they share (R183), the hub, the host, the agents of a peer device, and a
command, by its group and place in group order. -/
inductive Party where
  | core (c : Nat) | hub | host | peer (port : Nat) | command (gid seq : Nat)
deriving DecidableEq, Repr

/-- A release as it waits to be performed: its scope, its group and team, and the superseded versions that its party had gone past at its
issue (R187). -/
structure Rel where
  scope : Scope
  gid : Nat
  team : Nat
  view : List Nat
deriving DecidableEq, Repr

/-- A release that has been performed, by its party, at the bytes that still hold what it wrote, or what atomics made of it (R188). -/
structure Release where
  space : Space
  addrs : List Nat
  party : Party
  rel : Rel
deriving DecidableEq, Repr

/-- What a store-queue entry does: write bytes, in units that are performed one at a time (R349), write scratchpad bytes,
or perform atomics (R115). -/
inductive StoreKind where
  | bytes (units : List (List (Loc × Byte)))
  | scratch (writes : List Host.Cell)
  | atomics (ops : List AtomOp)
deriving DecidableEq, Repr

/-- A store-queue entry, held or committed (R115, R183). `seq` is its place in group order, `node` the sub-group that issued it; `pin` holds for a
narrow release, which pins its lines (R190), `rel` of any release, and `commit` names the Commit() that released the entry, 0 for none (R182).
`acq` marks an `atom`, with the scope at which it acquires, by its flavour or by a `fence.acq` behind it (R187, R189). -/
structure StoreEntry where
  seq : Nat
  node : Nat
  held : Bool
  kind : StoreKind
  pin : Bool
  rel : Option Rel
  commit : Nat
  acq : Option Scope
deriving DecidableEq, Repr

/-- What a long-latency producer still does (R100). -/
inductive Pending where
  /-- Values computed at issue, with the flags to raise. -/
  | values (lanes : List (Nat × W64)) (flags : List Mask)
  /-- A load: the accesses still to be performed, and the bytes that have come, by lane x 8 + offset. -/
  | load (accs : List Acc) (got : Map Byte) (acq : Scope)
  /-- A scratchpad load: lane and first team offset, and the tile it reads through a handle. -/
  | lds (accs : List (Nat × Nat)) (tile : Option Nat)
  /-- An atomic with a result: the operations still to be performed, the results that have come, the scope at which it acquires, and its
  release. -/
  | atomic (ops : List AtomOp) (got : List (Nat × W64)) (acq : Scope) (rel : Option Rel)
  /-- A pop of engine queue `q`, of the entry with this place in group order. -/
  | pop (q cmd : Nat)
  /-- A `waitc`. -/
  | wait (acc : Acc) (cmp : BitVec 4) (operand : W64) (scope : Scope)
deriving DecidableEq, Repr

/-- A long-latency producer in flight (R100, R102): its place in group order, sub-group, the address of its instruction (R53),
destination, type, size of one access, and whether the current region issued it. -/
structure Inflight where
  seq : Nat
  node : Nat
  pc : VAddr
  dst : Sel
  ty : Ty
  size : Nat
  region : Bool
  retrying : Bool
  what : Pending
deriving DecidableEq, Repr

/-- The states of a tile (R168). -/
inductive TileState where
  | free | empty | filling | ready | draining
deriving DecidableEq, Repr

/-- A tile entry with its checksums (R168, R172). -/
structure Tile where
  st : TileState
  tag : Nat
  rows : Nat
  cols : Nat
  data : Nat
  scale : Nat
  pitch : Nat
  chkValid : Bool
  rowSums : List W32
  colSums : List W32
deriving DecidableEq, Repr

/-- Where an engine command stands. -/
inductive CmdState where
  | queued | started | done
deriving DecidableEq, Repr

/-- An engine command and its queue entry (R75, R76, R364): `progress` counts the rows, blocks or bytes done, `holding` holds once
an `mdrain.add` has every line (R201), `buf` is what the engine has read whole (R374), `bad` the places of its
uncorrectable reads (R365), `owed` holds while a recorded command is still to be issued again (R63), `tilesAt` the tile entries that a started `mma` took up (R374), `ops` the registers that DST, SA, SB and SC named, as read at issue (R63), and `before` the accumulator tile that
the command found at its start (R61). -/
structure Command where
  seq : Nat
  pc : VAddr
  node : Nat
  op : Op
  fields : Fields
  vd : W64
  va : W64
  vb : W64
  tag : BitVec 16
  pages : List Trans
  owed : Bool
  region : Bool
  waitCommit : Bool
  popped : Bool
  st : CmdState
  status : Nat
  payload : Nat
  progress : Nat
  holding : Bool
  tilesAt : List Tile
  buf : Memory
  bad : List Nat
  ops : List W64
  before : Map W32
deriving DecidableEq, Repr

/-- A range operation that has not completed (R358, R165): the stretches of its range by place, first address and length,
and the sectors it has not yet acted on. -/
structure RangeOp where
  seq : Nat
  node : Nat
  op : Op
  scope : Scope
  spans : List (Space × Nat × Nat)
  sectors : List Loc
deriving DecidableEq, Repr

/-- A group (R81, R90), on one partition of its core (R18). `lastRead` is its latest load or atomic that has read, by its place in group order,
with the releases whose values it read (R189). -/
structure Group where
  team : Nat
  num : Nat
  part : Nat
  consumer : Bool
  v : Nat
  s : Nat
  vregs : List VReg
  sregs : List SReg
  preds : List Mask
  fl : List Mask
  fpm : BitVec 3
  sig : W32
  region : Region
  storeQ : List StoreEntry
  inflight : List Inflight
  queues : List (List Command)
  fenceRel : Option Scope
  lastRead : Nat × List Release
  rangeOps : List RangeOp
  deferred : List (Nat × Nat × VAddr)
  splits : Map Mask
  subs : List Sub
  seq : Nat
deriving DecidableEq, Repr

/-! ### Teams and cores -/

/-- The launch record (R78). -/
structure LaunchRec where
  code : VAddr
  nx : Nat
  ny : Nat
  nz : Nat
  pCount : Nat
  cCount : Nat
  pV : Nat
  cV : Nat
  pS : Nat
  cS : Nat
  scratch : Nat
  tiles : Nat
  acc : Nat
  barriers : Nat
  prio : Nat
  reentryMax : Nat
  sigEn : Bool
  phase : Nat
  arg0 : W64
  arg1 : W64
  arg2 : W64
  done : VAddr
  doneValue : W64
deriving DecidableEq, Repr

/-- A named barrier (R125). -/
structure Barrier where
  count : BitVec 8
  arrived : BitVec 8
  par : Bool
deriving DecidableEq, Repr

/-- A resident team (R16, R81, R85, R86). `delay` is the rest of the start delay; `fresh` holds until the team first
leaves the delay of its first placement (R56); `accs` are the physical accumulator tiles behind its handles (R174); `freeing` the tiles whose
deferred `tfree` has been committed and waits for commands that still use them (R171). -/
structure Team where
  ctx : Nat
  kernel : Nat
  index : Nat
  x : Nat
  y : Nat
  z : Nat
  core : Nat
  launch : LaunchRec
  hi : Nat
  recAddr : VAddr
  cont : Bool
  delay : Nat
  fresh : Bool
  order : Nat
  evicting : Bool
  scratch : Memory
  tiles : List Tile
  barriers : List Barrier
  accs : List Nat
  freeing : List Nat
deriving DecidableEq, Repr

/-- The shadow of an accumulator tile and the group whose region owns it (R175). -/
structure Shadow where
  owner : Nat
  data : Map W32
deriving DecidableEq, Repr

/-- A physical accumulator tile: elements that are not +0, and its shadow slot (R11, R175). -/
structure AccTile where
  data : Map W32
  shadow : Option Shadow
deriving DecidableEq, Repr

/-- An event counter (R262): source, context filter, value. -/
structure Counter where
  source : Nat
  filter : BitVec 16
  value : BitVec 48
deriving DecidableEq, Repr

/-- A word of the instruction cache (R288): an instruction, or an ILLEGAL or FETCH_FAULT mark with its length. -/
inductive Fetched where
  | instr (i : Instr) (len : Nat)
  | illegal (len : Nat)
  | faulted (len : Nat)
deriving DecidableEq, Repr

/-- A cached word: context, address of its first byte, word, and its place in the order of fills and LAUNCHes (R274, R290). -/
structure CodeWord where
  ctx : Nat
  pc : VAddr
  word : Fetched
  stamp : Nat
deriving DecidableEq, Repr

/-- A core (R9, R12, R13, R65, R255): `ratios` are the clock ratios r of its partitions in force, `ratiosSet` those that take effect at their next
clock boundary, and `phases` the eighths of partition clocks that have elapsed. Accumulator tiles with no entry hold +0 and have no shadow. -/
structure Core where
  logical : Option Nat
  acc : Int
  level : Nat
  charge : Nat
  cycle : W64
  ratios : List Nat
  ratiosSet : List Nat
  phases : List Nat
  icache : List CodeWord
  tlb : List Trans
  channels : List (List Nat)
  counters : List Counter
  accTiles : Map AccTile
  scan : Bool
deriving DecidableEq, Repr

/-! ### Walks, dies, slices -/

/-- A requester merged into a walk (R145): group, sub-group, access, first byte on the page, STRADDLE, and whether the instruction itself
decides what a failed walk means (R357, R358). -/
structure Requester where
  gid : Nat
  node : Nat
  pc : VAddr
  access : Access
  addr : VAddr
  straddle : Bool
  quiet : Bool
deriving DecidableEq, Repr

/-- A queued walk (R145); a fill of the I-cache ahead of issue asks for one without a requester. -/
structure Walk where
  ctx : Nat
  vpn : Nat
  who : List Requester
deriving DecidableEq, Repr

/-- A table pointer in a walk cache (R144): context, level of its entry, the address bits that lead to it, and the table it names. -/
structure Pointer where
  ctx : Nat
  level : Nat
  part : Nat
  table : Nat
deriving DecidableEq, Repr

/-- A continuation record stored at its home die (R73, R74). -/
structure TaskRec where
  ctx : Nat
  kid : VAddr
  arg0 : W64
  arg1 : W64
  arg2 : W64
deriving DecidableEq, Repr

/-- A die (R7, R65, R74, R144, R145, R251, R260); `stale` holds while its core map waits to be rebuilt. -/
structure Die where
  tlb : List Trans
  walks : List Walk
  pointers : List Pointer
  tasks : List TaskRec
  step : Nat
  stepTarget : Option Nat
  band : Nat
  mapGen : Nat
  boostTime : Nat
  stale : Bool
  sliceCounters : List (List Counter)
deriving DecidableEq, Repr

/-- Where a cached sector is held: a core's L1, a guest slice of a die, or the home slice (R160). -/
inductive Place where
  | l1 (core : Nat) | guest (die : Nat) | home
deriving DecidableEq, Repr

/-- A cached 64-byte sector (R160 to R162): its place, bytes, dirty bit, CW flag (one for the sectors of an L2 line, R156), the team that pins
it and the turn in which the pin began (R190), and the writes of its bytes that it misses, by number, oldest first (R186). -/
structure Copy where
  place : Place
  space : Space
  sector : Nat
  bytes : List Byte
  dirty : Bool
  cw : Bool
  pin : Option Nat
  pinAt : Nat
  stale : List Nat
deriving DecidableEq, Repr

/-- A write in coherence order, of bytes of one aligned double word, which a party outside `seen` may still leave unseen where nothing orders it
behind that write (R186): its number, the bytes that it superseded, the releases whose values those were, and whether it has reached the storage
behind the caches. The writes of a byte stand in coherence order. -/
structure Past where
  space : Space
  sector : Nat
  old : List Host.Cell
  seen : List Party
  id : Nat
  rels : List Release
  behind : Bool
deriving DecidableEq, Repr

/-- A write that has been sent and is not yet performed: a store that has left its queue, on its way to its home slice, to a peer or, past the home
slices, to the host (R181, R194), or a write of the hub, held at its sender (R240): its party and team, bytes and release. -/
structure Flight where
  who : Party
  team : Option Nat
  bytes : List (Loc × Byte)
  rel : Option Rel
deriving DecidableEq, Repr

/-- A condition monitor of a slice (R132): the watched place, comparison, operand, and its waiter: a sub-group's producer
or a work queue. -/
inductive Waiter where
  | sub (gid producer : Nat) | queue (q : Nat)
deriving DecidableEq, Repr

structure Monitor where
  space : Space
  addr : Nat
  size : Nat
  cmp : BitVec 4
  operand : W64
  mask : W64
  ctx : Nat
  waiter : Waiter
deriving DecidableEq, Repr

/-! ### Arrays (R204 to R213) -/

inductive ArrayState where
  | idle | running | paused | suspended
deriving DecidableEq, Repr

/-- A schedule: its gates, lanes and passes, or a ROM parameter word, with the command that owns it, its place in arrival order, and the bytes
that the fetch at its fork has read: none before it, and no byte where it failed (R210, R211, R213, R221). -/
structure Schedule where
  gid : Nat
  cmd : Nat
  ctx : Nat
  rom : Option W64
  gates : List W64
  lo : Nat
  hi : Nat
  passes : Nat
  scrub : Bool
  arrival : Nat
  words : Option (List Byte)
deriving DecidableEq, Repr

/-- The progress of a running schedule (R209, R211, R215, R220): check steps left, next gate, passes, window counts, remaps, whether a gate
has written, the stop status, the end-update steps left, and the declared lines. Of a ROM schedule (R222): the INITs made, the scratch
lines that still get their one further gate, the writes left to the D columns, and the lanes whose operands or lines have met other writes. -/
structure Run where
  sched : Schedule
  checkLeft : Nat
  gate : Nat
  pass : Nat
  w : Map Nat
  remaps : Nat
  wrote : Bool
  stop : Option Nat
  endLeft : Nat
  declared0 : List Nat
  declared1 : List Nat
  inits : Nat
  pend : List Nat
  left : List Nat
  tainted : List Nat
deriving DecidableEq, Repr

/-- A command waiting at a sequencer (R15, R206). -/
inductive ArrayCmd where
  | schedule (s : Schedule)
  | xcfg (g : Nat)
  | xpool (axis base count : Nat)
  | xration (n : Nat)
deriving DecidableEq, Repr

/-- An array: configuration word, maps, wear (R205, R206), rows of cells and check columns that are not zero (R204, R219), the writes held
until the schedule ends and those that wait for admission (R217), the sectors of the window that wait to be read, the accesses admitted at this
gate boundary, and the gate steps still owed for admitted accesses (R216). -/
structure ArrayUnit where
  cfg : W64
  map0 : List (Option Nat)
  map1 : List (Option Nat)
  wear : Map Nat
  cells : Map Nat
  check : Map W32
  st : ArrayState
  run : Option Run
  waiting : List ArrayCmd
  heldWrites : List (List Host.Cell)
  asked : List (List Host.Cell)
  reads : List Nat
  admits : Nat
  owed : Nat
deriving DecidableEq, Repr

/-! ### Contexts, queues, kernels (R43 to R89) -/

inductive CtxState where
  | free | loaded | running | evicting | saved | restoring | halting | stopped | failed | destroyed
deriving DecidableEq, Repr

/-- The context descriptor (R43). -/
structure CtxDesc where
  ptRoot : Nat
  saveBase : Nat
  teamSlot : Nat
  slots : Nat
  stopBase : Nat
  stopSlots : Nat
  haltDump : Bool
  trapBase : VAddr
  trapEnable : BitVec 32
deriving DecidableEq, Repr

/-- A raising event (R47, R49, R50). -/
structure Event where
  cause : Nat
  gid : Option Nat
  die : Nat
  core : Nat
  team : Nat
  group : Nat
  flags : Nat
  reentry : BitVec 8
  pc : VAddr
  addr : VAddr
  cycle : W64
deriving DecidableEq, Repr

/-- A team image in a drain band (R62, R64). -/
structure DrainedTeam where
  kernel : Nat
  index : Nat
  core : Nat
  arr : Nat
  offset : Nat
  length : Nat
  lost : Bool
deriving DecidableEq, Repr

/-- A context: descriptor, raising events not yet and already taken, the units that held its work at the halt (core, SOURCE, CYCLE at its stop), the command
it has still to complete (completion address and sequence number), whether a power-up recreated it, its drained images, and the team slots
whose images a halt has kept or dumped (R43 to R52, R62). -/
structure Context where
  st : CtxState
  desc : CtxDesc
  raised : List Event
  taken : List Event
  held : List (Nat × Nat × W64)
  pendingCmd : Option (Nat × W64)
  recreated : Bool
  drained : List DrainedTeam
  slotsKept : List Nat
deriving DecidableEq, Repr

inductive WqState where
  | bound | serving | error
deriving DecidableEq, Repr

/-- A pending SIGNAL (R72): place, value, operation, and the kernels it waits for. -/
structure Signal where
  loc : Loc
  value : W64
  add : Bool
  after : List Nat
deriving DecidableEq, Repr

/-- A bound work queue (R68 to R72). -/
structure WorkQueue where
  ctx : Nat
  st : WqState
  ring : Nat
  ciAddr : Nat
  logSize : Nat
  prio : Nat
  vector : Nat
  pi : BitVec 32
  ci : BitVec 32
  launched : List Nat
  signals : List Signal
  waiting : Option (Loc × Bool)
  satisfied : Bool
deriving DecidableEq, Repr

inductive KernelState where
  | queued | placing | running | retiring | retired | abandoned
deriving DecidableEq, Repr

/-- A kernel of the hub's table (R79, R82), or a started continuation (`cont`). `saved` lists saved teams with the slot that
holds their image, or none for a drained image; `home` is the die that starts a continuation; `cores` lists the cores that ran a team. -/
structure Kernel where
  ctx : Nat
  addr : VAddr
  launch : LaunchRec
  st : KernelState
  order : Nat
  next : Nat
  unplaced : List Nat
  saved : List (Nat × Option Nat)
  masks : List (Nat × Nat × Map Mask)
  home : Option Nat
  exited : Nat
  cores : List Nat
  cont : Option TaskRec
  queue : Option Nat
deriving DecidableEq, Repr

/-! ### The hub -/

/-- The context command queue (R66); `acted` holds while its head command has acted and still waits to complete (R151). -/
structure CmdQueue where
  ring : Nat
  logSize : Nat
  pi : BitVec 32
  ci : BitVec 32
  acted : Bool
deriving DecidableEq, Repr

/-- A fault kept or entered (R147, R148). -/
structure FaultRec where
  addr : VAddr
  ctx : Nat
  access : Access
  flags : Nat
  level : Nat
  die : Nat
  core : Nat
deriving DecidableEq, Repr

structure FaultQueue where
  declared : Bool
  ring : Nat
  piAddr : Nat
  vector : Nat
  seq : Nat
  ci : Nat
  entered : List (Nat × Nat)
  kept : List FaultRec
deriving DecidableEq, Repr

structure ErrorLog where
  ring : Nat
  size : Nat
  seq : Nat
  pi : Nat
  ci : Nat
  dropped : BitVec 32
deriving DecidableEq, Repr

/-- The power capability and the controller (R251 to R259); `written` once a POWER_STEP write has arrived. g is a fraction (R255). `rampTime` is what
the ramp has earned and not yet given, in W x µs (R252). -/
structure Power where
  powerStep : W64
  written : Bool
  setNow : Nat
  clamped : Bool
  met : Bool
  micros : Nat
  measured : W64
  gNum : Nat
  gDen : Nat
  boostLeft : Nat
  freqCap : Nat
  sinceWrite : Nat
  lowTime : Nat
  rampTime : Nat
deriving DecidableEq, Repr

/-- One page of the preservation list (R261). -/
structure Preserve where
  va : VAddr
  ctx : Nat
deriving DecidableEq, Repr

/-- Drain protection and the drain index in board flash (R60 to R62, R261). -/
structure Drain where
  enable : Bool
  n : Nat
  list : List Preserve
deriving DecidableEq, Repr

/-- A context in the drain index, with the hub state kept for it (R61, R62, R89). -/
structure DrainedCtx where
  ctx : Nat
  desc : CtxDesc
  complete : Bool
  kernels : List (Nat × Kernel)
  teams : List DrainedTeam
  tasks : List (Nat × TaskRec)
  preserved : List VAddr
  lost : List VAddr
deriving DecidableEq, Repr

structure DrainIndex where
  contexts : List DrainedCtx
  crcOk : Bool
deriving DecidableEq, Repr

inductive LinkState where
  | down | training | up | degraded | replay | failed
deriving DecidableEq, Repr

/-- A link (R237 to R242): peer ports 0 to 15, the host port 16, die-to-die links from 17. Of the receiver: the sequence number it expects, its
requests for replay in a row, whether the latest has been answered, flits taken, beats missing by rail, beats rebuilt, and the payloads taken
with their virtual channels. Of the sender: the next sequence number, the last 512 flits, the flits of the latest replay, the number
that replay was asked from, and how often in a row. Inbound windows belong to peer ports. -/
structure Link where
  st : LinkState
  lost : Option Nat
  before : LinkState
  expect : BitVec 12
  replays : Nat
  resent : Bool
  flits : Nat
  badBeats : List (List Nat)
  rebuilt : Nat
  received : List (Nat × List Byte)
  sendSeq : BitVec 12
  sent : List (List Byte)
  rails : List (List (BitVec 144))
  resend : List (List Byte)
  asked : Option (BitVec 12)
  tries : Nat
  windows : List (Nat × Nat)
deriving DecidableEq, Repr

/-- The attestation capability (R249). -/
structure Attest where
  busy : Bool
  nonce : List Byte
  report : List Byte
deriving DecidableEq, Repr

/-- A firmware slot (R247): the security version of its header, the image, the digest, signature and key that it carries. -/
structure Firmware where
  version : Nat
  image : List Byte
  digest : List Byte
  signature : List Byte
  key : List Byte
deriving DecidableEq, Repr

inductive Status where
  | booting | ready | recovery | fatal
deriving DecidableEq, Repr

/-- What happens next (MODEL, log 1): a sub-group issues, or a device step takes place. -/
inductive Turn where
  | issue (gid node : Nat)
  | device (e : Instr)
deriving DecidableEq, Repr, Inhabited

/-- The order of issue (R105): the ready sub-groups, group, node and slot, longest waiting first; by group the partition clock and the node of its last
issue; by slot the partition clock of its last issue. -/
structure Turns where
  ready : List (Nat × Nat × Nat)
  groups : Map (Nat × Nat)
  slots : Map Nat
deriving DecidableEq, Repr

/-- The machine. Identities: a group is team id x 16 + GROUP; a core is die x 128 + physical core; an array is core x 64 +
ARRAY; a slice is die x 16 + slice. -/
structure State where
  turn : Option Turn
  turns : Turns
  picks : Nat
  free : Nat
  cur : Nat × Nat
  nextId : Nat
  dram : Memory
  hostMem : Memory
  peerMem : List (Nat × Memory)
  copies : List Copy
  past : List Past
  releases : List Release
  flights : List Flight
  poisoned : List (Space × Nat)
  codes : Map Nat
  metaCache : Map (List Nat)
  monitors : List Monitor
  lineHolds : List (Space × Nat × Nat)
  groups : Map Group
  teams : Map Team
  cores : Map Core
  dies : Map Die
  arrays : Map ArrayUnit
  status : Status
  contexts : Map Context
  cmdq : CmdQueue
  wqs : Map WorkQueue
  wqTurn : List Nat
  orphans : List (Nat × Signal)
  kernels : Map Kernel
  faultq : FaultQueue
  errlog : ErrorLog
  phase : List (List Nat)
  power : Power
  drain : Drain
  drainIndex : Option DrainIndex
  hubCounters : List Counter
  refclk : W64
  links : Map Link
  hostWidth : Nat
  attest : Attest
  firmware : List Firmware
  minVersion : Nat
  vendorKey : List Byte
  mailbox : List (Nat × W64)
  booted : Option Nat
  scanning : Option (Nat × Nat × W64)
  msix : List Nat
  failing : Bool
deriving DecidableEq, Repr

/-! ### Reset (R250, R251 and the log entries named in INVENTORY.md) -/

def Counter.reset : Counter := { source := 0, filter := 0, value := 0 }

/-- A core after reset (R12, R255). -/
def Core.reset (logical : Nat) : Core :=
  { logical := some logical, acc := 65535, level := 0, charge := 0, cycle := 0, ratios := [8, 8, 8, 8], ratiosSet := [8, 8, 8, 8], phases := [0, 0, 0, 0], icache := [], tlb := []
    channels := [[], [], [], []], counters := List.replicate 8 .reset, accTiles := [], scan := false }

/-- A die after reset (R251). -/
def Die.reset : Die :=
  { tlb := [], walks := [], pointers := [], tasks := [], step := 19, stepTarget := none, band := 0, mapGen := 0, boostTime := 0, stale := false
    sliceCounters := List.replicate 16 (List.replicate 4 .reset) }

/-- An array as it leaves manufacture (R205, R206). -/
def ArrayUnit.reset : ArrayUnit :=
  { cfg := 0, map0 := List.replicate 64 none, map1 := List.replicate 64 none, wear := [], cells := [], check := [], st := .idle
    run := none, waiting := [], heldWrites := [], asked := [], reads := [], admits := 0, owed := 0 }

/-- A link that is down (R240). -/
def Link.reset : Link :=
  { st := .down, lost := none, before := .down, expect := 0, replays := 0, resent := false, flits := 0, badBeats := [[], [], [], [], []], rebuilt := 0
    received := [], sendSeq := 0, sent := [], rails := [], resend := [], asked := none, tries := 0, windows := List.replicate 8 (1, 0) }

/-- The modulus of the vendor key for which the fuses and slot A of the model's board flash are made (log 9). -/
def vendorModulus : Nat := 0xDDEEC65E4540AF2EF920B1E584AC475E34FF1220AB37548613A197296EC402624D629042C93509D535FB09676FCABC3FB8173E43608D72D8B4CCA31CF05CCC6149FAE3F7D9C5297C955E9EBB8067553C800DDD0EE5C009C863406EC4FD4B6A8CFF7A990E0E1BA5ED99DD25C0A024855D5A2A1C06C686909649848416AE5C7DC12499E93DC0FE872BC3BCAC1549D44EC9AB4294E0DA2164D731F6AD1D2EDCE590D913BC52F658F566147D5793BA89169DBCF8CE17CDF5D7109751ED7A342C7C31EA03E601262875C8E80A9A76F7853F823BBD4BD30DA37CA7301BA626E11C45C16A2BE85B8DF7DADF6D45273BA3E2E2FC8B67278DA657CB608B090D61C665F7F2346D8AA80D35FD657E1615BA261B62C7C4CEC3D46BE213FB3A267B05EF69AE670B22CE355407E1654C546D133279FCB37E3D6179DB80E261FC297F765665E5AD9A5E44B22BDE8557C49B806C7D56AD48A39D04BDFEB39F5538CB8E6AA939C29842FA3E8E4C2F1DA0939052734E595FD751BC54A87D6DBD4E1413C8CDF451C02B

/-- A firmware slot with an empty image under that key, whose exponent is 65,537. -/
def Firmware.reset : Firmware :=
  { version := 0, image := [], digest := beBytes 32 0xE3B0C44298FC1C149AFBF4C8996FB92427AE41E4649B934CA495991B7852B855
    signature := beBytes 384 0x3446C01CFD66E6FB0864261E42045139514EC4B9365616FBC74350CB47CBE1AEBF6B87E098FA25D0C83D4C5F23C091E08721D9D8CD8F12E3FDDC8D35DCE62ECF2CAE3B95FE1DC1583113EBCCDA884AA33787F0C73E53F9A9F15108F87D60DE291C76475590F93261B232A89C34131D7501F94BF2838FD1928336D55831B7FE5AC95B1556F0C574CDDCFF8E03683640520C10B532B1BDC0E003E93CDA5F6A3339A8C567EA52C5323CCB26845FEEA7FC1A59813C54CCAFB3C22D7EA7967E817BFD60E6BCC909AE155E0F2C7D01B178FACC3C433CE0C06F38D97A3FB0E0D39129087B6293807B8B12EF35E649248C63B763AF6EEDBE3E59F5C5597818375198491F0D4B41E9F5D2F6B4DF7A37531DF4E8E52784A92FB115053BA8783DE7D8B3AFFA947C5265B8838652EA69F77276C92B6BBAF6BE3EC24C91C0930761233A9E7C94864BED8F563B51FC6F44B09375993CC4A9E3C416530EDBCA6BFBCCB8747F99EA716097EF295543E8DF4B2367DF7DDCCDDAFB851E133709F3C2E2A7F29A0B3F8F
    key := beBytes 384 vendorModulus ++ beBytes 3 65537 }

/-- A firmware slot that holds nothing. -/
def Firmware.empty : Firmware := { version := 0, image := [], digest := [], signature := [], key := [] }

/-- The machine right after reset. Cores, dies and arrays with no entry of their own stand as their reset values say. -/
def State.reset : State :=
  { turn := none, turns := { ready := [], groups := [], slots := [] }, picks := 0, free := 0, cur := (0, 0), nextId := 0
    dram := [], hostMem := [], peerMem := [], copies := [], past := [], releases := [], flights := [], poisoned := [], codes := [], metaCache := [], monitors := [], lineHolds := []
    groups := [], teams := [], cores := [], dies := [], arrays := []
    status := .booting, contexts := []
    cmdq := { ring := 0, logSize := 0, pi := 0, ci := 0, acted := false }
    wqs := [], wqTurn := List.replicate 8 16383, orphans := [], kernels := []
    faultq := { declared := false, ring := 0, piAddr := 0, vector := 0, seq := 0, ci := 0, entered := [], kept := [] }
    errlog := { ring := 0, size := 0, seq := 0, pi := 0, ci := 0, dropped := 0 }
    phase := List.replicate 8 (List.replicate 8 0)
    power := { powerStep := 10000, written := false, setNow := 10000, clamped := false, met := false, micros := 0, measured := 0, gNum := 1, gDen := 1
               boostLeft := 4000000, freqCap := 19, sinceWrite := 0, lowTime := 0, rampTime := 0 }
    drain := { enable := false, n := 0, list := [] }
    drainIndex := none, hubCounters := List.replicate 16 .reset, refclk := 0, links := [], hostWidth := 0
    attest := { busy := false, nonce := [], report := [] }
    firmware := [Firmware.reset, Firmware.empty], minVersion := 0
    vendorKey := beBytes 32 0x3216C081B52EC6F5F267B3EF2177B36059304762C8D6E84955333B199E240C0B, mailbox := []
    booted := none, scanning := none, msix := [], failing := false }

end Sys2Proof.Machine
end

