-- ==== Sys2Proof/Config.lean ====
section
/-! DEFINITION. What the manual leaves open: free values (constants with no body, so that nothing can be proved of them) and
what an implementation fixes. Log entries 1, 2 and 7 to 10 name them. -/

namespace Sys2Proof.Config

open Sys2Proof.Machine

/-- Which sub-group issues or which device step takes place next, where the manual fixes no order (R85, R105, R186); log 1. -/
opaque pick : Nat → Turn

/-- A fresh free number (log 2). -/
opaque freeNat : Nat → Nat

/-- Whether an implementation's choice falls one way or the other, fresh each time (log 2). -/
opaque freeBool : Nat → Bool

/-- The approximation that a special-function instruction takes inside its bound (R332): operation, operand, and the
number of candidates, of which it names one (log 7). -/
opaque approx : Op → Nat → Nat → Nat

/-- Whether a peer device's inbound windows admit an address behind a port (R242; log 13). -/
opaque peerAdmits : Nat → Nat → Bool

/-- Which of its possible gates a ROM schedule makes next: operation, width, gate index (R222; log 8). -/
opaque romPick : Nat → Nat → Nat → Nat

/-- The free bits of the device's identity key and its private exponent, which never leaves the hub (R248). -/
opaque identityBits : Nat × Nat

/-- The device's RSA-3072 identity key: a modulus of 3,072 bits, and the private exponent (R1, R248). -/
def identityKey : Nat × Nat := (2 ^ 3071 + identityBits.1 % 2 ^ 3071, identityBits.2)

/-- The certificate chain of the identity key to the vendor root (R248). -/
opaque certificates : List Byte

/-- Part number and stepping as the identity capability encodes them, and the version of a capability's layout (R245, R246; log 20). -/
opaque partNumber : Nat
opaque stepping : Nat
opaque capVersion : Nat → Nat

/-- The width that the link capability gives for a link of rails with so many of them locked (R246; log 20). -/
opaque railWidth : Nat → Nat

/-- The key by which a rebuilt core map orders the cores of a die: die and generation, physical core (R20, R65; log 10). -/
opaque newMap : Nat → Nat → Nat

/-- Whether routes remain between every two dies once these links have failed (R241; log 13). -/
opaque routesRemain : List Nat → Bool

/-- The die-to-die links over which traffic from one die reaches another, the hub die being number 32, once these links have failed, the first and those behind it: each with the
direction in which it is taken (R241; log 13). -/
opaque route : List Nat → Nat → Nat → (Nat × Bool) × List (Nat × Bool)

/-- How many die-to-die links there are beyond the 33 that two disjoint routes between every two of the 33 dies take (R7, R241; log 13). -/
opaque moreLinks : Nat

/-- The number of die-to-die links: each of the 33 dies ends at least two. -/
def dieLinks : Nat := moreLinks + 33

/-- How an L2 slice spreads lines over its sets (R7; log 57). -/
opaque l2Spread : Nat → Nat

/-- The set of a slice in which a line lies: 4 MiB in 16 ways of 256 bytes are 1,024 sets (R7). -/
def l2Set (line : Nat) : Nat := l2Spread line % 1024

end Sys2Proof.Config
end

