-- ==== Sys2Proof/Machine/Forms.lean ====
section
/-! DEFINITION. Which words are well formed (spec/17_encoding.md R277 with the encoding tables R294, R319, R326,
R333, R340, R353 with R137, and R366): everything that the word alone decides. What depends on the group (the
register budgets, q5 to q7, the handler rules, the limits of handles and barriers) is checked at issue. -/

namespace Sys2Proof

/-! ### Classes of selectors (R276) -/

def Sel.isV : Sel → Bool
  | .v _ => true
  | _ => false

def Sel.isS : Sel → Bool
  | .s _ => true
  | _ => false

def Sel.isP : Sel → Bool
  | .p _ => true
  | _ => false

def Sel.isQ : Sel → Bool
  | .q _ => true
  | _ => false

def Sel.isNone : Sel → Bool
  | .none => true
  | _ => false

/-- A predicate or an FL set (R39). -/
def Sel.isPF : Sel → Bool
  | .p _ | .fl _ => true
  | _ => false

/-- A predicate, an FL set or EM (R340). -/
def Sel.isMask : Sel → Bool
  | .p _ | .fl _ | .em => true
  | _ => false

/-- An immediate selector. -/
def Sel.isImm : Sel → Bool
  | .imm | .immLo | .immHi => true
  | _ => false

/-- A scalar register, an immediate or zero: a source of a scalar instruction (R316). -/
def Sel.scalarSrc : Sel → Bool
  | .s _ | .imm | .immLo | .immHi | .zero => true
  | _ => false

/-- "src" of the encoding tables for a vector instruction (R318). -/
def Sel.vecSrc (x : Sel) : Bool := x.isV || x.scalarSrc

/-- A register "sX, or none". -/
def Sel.sOrNone (x : Sel) : Bool := x.isS || x.isNone

/-- A vector register whose number is a multiple of `k`; every other class passes (R23, R337, R338). -/
def Sel.vAligned (k : Nat) : Sel → Bool
  | .v n => n.val % k == 0
  | _ => true

/-- The bits of IMM that the used selectors read (R276). -/
def Sel.immMask : Sel → BitVec 32
  | .imm => 0xFFFFFFFF
  | .immLo => 0x0000FFFF
  | .immHi => 0xFFFF0000
  | _ => 0

/-! ### Classes of types (R319, R326) -/

def Ty.w64 : Ty → Bool
  | .i64 | .n64 => true
  | _ => false

def Ty.w32 : Ty → Bool
  | .i32 | .n32 => true
  | _ => false

def Ty.isInt : Ty → Bool
  | .i8 | .n8 | .i16 | .n16 | .i32 | .n32 | .i64 | .n64 => true
  | _ => false

def Ty.isFT : Ty → Bool
  | .f32 | .bf16 | .f16 => true
  | _ => false

def Ty.isSX : Ty → Bool
  | .sx2 | .sx4 | .sx7 => true
  | _ => false

def Ty.wide (t : Ty) : Bool := t.w32 || t.w64

/-- No type or a 64-bit type. -/
def Ty.none64 (t : Ty) : Bool := t == .none || t.w64

/-- The type codes of R278, as numbers. -/
def Ty.code : Ty → Nat
  | .none => 0 | .i8 => 1 | .n8 => 2 | .i16 => 3 | .n16 => 4 | .i32 => 5 | .n32 => 6 | .i64 => 7
  | .n64 => 8 | .f32 => 9 | .bf16 => 10 | .f16 => 11 | .sx2 => 12 | .sx4 => 13 | .sx7 => 14 | .rsv => 15

def Ty.ofCode : Nat → Ty
  | 0 => .none | 1 => .i8 | 2 => .n8 | 3 => .i16 | 4 => .n16 | 5 => .i32 | 6 => .n32 | 7 => .i64
  | 8 => .n64 | 9 => .f32 | 10 => .bf16 | 11 => .f16 | 12 => .sx2 | 13 => .sx4 | 14 => .sx7 | _ => .rsv

/-- The source type of a conversion, held in AUX (R278). -/
def Fields.srcTy (f : Fields) : Ty := Ty.ofCode f.aux.toNat

/-! ### The parts of a word that most entries fix -/

def Fields.noGuard (f : Fields) : Bool := f.pred == 0 && !f.pn

/-- MOD, TYPE, AUX and SCOPE zero. -/
def Fields.plain (f : Fields) : Bool := f.mod == 0 && f.ty == .none && f.aux == 0 && f.scope == .none

/-- AUX and SCOPE zero. -/
def Fields.typed (f : Fields) : Bool := f.aux == 0 && f.scope == .none

/-- MOD, AUX and SCOPE zero. -/
def Fields.modless (f : Fields) : Bool := f.mod == 0 && f.typed

def Fields.scopeOk (f : Fields) : Bool :=
  match f.scope with
  | .rsv6 | .rsv7 => false
  | _ => true

/-- IMM holds only what the used selectors read. -/
def Fields.immFor (f : Fields) (used : List Sel) : Bool :=
  f.imm &&& ~~~(used.foldl (fun m x => m ||| x.immMask) 0) == 0

/-- IMM bits at and above `n` are zero. -/
def Fields.immBelow (f : Fields) (n : Nat) : Bool := decide (f.imm.toNat < 2 ^ n)

/-- A value destination and its sources: a vector destination takes vector sources, a scalar destination only scalar
ones; a 64-bit type names even registers (R316, R23). -/
def Fields.value (f : Fields) (t : Ty) (srcs : List Sel) : Bool :=
  (f.dst.isV && srcs.all Sel.vecSrc || f.dst.isS && srcs.all Sel.scalarSrc) &&
  (!t.w64 || (f.dst :: srcs).all (Sel.vAligned 2)) && f.immFor srcs

/-- A vector-only form. -/
def Fields.vector (f : Fields) (srcs : List Sel) : Bool :=
  f.dst.isV && srcs.all Sel.vecSrc && f.immFor srcs

/-- Integer types: packed ones are vector-only (R316). -/
def Fields.intTy (f : Fields) : Bool := f.ty.isInt && (f.dst.isV || f.ty.wide)

/-- A tag operand (R364). -/
def Fields.tagOk (f : Fields) : Bool := f.sc.sOrNone

/-- The conversions of R334: destination, source. -/
def cvtPair (d s : Ty) : Bool :=
  match d, s with
  | .f32, s => s.wide
  | .i32, s => s == .f32 || (s.wide && s != .i32)
  | .n32, s => s == .f32 || (s.wide && s != .n32)
  | .i64, s => s == .f32 || (s.wide && s != .i64)
  | .n64, s => s == .f32 || (s.wide && s != .n64)
  | .f16, s => s == .bf16 || s == .i16 || s == .n16
  | .bf16, s => s == .f16 || s == .i16 || s == .n16
  | .i16, s => s == .f16 || s == .bf16
  | .n16, s => s == .f16 || s == .bf16
  | _, _ => false

/-- The conversions of R335. -/
def packPair (d s : Ty) : Bool :=
  match d, s with
  | .bf16, .f32 | .f16, .f32 | .i16, .i32 | .n16, .n32 | .n16, .i32 | .i8, .i16 | .n8, .n16 | .n8, .i16 => true
  | _, _ => false

/-- The conversions of R336, with the count of elements that e may name. -/
def unpackCount (d s : Ty) : Nat :=
  match d, s with
  | .f32, .bf16 | .f32, .f16 | .i32, .i16 | .n32, .n16 => 2
  | .i32, .i8 | .n32, .n8 => 4
  | .i16, .i8 | .n16, .n8 => 2
  | _, _ => 0

/-- The register multiple that the first source of `sxq` needs (R337). -/
def sxqAlign (s : Ty) : Nat := if s == .f32 then 4 else 2

/-- TYPE of a load or store with its scalar or vector form (R350). -/
def Fields.accessTy (f : Fields) (scalar : Bool) (data : Sel) : Bool :=
  f.ty != .rsv && (!scalar || !(f.ty.isFT || f.ty.isSX)) && (!f.ty.w64 || data.vAligned 2)

/-- The types of `atom` and `mred` with their operation (R360). -/
def atomTy (m : BitVec 4) (t : Ty) : Bool := t.wide || (t == .f32 && (m.toNat < 3 || m == 6 || m == 7))

/-- The data of an atomic: a scalar register or zero in a scalar access, else a scalar or vector register or zero. -/
def Fields.atomSrc (f : Fields) (x : Sel) : Bool :=
  (x.isS || x == .zero || (x.isV && (f.dst.isV || f.sa.isV))) && (!f.ty.w64 || x.vAligned 2)

/-- The address and destination of an atomic (R353): a scalar destination needs a scalar address. -/
def Fields.atomAddr (f : Fields) : Bool :=
  (f.sa.isS || (f.sa.isV && f.sa.vAligned 2 && !f.dst.isS)) &&
  (f.dst.isNone || f.dst.isS || f.dst.isV) && (!f.ty.w64 || f.dst.vAligned 2)

/-- IMM of `lds` and `sts`: the handle bits are used only through a handle (R353). -/
def Fields.scratchImm (f : Fields) : Bool :=
  f.immBelow 27 && (f.imm.getLsbD 26 || bits f.imm.toNat 25 20 == 0)

/-- The operands of `mload` and `mdrain`: T in IMM[10] chooses memory or a tile (R366, R376). -/
def Fields.rectOk (f : Fields) : Bool :=
  f.immBelow 11 && f.sb.sOrNone && f.tagOk &&
  (if f.imm.getLsbD 10 then f.sa.isNone else f.sa.isS && bits f.imm.toNat 9 4 == 0)

/-- The word of operation `op` with fields `f` is well formed (R277). -/
def wfWord (op : Op) (f : Fields) : Bool :=
  match op with
  | .nop | .exit | .yield => f.plain && f.imm == 0
  | .bra => f.plain
  | .brc => f.plain && f.sa.isPF
  | .brd => f.plain && f.noGuard && f.sa.isPF
  | .fuse | .commit | .sigrst | .eret => f.plain && f.noGuard && f.imm == 0
  | .jmpi => f.plain && f.sa.isS && f.imm == 0
  | .call => f.plain && f.dst.sOrNone
  | .ret => f.plain && f.sa.sOrNone && f.imm == 0
  | .sleepClk => f.plain && f.sa.sOrNone && (f.sa.isNone || f.imm == 0)
  | .movem => f.plain && (f.sa == .imm || ((f.sa.isMask || f.sa.isS || f.sa == .zero) && f.imm == 0))
  | .brk | .trap => f.plain
  | .region => f.plain && f.noGuard && f.immBelow 15 && bits f.imm.toNat 7 0 % 4 == 0 &&
      decide (bits f.imm.toNat 7 0 ≤ 128) && decide (bits f.imm.toNat 14 8 ≤ 64)
  | .sigchk => f.plain && f.noGuard
  | .rdspec => f.plain && (f.dst.isS || f.dst.isV) && decide (f.imm.toNat < 0x16)
  | .wrspec => f.plain && f.sa.sOrNone && decide (bits f.imm.toNat 7 0 < 0x16) && (f.sa.isNone || f.immBelow 8)
  | .laneget => f.modless && (f.ty == .none || f.ty.wide) && f.dst.isS && f.sa.isV &&
      (!f.ty.w64 || f.sa.vAligned 2) && f.sb.sOrNone && (if f.sb.isNone then f.immBelow 7 else f.imm == 0)
  | .laneset => f.modless && (f.ty == .none || f.ty.wide) && f.dst.isV && (f.sa.isS || f.sa == .zero) &&
      (!f.ty.w64 || f.dst.vAligned 2) && f.sb.sOrNone && (if f.sb.isNone then f.immBelow 7 else f.imm == 0)
  | .fmode => f.plain && f.dst.sOrNone && f.sa.sOrNone && (if f.sa.isNone then f.immBelow 3 else f.imm == 0)
  | .flclr => f.plain && f.immBelow 5
  | .mov => f.modless && f.ty.none64 && f.value f.ty [f.sa]
  | .movFromQueue => f.modless && f.ty.none64 && f.dst.isS && f.sa.isQ && f.imm == 0
  | .movi => f.modless && (f.ty == .none || f.ty.wide) && (f.dst.isS || f.dst.isV) &&
      (!f.ty.w64 || f.dst.vAligned 2)
  | .add | .sub | .mul | .min | .max => f.modless && f.intTy && f.value f.ty [f.sa, f.sb]
  | .addc => f.modless && f.ty.wide && f.value f.ty [f.sa, f.sb] && f.sc.isP && f.sc != .p 0
  | .mulh | .div | .rem => f.modless && f.ty.wide && f.value f.ty [f.sa, f.sb]
  | .mad => f.modless && f.intTy && f.value f.ty [f.sa, f.sb, f.sc]
  | .neg => f.modless && f.intTy && f.value f.ty [f.sa]
  | .abs => f.modless && f.intTy && (f.ty == .i8 || f.ty == .i16 || f.ty == .i32 || f.ty == .i64) &&
      f.value f.ty [f.sa]
  | .and | .or | .xor | .andn | .shl | .shr | .rot => f.plain && f.value f.ty [f.sa, f.sb]
  | .not | .clz | .popc | .brev => f.plain && f.value f.ty [f.sa]
  | .sar => f.modless && (f.ty == .i32 || f.ty == .i64) && f.value f.ty [f.sa, f.sb]
  | .bfe | .bfi => f.plain && f.value f.ty [f.sa, f.sb, f.sc]
  | .sel => f.modless && f.ty.none64 && f.sa.isPF && f.value f.ty [f.sb, f.sc]
  | .cmp => f.typed && decide (f.mod.toNat ≤ 5) && f.ty.wide && f.dst.isP && f.sa.vecSrc && f.sb.vecSrc &&
      (!f.ty.w64 || (f.sa.vAligned 2 && f.sb.vAligned 2)) && f.immFor [f.sa, f.sb]
  | .lea => f.modless && f.ty.wide && ((f.dst.isV && f.sa.vecSrc && (f.sb.isV || f.sb.isS || f.sb == .zero || f.sb == .immHi)) ||
      (f.dst.isS && f.sa.scalarSrc && (f.sb.isS || f.sb == .zero || f.sb == .immHi))) &&
      (!f.ty.w64 || (f.dst.vAligned 2 && f.sa.vAligned 2 && f.sb.vAligned 2)) &&
      bits f.imm.toNat 15 3 == 0 && (f.sb == .immHi || f.sa == .immHi || f.sa == .imm || bits f.imm.toNat 31 16 == 0)
  | .fadd | .fsub | .fmul | .fmin | .fmax => f.modless && f.ty.isFT && f.vector [f.sa, f.sb]
  | .ffma => f.modless && f.ty.isFT && f.vector [f.sa, f.sb, f.sc]
  | .fabs | .fneg | .fclass | .frcp | .frsq | .fsqrt | .fexp2 | .flog2 | .fsin | .fcos | .ftanh =>
      f.modless && f.ty.isFT && f.vector [f.sa]
  | .fcmp => f.typed && decide (f.mod.toNat ≤ 7) && f.ty == .f32 && f.dst.isP && f.sa.vecSrc && f.sb.vecSrc &&
      f.immFor [f.sa, f.sb]
  | .frnd => f.typed && decide (f.mod.toNat ≤ 4) && f.ty.isFT && f.vector [f.sa]
  | .fdot2 => f.modless && f.ty == .f32 && f.vector [f.sc] && f.sa.isV && f.sb.isV && f.sa.vAligned 2 && f.sb.vAligned 2
  | .cvt => f.mod == 0 && f.scope == .none && cvtPair f.ty f.srcTy && f.vector [f.sa] &&
      (!f.ty.w64 || f.dst.vAligned 2) && (!f.srcTy.w64 || f.sa.vAligned 2)
  | .pack => f.mod == 0 && f.scope == .none && packPair f.ty f.srcTy && f.dst.isV && f.sa.isV && f.sb.isV && f.imm == 0
  | .unpack => f.mod == 0 && f.scope == .none && f.dst.isV && f.sa.isV && decide (f.imm.toNat < unpackCount f.ty f.srcTy)
  | .sxq => f.mod == 0 && f.scope == .none && f.ty.isSX && f.srcTy.isFT && f.dst.isV && f.sa.isV && f.sb.isV &&
      f.sa.vAligned (sxqAlign f.srcTy) && f.dst != f.sb && f.imm == 0
  | .sxd => f.mod == 0 && f.scope == .none && f.ty == .f32 && f.srcTy.isSX && f.dst.isV && f.dst.vAligned 4 &&
      f.sa.isV && f.sb.isV && f.imm == 0
  | .tag => f.plain && f.dst.isV && f.sa.isV && decide (f.imm.toNat < 15)
  | .tagof => f.plain && (f.dst.isV || f.dst.isS) && f.sa.isV && f.imm == 0
  | .shfl => f.typed && decide (f.mod.toNat ≤ 3) && f.ty.none64 && f.dst.isV && f.sa.isV &&
      (f.sb.scalarSrc || (f.sb.isV && f.mod == 3)) && (!f.ty.w64 || (f.dst.vAligned 2 && f.sa.vAligned 2)) &&
      f.immFor [f.sb]
  | .ballot | .firstLane => f.plain && f.dst.isS && f.sa.isPF && f.imm == 0
  | .vote => f.typed && f.ty == .none && decide (f.mod.toNat ≤ 2) && f.dst.isP && f.sa.isPF && f.imm == 0
  | .lred => f.typed && decide (f.mod.toNat ≤ 5) && (f.ty.wide || (f.ty == .f32 && decide (f.mod.toNat ≤ 2))) && f.dst.isS &&
      ((f.sa.isV && (!f.ty.w64 || f.sa.vAligned 2)) || (f.sa.isPF && f.ty == .n32)) && f.imm == 0
  | .scan => f.scope == .none && decide (f.aux.toNat ≤ 1) && decide (f.mod.toNat ≤ 5) &&
      (f.ty.wide || (f.ty == .f32 && decide (f.mod.toNat ≤ 2))) && f.dst.isV && f.sa.isV &&
      (!f.ty.w64 || (f.dst.vAligned 2 && f.sa.vAligned 2)) && f.imm == 0
  | .matchKeys => f.mod == 0 && f.scope == .none &&
      ((f.aux == 0 && f.ty.none64) || (f.aux == 1 && f.ty == .f32)) && f.dst.isP && f.sa.isV &&
      (!f.ty.w64 || f.sa.vAligned 2) && f.imm == 0
  | .bcast => f.modless && f.ty.none64 && f.dst.isV && f.sa.isV && f.sb.scalarSrc &&
      (!f.ty.w64 || (f.dst.vAligned 2 && f.sa.vAligned 2)) && f.immFor [f.sb]
  | .pand | .por | .pxor => f.plain && f.dst.isP && f.sa.isMask && f.sb.isMask && f.imm == 0
  | .pnot => f.plain && f.dst.isP && f.sa.isMask && f.imm == 0
  | .pmov => f.plain && f.dst.isP && (f.sa == .imm || ((f.sa.isMask || f.sa.isS || f.sa == .zero) && f.imm == 0))
  | .pcnt => f.plain && f.dst.isS && f.sa.isMask && f.imm == 0
  | .ld => f.mod == 0 && ((f.aux == 0 && f.scope == .none) || (f.aux == 1 && f.scopeOk)) &&
      ((f.dst.isS && f.sa.isS) || (f.dst.isV && (f.sa.isS || (f.sa.isV && f.sa.vAligned 2)))) &&
      f.accessTy f.dst.isS f.dst
  | .st => f.mod == 0 && ((f.aux == 0 && f.scope == .none) || (f.aux == 2 && f.scopeOk)) &&
      (f.sa.isS || (f.sa.isV && f.sa.vAligned 2)) && (f.sb.isS || f.sb.isV || f.sb == .zero) &&
      f.accessTy (f.sa.isS && !f.sb.isV) f.sb
  | .lds => f.modless && ((f.dst.isS && f.sa.isS) || (f.dst.isV && (f.sa.isS || f.sa.isV))) &&
      f.accessTy f.dst.isS f.dst && f.scratchImm
  | .sts => f.modless && (f.sa.isS || f.sa.isV) && (f.sb.isS || f.sb.isV || f.sb == .zero) &&
      f.accessTy (f.sa.isS && !f.sb.isV) f.sb && f.scratchImm
  | .pref => f.plain && (f.sa.isS || (f.sa.isV && f.sa.vAligned 2))
  | .clean | .inval | .clinv => f.mod == 0 && f.ty == .none && f.aux == 0 && f.scopeOk && f.sa.isS &&
      (f.sb == .imm || (f.sb.isS && f.imm == 0))
  | .fence => f.mod == 0 && f.ty == .none && decide (f.aux.toNat ≤ 3) && f.scopeOk && f.imm == 0
  | .fprobe => f.plain && f.immBelow 4
  | .atom => decide (f.mod.toNat ≤ 7) && atomTy f.mod f.ty && decide (f.aux.toNat ≤ 3) &&
      (!f.dst.isNone || f.aux == 0 || f.aux == 2) && f.scopeOk && f.atomAddr && f.atomSrc f.sb &&
      (f.mod != 7 || f.atomSrc f.sc)
  | .mred => decide (f.mod.toNat ≤ 5) && atomTy f.mod f.ty && f.typed &&
      (f.sa.isS || (f.sa.isV && f.sa.vAligned 2)) && (f.sb.isS || f.sb.isV) && (!f.ty.w64 || f.sb.vAligned 2)
  | .waitc => decide (f.mod.toNat ≤ 5) && (f.ty == .n32 || f.ty == .n64) && f.aux == 0 && f.scopeOk && f.dst.isS && f.sa.isS &&
      (f.sb.isS || f.sb == .zero)
  | .bara | .bars => f.plain && f.noGuard && ((f.sa.isS && f.immBelow 4) ||
      (f.sa.isNone && f.immBelow 16 && bits f.imm.toNat 7 4 == 0 && bits f.imm.toNat 15 8 != 0))
  | .barq => f.plain && f.dst.isS && f.immBelow 4
  | .talloc => f.plain && f.sa.isS && f.sb.isS && f.immBelow 6
  | .tfree => f.plain && f.immBelow 6
  | .tstat => f.plain && f.dst.isS && f.immBelow 6
  | .tset => f.plain && f.sa.sOrNone && f.sb.sOrNone && f.imm &&& 0xFFFFFEC0 == 0
  | .cpyIn => f.plain && f.sa.isS && f.sb.sOrNone && f.tagOk && f.immBelow 6
  | .cpyOut => f.mod == 1 && f.typed && f.ty == .none && f.sa.isS && f.sb.sOrNone && f.tagOk && f.immBelow 6
  | .cpyMm => f.mod == 2 && f.typed && f.ty == .none && f.dst.isS && f.sa.isS && f.tagOk &&
      (f.sb == .imm || (f.sb.isS && f.imm == 0))
  | .mma => f.mod == 0 && f.scope == .none && (f.ty == .f32 || f.ty == .bf16 || f.ty.isSX) && decide (f.aux.toNat ≤ 1) && f.sa.sOrNone &&
      f.tagOk && f.immBelow 16
  | .mzero => f.plain && f.tagOk && f.immBelow 4
  | .mload | .mdrain => f.plain && f.rectOk
  | .mdrainAdd => f.mod == 1 && f.typed && f.ty == .none && f.rectOk
  | .stash | .restore => f.mod == 0 && f.ty == .none && f.scope == .none && decide (f.aux.toNat ≤ 1) && f.sa.isS &&
      (f.sb == .immLo || (f.sb.isS && bits f.imm.toNat 15 0 == 0)) && f.tagOk && f.immBelow 22
  | .xcfg => f.plain && f.sa.isS && decide (f.imm.toNat < 3)
  | .xpool => f.plain && f.sa.isS && f.immBelow 18 && decide (bits f.imm.toNat 16 10 ≤ 64) &&
      decide (bits f.imm.toNat 9 0 + bits f.imm.toNat 16 10 ≤ 1024)
  | .xration => f.plain && f.sa.isS && f.immBelow 16 && f.imm != 1
  | .xrun => f.plain && f.sa.isS && f.sb.isS && f.tagOk && f.immBelow 1
  | .xgate => f.plain && f.sa.isS && f.sb.isS && f.tagOk && f.immBelow 21 &&
      decide (bits f.imm.toNat 9 0 ≤ bits f.imm.toNat 19 10)
  | .xstat => f.plain && f.dst.isS && f.sa.isS && f.immBelow 13 &&
      (decide (bits f.imm.toNat 1 0 ≥ 2) || f.immBelow 2) &&
      (bits f.imm.toNat 1 0 != 2 || decide (bits f.imm.toNat 12 3 ≤ 63))
  | .post => f.plain && f.sa.isS && f.tagOk && f.imm == 0

end Sys2Proof
end

