-- ==== Sys2Proof/WellFormed.lean ====
section
/-! DEFINITION. Well-formed instructions: a word follows its encoding table (R277, spec/17_encoding.md); a short form
holds any registers (R282, R285, R286); a device step holds any arguments. -/

namespace Sys2Proof

/-- The instruction is well formed. -/
def Instr.wf (i : Instr) : Bool :=
  match i.word? with
  | some (op, f) => wfWord op f
  | none => true

end Sys2Proof
end

