-- ==== Sys2Proof/Decode.lean ====
section
/-! DEFINITION. Decoding the byte stream into instructions, and the encoder (spec/17_encoding.md R273 to R287).
The numbering of a form's bits is that of F, the big-endian integer of the instruction's bytes (R273). -/

namespace Sys2Proof

/-! ### The opcode map (R292) -/

/-- OPC of an operation. -/
def Op.opc : Op → Nat
  | .nop => 0x000
  | .bra => 0x001
  | .brc => 0x002
  | .brd => 0x003
  | .fuse => 0x004
  | .jmpi => 0x005
  | .call => 0x006
  | .ret => 0x007
  | .exit => 0x008
  | .yield => 0x009
  | .sleepClk => 0x00A
  | .movem => 0x00B
  | .brk => 0x00C
  | .region => 0x040
  | .commit => 0x041
  | .sigchk => 0x042
  | .sigrst => 0x043
  | .trap => 0x044
  | .eret => 0x045
  | .rdspec => 0x046
  | .wrspec => 0x047
  | .laneget => 0x048
  | .laneset => 0x049
  | .fmode => 0x04A
  | .flclr => 0x04B
  | .mov => 0x080
  | .movFromQueue => 0x080
  | .movi => 0x081
  | .add => 0x082
  | .sub => 0x083
  | .addc => 0x084
  | .mul => 0x085
  | .mulh => 0x086
  | .mad => 0x087
  | .neg => 0x088
  | .abs => 0x089
  | .min => 0x08A
  | .max => 0x08B
  | .and => 0x08C
  | .or => 0x08D
  | .xor => 0x08E
  | .not => 0x08F
  | .andn => 0x090
  | .shl => 0x091
  | .shr => 0x092
  | .sar => 0x093
  | .rot => 0x094
  | .clz => 0x095
  | .popc => 0x096
  | .brev => 0x097
  | .bfe => 0x098
  | .bfi => 0x099
  | .sel => 0x09A
  | .cmp => 0x09B
  | .lea => 0x09C
  | .div => 0x09D
  | .rem => 0x09E
  | .fadd => 0x0C0
  | .fsub => 0x0C1
  | .fmul => 0x0C2
  | .ffma => 0x0C3
  | .fmin => 0x0C4
  | .fmax => 0x0C5
  | .fabs => 0x0C6
  | .fneg => 0x0C7
  | .fcmp => 0x0C8
  | .fclass => 0x0C9
  | .frnd => 0x0CA
  | .frcp => 0x0CB
  | .frsq => 0x0CC
  | .fsqrt => 0x0CD
  | .fexp2 => 0x0CE
  | .flog2 => 0x0CF
  | .fsin => 0x0D0
  | .fcos => 0x0D1
  | .ftanh => 0x0D2
  | .fdot2 => 0x0D3
  | .cvt => 0x100
  | .pack => 0x101
  | .unpack => 0x102
  | .sxq => 0x103
  | .sxd => 0x104
  | .tag => 0x105
  | .tagof => 0x106
  | .shfl => 0x140
  | .ballot => 0x141
  | .vote => 0x142
  | .lred => 0x143
  | .scan => 0x144
  | .matchKeys => 0x145
  | .bcast => 0x146
  | .firstLane => 0x147
  | .pand => 0x148
  | .por => 0x149
  | .pxor => 0x14A
  | .pnot => 0x14B
  | .pmov => 0x14C
  | .pcnt => 0x14D
  | .ld => 0x180
  | .st => 0x181
  | .lds => 0x182
  | .sts => 0x183
  | .pref => 0x184
  | .clean => 0x185
  | .inval => 0x186
  | .clinv => 0x187
  | .fence => 0x188
  | .fprobe => 0x189
  | .atom => 0x1C0
  | .mred => 0x1C1
  | .waitc => 0x1C2
  | .bara => 0x1C3
  | .bars => 0x1C4
  | .barq => 0x1C5
  | .talloc => 0x200
  | .tfree => 0x201
  | .tstat => 0x202
  | .tset => 0x203
  | .cpyIn => 0x204
  | .cpyOut => 0x204
  | .cpyMm => 0x204
  | .mma => 0x205
  | .mzero => 0x206
  | .mload => 0x207
  | .mdrain => 0x208
  | .mdrainAdd => 0x208
  | .stash => 0x240
  | .restore => 0x241
  | .xcfg => 0x242
  | .xpool => 0x243
  | .xration => 0x244
  | .xrun => 0x245
  | .xgate => 0x246
  | .xstat => 0x247
  | .post => 0x248

/-- The operation of an OPC, before MOD and the source class refine it. -/
def Op.base : Nat → Option Op
  | 0x000 => some .nop
  | 0x001 => some .bra
  | 0x002 => some .brc
  | 0x003 => some .brd
  | 0x004 => some .fuse
  | 0x005 => some .jmpi
  | 0x006 => some .call
  | 0x007 => some .ret
  | 0x008 => some .exit
  | 0x009 => some .yield
  | 0x00A => some .sleepClk
  | 0x00B => some .movem
  | 0x00C => some .brk
  | 0x040 => some .region
  | 0x041 => some .commit
  | 0x042 => some .sigchk
  | 0x043 => some .sigrst
  | 0x044 => some .trap
  | 0x045 => some .eret
  | 0x046 => some .rdspec
  | 0x047 => some .wrspec
  | 0x048 => some .laneget
  | 0x049 => some .laneset
  | 0x04A => some .fmode
  | 0x04B => some .flclr
  | 0x080 => some .mov
  | 0x081 => some .movi
  | 0x082 => some .add
  | 0x083 => some .sub
  | 0x084 => some .addc
  | 0x085 => some .mul
  | 0x086 => some .mulh
  | 0x087 => some .mad
  | 0x088 => some .neg
  | 0x089 => some .abs
  | 0x08A => some .min
  | 0x08B => some .max
  | 0x08C => some .and
  | 0x08D => some .or
  | 0x08E => some .xor
  | 0x08F => some .not
  | 0x090 => some .andn
  | 0x091 => some .shl
  | 0x092 => some .shr
  | 0x093 => some .sar
  | 0x094 => some .rot
  | 0x095 => some .clz
  | 0x096 => some .popc
  | 0x097 => some .brev
  | 0x098 => some .bfe
  | 0x099 => some .bfi
  | 0x09A => some .sel
  | 0x09B => some .cmp
  | 0x09C => some .lea
  | 0x09D => some .div
  | 0x09E => some .rem
  | 0x0C0 => some .fadd
  | 0x0C1 => some .fsub
  | 0x0C2 => some .fmul
  | 0x0C3 => some .ffma
  | 0x0C4 => some .fmin
  | 0x0C5 => some .fmax
  | 0x0C6 => some .fabs
  | 0x0C7 => some .fneg
  | 0x0C8 => some .fcmp
  | 0x0C9 => some .fclass
  | 0x0CA => some .frnd
  | 0x0CB => some .frcp
  | 0x0CC => some .frsq
  | 0x0CD => some .fsqrt
  | 0x0CE => some .fexp2
  | 0x0CF => some .flog2
  | 0x0D0 => some .fsin
  | 0x0D1 => some .fcos
  | 0x0D2 => some .ftanh
  | 0x0D3 => some .fdot2
  | 0x100 => some .cvt
  | 0x101 => some .pack
  | 0x102 => some .unpack
  | 0x103 => some .sxq
  | 0x104 => some .sxd
  | 0x105 => some .tag
  | 0x106 => some .tagof
  | 0x140 => some .shfl
  | 0x141 => some .ballot
  | 0x142 => some .vote
  | 0x143 => some .lred
  | 0x144 => some .scan
  | 0x145 => some .matchKeys
  | 0x146 => some .bcast
  | 0x147 => some .firstLane
  | 0x148 => some .pand
  | 0x149 => some .por
  | 0x14A => some .pxor
  | 0x14B => some .pnot
  | 0x14C => some .pmov
  | 0x14D => some .pcnt
  | 0x180 => some .ld
  | 0x181 => some .st
  | 0x182 => some .lds
  | 0x183 => some .sts
  | 0x184 => some .pref
  | 0x185 => some .clean
  | 0x186 => some .inval
  | 0x187 => some .clinv
  | 0x188 => some .fence
  | 0x189 => some .fprobe
  | 0x1C0 => some .atom
  | 0x1C1 => some .mred
  | 0x1C2 => some .waitc
  | 0x1C3 => some .bara
  | 0x1C4 => some .bars
  | 0x1C5 => some .barq
  | 0x200 => some .talloc
  | 0x201 => some .tfree
  | 0x202 => some .tstat
  | 0x203 => some .tset
  | 0x204 => some .cpyIn
  | 0x205 => some .mma
  | 0x206 => some .mzero
  | 0x207 => some .mload
  | 0x208 => some .mdrain
  | 0x240 => some .stash
  | 0x241 => some .restore
  | 0x242 => some .xcfg
  | 0x243 => some .xpool
  | 0x244 => some .xration
  | 0x245 => some .xrun
  | 0x246 => some .xgate
  | 0x247 => some .xstat
  | 0x248 => some .post
  | _ => none

/-- The operation of a word: `cpy` and `mdrain` are split by MOD, and `mov` by its source class (R280, R324). -/
def Op.refine (o : Op) (f : Fields) : Op :=
  match o with
  | .mov => if f.sa.isQ then .movFromQueue else .mov
  | .cpyIn => if f.mod == 1 then .cpyOut else if f.mod == 2 then .cpyMm else .cpyIn
  | .mdrain => if f.mod == 1 then .mdrainAdd else .mdrain
  | o => o

/-- The operand class: 6C and 8A put the immediate selector into SB (R284). -/
def operandClass (opc : Nat) : Bool :=
  opc == 0x080 || (decide (0x082 ≤ opc) && decide (opc ≤ 0x0FF)) || (decide (0x140 ≤ opc) && decide (opc ≤ 0x147))

/-! ### Selectors (R276, R282) -/

/-- The selector a byte names. -/
def Sel.ofByte (x : Nat) : Sel :=
  if h : x < 0x80 then .v ⟨x, h⟩
  else if x < 0xC0 then .s (Fin.ofNat 64 (x - 0x80))
  else if x < 0xC8 then .p (Fin.ofNat 8 (x - 0xC0))
  else if x < 0xD0 then .q (Fin.ofNat 8 (x - 0xC8))
  else if x < 0xD5 then .fl (Fin.ofNat 5 (x - 0xD0))
  else if x == 0xD8 then .em
  else if x == 0xF0 then .zero
  else if x == 0xF1 then .imm
  else if x == 0xF2 then .immLo
  else if x == 0xF3 then .immHi
  else if x == 0xFF then .none
  else .rsv (BitVec.ofNat 8 x)

/-- The byte of a selector. -/
def Sel.byte : Sel → Nat
  | .v n => n.val
  | .s n => 0x80 + n.val
  | .p n => 0xC0 + n.val
  | .q n => 0xC8 + n.val
  | .fl n => 0xD0 + n.val
  | .em => 0xD8
  | .zero => 0xF0
  | .imm => 0xF1
  | .immLo => 0xF2
  | .immHi => 0xF3
  | .none => 0xFF
  | .rsv b => b.toNat

/-- The expansion of SEL7 (R282). -/
def Sel.ofSel7 (x : Nat) : Sel :=
  if x < 0x40 then .v (Fin.ofNat 128 x)
  else if x < 0x68 then .s (Fin.ofNat 64 (x - 0x40))
  else if x < 0x70 then .q (Fin.ofNat 8 (x - 0x68))
  else if x < 0x78 then .p (Fin.ofNat 8 (x - 0x70))
  else if x < 0x7D then .fl (Fin.ofNat 5 (x - 0x78))
  else if x == 0x7D then .em
  else if x == 0x7E then .zero
  else .none

/-- The SEL7 value of a selector, where it has one (R282). -/
def Sel.sel7 : Sel → Option Nat
  | .v n => if n.val < 64 then some n.val else Option.none
  | .s n => if n.val < 40 then some (0x40 + n.val) else Option.none
  | .q n => some (0x68 + n.val)
  | .p n => some (0x70 + n.val)
  | .fl n => some (0x78 + n.val)
  | .em => some 0x7D
  | .zero => some 0x7E
  | .none => some 0x7F
  | _ => Option.none

/-- The scopes as numbers (R279). -/
def Scope.code : Scope → Nat
  | .none => 0 | .grp => 1 | .team => 2 | .die => 3 | .dev => 4 | .sys => 5 | .rsv6 => 6 | .rsv7 => 7

def Scope.ofCode : Nat → Scope
  | 0 => .none | 1 => .grp | 2 => .team | 3 => .die | 4 => .dev | 5 => .sys | 6 => .rsv6 | _ => .rsv7

/-! ### The short forms: OP5 and OP6 (R285, R286) -/

/-- The instruction of a 2-byte form. -/
def twoInstr (op5 : Nat) (d b : Fin 32) : Instr :=
  match op5 with
  | 0 => .mov2B d b
  | 1 => .not2B d b
  | 2 => .and2B d b
  | 3 => .or2B d b
  | 4 => .xor2B d b
  | 5 => .andn2B d b
  | 6 => .shl2B d b
  | 7 => .shr2B d b
  | 8 => .addI322B d b
  | 9 => .addN322B d b
  | 10 => .subI322B d b
  | 11 => .subN322B d b
  | 12 => .mulI322B d b
  | 13 => .mulN322B d b
  | 14 => .minI322B d b
  | 15 => .maxI322B d b
  | 16 => .minN322B d b
  | 17 => .maxN322B d b
  | 18 => .sarI322B d b
  | 19 => .negI322B d b
  | 20 => .addI162B d b
  | 21 => .addI82B d b
  | 22 => .absI322B d b
  | 23 => .fnegF322B d b
  | 24 => .faddF322B d b
  | 25 => .fsubF322B d b
  | 26 => .fmulF322B d b
  | 27 => .fminF322B d b
  | 28 => .fmaxF322B d b
  | 29 => .faddBf162B d b
  | 30 => .fmulBf162B d b
  | _ => .fabsF322B d b

/-- The instruction of a 4-byte form. -/
def fourInstr (op6 : Nat) (r : Four) : Instr :=
  match op6 with
  | 0 => .mov4B r
  | 1 => .movi4B r
  | 2 => .and4B r
  | 3 => .or4B r
  | 4 => .xor4B r
  | 5 => .andn4B r
  | 6 => .shl4B r
  | 7 => .shr4B r
  | 8 => .addI324B r
  | 9 => .addN324B r
  | 10 => .addI644B r
  | 11 => .addN644B r
  | 12 => .subI324B r
  | 13 => .subN324B r
  | 14 => .subI644B r
  | 15 => .subN644B r
  | 16 => .mulI324B r
  | 17 => .mulN324B r
  | 18 => .mulN644B r
  | 19 => .mulhN324B r
  | 20 => .minI324B r
  | 21 => .maxI324B r
  | 22 => .minN324B r
  | 23 => .maxN324B r
  | 24 => .sarI324B r
  | 25 => .sarI644B r
  | 26 => .rot4B r
  | 27 => .not4B r
  | 28 => .popc4B r
  | 29 => .clz4B r
  | 30 => .negI324B r
  | 31 => .divN324B r
  | 32 => .cmpEqI324B r
  | 33 => .cmpNeI324B r
  | 34 => .cmpLtI324B r
  | 35 => .cmpGeI324B r
  | 36 => .cmpEqN324B r
  | 37 => .cmpNeN324B r
  | 38 => .cmpLtN324B r
  | 39 => .cmpGeN324B r
  | 40 => .cmpEqI644B r
  | 41 => .cmpNeI644B r
  | 42 => .cmpLtI644B r
  | 43 => .cmpGtI644B r
  | 44 => .cmpLtN644B r
  | 45 => .cmpGeN644B r
  | 46 => .fcmpLtF324B r
  | 47 => .fcmpGeF324B r
  | 48 => .faddF324B r
  | 49 => .fsubF324B r
  | 50 => .fmulF324B r
  | 51 => .fminF324B r
  | 52 => .fmaxF324B r
  | 53 => .faddBf164B r
  | 54 => .fmulBf164B r
  | 55 => .frcpF324B r
  | 56 => .shflUp4B r
  | 57 => .shflDn4B r
  | 58 => .shflXor4B r
  | 59 => .shflIdx4B r
  | 60 => .ballot4B r
  | 61 => .voteAny4B r
  | 62 => .voteAll4B r
  | _ => .lredAddF324B r

/-- OP5 and the registers of a 2-byte instruction. -/
def Instr.two? : Instr → Option (Nat × Fin 32 × Fin 32)
  | .mov2B d b => some (0, d, b)
  | .not2B d b => some (1, d, b)
  | .and2B d b => some (2, d, b)
  | .or2B d b => some (3, d, b)
  | .xor2B d b => some (4, d, b)
  | .andn2B d b => some (5, d, b)
  | .shl2B d b => some (6, d, b)
  | .shr2B d b => some (7, d, b)
  | .addI322B d b => some (8, d, b)
  | .addN322B d b => some (9, d, b)
  | .subI322B d b => some (10, d, b)
  | .subN322B d b => some (11, d, b)
  | .mulI322B d b => some (12, d, b)
  | .mulN322B d b => some (13, d, b)
  | .minI322B d b => some (14, d, b)
  | .maxI322B d b => some (15, d, b)
  | .minN322B d b => some (16, d, b)
  | .maxN322B d b => some (17, d, b)
  | .sarI322B d b => some (18, d, b)
  | .negI322B d b => some (19, d, b)
  | .addI162B d b => some (20, d, b)
  | .addI82B d b => some (21, d, b)
  | .absI322B d b => some (22, d, b)
  | .fnegF322B d b => some (23, d, b)
  | .faddF322B d b => some (24, d, b)
  | .fsubF322B d b => some (25, d, b)
  | .fmulF322B d b => some (26, d, b)
  | .fminF322B d b => some (27, d, b)
  | .fmaxF322B d b => some (28, d, b)
  | .faddBf162B d b => some (29, d, b)
  | .fmulBf162B d b => some (30, d, b)
  | .fabsF322B d b => some (31, d, b)
  | _ => none

/-- OP6 and the fields of a 4-byte instruction. -/
def Instr.four? : Instr → Option (Nat × Four)
  | .mov4B r => some (0, r)
  | .movi4B r => some (1, r)
  | .and4B r => some (2, r)
  | .or4B r => some (3, r)
  | .xor4B r => some (4, r)
  | .andn4B r => some (5, r)
  | .shl4B r => some (6, r)
  | .shr4B r => some (7, r)
  | .addI324B r => some (8, r)
  | .addN324B r => some (9, r)
  | .addI644B r => some (10, r)
  | .addN644B r => some (11, r)
  | .subI324B r => some (12, r)
  | .subN324B r => some (13, r)
  | .subI644B r => some (14, r)
  | .subN644B r => some (15, r)
  | .mulI324B r => some (16, r)
  | .mulN324B r => some (17, r)
  | .mulN644B r => some (18, r)
  | .mulhN324B r => some (19, r)
  | .minI324B r => some (20, r)
  | .maxI324B r => some (21, r)
  | .minN324B r => some (22, r)
  | .maxN324B r => some (23, r)
  | .sarI324B r => some (24, r)
  | .sarI644B r => some (25, r)
  | .rot4B r => some (26, r)
  | .not4B r => some (27, r)
  | .popc4B r => some (28, r)
  | .clz4B r => some (29, r)
  | .negI324B r => some (30, r)
  | .divN324B r => some (31, r)
  | .cmpEqI324B r => some (32, r)
  | .cmpNeI324B r => some (33, r)
  | .cmpLtI324B r => some (34, r)
  | .cmpGeI324B r => some (35, r)
  | .cmpEqN324B r => some (36, r)
  | .cmpNeN324B r => some (37, r)
  | .cmpLtN324B r => some (38, r)
  | .cmpGeN324B r => some (39, r)
  | .cmpEqI644B r => some (40, r)
  | .cmpNeI644B r => some (41, r)
  | .cmpLtI644B r => some (42, r)
  | .cmpGtI644B r => some (43, r)
  | .cmpLtN644B r => some (44, r)
  | .cmpGeN644B r => some (45, r)
  | .fcmpLtF324B r => some (46, r)
  | .fcmpGeF324B r => some (47, r)
  | .faddF324B r => some (48, r)
  | .fsubF324B r => some (49, r)
  | .fmulF324B r => some (50, r)
  | .fminF324B r => some (51, r)
  | .fmaxF324B r => some (52, r)
  | .faddBf164B r => some (53, r)
  | .fmulBf164B r => some (54, r)
  | .frcpF324B r => some (55, r)
  | .shflUp4B r => some (56, r)
  | .shflDn4B r => some (57, r)
  | .shflXor4B r => some (58, r)
  | .shflIdx4B r => some (59, r)
  | .ballot4B r => some (60, r)
  | .voteAny4B r => some (61, r)
  | .voteAll4B r => some (62, r)
  | .lredAddF324B r => some (63, r)
  | _ => none

/-- OP6: operation, MOD and TYPE (R286). -/
def op6Entry : Nat → Op × BitVec 4 × Ty
  | 0 => (.mov, 0, .none)
  | 1 => (.movi, 0, .none)
  | 2 => (.and, 0, .none)
  | 3 => (.or, 0, .none)
  | 4 => (.xor, 0, .none)
  | 5 => (.andn, 0, .none)
  | 6 => (.shl, 0, .none)
  | 7 => (.shr, 0, .none)
  | 8 => (.add, 0, .i32)
  | 9 => (.add, 0, .n32)
  | 10 => (.add, 0, .i64)
  | 11 => (.add, 0, .n64)
  | 12 => (.sub, 0, .i32)
  | 13 => (.sub, 0, .n32)
  | 14 => (.sub, 0, .i64)
  | 15 => (.sub, 0, .n64)
  | 16 => (.mul, 0, .i32)
  | 17 => (.mul, 0, .n32)
  | 18 => (.mul, 0, .n64)
  | 19 => (.mulh, 0, .n32)
  | 20 => (.min, 0, .i32)
  | 21 => (.max, 0, .i32)
  | 22 => (.min, 0, .n32)
  | 23 => (.max, 0, .n32)
  | 24 => (.sar, 0, .i32)
  | 25 => (.sar, 0, .i64)
  | 26 => (.rot, 0, .none)
  | 27 => (.not, 0, .none)
  | 28 => (.popc, 0, .none)
  | 29 => (.clz, 0, .none)
  | 30 => (.neg, 0, .i32)
  | 31 => (.div, 0, .n32)
  | 32 => (.cmp, 0, .i32)
  | 33 => (.cmp, 1, .i32)
  | 34 => (.cmp, 2, .i32)
  | 35 => (.cmp, 5, .i32)
  | 36 => (.cmp, 0, .n32)
  | 37 => (.cmp, 1, .n32)
  | 38 => (.cmp, 2, .n32)
  | 39 => (.cmp, 5, .n32)
  | 40 => (.cmp, 0, .i64)
  | 41 => (.cmp, 1, .i64)
  | 42 => (.cmp, 2, .i64)
  | 43 => (.cmp, 4, .i64)
  | 44 => (.cmp, 2, .n64)
  | 45 => (.cmp, 5, .n64)
  | 46 => (.fcmp, 2, .f32)
  | 47 => (.fcmp, 5, .f32)
  | 48 => (.fadd, 0, .f32)
  | 49 => (.fsub, 0, .f32)
  | 50 => (.fmul, 0, .f32)
  | 51 => (.fmin, 0, .f32)
  | 52 => (.fmax, 0, .f32)
  | 53 => (.fadd, 0, .bf16)
  | 54 => (.fmul, 0, .bf16)
  | 55 => (.frcp, 0, .f32)
  | 56 => (.shfl, 0, .none)
  | 57 => (.shfl, 1, .none)
  | 58 => (.shfl, 2, .none)
  | 59 => (.shfl, 3, .none)
  | 60 => (.ballot, 0, .none)
  | 61 => (.vote, 0, .none)
  | 62 => (.vote, 1, .none)
  | _ => (.lred, 0, .f32)

/-- The OP6 value of an operation, MOD and TYPE. -/
def op6Index (o : Op) (m : BitVec 4) (t : Ty) : Option Nat :=
  (List.range 64).find? (fun n => decide (op6Entry n = (o, m, t)))

/-- The fields that a 2-byte form expands to (R284). -/
def twoFields (unary : Bool) (t : Ty) (d b : Fin 32) : Fields :=
  let vd := Sel.v (Fin.ofNat 128 d.val)
  let vb := Sel.v (Fin.ofNat 128 b.val)
  if unary then { form := .f2, ty := t, dst := vd, sa := vb }
  else { form := .f2, ty := t, dst := vd, sa := vd, sb := vb }

/-- The fields that a 4-byte form expands to (R284). FEP's bits are those of SA, SB and SC, high to low. -/
def Four.fields (r : Four) (m : BitVec 4) (t : Ty) : Fields :=
  { form := .f4, mod := m, ty := t, dst := .ofSel7 r.dst.toNat, sa := .ofSel7 r.sa.toNat, sb := .ofSel7 r.sb.toNat
    fep := BitVec.ofNat 3 (4 * r.fa.toNat + 2 * r.fb.toNat) }

/-! ### Lengths (R273) -/

/-- The length that the first byte gives. -/
def byteLength (b : Nat) : Nat :=
  if b < 0x80 then 2 else if b < 0xC0 then 4 else if b < 0xE0 then 6 else if b < 0xF0 then 8
  else if b == 0xF0 then 13 else 1

/-! ### The decoder -/

/-- Why bytes give no instruction; all but `truncated` become an ILLEGAL word (R277). -/
inductive DecodeError where
  /-- Fewer bytes than the first byte asks for. -/
  | truncated
  /-- A first byte from 0xF1 to 0xFF. -/
  | reservedFirstByte
  /-- A bit that the form requires to be zero is set. -/
  | zeroBitSet
  /-- OPC is unassigned. -/
  | unassignedOpcode (opc : Nat)
  /-- The word breaks its encoding table. -/
  | illFormed (op : Op)
deriving DecidableEq, Repr

/-- The instruction of an OPC and fields, when the word is well formed. -/
def fromWord (opc : Nat) (f : Fields) : Except DecodeError Instr :=
  match Op.base opc with
  | none => .error (.unassignedOpcode opc)
  | some o =>
    let op := o.refine f
    if wfWord op f then .ok (op.instr f) else .error (.illFormed op)

/-- An immediate of `n` bits, sign-extended to 32 (R284). -/
def sextImm (n x : Nat) : BitVec 32 := (BitVec.ofNat n x).signExtend 32

/-- SB of the forms 6C and 8A. -/
def immSb (opc : Nat) : Sel := if operandClass opc then .imm else .none

def decode6a (x : Nat) : Except DecodeError Instr :=
  fromWord (bits x 42 33)
    { form := .f6a, mod := BitVec.ofNat 4 (bits x 32 29), ty := .ofCode (bits x 28 25)
      pred := Fin.ofNat 8 (bits x 24 22), pn := bitAt x 21
      dst := .ofSel7 (bits x 20 14), sa := .ofSel7 (bits x 13 7), sb := .ofSel7 (bits x 6 0) }

def decode6b (x : Nat) : Except DecodeError Instr :=
  if bitAt x 28 then .error .zeroBitSet
  else fromWord (bits x 42 33)
    { form := .f6b, ty := .ofCode (bits x 32 29), dst := .ofSel7 (bits x 27 21), sa := .ofSel7 (bits x 20 14)
      sb := .ofSel7 (bits x 13 7), sc := .ofSel7 (bits x 6 0) }

def decode6c (x : Nat) : Except DecodeError Instr :=
  fromWord (bits x 43 34)
    { form := .f6c, ty := .ofCode (bits x 33 30), dst := .ofSel7 (bits x 29 23), sa := .ofSel7 (bits x 22 16)
      sb := immSb (bits x 43 34), imm := sextImm 16 (bits x 15 0) }

def decode8a (x : Nat) : Except DecodeError Instr :=
  if bits x 48 46 != 0 then .error .zeroBitSet
  else
    let e := op6Entry (bits x 58 53)
    fromWord e.1.opc
      { form := .f8a, mod := e.2.1, ty := e.2.2, pred := Fin.ofNat 8 (bits x 52 50), pn := bitAt x 49
        dst := .ofSel7 (bits x 45 39), sa := .ofSel7 (bits x 38 32), sb := immSb e.1.opc
        imm := BitVec.ofNat 32 (bits x 31 0) }

def decode8b (x : Nat) : Except DecodeError Instr :=
  fromWord (bits x 58 49)
    { form := .f8b, mod := BitVec.ofNat 4 (bits x 48 45), ty := .ofCode (bits x 44 41)
      aux := BitVec.ofNat 4 (bits x 40 39), scope := .ofCode (bits x 38 36)
      pred := Fin.ofNat 8 (bits x 35 33), pn := bitAt x 32
      dst := .ofSel7 (bits x 31 25), sa := .ofSel7 (bits x 24 18), sb := .ofSel7 (bits x 17 11)
      imm := sextImm 11 (bits x 10 0) }

/-- The fields of the internal word (R275). -/
def decode13 (x : Nat) : Except DecodeError Instr :=
  fromWord (bits x 95 86)
    { form := .f13, mod := BitVec.ofNat 4 (bits x 85 82), pred := Fin.ofNat 8 (bits x 81 79), pn := bitAt x 78
      dst := .ofByte (bits x 77 70), sa := .ofByte (bits x 69 62), sb := .ofByte (bits x 61 54)
      sc := .ofByte (bits x 53 46), fep := BitVec.ofNat 3 (bits x 45 43), scope := .ofCode (bits x 42 40)
      ty := .ofCode (bits x 39 36), aux := BitVec.ofNat 4 (bits x 35 32), imm := BitVec.ofNat 32 (bits x 31 0) }

def decode4 (x : Nat) : Except DecodeError Instr :=
  if bitAt x 21 then .error .zeroBitSet
  else .ok (fourInstr (bits x 29 24)
    { fa := bitAt x 23, fb := bitAt x 22, dst := BitVec.ofNat 7 (bits x 20 14), sa := BitVec.ofNat 7 (bits x 13 7)
      sb := BitVec.ofNat 7 (bits x 6 0) })

def decode2 (x : Nat) : Except DecodeError Instr :=
  .ok (twoInstr (bits x 14 10) (Fin.ofNat 32 (bits x 9 5)) (Fin.ofNat 32 (bits x 4 0)))

/-- The instruction of the integer F of an instruction of `k` bytes. -/
def decodeF (k x : Nat) : Except DecodeError Instr :=
  match k with
  | 2 => decode2 x
  | 4 => decode4 x
  | 6 => if bitAt x 44 then decode6c x else if bitAt x 43 then decode6b x else decode6a x
  | 8 => if bitAt x 59 then decode8b x else decode8a x
  | 13 => decode13 x
  | _ => .error .reservedFirstByte

/-- The instruction at the head of a byte string, and its length. -/
def decode (bs : List Byte) : Except DecodeError (Instr × Nat) :=
  match bs with
  | [] => .error .truncated
  | b :: _ =>
    let k := byteLength b.toNat
    if bs.length < k then .error .truncated
    else (decodeF k (beValue (bs.take k))).map (fun i => (i, k))

/-! ### The encoder -/

/-- The length of a form. -/
def Form.length : Form → Nat
  | .f2 => 2 | .f4 => 4 | .f6a | .f6b | .f6c => 6 | .f8a | .f8b => 8 | .f13 => 13

/-- F of a main instruction in its form. -/
def encodeF (op : Op) (f : Fields) : Option Nat := do
  let g := f.pred.val * 2 + f.pn.toNat
  match f.form with
  | .f6a =>
    let d ← f.dst.sel7
    let a ← f.sa.sel7
    let b ← f.sb.sel7
    some (0b110 * 2 ^ 45 + op.opc * 2 ^ 33 + f.mod.toNat * 2 ^ 29 + f.ty.code * 2 ^ 25 + g * 2 ^ 21 +
      d * 2 ^ 14 + a * 2 ^ 7 + b)
  | .f6b =>
    let d ← f.dst.sel7
    let a ← f.sa.sel7
    let b ← f.sb.sel7
    let c ← f.sc.sel7
    some (0b110 * 2 ^ 45 + 2 ^ 43 + op.opc * 2 ^ 33 + f.ty.code * 2 ^ 29 + d * 2 ^ 21 + a * 2 ^ 14 + b * 2 ^ 7 + c)
  | .f6c =>
    let d ← f.dst.sel7
    let a ← f.sa.sel7
    some (0b110 * 2 ^ 45 + 2 ^ 44 + op.opc * 2 ^ 34 + f.ty.code * 2 ^ 30 + d * 2 ^ 23 + a * 2 ^ 16 +
      f.imm.toNat % 2 ^ 16)
  | .f8a =>
    let d ← f.dst.sel7
    let a ← f.sa.sel7
    let n ← op6Index op f.mod f.ty
    some (0b1110 * 2 ^ 60 + n * 2 ^ 53 + g * 2 ^ 49 + d * 2 ^ 39 + a * 2 ^ 32 + f.imm.toNat)
  | .f8b =>
    let d ← f.dst.sel7
    let a ← f.sa.sel7
    let b ← f.sb.sel7
    some (0b1110 * 2 ^ 60 + 2 ^ 59 + op.opc * 2 ^ 49 + f.mod.toNat * 2 ^ 45 + f.ty.code * 2 ^ 41 +
      f.aux.toNat * 2 ^ 39 + f.scope.code * 2 ^ 36 + g * 2 ^ 32 + d * 2 ^ 25 + a * 2 ^ 18 + b * 2 ^ 11 +
      f.imm.toNat % 2 ^ 11)
  | .f13 =>
    some (0xF0 * 2 ^ 96 + op.opc * 2 ^ 86 + f.mod.toNat * 2 ^ 82 + g * 2 ^ 78 + f.dst.byte * 2 ^ 70 +
      f.sa.byte * 2 ^ 62 + f.sb.byte * 2 ^ 54 + f.sc.byte * 2 ^ 46 + f.fep.toNat * 2 ^ 43 + f.scope.code * 2 ^ 40 +
      f.ty.code * 2 ^ 36 + f.aux.toNat * 2 ^ 32 + f.imm.toNat)
  | .f2 | .f4 => none

/-- The bytes of an instruction; a device step has none. -/
def encode (i : Instr) : Option (List Byte) :=
  match i.two?, i.four?, i.word? with
  | some (n, d, b), _, _ => some (beBytes 2 (n * 2 ^ 10 + d.val * 2 ^ 5 + b.val))
  | _, some (n, r), _ =>
    some (beBytes 4 (0b10 * 2 ^ 30 + n * 2 ^ 24 + r.fa.toNat * 2 ^ 23 + r.fb.toNat * 2 ^ 22 + r.dst.toNat * 2 ^ 14 +
      r.sa.toNat * 2 ^ 7 + r.sb.toNat))
  | _, _, some (op, f) => (encodeF op f).map (beBytes f.form.length)
  | _, _, _ => none

/-- A selector that some byte names: `rsv` holds only reserved bytes (R276). -/
def Sel.canonical (x : Sel) : Bool := decide (Sel.ofByte x.byte = x)

/-- Fields that a form has no room for hold what its expansion gives (R284), and every selector is one that the
form can name. -/
def fieldsFit (op : Op) (f : Fields) : Bool :=
  let bare := f.fep == 0 && f.scope == .none && f.aux == 0
  let noGuard := f.pred == 0 && !f.pn
  match f.form with
  | .f6a => bare && f.imm == 0 && f.sc == .none && [f.dst, f.sa, f.sb].all (·.sel7.isSome)
  | .f6b => bare && noGuard && f.mod == 0 && f.imm == 0 && [f.dst, f.sa, f.sb, f.sc].all (·.sel7.isSome)
  | .f6c => bare && noGuard && f.mod == 0 && f.sb == immSb op.opc && f.sc == .none &&
      [f.dst, f.sa].all (·.sel7.isSome) && f.imm == sextImm 16 (f.imm.toNat % 2 ^ 16)
  | .f8a => bare && f.sb == immSb op.opc && f.sc == .none && [f.dst, f.sa].all (·.sel7.isSome) &&
      (op6Index op f.mod f.ty).isSome
  | .f8b => f.fep == 0 && f.sc == .none && decide (f.aux.toNat < 4) && [f.dst, f.sa, f.sb].all (·.sel7.isSome) &&
      f.imm == sextImm 11 (f.imm.toNat % 2 ^ 11)
  | .f13 => [f.dst, f.sa, f.sb, f.sc].all Sel.canonical
  | .f2 | .f4 => false

/-- The instruction has an encoding in the form it names. -/
def Instr.encodable (i : Instr) : Bool :=
  match i.word? with
  | some (op, f) => fieldsFit op f
  | none => i.two?.isSome || i.four?.isSome

/-! ### The opcode table's numbering -/

/-- The decoder on an instruction whose first `nbits` bits are `w` in the opcode table's numbering, which is that of F
(R273): the first byte is the most significant one. Every later byte is zero. -/
def decodeTableWord (nbits w : Nat) : Option Instr :=
  match decode (beBytes (nbits / 8) w ++ List.replicate 13 0) with
  | .ok (i, _) => some i
  | .error _ => none

end Sys2Proof
end

