-- ==== Sys2Proof/Machine/Maps.lean ====
section
/-! DEFINITION. Maps in rising order of keys, and byte memories in canonical form (R1, R22). -/

namespace Sys2Proof.Machine

/-! ### Maps -/

def Map.find {α : Type} (m : Map α) (k : Nat) : Option α :=
  match m with
  | [] => none
  | (j, x) :: t => if j == k then some x else Map.find t k

/-- The map with `k` bound to `x`. -/
def Map.insert {α : Type} (m : Map α) (k : Nat) (x : α) : Map α :=
  match m with
  | [] => [(k, x)]
  | (j, y) :: t => if k < j then (k, x) :: (j, y) :: t else if j == k then (k, x) :: t else (j, y) :: Map.insert t k x

def Map.erase {α : Type} (m : Map α) (k : Nat) : Map α := m.filter (fun e => e.1 != k)

/-- The map with `fn` applied to the value of `k`, where there is one. -/
def Map.modify {α : Type} (m : Map α) (k : Nat) (fn : α → α) : Map α :=
  m.map (fun e => if e.1 == k then (e.1, fn e.2) else e)

/-! ### Byte memories -/

/-- What a byte that nothing has written reads as (log 3). -/
def unwritten : Byte := 0

/-- The byte at `a`. -/
def Memory.read (m : Memory) (a : Nat) : Byte :=
  match m with
  | [] => unwritten
  | (j, x) :: t => if j == a then x else Memory.read t a

/-- The memory with `x` at `a`; an unwritten value leaves no cell. -/
def Memory.write (m : Memory) (a : Nat) (x : Byte) : Memory :=
  match m with
  | [] => if x == unwritten then [] else [(a, x)]
  | (j, y) :: t =>
    if a < j then (if x == unwritten then (j, y) :: t else (a, x) :: (j, y) :: t)
    else if j == a then (if x == unwritten then t else (a, x) :: t)
    else (j, y) :: Memory.write t a x

/-- The canonical form: addresses strictly rising, no cell equal to what an unlisted address reads as. -/
def Memory.wf : Memory → Bool
  | [] => true
  | (a, x) :: t => x != unwritten && (match t with
    | [] => true
    | (b, _) :: _ => decide (a < b)) && Memory.wf t

/-- The `n` bytes at `a`, lowest first. -/
def Memory.readBytes (m : Memory) (a n : Nat) : List Byte := (List.range n).map (fun i => m.read (a + i))

/-- The little-endian value of the `n` bytes at `a`. -/
def Memory.readLe (m : Memory) (a n : Nat) : Nat := leValue (m.readBytes a n)

/-- The memory with `bs` from `a` upward. -/
def Memory.writeBytes (m : Memory) (a : Nat) : List Byte → Memory
  | [] => m
  | b :: bs => Memory.writeBytes (m.write a b) (a + 1) bs

end Sys2Proof.Machine
end

