-- ==== Sys2Proof/Machine/Flags.lean ====
section
/-! DEFINITION. The flag sets (spec/02_numbers.md R38, R39) and the CRC functions: SIG and CRC-32C (spec/07_region.md R122),
CRC-24 (spec/13_stash.md R229). -/

namespace Sys2Proof.Machine

/-- One step of a reflected CRC with polynomial `poly`. -/
def crcStep (poly c : Nat) (b : Bool) : Nat :=
  let c := c ^^^ b.toNat
  if c % 2 == 1 then (c >>> 1) ^^^ poly else c >>> 1

/-- CRC over the `n` low bits of `v`, least significant first. -/
def crcBits (poly : Nat) : Nat → Nat → Nat → Nat
  | 0, _, c => c
  | n + 1, v, c => crcBits poly n (v / 2) (crcStep poly c (v % 2 == 1))

/-- CRC(c, value, nbits) of R122. -/
def sigCrc (c v n : Nat) : Nat := crcBits 0x82F63B78 n v c

/-- CRC24 of R229 over `n` bits. -/
def crc24 (v n : Nat) : Nat := crcBits 0xDF3261 n v 0

/-- CRC-32C of a byte string, with the usual initial and final inversion: images (R56, R57), the drain index (R61) and link
flits (R237). -/
def crc32c (bs : List Byte) : Nat :=
  (bs.foldl (fun c b => crcBits 0x82F63B78 8 b.toNat c) 0xFFFFFFFF) ^^^ 0xFFFFFFFF

/-- SIG after an instruction of OPC and MOD issues in node 1 (R122). -/
def sigIssue (sig : W32) (opc md : Nat) : W32 := BitVec.ofNat 32 (sigCrc sig.toNat (opc * 16 + md) 14)

/-- SIG after the split of node 1 (event 1) or the merge into node 1 (event 2) (R122). -/
def sigEvent (sig : W32) (e : Nat) : W32 := BitVec.ofNat 32 (sigCrc sig.toNat e 2)

/-! ### The sticky flags of one element or lane (R38) -/

structure FpFlags where
  nv : Bool := false
  dz : Bool := false
  of : Bool := false
  uf : Bool := false
  nx : Bool := false
deriving DecidableEq, Repr

def FpFlags.or (a b : FpFlags) : FpFlags :=
  { nv := a.nv || b.nv, dz := a.dz || b.dz, of := a.of || b.of, uf := a.uf || b.uf, nx := a.nx || b.nx }

/-- The mask of the lanes below 64 that satisfy `p`. -/
def maskOf (p : Nat → Bool) : Mask :=
  BitVec.ofNat 64 ((List.range 64).foldl (fun a i => if p i then a + 2 ^ i else a) 0)

/-- The five sets that per-lane flags raise, in the order NV, DZ, OF, UF, NX (R38). -/
def flagSets (fl : Nat → FpFlags) : List Mask :=
  [maskOf (fun i => (fl i).nv), maskOf (fun i => (fl i).dz), maskOf (fun i => (fl i).of), maskOf (fun i => (fl i).uf),
   maskOf (fun i => (fl i).nx)]

/-- FL with further bits set: flags are sticky (R38). -/
def raiseFlags (fl new : List Mask) : List Mask := fl.mapIdx (fun i x => x ||| new.getD i 0)

end Sys2Proof.Machine
end

