-- ==== Sys2Proof/Machine/Operands.lean ====
section
/-! DEFINITION. Operand forms: which registers an instruction reads and writes, how each operand form reads, and how results
are written (spec/17_encoding.md R276, spec/19_ref_compute.md R316, spec/02_numbers.md R23, R32, R33, spec/06_group.md R92 to R94, R100). -/

namespace Sys2Proof.Machine

/-! ### Tags (R32) -/

/-- The tag of a type. -/
def tagOf : Ty → BitVec 4
  | .none => 0 | .i32 => 1 | .n32 => 2 | .f32 => 3 | .bf16 => 4 | .f16 => 5 | .i16 => 6 | .n16 => 7 | .i8 => 8 | .n8 => 9
  | .sx2 => 10 | .sx4 => 11 | .sx7 => 12 | .i64 => 13 | .n64 => 14 | .rsv => 15

def tagN32 : BitVec 4 := 2
def tagRaw : BitVec 4 := 0

/-! ### Registers of a group -/

/-- A vector register as a group finds it at its start (R81). -/
def VReg.zero : VReg := { lanes := List.replicate 64 0, tag := 0, full := true }

def SReg.zero : SReg := { val := 0, full := true }

def vreg (g : Group) (n : Nat) : VReg := g.vregs.getD n VReg.zero
def sreg (g : Group) (n : Nat) : SReg := g.sregs.getD n SReg.zero
def setV (g : Group) (n : Nat) (r : VReg) : Group := { g with vregs := g.vregs.set n r }
def setS (g : Group) (n : Nat) (r : SReg) : Group := { g with sregs := g.sregs.set n r }

/-- Lane `i` of a vector register. -/
def laneOf (r : VReg) (i : Nat) : W32 := r.lanes.getD i 0

/-- The lanes 0 to 63 that `fn` gives. -/
def lanesOf (fn : Nat → W32) : List W32 := (List.range 64).map fn

/-- A register name that an operand stands for. -/
inductive Reg where
  | v (n : Nat) | s (n : Nat)
deriving DecidableEq, Repr

/-- The `n` registers from a selector's register upward; a scalar register is one whatever `n` (R23, R316). -/
def regsFrom (n : Nat) : Sel → List Reg
  | .v k => (List.range n).map (fun i => .v (k.val + i))
  | .s k => [.s k.val]
  | _ => []

def Reg.full (g : Group) : Reg → Bool
  | .v n => (vreg g n).full
  | .s n => (sreg g n).full

/-- The register lies in the group's budget (R18). -/
def Reg.inBudget (g : Group) : Reg → Bool
  | .v n => decide (n < g.v)
  | .s n => decide (n < g.s)

/-- The register is protected by counts P and Q (R112). -/
def Reg.protectedBy (p q : Nat) : Reg → Bool
  | .v n => decide (n < p)
  | .s n => decide (n < q)

def Reg.tagIs (g : Group) (t : BitVec 4) : Reg → Bool
  | .v n => (vreg g n).tag == t
  | .s _ => true

/-- SetEmpty (R296). -/
def setEmpty (g : Group) : Reg → Group
  | .v n => setV g n { vreg g n with full := false }
  | .s n => setS g n { sreg g n with full := false }

/-- Marks a register full with its bits as they stand (R102). -/
def markFull (g : Group) : Reg → Group
  | .v n => setV g n { vreg g n with full := true }
  | .s n => setS g n { sreg g n with full := true }

/-- Tag(reg, t) (R296). -/
def setTag (t : BitVec 4) (g : Group) : Reg → Group
  | .v n => setV g n { vreg g n with tag := t }
  | .s _ => g

/-! ### Predicates and lane masks (R92, R93, R39) -/

/-- A predicate: p0 reads as all ones (R93). -/
def predOf (g : Group) (n : Nat) : Mask := if n == 0 then BitVec.allOnes 64 else g.preds.getD (n - 1) 0

/-- A predicate written; p0 discards the write (R93). -/
def setPred (g : Group) (n : Nat) (x : Mask) : Group :=
  if n == 0 then g else { g with preds := g.preds.set (n - 1) x }

/-- Writing a predicate destination selector. -/
def writePred (g : Group) (d : Sel) (x : Mask) : Group :=
  match d with
  | .p n => setPred g n.val x
  | _ => g

/-- The W bits of a predicate, an FL set or EM. -/
def maskRead (g : Group) (em : Mask) : Sel → Mask
  | .p n => predOf g n.val
  | .fl n => g.fl.getD n.val 0
  | .em => em
  | _ => 0

/-- The guard's bit in every lane. -/
def guardMask (g : Group) (f : Fields) : Mask :=
  if f.pn then ~~~(predOf g f.pred.val) else predOf g f.pred.val

/-- The lanes for which Active(lane) holds (R296). -/
def activeMask (g : Group) (em : Mask) (f : Fields) : Mask := em &&& guardMask g f

/-- SGuard() (R296). -/
def sGuard (g : Group) (em : Mask) (f : Fields) : Bool :=
  (f.pred == 0 && !f.pn) || ((guardMask g f).getLsbD 0 && em != 0)

/-! ### Reading operands (R276, R316) -/

/-- A scalar operand of 64 bits. -/
def readS (g : Group) (f : Fields) : Sel → W64
  | .s n => (sreg g n.val).val
  | .imm => f.imm.signExtend 64
  | .immLo => BitVec.ofNat 64 (bits f.imm.toNat 15 0)
  | .immHi => BitVec.ofNat 64 (bits f.imm.toNat 31 16)
  | _ => 0

/-- The 32-bit value of an operand in lane `i` of a vector instruction. -/
def readLane (g : Group) (f : Fields) (x : Sel) (i : Nat) : W32 :=
  match x with
  | .v n => laneOf (vreg g n.val) i
  | .imm => f.imm
  | x => (readS g f x).setWidth 32

/-- The 64-bit value of an operand in lane `i`: a register pair, low word in the even register (R23). -/
def readPair (g : Group) (f : Fields) (x : Sel) (i : Nat) : W64 :=
  match x with
  | .v n => laneOf (vreg g (n.val + 1)) i ++ laneOf (vreg g n.val) i
  | x => readS g f x

/-- An operand of a lane as 64 bits: a pair for a wide type, else the 32-bit lane with zeros above. -/
def readWide (wide : Bool) (g : Group) (f : Fields) (x : Sel) (i : Nat) : W64 :=
  if wide then readPair g f x i else (readLane g f x i).setWidth 64

/-! ### Writing results (R33, R316) -/

/-- A vector register with the lanes of `m` replaced, the others kept, under a tag. -/
def vput (r : VReg) (m : Mask) (t : BitVec 4) (fn : Nat → W32) : VReg :=
  { r with lanes := lanesOf (fun i => if m.getLsbD i then fn i else laneOf r i), tag := t }

/-- A vector destination written in the lanes of `m`; a wide result fills the pair. -/
def writeV (g : Group) (d : Sel) (wide : Bool) (m : Mask) (t : BitVec 4) (fn : Nat → W64) : Group :=
  match d with
  | .v n =>
    let g := setV g n.val (vput (vreg g n.val) m t (fun i => (fn i).setWidth 32))
    if wide then setV g (n.val + 1) (vput (vreg g (n.val + 1)) m t (fun i => ((fn i) >>> 32).setWidth 32)) else g
  | _ => g

/-- A scalar destination written: SetFull with the value. -/
def writeS (g : Group) (d : Sel) (x : W64) : Group :=
  match d with
  | .s n => setS g n.val { val := x, full := true }
  | _ => g

/-- A 32-bit scalar result: sign-extended for .i32, zero-extended otherwise (R316). -/
def extend32 (t : Ty) (x : W32) : W64 := if t == .i32 then x.signExtend 64 else x.setWidth 64

/-! ### Footprints: what an instruction reads and writes (R33, R100, R101) -/

/-- A source field: its registers, its FEP bit, and the tag its vector registers must carry. -/
structure Src where
  regs : List Reg
  trap : Bool
  tag : Option (BitVec 4)
deriving DecidableEq, Repr

/-- The FEP bits of SA, SB and SC (R101). -/
def Fields.fepA (f : Fields) : Bool := f.fep.getLsbD 2
def Fields.fepB (f : Fields) : Bool := f.fep.getLsbD 1
def Fields.fepC (f : Fields) : Bool := f.fep.getLsbD 0

/-- The registers per operand of a type. -/
def tyRegs (t : Ty) : Nat := if t.w64 then 2 else 1

/-- The source fields SA, SB and SC with `n` registers each and a tag. -/
def srcA (f : Fields) (n : Nat) (t : Option (BitVec 4)) : Src := { regs := regsFrom n f.sa, trap := Fields.fepA f, tag := t }
def srcB (f : Fields) (n : Nat) (t : Option (BitVec 4)) : Src := { regs := regsFrom n f.sb, trap := Fields.fepB f, tag := t }
def srcC (f : Fields) (n : Nat) (t : Option (BitVec 4)) : Src := { regs := regsFrom n f.sc, trap := Fields.fepC f, tag := t }

/-- The lanes' data registers of a store or atomic: a pair for a 64-bit type in a vector register. -/
def dataRegs (f : Fields) (x : Sel) : List Reg := regsFrom (tyRegs f.ty) x

/-- The scalar registers that `post` reads: sN to sN + 3 (R383). -/
def postRegs : Sel → List Reg
  | .s n => (List.range 4).map (fun i => .s (n.val + i))
  | _ => []

/-- The link register of `call` and `ret`: s(S - 4) when none is named (R297). -/
def linkReg (s : Nat) (x : Sel) : List Reg := if x.isNone then [.s (s - 4)] else regsFrom 1 x

/-- The sources of an instruction in a group of scalar budget `s`. -/
def sources (s : Nat) (op : Op) (f : Fields) : List Src :=
  let w := tyRegs f.ty
  let ty : Option (BitVec 4) := some (tagOf f.ty)
  let sty : Option (BitVec 4) := some (tagOf f.srcTy)
  match op with
  | .nop | .bra | .brc | .brd | .fuse | .call | .exit | .yield | .brk | .region | .commit | .sigchk | .sigrst | .trap
  | .rdspec | .flclr | .movFromQueue | .movi | .ballot | .vote | .firstLane | .pand | .por | .pxor | .pnot | .pcnt
  | .fence | .fprobe | .barq | .tfree | .tstat => []
  | .jmpi | .sleepClk | .movem | .wrspec | .fmode | .pmov => [srcA f 1 none]
  | .ret => [{ regs := linkReg s f.sa, trap := !f.sa.isNone && Fields.fepA f, tag := none }]
  | .eret => [{ regs := [.s (s - 3)], trap := false, tag := none }]
  | .laneget => [srcA f w none, srcB f 1 none]
  | .laneset => [srcA f 1 none, srcB f 1 none]
  | .mov => [srcA f w none]
  | .and | .or | .xor | .andn | .shl | .shr | .rot => [srcA f 1 none, srcB f 1 none]
  | .not | .clz | .popc | .brev => [srcA f 1 none]
  | .bfe | .bfi => [srcA f 1 none, srcB f 1 none, srcC f 1 none]
  | .sel => [srcB f w none, srcC f w none]
  | .add | .sub | .mul | .min | .max | .addc | .mulh | .div | .rem | .sar | .cmp | .lea | .fadd | .fsub | .fmul | .fmin
  | .fmax | .fcmp => [srcA f w ty, srcB f w ty]
  | .mad | .ffma => [srcA f w ty, srcB f w ty, srcC f w ty]
  | .neg | .abs | .fabs | .fneg | .fclass | .frnd | .frcp | .frsq | .fsqrt | .fexp2 | .flog2 | .fsin | .fcos | .ftanh =>
    [srcA f w ty]
  | .fdot2 => [srcA f 2 ty, srcB f 2 ty, srcC f 1 ty]
  | .cvt => [srcA f (tyRegs f.srcTy) sty]
  | .pack => [srcA f 1 sty, srcB f 1 sty]
  | .unpack => [srcA f 1 sty]
  | .sxq => [srcA f (sxqAlign f.srcTy) sty]
  | .sxd => [srcA f 1 sty, srcB f 1 (some tagRaw)]
  | .tag | .tagof => [srcA f 1 none]
  | .shfl | .bcast => [srcA f w none, srcB f 1 none]
  | .lred | .scan => [srcA f w ty]
  | .matchKeys => [srcA f w (if f.aux == 1 then ty else none)]
  | .ld | .pref => [srcA f 2 none]
  | .st | .mred => [srcA f 2 none, { regs := dataRegs f f.sb, trap := Fields.fepB f, tag := none }]
  | .lds => [srcA f 1 none]
  | .sts => [srcA f 1 none, { regs := dataRegs f f.sb, trap := Fields.fepB f, tag := none }]
  | .clean | .inval | .clinv => [srcA f 1 none, srcB f 1 none]
  | .atom => [srcA f 2 none, { regs := dataRegs f f.sb, trap := Fields.fepB f, tag := none },
      { regs := if f.mod == 7 then dataRegs f f.sc else [], trap := Fields.fepC f, tag := none }]
  | .waitc => [srcA f 1 none, srcB f 1 none]
  | .bara | .bars => [srcA f 1 none]
  | .talloc | .tset => [srcA f 1 none, srcB f 1 none]
  | .cpyMm => [{ regs := regsFrom 1 f.dst, trap := false, tag := none }, srcA f 1 none, srcB f 1 none, srcC f 1 none]
  | .mma => [srcA f 1 none, srcC f 1 none]
  | .mzero => [srcC f 1 none]
  | .cpyIn | .cpyOut | .mload | .mdrain | .mdrainAdd | .stash | .restore | .xrun | .xgate =>
    [srcA f 1 none, srcB f 1 none, srcC f 1 none]
  | .xcfg | .xpool | .xration | .xstat => [srcA f 1 none]
  | .post => [{ regs := postRegs f.sa, trap := Fields.fepA f, tag := none }, srcC f 1 none]

/-- The registers an instruction writes. -/
def dests (s : Nat) (op : Op) (f : Fields) : List Reg :=
  let w := tyRegs f.ty
  match op with
  | .call => linkReg s f.dst
  | .sxq => regsFrom 1 f.dst ++ regsFrom 1 f.sb
  | .sxd => regsFrom 4 f.dst
  | .cpyMm => []
  | .rdspec | .laneget | .fmode | .tagof | .ballot | .firstLane | .pcnt | .barq | .tstat | .xstat | .waitc | .lred
  | .and | .or | .xor | .andn | .shl | .shr | .rot | .not | .clz | .popc | .brev | .bfe | .bfi | .tag | .pack | .fclass =>
    regsFrom 1 f.dst
  | .laneset | .mov | .movi | .add | .sub | .mul | .min | .max | .addc | .mulh | .div | .rem | .mad | .neg | .abs | .sar
  | .sel | .lea | .fadd | .fsub | .fmul | .fmin | .fmax | .ffma | .fabs | .fneg | .frnd | .frcp | .frsq | .fsqrt | .fexp2
  | .flog2 | .fsin | .fcos | .ftanh | .fdot2 | .cvt | .unpack | .shfl | .scan | .bcast | .ld | .lds | .atom | .movFromQueue =>
    regsFrom w f.dst
  | _ => []

/-- The tag of a vector source; RAW of anything else. -/
def copiedTag (g : Group) : Sel → BitVec 4
  | .v n => (vreg g n.val).tag
  | _ => tagRaw

/-- The result tag of `sel`: the common tag of two vectors, the tag of the only vector, RAW otherwise. -/
def selTag (g : Group) (b c : Sel) : BitVec 4 :=
  match b, c with
  | .v m, .v n => if (vreg g m.val).tag == (vreg g n.val).tag then (vreg g m.val).tag else tagRaw
  | .v m, _ => (vreg g m.val).tag
  | _, .v n => (vreg g n.val).tag
  | _, _ => tagRaw

/-- The instruction would set tag 15, which only a restored image can have brought: it copies it to a vector register (R32, R33). -/
def setsTag15 (g : Group) (op : Op) (f : Fields) : Bool :=
  f.dst.isV &&
    match op with
    | .mov | .shfl | .bcast => copiedTag g f.sa == 15
    | .sel => selTag g f.sb f.sc == 15
    | _ => false

/-- The queue that a q selector names. -/
def queueNo : Sel → Nat
  | .q n => n.val
  | _ => 0

/-- The oldest entry of a queue that no pop has taken (R76). -/
def oldestCmd (g : Group) (q : Nat) : Option Command := (g.queues.getD q []).find? (fun c => !c.popped)

/-- A pop meets an empty queue, or under `^` a record that has not arrived (R77). -/
def emptyQueue (g : Group) (f : Fields) : Bool :=
  match oldestCmd g (queueNo f.sa) with
  | none => true
  | some c => Fields.fepA f && c.st != .done

/-- The instruction reads an FL set (R39). -/
def readsFlags (op : Op) (f : Fields) : Bool :=
  let fl : Sel → Bool := fun x => match x with
    | .fl _ => true
    | _ => false
  match op with
  | .flclr => true
  | .brc | .brd | .movem | .sel | .ballot | .vote | .firstLane | .lred | .pnot | .pmov | .pcnt => fl f.sa
  | .pand | .por | .pxor => fl f.sa || fl f.sb
  | _ => false

/-! ### The instruction that a form stands for (R284 to R286) -/

/-- OP5: operation, type, and whether the form is unary (R285). -/
def op5Entry : Nat → Op × Ty × Bool
  | 0 => (.mov, .none, true)
  | 1 => (.not, .none, true)
  | 2 => (.and, .none, false)
  | 3 => (.or, .none, false)
  | 4 => (.xor, .none, false)
  | 5 => (.andn, .none, false)
  | 6 => (.shl, .none, false)
  | 7 => (.shr, .none, false)
  | 8 => (.add, .i32, false)
  | 9 => (.add, .n32, false)
  | 10 => (.sub, .i32, false)
  | 11 => (.sub, .n32, false)
  | 12 => (.mul, .i32, false)
  | 13 => (.mul, .n32, false)
  | 14 => (.min, .i32, false)
  | 15 => (.max, .i32, false)
  | 16 => (.min, .n32, false)
  | 17 => (.max, .n32, false)
  | 18 => (.sar, .i32, false)
  | 19 => (.neg, .i32, true)
  | 20 => (.add, .i16, false)
  | 21 => (.add, .i8, false)
  | 22 => (.abs, .i32, true)
  | 23 => (.fneg, .f32, true)
  | 24 => (.fadd, .f32, false)
  | 25 => (.fsub, .f32, false)
  | 26 => (.fmul, .f32, false)
  | 27 => (.fmin, .f32, false)
  | 28 => (.fmax, .f32, false)
  | 29 => (.fadd, .bf16, false)
  | 30 => (.fmul, .bf16, false)
  | _ => (.fabs, .f32, true)

/-- The operation and fields of an instruction: those of its own word, or those that its short form expands to. -/
def Instr.expand (i : Instr) : Option (Op × Fields) :=
  match i.word?, i.two?, i.four? with
  | some w, _, _ => some w
  | none, some (n, d, b), _ => some ((op5Entry n).1, twoFields (op5Entry n).2.2 (op5Entry n).2.1 d b)
  | none, none, some (n, r) => some ((op6Entry n).1, Four.fields r (op6Entry n).2.1 (op6Entry n).2.2)
  | none, none, none => none

/-! ### Issue slots (R103, R317) -/

inductive Slot where
  | v | x | m | s
deriving DecidableEq, Repr

/-- The slot an instruction issues from. -/
def slotOf (op : Op) (f : Fields) : Slot :=
  match op with
  | .movFromQueue => .m
  | .laneget | .laneset => .x
  | .div | .rem => if f.dst.isV then .x else .s
  | .cmp => if f.sa.isV || f.sb.isV then .v else .s
  | .frcp | .frsq | .fsqrt | .fexp2 | .flog2 | .fsin | .fcos | .ftanh | .sxq | .sxd | .shfl | .ballot | .vote | .lred | .scan
  | .matchKeys | .bcast | .firstLane => .x
  | .cvt | .pack | .unpack | .tag | .tagof | .fadd | .fsub | .fmul | .ffma | .fmin | .fmax | .fabs | .fneg | .fcmp | .fclass
  | .frnd | .fdot2 => .v
  | .mov | .movi | .add | .sub | .addc | .mul | .mulh | .mad | .neg | .abs | .min | .max | .and | .or | .xor | .not | .andn
  | .shl | .shr | .sar | .rot | .clz | .popc | .brev | .bfe | .bfi | .sel | .lea => if f.dst.isV then .v else .s
  | .nop | .bra | .brc | .brd | .fuse | .jmpi | .call | .ret | .exit | .yield | .sleepClk | .movem | .brk | .region
  | .commit | .sigchk | .sigrst | .trap | .eret | .rdspec | .wrspec | .fmode | .flclr | .pand | .por | .pxor | .pnot | .pmov
  | .pcnt => .s
  | .ld | .st | .lds | .sts | .pref | .clean | .inval | .clinv | .fence | .fprobe | .atom | .mred | .waitc | .bara | .bars
  | .barq | .talloc | .tfree | .tstat | .tset | .cpyIn | .cpyOut | .cpyMm | .mma | .mzero | .mload | .mdrain | .mdrainAdd
  | .stash | .restore | .xcfg | .xpool | .xration | .xrun | .xgate | .xstat | .post => .m

def Slot.code : Slot → Nat
  | .v => 0 | .x => 1 | .m => 2 | .s => 3

/-- The slot of a fetched instruction; a pop through a two- or four-byte `mov` is one of its queue (R103). A word that is no instruction goes through
the scalar slot, and so does one that is ill formed (R277; log 72). -/
def instrSlot (i : Instr) : Nat :=
  match Instr.expand i with
  | some (op, f) =>
    let op := if op == .mov && f.sa.isQ then .movFromQueue else op
    if wfWord op f then (slotOf op f).code else Slot.s.code
  | none => Slot.s.code

/-- The partition clocks that a partition has had (R12). -/
def partClock (c : Core) (part : Nat) : Nat := c.phases.getD part 0 / 8

/-- The partition's clock ends with the core's next clk. -/
def clockTurns (c : Core) (part : Nat) : Bool := (c.phases.getD part 0 + c.ratios.getD part 8) / 8 != partClock c part

/-- A core's partitions after a further clk: r eighths of a clock have elapsed in each, and a change of r takes effect where one ends (R12, R13). -/
def Core.tickParts (c : Core) : Core :=
  { c with
    phases := (List.range 4).map (fun p => c.phases.getD p 0 + c.ratios.getD p 8)
    ratios := (List.range 4).map (fun p => if clockTurns c p then c.ratiosSet.getD p 8 else c.ratios.getD p 8) }

/-- A slot of a partition of a core, by number. -/
def slotKey (core part slot : Nat) : Nat := (core * 4 + part) * 4 + slot

/-- The lowest ALLOW_LEVEL at which the instruction is withheld, for a team whose PRIO is the highest on its core or not
(R106). -/
def withheldFrom (op : Op) (f : Fields) (topPrio : Bool) : Nat :=
  match op with
  | .mma | .mzero | .mload | .mdrain | .mdrainAdd => if topPrio then 3 else 2
  | .cpyIn | .cpyOut | .cpyMm | .stash | .restore => 4
  | .fadd | .fsub | .fmul | .ffma | .fdot2 => 5
  | .mul | .mulh | .mad => if f.dst.isV then 5 else 7
  | op => if slotOf op f == .s then 7 else 6

/-- What an issue subtracts from the allowance (R256); an ILLEGAL word issues from the S slot (R277). -/
def issueCharge (op : Op) (f : Fields) : Nat :=
  if !wfWord op f then 2 else
  match slotOf op f with
  | .s => 2
  | .x => 24
  | .m => 12
  | .v => if withheldFrom op f true == 5 then 40 else 16

/-- A handler may issue the instruction (R54, R307). -/
def handlerAllows (op : Op) (f : Fields) : Bool :=
  match op with
  | .brd | .fuse | .exit | .sleepClk | .movem | .region | .commit => false
  | .rdspec => f.dst.isS
  | .laneget | .laneset => true
  | op => slotOf op f == .s

/-- The committing instructions of R118, `st` and `atom` with their own flavour. A preceding fence can make others so. -/
def commits (op : Op) (f : Fields) : Bool :=
  match op with
  | .atom => !f.dst.isNone || f.aux == 2
  | .st => f.aux == 2
  | .cpyOut | .cpyMm | .stash | .xrun | .xgate | .post => true
  | .mdrain | .mdrainAdd => !f.imm.getLsbD 10
  | _ => false

end Sys2Proof.Machine
end

