-- ==== Sys2Proof/Machine/Ops.lean ====
section
/-! DEFINITION. The named operations over the machine: access to its parts, the checks at issue (spec/18_ref_control.md R295),
taking an exception and returning from one (spec/03_context.md R53, R54, R306), regions: opening, Commit() and rollback
(spec/07_region.md R111 to R121), and finishing an instruction (R122, R256). -/

namespace Sys2Proof.Machine

/-- The outcome of a step. -/
abbrev Out := Host.Outcome State Fault Refusal

/-! ### Parts of the machine -/

def coreOf (s : State) (c : Nat) : Core := (s.cores.find c).getD (Core.reset (c % 128))
def dieOf (s : State) (d : Nat) : Die := (s.dies.find d).getD Die.reset
def arrayOf (s : State) (a : Nat) : ArrayUnit := (s.arrays.find a).getD ArrayUnit.reset
def linkOf (s : State) (l : Nat) : Link := (s.links.find l).getD Link.reset

def setCore (s : State) (c : Nat) (x : Core) : State := { s with cores := s.cores.insert c x }
def setDie (s : State) (d : Nat) (x : Die) : State := { s with dies := s.dies.insert d x }
def setArray (s : State) (a : Nat) (x : ArrayUnit) : State := { s with arrays := s.arrays.insert a x }
def setLink (s : State) (l : Nat) (x : Link) : State := { s with links := s.links.insert l x }
def setGroup (s : State) (gid : Nat) (g : Group) : State := { s with groups := s.groups.insert gid g }
def setTeam (s : State) (t : Nat) (x : Team) : State := { s with teams := s.teams.insert t x }
def setCtx (s : State) (c : Nat) (x : Context) : State := { s with contexts := s.contexts.insert c x }
def setKernel (s : State) (k : Nat) (x : Kernel) : State := { s with kernels := s.kernels.insert k x }
def setWq (s : State) (q : Nat) (x : WorkQueue) : State := { s with wqs := s.wqs.insert q x }

/-- Applies `fn` to a group, where it is resident. -/
def onGroup (s : State) (gid : Nat) (fn : Group → Group) : State := { s with groups := s.groups.modify gid fn }

/-- Applies `fn` to a sub-group of a group. -/
def onSub (g : Group) (node : Nat) (fn : Sub → Sub) : Group :=
  { g with subs := g.subs.map (fun x => if x.node == node then fn x else x) }

def subOf (g : Group) (node : Nat) : Option Sub := g.subs.find? (fun x => x.node == node)

/-- Node `a` is node `n` or an ancestor of it (R90). -/
def above (a n : Nat) : Bool := (List.range 10).any (fun k => n >>> k == a)

/-- The sub-group is FAULT_PARKED (R102). -/
def SubState.isParked : SubState → Bool
  | .parked _ _ => true
  | _ => false

/-- The sub-group that stands for node `n` now: the node itself, an ancestor it merged into, or the first of its parts. -/
def resolveNode (g : Group) (n : Nat) : Nat :=
  let live := g.subs.filter (fun x => x.st != .exited)
  match live.find? (fun x => above x.node n) with
  | some x => x.node
  | none =>
    match live.find? (fun x => above n x.node) with
    | some x => x.node
    | none => n

/-- The physical die of a core. -/
def dieOfCore (c : Nat) : Nat := c / 128

/-- The logical number of a core (R20); a removed core has none. -/
def logicalCore (s : State) (c : Nat) : Nat := (coreOf s c).logical.getD 0xFFFF

/-- A fresh identity or free-value index. -/
def fresh (s : State) : State := { s with free := s.free + 1 }

/-! ### Event counters (R262) -/

def Counter.count (x : Counter) (source ctx n : Nat) : Counter :=
  if x.source == source && (x.filter == 0xFFFF || x.filter.toNat == ctx) then { x with value := x.value + BitVec.ofNat 48 n } else x

/-- Counts `n` events of a source on a core for a context. -/
def countCore (s : State) (c source ctx n : Nat) : State :=
  let x := coreOf s c
  setCore s c { x with counters := x.counters.map (·.count source ctx n) }

def countHub (s : State) (source ctx n : Nat) : State :=
  { s with hubCounters := s.hubCounters.map (·.count source ctx n) }

def countSlice (s : State) (die slice source ctx n : Nat) : State :=
  let x := dieOf s die
  setDie s die { x with sliceCounters := x.sliceCounters.modify slice (fun l => l.map (·.count source ctx n)) }

/-- The context of a team. -/
def ctxOfTeam (s : State) (team : Nat) : Nat := ((s.teams.find team).map (·.ctx)).getD 0xFFFF

/-! ### The issuing sub-group -/

/-- The sub-group at issue with what it belongs to. -/
structure Env where
  gid : Nat
  node : Nat
  g : Group
  sub : Sub
  team : Team
  ctx : Context
deriving DecidableEq, Repr

def Env.core (e : Env) : Nat := e.team.core
def Env.pc (e : Env) : VAddr := e.sub.pc
/-- Next of R296, for an instruction of `k` bytes. -/
def Env.next (e : Env) (k : Nat) : VAddr := e.sub.pc + BitVec.ofNat 80 k
/-- Target of R296: a signed byte distance from the instruction's first byte (R274). -/
def Env.target (e : Env) (f : Fields) : VAddr := e.sub.pc + f.imm.signExtend 80
/-- Far of R296. -/
def Env.far (e : Env) (x : W64) : VAddr := (e.sub.pc >>> 64) <<< 64 ||| x.setWidth 80
def Env.active (e : Env) (f : Fields) : Mask := activeMask e.g e.sub.em f
def Env.guard (e : Env) (f : Fields) : Bool := sGuard e.g e.sub.em f
def Env.inHandler (e : Env) : Bool := e.sub.handler.isSome
/-- VA[79:64] of the group's data (R138). -/
def Env.hi (e : Env) : Nat := e.team.hi
/-- An 80-bit data address from a 64-bit value. -/
def Env.va (e : Env) (x : W64) : VAddr := BitVec.ofNat 80 (e.team.hi * 2 ^ 64 + x.toNat)

/-- The context's groups issue: RUNNING, or EVICTING with the team not yet chosen (R45, R56). -/
def ctxIssues (c : Context) : Bool := c.st == .running || c.st == .evicting

/-- The current sub-group, when it is ready to issue at all: RUNNABLE, out of the start delay, not stopped (R104). -/
def envOf (s : State) : Option Env :=
  match s.groups.find s.cur.1 with
  | none => none
  | some g =>
    match subOf g s.cur.2, s.teams.find g.team with
    | some sub, some team =>
      match s.contexts.find team.ctx with
      | some ctx =>
        if sub.st == .runnable && team.delay == 0 && !team.evicting && ctxIssues ctx then
          some { gid := s.cur.1, node := s.cur.2, g := g, sub := sub, team := team, ctx := ctx }
        else none
      | none => none
    | _, _ => none

/-! ### Power and registers (R106, R247, R253, R257) -/

/-- The device takes a write of a register: not in RECOVERY, where only the identity capability and the recovery mailbox respond (R247). -/
def takesWrites (s : State) : Bool := s.status != .recovery

/-- POWER_STEP's STATE is HOLD. -/
def holding (s : State) : Bool := s.power.powerStep.getLsbD 48

/-- ALLOW_LEVEL of a core: 6 under HOLD (R253). A power failure sets HOLD and the counters aside (R256, R261). -/
def allowLevel (s : State) (c : Nat) : Nat := if s.failing then 0 else if holding s then 6 else (coreOf s c).level

/-- Node 1 is EXITED (R91). -/
def groupExited (g : Group) : Bool := g.subs.all (fun x => x.node == 1 && x.st == .exited)

/-- The groups of a team. -/
def teamGroups (s : State) (t : Nat) : List (Nat × Group) := s.groups.filter (fun e => e.2.team == t)

/-- Every group of the team has executed `exit`: it holds its core no more (R82). -/
def teamExited (s : State) (t : Nat) : Bool := (teamGroups s t).all (fun e => groupExited e.2)

/-- The team's PRIO is the highest of those resident on its core (R106). -/
def topPrio (s : State) (t : Team) : Bool :=
  s.teams.all (fun e => e.2.core != t.core || teamExited s e.1 || decide (e.2.launch.prio ≤ t.launch.prio))

/-- The instruction is withheld (R106, R107). -/
def withheld (s : State) (e : Env) (op : Op) (f : Fields) : Bool :=
  decide (withheldFrom op f (topPrio s e.team) ≤ allowLevel s e.core)

/-- An issue is charged with a weight, and counted (R256, R262). -/
def charge (s : State) (core ctx n : Nat) : State :=
  let x := coreOf s core
  countCore (setCore s core { x with charge := x.charge + n }) core 2 ctx 1

/-- The issue of an instruction, one that traps at issue too (R122, R256). -/
def account (s : State) (e : Env) (op : Op) (f : Fields) : State := charge s e.core e.team.ctx (issueCharge op f)

/-- The issue of a word that is no instruction, through the S slot (R256, R277). -/
def accountWord (s : State) (e : Env) : State := charge s e.core e.team.ctx 2

/-! ### Taking an exception and returning from one (R53, R54, R306) -/

/-- The flags of a stop record: VALID, IN_REGION, IN_HANDLER, STRADDLE, PARKED (R50). -/
def stopFlags (inRegion inHandler straddle parked : Bool) : Nat :=
  1 + 4 * inRegion.toNat + 8 * inHandler.toNat + 16 * straddle.toNat + 32 * parked.toNat

/-- The handler's PC: TRAP_BASE + 256 x cause (R53). -/
def vectorPc (d : CtxDesc) (cause : Nat) : VAddr := d.trapBase + BitVec.ofNat 80 (256 * cause)

/-- The word that a handler finds in s(S-2) (R53). -/
def causeWord (cause : Nat) (inRegion straddle : Bool) : W64 :=
  BitVec.ofNat 64 (cause + 65536 * inRegion.toNat + 131072 * straddle.toNat)

/-- The sub-group enters its handler: s(S-3), s(S-2) and s(S-1) are written and full, and the PC goes to the vector (R53). -/
def enterHandler (g : Group) (node cause : Nat) (d : CtxDesc) (resume : VAddr) (value : W64) (straddle : Bool) : Group :=
  let g := setS g (g.s - 3) { val := resume.setWidth 64, full := true }
  let g := setS g (g.s - 2) { val := causeWord cause g.region.isOpen straddle, full := true }
  let g := setS g (g.s - 1) { val := value, full := true }
  { onSub g node (fun x => { x with pc := vectorPc d cause, handler := some { sigAtEntry := g.sig, trapPc := x.pc } }) with
    region := { g.region with reopen := g.region.reopen.filter (fun r => r.1 != node) } }

/-- Trap(code) of R296 in a sub-group, with the resume PC, the faulting address or immediate operand, and STRADDLE: handler
entry when the cause is enabled, the sub-group is not in its handler, and no halt has stopped the group; else the group stops with its PC as it
stands and the event reaches the hub, which asserts the halt line (R47, R48). -/
def raise (s : State) (gid node cause : Nat) (resume : VAddr) (addr : VAddr) (straddle : Bool) : State :=
  match s.groups.find gid with
  | none => s
  | some g =>
    match subOf g node, s.teams.find g.team with
    | some sub, some team =>
      match s.contexts.find team.ctx with
      | none => s
      | some ctx =>
        if sub.handler.isNone && ctx.desc.trapEnable.getLsbD cause && ctxIssues ctx then
          setGroup s gid (enterHandler g node cause ctx.desc resume (addr.setWidth 64) straddle)
        else
          let ev : Event :=
            { cause := cause, gid := some gid, die := dieOfCore team.core, core := logicalCore s team.core, team := team.index
              group := g.num, flags := stopFlags g.region.isOpen sub.handler.isSome straddle false, reentry := g.region.reentry
              pc := sub.pc, addr := addr, cycle := (coreOf s team.core).cycle }
          let s := setGroup s gid (onSub g node (fun x => { x with st := .stopped }))
          setCtx s team.ctx { ctx with raised := ctx.raised ++ [ev] }
    | _, _ => s

/-- A fault of the issuing instruction, which writes nothing and resumes at itself (R53); its issue is charged (R256). -/
def trapAt (s : State) (e : Env) (op : Op) (f : Fields) (cause : Nat) (addr : VAddr) (straddle : Bool) : Out :=
  .next (raise (account s e op f) e.gid e.node cause e.sub.pc addr straddle)

/-- A fault with no address. -/
def trap0 (s : State) (e : Env) (op : Op) (f : Fields) (cause : Nat) : Out := trapAt s e op f cause 0 false

/-- `eret`: SIG of the handler's entry comes back, and the PC goes to s(S-3) in the span of the trapped PC (R306). -/
def leaveHandler (g : Group) (node : Nat) (h : Handler) : Group :=
  let x := (sreg g (g.s - 3)).val
  { onSub g node (fun b => { b with handler := none, st := .runnable, pc := (h.trapPc >>> 64) <<< 64 ||| x.setWidth 80 }) with
    sig := h.sigAtEntry }

/-! ### Regions (R111 to R116) -/

/-- The length of an instruction that has issued and whose sub-group waits at it: an arrival that is not counted, or an atomic between
two regions. -/
def issuedLen (x : Sub) : Option Nat :=
  match x.st with
  | .arriving _ _ _ k | .performing _ k => some k
  | _ => none

/-- The cut point of a sub-group (R114): the instruction that it would issue next, or the trapped PC while it is in its handler. A sub-group waiting
in `fprobe` is cut at the `fprobe`, which R114 does not say (log 88). -/
def cutPoint (x : Sub) : VAddr :=
  match x.handler with
  | some h => h.trapPc
  | none => x.pc + BitVec.ofNat 80 ((issuedLen x).getD 0)

/-- The sub-group stands at a `fuse`. -/
def Sub.standsAtFuse (x : Sub) : Bool :=
  match x.st with
  | .atFuse _ => true
  | _ => false

/-- Every other live sub-group's REGION_PC becomes its cut point (R114). -/
def cutOthers (g : Group) (node : Nat) : Group :=
  { g with subs := g.subs.map (fun x =>
      if x.node == node || x.st == .exited then x else { x with regionPc := cutPoint x, cutAtFuse := x.standsAtFuse }) }

/-- A region opens at `pc` in a sub-group (R111). -/
def openRegion (g : Group) (node p q : Nat) (pc : VAddr) : Group :=
  let g := onSub (cutOthers g node) node (fun x => { x with regionPc := pc, cutAtFuse := false })
  { g with region := { isOpen := true, p := p, q := q, reentry := 0, fpmSnap := g.fpm, sigSnap := g.sig, lines := [], tallocs := []
                       tfrees := [], reopen := none } }

/-- Commit() still waits: a producer, or an engine command of step 1 of R113, of the region has not completed. -/
def commitWaits (g : Group) : Bool :=
  g.inflight.any (·.region) ||
  g.queues.any (fun q => q.any (fun c => c.region && c.st != .done &&
    (c.op == .cpyIn || c.op == .restore || c.op == .mma || c.op == .mzero || c.op == .mload)))

/-- A tile entry that is FREE (R168). -/
def Tile.freed : Tile :=
  { st := .free, tag := 0, rows := 0, cols := 0, data := 0, scale := 0, pitch := 0, chkValid := false
    rowSums := List.replicate 64 0, colSums := List.replicate 64 0 }

/-- A team's tile. -/
def tileOf (t : Team) (n : Nat) : Tile := t.tiles.getD n Tile.freed
def setTile (t : Team) (n : Nat) (x : Tile) : Team := { t with tiles := t.tiles.set n x }

/-! ### Tiles and their users (R170, R171) -/

def cmdTile (f : Fields) : Nat := bits f.imm.toNat 5 0
/-- The tile field of `mma` A, `mload` and `mdrain`. -/
def tileA (f : Fields) : Nat := bits f.imm.toNat 9 4
def tileB (f : Fields) : Nat := bits f.imm.toNat 15 10
/-- The tile of `stash` and `restore`. -/
def tileS (f : Fields) : Nat := bits f.imm.toNat 21 16
/-- The accumulator handle. -/
def accField (f : Fields) : Nat := bits f.imm.toNat 3 0
/-- T of `mload` and `mdrain`: the counterpart is a tile. -/
def toTile (f : Fields) : Bool := f.imm.getLsbD 10

/-- The tiles that a command reads. -/
def readsTiles (op : Op) (f : Fields) : List Nat :=
  match op with
  | .mma => [tileA f, tileB f]
  | .cpyOut => [cmdTile f]
  | .stash => [tileS f]
  | .mload => if toTile f then [tileA f] else []
  | _ => []

/-- The tiles that a command fills. -/
def fillsTiles (op : Op) (f : Fields) : List Nat :=
  match op with
  | .cpyIn => [cmdTile f]
  | .restore => [tileS f]
  | _ => []

/-- The tiles that a command drains an accumulator into. -/
def drainsTiles (op : Op) (f : Fields) : List Nat :=
  match op with
  | .mdrain | .mdrainAdd => if toTile f then [tileA f] else []
  | _ => []

/-- The commands of a team that have not completed. -/
def teamCommands (s : State) (team : Nat) : List Command :=
  (teamGroups s team).flatMap (fun e => e.2.queues.flatten.filter (fun c => c.st != .done))

/-- A scratchpad load through the handle has not been performed. -/
def ldsReads (s : State) (team n : Nat) : Bool :=
  (teamGroups s team).any (fun e => e.2.inflight.any (fun i =>
    match i.what with
    | .lds _ (some m) => m == n
    | _ => false))

/-- A reader that has issued on the tile has not finished reading it; `mma` and `mload` have when they have started (R171, R374). -/
def tileRead (s : State) (team n : Nat) : Bool :=
  ldsReads s team n || (teamCommands s team).any (fun c =>
    (readsTiles c.op c.fields).contains n && (c.st == .queued || c.op == .cpyOut || c.op == .stash))

/-- A command that has issued on the tile has not finished with it. -/
def tileUsed (s : State) (team n : Nat) : Bool :=
  tileRead s team n || (teamCommands s team).any (fun c =>
    (fillsTiles c.op c.fields).contains n || (drainsTiles c.op c.fields).contains n || (readsTiles c.op c.fields).contains n)

/-- The tiles whose deferred `tfree` has been committed become FREE once no command uses them (R171). -/
def freeTiles (s : State) (team : Nat) : State :=
  match s.teams.find team with
  | none => s
  | some t =>
    let now := t.freeing.filter (fun n => !tileUsed s team n)
    if now.isEmpty then s
    else setTeam s team { t with tiles := now.foldl (fun l n => l.set n Tile.freed) t.tiles, freeing := t.freeing.filter (fun n => !now.contains n) }

/-- The shadows that a group's region owns on its team's accumulator tiles are dropped, or restored first (R175). -/
def endShadows (s : State) (team : Team) (gid : Nat) (restore : Bool) : State :=
  let c := coreOf s team.core
  let fix : AccTile → AccTile := fun a =>
    match a.shadow with
    | some sh => if sh.owner == gid then { data := if restore then sh.data else a.data, shadow := none } else a
    | none => a
  setCore s team.core { c with accTiles := c.accTiles.map (fun e => (e.1, fix e.2)) }

/-- A pop in flight waits for the record of this entry. -/
def popAwaits (g : Group) (c : Command) : Bool :=
  g.inflight.any (fun i =>
    match i.what with
    | .pop _ n => n == c.seq
    | _ => false)

/-- The held stores of a group are committed, and its held drains may start: they take their places in group order now, so a range
operation that was issued before leaves them alone (R113, R117). -/
def releaseHeld (g : Group) : Group :=
  { g with
    storeQ := g.storeQ.mapIdx (fun i x => if x.held then { x with held := false, seq := g.seq + i, commit := g.seq } else x)
    queues := g.queues.map (fun q => q.mapIdx (fun i c =>
      { c with region := false, waitCommit := false, seq := if c.waitCommit then g.seq + g.storeQ.length + i else c.seq }))
    seq := g.seq + g.storeQ.length + 16 }

/-- Steps 2 to 6 of Commit() (R113): the held stores are released, the held drains start, the deferred `tfree`s apply
as soon as no command uses the tile (R171), popped
entries are freed, shadows dropped, REENTRY cleared; the region is CLOSED with its P and Q kept for a committing instruction. -/
def commitNow (s : State) (gid node : Nat) : State :=
  match s.groups.find gid with
  | none => s
  | some g =>
    match s.teams.find g.team with
    | none => s
    | some team =>
      let r := g.region
      let s := setTeam s g.team { team with freeing := team.freeing ++ r.tfrees }
      let s := endShadows s team gid false
      let g := releaseHeld { g with queues := g.queues.map (fun q => q.filter (fun c => !c.popped || popAwaits g c)) }
      let g := { g with
        region := { r with isOpen := false, reentry := 0, lines := [], tallocs := [], tfrees := [], reopen := some (node, r.p, r.q) } }
      countCore (freeTiles (setGroup s gid (cutOthers g node)) g.team) team.core 5 team.ctx 1

/-! ### Rollback (R120, R121) -/

/-- A producer's destination becomes full with its bits as they stand (R102). -/
def cancelProducer (g : Group) (i : Inflight) : Group := (regsFrom (tyRegs i.ty) i.dst).foldl markFull g

/-- A tile that a cancelled fill leaves (R170). -/
def Tile.emptied (t : Tile) : Tile :=
  { t with st := .empty, chkValid := false, rowSums := List.replicate 64 0, colSums := List.replicate 64 0 }

/-- The tile that a command of the copy engine fills, when it is a fill. -/
def fillTarget (c : Command) : Option Nat :=
  if c.op == .cpyIn then some (bits c.fields.imm.toNat 5 0)
  else if c.op == .restore then some (bits c.fields.imm.toNat 21 16) else none

/-- A rollback cancels a producer: one of the region, or the `waitc` that a sub-group in MONITOR returns to (R102, R134). -/
def rolledBack (g : Group) (i : Inflight) : Bool :=
  i.region || g.subs.any (fun x =>
    match x.st with
    | .monitor p _ _ _ => p == i.seq
    | _ => false)

/-- Where a rollback leaves a sub-group (R99, R109, R120, R129). An arrival that is not counted, and an atomic between two regions, were
issued before the region: they go on, and at an eviction the first is issued again. A sleep ends, one that began before the region too (log 68). -/
def rollSub (evict : Bool) (x : Sub) : Sub :=
  match x.st with
  | .exited => x
  | .parked _ _ => { x with pc := x.regionPc, handler := none }
  | .waitBars _ => if evict then { x with st := .runnable, regionPc := x.barsPc, pc := x.barsPc, handler := none } else x
  | .arriving _ _ _ _ => if evict then { x with st := .runnable, regionPc := x.pc, handler := none } else x
  | .performing _ k =>
    if evict then { x with st := .runnable, regionPc := x.pc + BitVec.ofNat 80 k, pc := x.pc + BitVec.ofNat 80 k, handler := none } else x
  | .atFuse _ => if x.cutAtFuse then x else { x with st := .runnable, pc := x.regionPc, handler := none }
  | .stopped => { x with pc := x.regionPc, handler := none }
  | _ => { x with st := .runnable, pc := x.regionPc, handler := none }

/-- The team's barriers with the arrivals of evicted waiters withdrawn (R129). -/
def withdrawArrivals (g : Group) (bs : List Barrier) : List Barrier :=
  g.subs.foldl (fun bs x =>
    match x.st with
    | .waitBars b => bs.modify b (fun y => if y.arrived.toNat ≤ 1 then { y with arrived := 0, count := 0 } else { y with arrived := y.arrived - 1 })
    | _ => bs) bs

/-- The group after a rollback: held stores discarded, the region's commands and producers cancelled, popped records
returned, FPM, SIG and PCs restored, REENTRY counted. A release fence of the region stays in force (R189; log 79). -/
def rollGroup (g : Group) (evict : Bool) : Group :=
  let r := g.region
  let g1 := (g.inflight.filter (rolledBack g)).foldl cancelProducer g
  let left := g.inflight.filter (fun i => !rolledBack g i)
  { g1 with
    storeQ := g.storeQ.filter (fun x => !x.held)
    inflight := left
    queues := g.queues.map (fun q => (q.filter (fun c => !c.region)).map (fun c => { c with popped := c.popped && popAwaits { g with inflight := left } c }))
    fpm := r.fpmSnap
    sig := r.sigSnap
    subs := g.subs.map (rollSub evict)
    region := { r with reentry := BitVec.ofNat 8 (min (r.reentry.toNat + 1) 255), lines := [], tallocs := [], tfrees := [] } }

/-- The team's tiles after a rollback: the region's fills leave EMPTY tiles, and its `talloc`s are undone. -/
def rollTiles (g : Group) (tiles : List Tile) : List Tile :=
  let fills := (g.queues.flatten.filter (·.region)).filterMap fillTarget
  let tiles := fills.foldl (fun l n => l.modify n Tile.emptied) tiles
  g.region.tallocs.foldl (fun l n => l.set n Tile.freed) tiles

/-- Monitors armed for a group's cancelled producers are freed (R132, R134). -/
def freeMonitors (s : State) (gid : Nat) (which : Nat → Bool) : State :=
  { s with monitors := s.monitors.filter (fun m =>
      match m.waiter with
      | .sub w p => !(w == gid && which p)
      | .queue _ => true) }

/-- Rollback(evict) of R120 for one group. -/
def rollback (s : State) (gid : Nat) (evict : Bool) : State :=
  match s.groups.find gid with
  | none => s
  | some g =>
    match s.teams.find g.team with
    | none => s
    | some team =>
      let s := freeMonitors s gid (fun p => g.inflight.any (fun i => i.seq == p && rolledBack g i))
      let s := endShadows s team gid true
      let bs := if evict then withdrawArrivals g team.barriers else team.barriers
      let s := setTeam s g.team { team with tiles := rollTiles g team.tiles, barriers := bs }
      countCore (freeTiles (setGroup s gid (rollGroup g evict)) g.team) team.core 4 team.ctx 1

/-- The re-entry limit of a launch: REENTRY_MAX, where 0 selects 8 (R78). -/
def reentryLimit (r : LaunchRec) : Nat := if r.reentryMax == 0 then 8 else r.reentryMax

/-- A rollback trigger in an open region, with escalation to REENTRY_LIMIT in the sub-group that raised it (R120, R121). A group that a halt has
stopped is not rolled back (R48). -/
def rollTrigger (s : State) (gid node : Nat) : State :=
  match s.groups.find gid with
  | none => s
  | some g =>
    match s.teams.find g.team with
    | none => s
    | some team =>
      if !(s.contexts.find team.ctx).any ctxIssues then s
      else
      let n := g.region.reentry.toNat + 1
      let s := rollback s gid false
      if n > reentryLimit team.launch then
        match (s.groups.find gid).bind (fun g => subOf g node) with
        | some x => raise s gid node 0x05 x.regionPc 0 false
        | none => s
      else s

/-- A detected error of a sub-group: a rollback trigger inside a region and outside a handler, else the cause itself (R120, R51, R54). -/
def consumeError (s : State) (gid node cause : Nat) (addr : VAddr) : State :=
  match s.groups.find gid with
  | none => s
  | some g =>
    let node := resolveNode g node
    match subOf g node with
    | none => s
    | some x =>
      if g.region.isOpen && x.handler.isNone then rollTrigger s gid node else raise s gid node cause x.pc addr false

/-! ### The checks at issue (R295) and the end of an instruction -/

/-- Results of flag-raising producers still in flight, for which a reader of FL waits (R39). -/
def flagsPending (g : Group) : Bool :=
  g.inflight.any (fun i =>
    match i.what with
    | .values _ fl => !fl.isEmpty
    | _ => false)

/-- Step 3 of R295 without the sources under TRAP: the destination, flags, a blocking source, power. -/
def mustWait (s : State) (e : Env) (op : Op) (f : Fields) (blocked : Bool) : Bool :=
  (dests e.g.s op f).any (fun r => !r.full e.g) || blocked || withheld s e op f || (readsFlags op f && flagsPending e.g) ||
  (sources e.g.s op f).any (fun x => !x.trap && x.regs.any (fun r => !r.full e.g))

/-- A source under TRAP is empty, or a pop finds no record to take (R77, R101). -/
def emptySource (e : Env) (op : Op) (f : Fields) : Bool :=
  (sources e.g.s op f).any (fun x => x.trap && x.regs.any (fun r => !r.full e.g)) || (op == .movFromQueue && e.guard f && emptyQueue e.g f)

/-- A source's tag check fails (R33). -/
def badTag (e : Env) (op : Op) (f : Fields) : Bool :=
  (sources e.g.s op f).any (fun x =>
    match x.tag with
    | some t => x.regs.any (fun r => !r.tagIs e.g t)
    | none => false)

/-- The instruction writes a protected register (R112). A committing instruction runs outside the region (R119), `laneset` makes
the check under its guard (R312), and a handler's writes are exempt (R54). -/
def writesProtected (e : Env) (op : Op) (f : Fields) : Bool :=
  e.g.region.isOpen && !e.inHandler && op != .laneset && !commits op f &&
  (dests e.g.s op f).any (fun r => r.protectedBy e.g.region.p e.g.region.q)

/-- A register at or above the group's budget (R18). -/
def overBudget (e : Env) (op : Op) (f : Fields) : Bool :=
  (dests e.g.s op f ++ (sources e.g.s op f).flatMap (·.regs)).any (fun r => !r.inBudget e.g)

/-- An instruction that does nothing under a false guard before step 3 (R364). -/
def guardFirst (op : Op) : Bool :=
  match op with
  | .talloc | .tfree | .tstat | .tset | .cpyIn | .cpyOut | .cpyMm | .mma | .mzero | .mload | .mdrain | .mdrainAdd | .stash
  | .restore | .xcfg | .xpool | .xration | .xrun | .xgate | .xstat | .post => true
  | _ => false

/-- The instruction updates SIG when node 1 issues it (R122). -/
def updatesSig (op : Op) : Bool :=
  match op with
  | .sigchk | .sigrst | .trap | .brk | .eret => false
  | _ => true

/-- SIG after node `node` issues the instruction. -/
def sigAfter (g : Group) (node : Nat) (op : Op) (f : Fields) : Group :=
  if node == 1 && updatesSig op then { g with sig := sigIssue g.sig op.opc f.mod.toNat } else g

/-- The instruction ends in the group `g` and goes on at `pc`. -/
def finishAt (e : Env) (op : Op) (f : Fields) (s : State) (g : Group) (pc : VAddr) : Out :=
  let g := onSub (sigAfter g e.node op f) e.node (fun x => { x with pc := pc, walked := [] })
  .next (account (setGroup s e.gid g) e op f)

/-- The instruction ends and goes on at Next. -/
def finish (e : Env) (op : Op) (f : Fields) (s : State) (g : Group) : Out :=
  finishAt e op f s g (e.next f.form.length)

/-- A committing instruction ends: the region with the same P and Q opens at Next (R111, R118). -/
def finishCommitting (e : Env) (op : Op) (f : Fields) (s : State) (g : Group) : Out :=
  let g := onSub (sigAfter g e.node op f) e.node (fun x => { x with pc := e.next f.form.length, walked := [] })
  let g := match g.region.reopen with
    | some (n, p, q) => if n == e.node then openRegion g e.node p q (e.next f.form.length) else g
    | none => g
  .next (account (setGroup s e.gid g) e op f)

/-- Raises a deferred POISON or CHECK_MISMATCH before the sub-group's next instruction (R365). -/
def takeDeferred (s : State) (e : Env) : Option State :=
  match e.g.deferred.find? (fun d => resolveNode e.g d.1 == e.node) with
  | some d =>
    let s := setGroup s e.gid { e.g with deferred := e.g.deferred.erase d }
    some (raise s e.gid e.node d.2.1 e.sub.pc d.2.2 false)
  | none => none

/-- An ILLEGAL word at issue (R277). -/
def illegalWord (s : State) : Out :=
  match envOf s with
  | none => .next s
  | some e =>
    match takeDeferred s e with
    | some s => .next s
    | none => .next (raise (accountWord s e) e.gid e.node 0x01 e.sub.pc 0 false)

/-- The checks of R295 in order, then the instruction's effect. `illegal` is what step 2 adds for it, `blocked` what step 3
adds, `legality` what step 5 adds. -/
def issue (op : Op) (f : Fields) (s : State) (illegal blocked legality : Env → Bool) (body : Env → Out) : Out :=
  match envOf s with
  | none => .next s
  | some e =>
    match takeDeferred s e with
    | some s => .next s
    | none =>
      if !wfWord op f || overBudget e op f || (e.inHandler && !handlerAllows op f) || setsTag15 e.g op f || illegal e then
        trap0 s e op f 0x01
      else if guardFirst op && !e.guard f then finish e op f s e.g
      else if mustWait s e op f (blocked e) then .next s
      else if emptySource e op f then trap0 s e op f 0x09
      else if badTag e op f then trap0 s e op f 0x02
      else if writesProtected e op f || legality e then trap0 s e op f 0x03
      else body e

def never : Env → Bool := fun _ => false

/-- An instruction with no check of its own before step 6. -/
def issuePlain (op : Op) (f : Fields) (s : State) (body : Env → Out) : Out := issue op f s never never never body

/-- An atomic of the group that was issued outside any region is still to be performed. -/
def closedAtoms (g : Group) : Bool :=
  g.inflight.any (fun i => !i.region && (match i.what with
    | .atomic _ _ _ _ => true
    | _ => false))

/-- Commit() owes the sub-group a region, which opens behind its committing instruction (R111). -/
def owedRegion (g : Group) (node : Nat) : Bool := g.region.reopen.any (fun r => r.1 == node)

/-- Commit() before a committing instruction (R113, R118): when the region is OPEN and step 1 waits, the sub-group waits with its PC at
the instruction; else the rest of Commit() is performed and the instruction goes on between regions. The region that is to open behind it waits for
the atomics that siblings have issued outside any (R119; log 67). -/
def commitFirst (s : State) (e : Env) (body : State → Env → Out) : Out :=
  if !e.g.region.isOpen then (if owedRegion e.g e.node && closedAtoms e.g then .next s else body s e)
  else if commitWaits e.g then .next (onGroup s e.gid (fun g => onSub g e.node (fun x => { x with st := .committing })))
  else
    let s := commitNow s e.gid e.node
    match envOf s with
    | some e => body s e
    | none => .next s

end Sys2Proof.Machine
end

