-- ==== Sys2Proof/Machine/Flits.lean ====
section
/-! DEFINITION. Link flits: their bytes, beats, rebuilding and sequence numbers; the sender of a link with its store of flits; and the states of a
link (spec/14_link.md R237 to R241, R244). -/

namespace Sys2Proof.Machine

/-! ### A flit and its beats (R237, R238) -/

/-- Byte `i` of a beat. -/
def beatByte (b : BitVec 144) (i : Nat) : Byte := BitVec.ofNat 8 (b.toNat / 2 ^ (8 * i))

/-- The 72 bytes of a flit. -/
def flitBytes (bs : List (BitVec 144)) : List Byte := bs.flatMap (fun b => (List.range 18).map (beatByte b))

/-- The five beats of a flit: four of 18 bytes, and their exclusive OR. -/
def flitBeats (f : List Byte) : List (BitVec 144) :=
  let data := (List.range 4).map (fun i => BitVec.ofNat 144 (leValue ((f.drop (18 * i)).take 18)))
  data ++ [data.foldl (· ^^^ ·) 0]

/-- A flit on a virtual channel: header, 64 bytes of payload, CRC-32C over both. -/
def buildFlit (vc : Nat) (seq : BitVec 12) (payload : List Byte) : List Byte :=
  let body := leBytes 4 (vc % 4 + 4 * seq.toNat) ++ payload
  body ++ leBytes 4 (crc32c body)

/-- The four data beats as they came or were rebuilt from the other three and the XOR beat, with the count of rebuilt ones; none when two or
more of the five are missing. -/
def dataBeats (bs : List (Option (BitVec 144))) : Option (List (BitVec 144) × Nat) :=
  let get : Nat → Option (BitVec 144) := fun i => bs.getD i none
  let missing := (List.range 5).filter (fun i => (get i).isNone)
  let val : Nat → BitVec 144 := fun i => (get i).getD 0
  match missing with
  | [] => some ((List.range 4).map val, 0)
  | [m] =>
    if m == 4 then some ((List.range 4).map val, 0)
    else
      let x := (((List.range 5).filter (· != m)).map val).foldl (· ^^^ ·) 0
      some ((List.range 4).map (fun i => if i == m then x else val i), 1)
  | _ => none

/-- The CRC-32C over header and payload agrees. -/
def flitGood (f : List Byte) : Bool := crc32c (f.take 68) == leValue ((f.drop 68).take 4)

/-- The header's virtual channel and sequence number. -/
def flitChannel (f : List Byte) : Nat := bits (leValue (f.take 4)) 1 0
def flitSeq (f : List Byte) : BitVec 12 := BitVec.ofNat 12 (bits (leValue (f.take 4)) 13 2)

/-! ### The sender (R239) -/

/-- Where the entries of the die-to-die links' other direction begin: a link joins two dies with a sender and a receiver in each, and an entry has the
sender of one and the receiver of the other. -/
def reverseBase : Nat := 65536

/-- The entry of the other direction of a die-to-die link. -/
def linkTwin (l : Nat) : Option Nat :=
  if 17 ≤ l && l < 17 + Config.dieLinks then some (l + reverseBase)
  else if reverseBase + 17 ≤ l && l < reverseBase + 17 + Config.dieLinks then some (l - reverseBase)
  else none

/-- The link carries link flits: a peer port or a die-to-die link (R237). -/
def flitLink (l : Nat) : Bool := decide (l < 16) || (linkTwin l).isSome

/-- The link takes traffic. -/
def linkRuns (x : Link) : Bool := x.st == .up || x.st == .degraded || x.st == .replay

/-- A payload, whose form the manual does not give: free bytes (log 2). -/
def freePayload (n : Nat) : List Byte := leBytes 64 (Config.freeNat n)

/-- The sender's account of the replays of a flit ends. -/
def Link.notAsked (x : Link) : Link := { x with asked := none, tries := 0 }

/-- A running link with a flit sent on a virtual channel: its five beats go out on the rails, and the sender keeps its last 512. A flit that takes the
number of one that was asked for is another flit. -/
def Link.send (x : Link) (vc : Nat) (payload : List Byte) : Link :=
  if !linkRuns x then x
  else
    let f := buildFlit vc x.sendSeq payload
    let kept := x.sent ++ [f]
    { (if x.asked == some x.sendSeq then x.notAsked else x) with sendSeq := x.sendSeq + 1, sent := kept.drop (kept.length - 512), rails := x.rails ++ [flitBeats f] }

/-- A flit is sent on a virtual channel over each of some links; a link that is DOWN, as one with no entry is, takes none. -/
def sendFlits (s : State) (ls : List Nat) (vc : Nat) : State :=
  if s.links.isEmpty then s
  else
    { s with
      links := s.links.map (fun e => if flitLink e.1 && linkRuns e.2 && ls.contains e.1 then (e.1, e.2.send vc (freePayload s.free)) else e)
      free := s.free + 1 }

/-- The flits that a replay from a sequence number resends. -/
def replayFrom (x : Link) (seq : BitVec 12) : List (List Byte) := x.sent.dropWhile (fun f => flitSeq f != seq)

/-! ### The state of a link (R240, R241, R244) -/

/-- The link exists: a peer port, the host port, or a die-to-die link. -/
def linkExists (l : Nat) : Bool := decide (l < 17) || (linkTwin l).isSome

/-- A link as it becomes, in both its directions. -/
def bothWays (s : State) (l : Nat) (x : Link) : State :=
  match linkTwin l with
  | some k => setLink (setLink s l x) k { linkOf s k with st := x.st, lost := x.lost, before := x.before }
  | none => setLink s l x

/-- A link as it becomes; a change of its state is signalled on vector 0. -/
def moveLink (s : State) (l : Nat) (x : Link) : State :=
  let s' := bothWays s l x
  if (linkOf s l).st == x.st then s' else { s' with msix := s'.msix ++ [0] }

/-- The device is FATAL: no stop record is written, and every context is lost (R241). -/
def goFatal (s : State) : State :=
  { s with
    status := .fatal, contexts := [], teams := [], groups := [], kernels := [], wqs := [], orphans := [], monitors := []
    dies := s.dies.map (fun e => (e.1, { e.2 with tasks := [], walks := [], pointers := [] })), msix := s.msix ++ [0] }

/-- The die-to-die links that have FAILED. -/
def failedLinks (s : State) : List Nat := (s.links.filter (fun e => decide (17 ≤ e.1) && decide (e.1 < reverseBase) && e.2.st == .failed)).map (·.1)

/-- The links that traffic from one die to another takes, each by its direction; the hub, whose die is number 32, routes it round a FAILED one (R7,
R241). -/
def dieRoute (s : State) (a b : Nat) : List Nat :=
  if a == b || decide (a > 32) || decide (b > 32) then []
  else
    let (x, rest) := Config.route (failedLinks s) a b
    ((x :: rest).map (fun x => 17 + x.1 % Config.dieLinks + (if x.2 then reverseBase else 0))).filter (fun l => (linkOf s l).st != .failed)

/-- Traffic from one die to another is held at its sender: a link on its way trains (R240). -/
def routeHeld (s : State) (a b : Nat) : Bool :=
  s.links.any (fun e => decide (17 ≤ e.1) && e.2.st == .training) && (dieRoute s a b).any (fun l => (linkOf s l).st == .training)

/-- A message between two dies, or its answer, is held: a link on its way trains. -/
def pathHeld (s : State) (a b : Nat) : Bool := routeHeld s a b || routeHeld s b a

/-- Some two dies have no route left: never while one link has failed, for every pair has two disjoint routes (R241; log 13). -/
def routesLost (s : State) : Bool := decide ((failedLinks s).length ≥ 2) && !Config.routesRemain (failedLinks s)

/-- A direction of a link with nothing left of a replay, and no beats that have failed their checks. -/
def Link.settled (x : Link) : Link := { x.notAsked with replays := 0, resent := false, badBeats := [[], [], [], [], []] }

/-- Both directions of a link are settled. -/
def settleLink (s : State) (l : Nat) : State :=
  match linkTwin l with
  | some k => setLink (setLink s l (linkOf s l).settled) k (linkOf s k).settled
  | none => setLink s l (linkOf s l).settled

/-- A link becomes FAILED; a die-to-die link is routed round, or the device becomes FATAL. -/
def failLink (s : State) (l : Nat) : State :=
  let t := settleLink s l
  let t := moveLink t l { linkOf t l with st := .failed }
  if decide (l ≥ 17) && routesLost t then goFatal t else t

/-- A rail of a link is lost: the first degrades the link, a second fails it. -/
def loseRail (s : State) (l rail : Nat) : State :=
  let x := linkOf s l
  match x.st with
  | .up => moveLink s l { x with st := .degraded, lost := some rail }
  | .degraded => if x.lost == some rail then s else failLink s l
  | .replay =>
    if x.before == .up then bothWays s l { x with before := .degraded, lost := some rail } else if x.lost == some rail then s else failLink s l
  | _ => s

/-- A link trains, from power-up or RETRAIN on. -/
def trainLink (s : State) (l : Nat) : State :=
  let s := settleLink s l
  moveLink s l { linkOf s l with st := .training, lost := none }

/-- A link that has trained. -/
def linkUp (l : Link) : Link := { l with st := .up, lost := none, before := .up, replays := 0, resent := false }

end Sys2Proof.Machine
end

