-- ==== Sys2Proof/Machine/Cache.lean ====
section
/-! DEFINITION. Where bytes live and how cached copies move (spec/01_machine.md R8, spec/10_tile.md R160 to R165,
spec/09_page.md R154 to R158, spec/12_array.md R204, R214, R216, R217, R219, spec/11_ordering.md R181 to R194). Stores to PEER pages, and
accesses to HOST pages with CACHE 2, go past the home slices (log 13). -/

namespace Sys2Proof.Machine

/-! ### Homes (R8) -/

/-- The exclusive OR of the `k`-bit fields of `x`, of which there are at most `n`. -/
def foldBits (k : Nat) : Nat → Nat → Nat
  | 0, _ => 0
  | n + 1, x => (x % 2 ^ k) ^^^ foldBits k n (x / 2 ^ k)

/-- The home die of a physical place. -/
def homeDie (sp : Space) (a : Nat) : Nat :=
  match sp with
  | .array => bits a 34 30
  | _ => foldBits 5 9 (bits a 51 8)

/-- The home slice on that die. -/
def homeSlice (sp : Space) (a : Nat) : Nat :=
  match sp with
  | .array => bits a 29 23 / 8
  | _ => foldBits 4 10 (bits a 51 8 / 32)

/-! ### The cells of an array (R204) -/

/-- The lane granule g of a configuration word (R205). -/
def granule (cfg : W64) : Nat := 8 * 2 ^ bits cfg.toNat 13 12

/-- The row and first column of the byte at window offset `o`. -/
def cellPlace (cfg : W64) (o : Nat) : Nat × Nat :=
  let g := granule cfg
  let i := o * 8 / g
  (i % 1024, i / 1024 * g + 8 * (o % (g / 8)))

def rowOf (a : ArrayUnit) (r : Nat) : Nat := (a.cells.find r).getD 0
def checkOf (a : ArrayUnit) (r : Nat) : W32 := (a.check.find r).getD 0

/-- A row's cells, where zero leaves no entry. -/
def setRow (a : ArrayUnit) (r x : Nat) : ArrayUnit :=
  { a with cells := if x == 0 then a.cells.erase r else a.cells.insert r x }

def setCheck (a : ArrayUnit) (r : Nat) (x : W32) : ArrayUnit :=
  { a with check := if x == 0 then a.check.erase r else a.check.insert r x }

/-- The byte that the cells hold at window offset `o`. -/
def cellByte (a : ArrayUnit) (o : Nat) : Byte :=
  let (r, c) := cellPlace a.cfg o
  BitVec.ofNat 8 (bits (rowOf a r) (c + 7) c)

/-- Replaces `n` bits from `lo` of `x`. -/
def putBits (x lo n v : Nat) : Nat := x - (bits x (lo + n - 1) lo) * 2 ^ lo + v % 2 ^ n * 2 ^ lo

/-- The cells with a byte written at window offset `o`. -/
def setCellByte (a : ArrayUnit) (o : Nat) (b : Byte) : ArrayUnit :=
  let (r, c) := cellPlace a.cfg o
  setRow a r (putBits (rowOf a r) c 8 b.toNat)

/-- CRC of a row's data columns (R219). -/
def rowCrc (a : ArrayUnit) (r : Nat) : W32 := BitVec.ofNat 32 (sigCrc 0 (rowOf a r) 1024)

/-- A row's check columns agree with it. -/
def rowGood (a : ArrayUnit) (r : Nat) : Bool := rowCrc a r == checkOf a r

/-- The rows that the bytes at offsets touch. -/
def rowsAt (a : ArrayUnit) (os : List Nat) : List Nat := (os.map (fun o => (cellPlace a.cfg o).1)).eraseDups

/-- A saturating 40-bit wear counter (R206, R214). Counter x of line l has key x × 1024 + l. -/
def addWear (a : ArrayUnit) (key n : Nat) : ArrayUnit :=
  { a with wear := a.wear.insert key (min ((a.wear.find key).getD 0 + n) (2 ^ 40 - 1)) }

/-- A column of A or B of a ROM parameter word (R221). -/
def romReads (w : W64) (c : Nat) : Bool :=
  let n := bits w.toNat 57 52 + 1
  (decide (bits w.toNat 51 42 ≤ c) && decide (c < bits w.toNat 51 42 + n)) || (decide (bits w.toNat 41 32 ≤ c) && decide (c < bits w.toNat 41 32 + n))

/-- An ordinary write that changes an operand bit that a ROM schedule in progress reads leaves the results of those lanes open (R222; log 8). -/
def taintRun (a : ArrayUnit) (ws : List Host.Cell) : ArrayUnit :=
  match a.run with
  | some r =>
    match r.sched.rom with
    | some w =>
      let hit := (ws.map (fun x => (cellPlace a.cfg x.1, cellByte a x.1 ^^^ x.2))).filter (fun x =>
        decide (r.sched.lo ≤ x.1.1) && decide (x.1.1 ≤ r.sched.hi) && (List.range 8).any (fun i => x.2.getLsbD i && romReads w (x.1.2 + i)))
      if r.gate == 0 || hit.isEmpty then a else { a with run := some { r with tainted := (r.tainted ++ hit.map (·.1.1)).eraseDups } }
    | none => a
  | none => a

/-- Bytes written to the cells by an ordinary write: the wear of each row rises; a row that agreed with its check columns agrees again, and a row
that failed keeps failing (R214, R219), in a run too, where the start check may still come, or the end update have passed (log 69). -/
def writeCells (a : ArrayUnit) (ws : List Host.Cell) : ArrayUnit :=
  let rows := rowsAt a (ws.map (·.1))
  let b := ws.foldl (fun b w => setCellByte b w.1 w.2) (taintRun a ws)
  let b := rows.foldl (fun b r => addWear b (1024 + r) 1) b
  rows.foldl (fun b r => setCheck b r (checkOf a r ^^^ rowCrc a r ^^^ rowCrc b r)) b

/-- The array and offset of an address in a window (R142). -/
def arrayIndex (a : Nat) : Nat := a / 2 ^ 17
def windowOffset (a : Nat) : Nat := a % 2 ^ 17

/-- The array's state lets no ordinary access reach the cells at once (R216). -/
def arrayBusy (a : ArrayUnit) : Bool := a.st == .running || a.st == .paused

/-- A write to these offsets touches a declared line in a lane of the running schedule (R217). -/
def writeHeld (a : ArrayUnit) (os : List Nat) : Bool :=
  match a.run with
  | none => false
  | some r =>
    arrayBusy a && os.any (fun o =>
      let (row, c) := cellPlace a.cfg o
      (decide (r.sched.lo ≤ row) && decide (row ≤ r.sched.hi) && r.declared0.any (fun l => decide (c ≤ l) && decide (l < c + 8))) ||
      (r.declared1.contains row && decide (r.sched.lo < c + 8) && decide (c ≤ r.sched.hi)))

/-- A write is admitted to the cells of a RUNNING or PAUSED array: one of the boundary's accesses, and a gate step (R216, R217). -/
def admitWrite (a : ArrayUnit) (ws : List Host.Cell) : ArrayUnit :=
  let b := writeCells a ws
  { b with admits := b.admits + 1, owed := b.owed + 1 }

/-- A write that reaches the cells of a RUNNING or PAUSED array: held for a declared line, else admitted at the next gate boundary, where a
PAUSED array stands (R216, R217). -/
def writeBusy (a : ArrayUnit) (ws : List Host.Cell) : ArrayUnit :=
  if writeHeld a (ws.map (·.1)) then { a with heldWrites := a.heldWrites ++ [ws] }
  else if a.st == .paused then admitWrite a ws
  else { a with asked := a.asked ++ [ws] }

/-! ### The storage behind the caches -/

/-- Device DRAM lies below 768 GiB; the hub's other addresses are host addresses (log 12). -/
def dramEnd : Nat := 0xC0_0000_0000

/-- A physical address has 52 bits (R1); a field's bits above them play no part (log 12). -/
def physAddr (a : Nat) : Nat := a % 2 ^ 52

/-- The metadata area: the top 24 MiB of the DRAM of each of the 32 dies, which every 32 lines in a row visit once each, so the top
768 MiB of the DRAM addresses (R8, R155; log 55). -/
def inMeta (a : Nat) : Bool := decide (dramEnd - 0x3000_0000 ≤ a) && decide (a < dramEnd)

/-- The memory of a peer device as this device's ports reach it. -/
def peerOf (s : State) (p : Nat) : Memory := ((s.peerMem.find? (fun e => e.1 == p)).map (·.2)).getD []

/-- The byte behind the caches. -/
def backing (s : State) (sp : Space) (a : Nat) : Byte :=
  match sp with
  | .dram => s.dram.read a
  | .host => s.hostMem.read a
  | .peer p => (peerOf s p).read a
  | .array => cellByte (arrayOf s (arrayIndex a)) (windowOffset a)

/-- Traffic to a space behind the caches is held at its sender: the host port trains (R240). -/
def backHeld (s : State) (sp : Space) : Bool := sp == .host && (linkOf s 16).st == .training

/-- The hub die, whose ports lead to the host and to the peers: the die beside the 32 compute dies (R7). -/
def hubDie : Nat := 32

/-- A message from one die to another and the response to it cross the die-to-die links as flits (R237). -/
def crossing (s : State) (a b : Nat) : State := sendFlits (sendFlits s (dieRoute s a b) 0) (dieRoute s b a) 1

/-- The host memory of a line lies behind the hub die's port: its home slice's access to it crosses the links between them (R7, R237). -/
def backCrossing (s : State) (sp : Space) (a : Nat) : State := if sp == .host then crossing s (homeDie sp a) hubDie else s

/-- A copy of a sector with what the hub writes at physical addresses from `a` on. -/
def Copy.written (c : Copy) (sp : Space) (a : Nat) (bs : List Byte) : Copy :=
  if c.space == sp then { c with bytes := c.bytes.mapIdx (fun i b => if a ≤ c.sector * 64 + i then bs.getD (c.sector * 64 + i - a) b else b) } else c

/-- Appends an asynchronous error record, in memory and in every copy of it, and signals vector 0, or counts the record dropped (R158, R244):
physical address, KIND, die, slice, CYCLE. The first record is SEQ 1, and a log that has not been declared has no room (log 77). A record on its way
through a link or port that trains is held at the hub (R240). -/
def appendError (s : State) (pa kind die slice : Nat) (cycle : W64) : State :=
  let l := s.errlog
  let slots := l.size / 32
  let seq := l.seq + 1
  if slots == 0 || l.pi - l.ci ≥ slots then
    { s with errlog := { l with seq := seq, dropped := BitVec.ofNat 32 (min (l.dropped.toNat + 1) (2 ^ 32 - 1)) } }
  else
    let rec32 := leBytes 8 pa ++ leBytes 1 kind ++ leBytes 1 die ++ leBytes 1 slice ++ leBytes 5 0 ++ leBytes 8 cycle.toNat ++ leBytes 8 seq
    let at_ := physAddr (l.ring + l.pi % slots * 32)
    let sp : Space := if at_ < dramEnd then .dram else .host
    let held := backHeld s sp || routeHeld s hubDie (homeDie sp at_)
    let f : Flight :=
      { who := .hub, team := none, bytes := rec32.mapIdx (fun i b => ({ space := sp, addr := at_ + i, cache := 2, comp := false }, b)), rel := none }
    { s with
      dram := if at_ < dramEnd && !held then s.dram.writeBytes at_ rec32 else s.dram
      hostMem := if at_ < dramEnd || held then s.hostMem else s.hostMem.writeBytes at_ rec32
      copies := if held then s.copies else s.copies.map (fun c => c.written sp at_ rec32)
      flights := if held then s.flights ++ [f] else s.flights
      msix := s.msix ++ [0]
      errlog := { l with seq := seq, pi := l.pi + 1 } }

/-- The core-clock count of a die's slices: the furthest CYCLE of its cores (R158; log 56). -/
def sliceClock (s : State) (die : Nat) : W64 :=
  BitVec.ofNat 64 (s.cores.foldl (fun m e => if dieOfCore e.1 == die then max m e.2.cycle.toNat else m) 0)

/-- A slice appends an error record for a line, with its clock count (R158). -/
def sliceError (s : State) (sp : Space) (line kind : Nat) : State :=
  appendError s (line * 256) kind (homeDie sp (line * 256)) (homeSlice sp (line * 256)) (sliceClock s (homeDie sp (line * 256)))

/-- Bytes of one sector written behind the caches. A write that reaches the cells of a running array is held or waits for admission; one that
meets a failing row of an IDLE array appends a record (R217, R219). -/
def setBacking (s : State) (sp : Space) (ws : List Host.Cell) : State :=
  match sp with
  | .dram => { s with dram := ws.foldl (fun m w => m.write w.1 w.2) s.dram }
  | .host => { backCrossing s .host ((ws.head?.map (·.1)).getD 0) with hostMem := ws.foldl (fun m w => m.write w.1 w.2) s.hostMem }
  | .peer p =>
    let m := ws.foldl (fun m w => m.write w.1 w.2) (peerOf s p)
    { s with peerMem := s.peerMem.filter (fun e => e.1 != p) ++ [(p, m)] }
  | .array =>
    match ws with
    | [] => s
    | w0 :: _ =>
      let k := arrayIndex w0.1
      let a := arrayOf s k
      let cs := ws.map (fun w => (windowOffset w.1, w.2))
      if arrayBusy a then setArray s k (writeBusy a cs)
      else
        let bad := a.st == .idle && (rowsAt a (cs.map (·.1))).any (fun r => !rowGood a r)
        let s := setArray s k (writeCells a cs)
        if bad then sliceError s .array (w0.1 / 256) 2 else s

/-- A write to one of these stretches has not yet reached its cells (R165, R217). -/
def writeParked (s : State) (spans : List (Space × Nat × Nat)) : Bool :=
  s.arrays.any (fun e => (e.2.heldWrites ++ e.2.asked).any (fun ws => ws.any (fun w =>
    spans.any (fun p => p.1 == .array && decide (p.2.1 ≤ e.1 * 2 ^ 17 + w.1) && decide (e.1 * 2 ^ 17 + w.1 < p.2.1 + p.2.2)))))

/-! ### Copies (R160 to R162) -/

/-- The copy of a sector at a place. -/
def copyAt (s : State) (pl : Place) (sp : Space) (sec : Nat) : Option Copy :=
  s.copies.find? (fun c => c.place == pl && c.space == sp && c.sector == sec)

def isL1 : Place → Bool
  | .l1 _ => true
  | _ => false

def isGuest : Place → Bool
  | .guest _ => true
  | _ => false

/-- A clean copy of a sector. -/
def Copy.clean (pl : Place) (sp : Space) (sec : Nat) (bytes : List Byte) (cw : Bool) : Copy :=
  { place := pl, space := sp, sector := sec, bytes := bytes, dirty := false, cw := cw, pin := none, pinAt := 0, stale := [] }

/-- A copy's bytes with some of them written. -/
def Copy.patch (c : Copy) (ws : List Host.Cell) : List Byte := ws.foldl (fun b w => b.set (w.1 % 64) w.2) c.bytes

/-- Copies of a sector that satisfy `p` leave. -/
def dropCopies (s : State) (sp : Space) (sec : Nat) (p : Copy → Bool) : State :=
  { s with copies := s.copies.filter (fun c => !(c.space == sp && c.sector == sec && p c)) }

/-- A copy takes its place: that of the copy held there, or a new one. -/
def putCopy (s : State) (c : Copy) : State :=
  let same : Copy → Bool := fun d => d.place == c.place && d.space == c.space && d.sector == c.sector
  if s.copies.any same then { s with copies := s.copies.map (fun d => if same d then c else d) } else { s with copies := s.copies ++ [c] }

/-- The CW flag of an L2 line (R156). -/
def setCw (s : State) (pl : Place) (sp : Space) (line : Nat) (cw : Bool) : State :=
  { s with copies := s.copies.map (fun c => if c.place == pl && c.space == sp && c.sector / 4 == line then { c with cw := cw } else c) }

/-- A copy is filled or written in an L2 line, whose CW flag follows it (R156). -/
def putLine (s : State) (c : Copy) : State := setCw (putCopy s c) c.place c.space (c.sector / 4) c.cw

/-- Sectors are marked poisoned (R157, R365). -/
def poison (s : State) (sp : Space) (secs : List Nat) : State :=
  { s with poisoned := s.poisoned ++ (secs.map (fun x => (sp, x))).filter (fun p => !s.poisoned.contains p) }

/-- The four sectors of a line. -/
def lineSectors (line : Nat) : List Nat := (List.range 4).map (fun i => line * 4 + i)

/-- A line is poisoned, and a record is appended (R157). -/
def poisonLine (s : State) (sp : Space) (line kind : Nat) : State := sliceError (poison s sp (lineSectors line)) sp line kind

/-- The bytes of a sector at its home. -/
def homeBytes (s : State) (sp : Space) (sec : Nat) : List Byte :=
  match copyAt s .home sp sec with
  | some c => c.bytes
  | none => (List.range 64).map (fun i => backing s sp (sec * 64 + i))

/-- The dirty copy of a sector of one class. -/
def dirtyCopy (s : State) (p : Place → Bool) (sp : Space) (sec : Nat) : Option Copy :=
  s.copies.find? (fun c => c.space == sp && c.sector == sec && c.dirty && p c.place)

/-- The newest bytes of a sector in coherence order (R181). -/
def newestBytes (s : State) (sp : Space) (sec : Nat) : List Byte :=
  match dirtyCopy s isL1 sp sec with
  | some c => c.bytes
  | none =>
    match dirtyCopy s isGuest sp sec with
    | some c => c.bytes
    | none => homeBytes s sp sec

/-- The newest byte at a place. -/
def newestByte (s : State) (sp : Space) (a : Nat) : Byte := (newestBytes s sp (a / 64)).getD (a % 64) 0

/-- The newest value of `n` bytes at a place. -/
def newestLe (s : State) (sp : Space) (a n : Nat) : Nat := leValue ((List.range n).map (fun i => newestByte s sp (a + i)))

/-- The die of a core or guest copy; the home die of a home copy. -/
def copyDie (c : Copy) : Nat :=
  match c.place with
  | .l1 k => dieOfCore k
  | .guest d => d
  | .home => homeDie c.space (c.sector * 64)

/-- The L2 place that backs an L1 of a die (R161). -/
def l2Place (sp : Space) (sec die : Nat) : Place := if homeDie sp (sec * 64) == die then .home else .guest die

/-- Every sector of a line that has a dirty home copy counts as written; a line written whole is poisoned no more (R157). -/
def settlePoison (s : State) (sp : Space) (line : Nat) : State :=
  if (List.range 4).all (fun i => match copyAt s .home sp (line * 4 + i) with
      | some c => c.dirty
      | none => false)
  then { s with poisoned := s.poisoned.filter (fun p => p.1 != sp || p.2 / 4 != line) } else s

/-- The line is held by an `mdrain.add` other than the holder `who` (R201). -/
def lineHeld (s : State) (sp : Space) (line who : Nat) : Bool := s.lineHolds.any (fun h => h.1 == sp && h.2.1 == line && h.2.2 != who)

/-- The line is pinned in an L1 for a team other than `team`: the access receives RETRY (R190). -/
def pinnedAway (s : State) (sp : Space) (sec : Nat) (team : Option Nat) : Bool :=
  s.copies.any (fun c => c.space == sp && c.sector == sec && c.pin.isSome && c.pin != team)

/-- A write or an atomic at the home slice, which takes every other copy of the line back, meets a line so pinned (R192, R199). -/
def linePinned (s : State) (sp : Space) (line : Nat) (team : Option Nat) : Bool :=
  s.copies.any (fun c => c.space == sp && c.sector / 4 == line && c.pin.isSome && c.pin != team)

/-! ### Superseded bytes (R186 to R188; log 14) -/

/-- The scope that a SCOPE field names: 0 is `.sys` (R359). -/
def scopeEff : Scope → Scope
  | .none => .sys
  | x => x

def scopeRank : Scope → Nat
  | .grp => 1 | .team => 2 | .die => 3 | .dev => 4 | _ => 5

/-- The wider of two scopes. -/
def scopeMax (a b : Scope) : Scope := if scopeRank a < scopeRank b then b else a

/-- The write touches the byte. -/
def Past.has (p : Past) (a : Nat) : Bool := p.old.any (fun w => w.1 == a)

/-- The two writes share a byte. -/
def Past.meets (p q : Past) : Bool := p.space == q.space && p.old.any (fun w => q.has w.1)

/-- The write of the bytes `ws` of a sector, whose bytes are `old`, in coherence order: a write for each aligned double word of them (R181, R186; log
14). `behind` holds where it goes straight behind the caches. -/
def notePast (s : State) (sp : Space) (sec : Nat) (old : List Byte) (ws : List Host.Cell) (seen : List Party) (behind : Bool) : State :=
  let words := (ws.map (fun w => w.1 / 8)).eraseDups
  { s with
    free := s.free + words.length
    past := s.past ++ words.mapIdx (fun i x =>
      { space := sp, sector := sec, old := ((ws.map (·.1)).filter (fun a => a / 8 == x)).map (fun a => (a, old.getD (a % 64) 0)), seen := seen, id := s.free + i
        rels := s.releases.filter (fun r => r.space == sp && r.addrs.any (fun a => a / 8 == x)), behind := behind }) }

/-- The numbers of the writes that have entered coherence order between two states. -/
def newWrites (s t : State) : List Nat := (t.past.drop s.past.length).map (·.id)

/-- The party has seen this write. -/
def Past.pass (p : Past) (who : Party) : Past := if p.seen.contains who then p else { p with seen := p.seen ++ [who] }

/-- The write touches one of these places. -/
def Past.touches (p : Past) (ls : List Loc) : Bool := p.old.any (fun w => ls.any (fun l => l.space == p.space && l.addr == w.1))

/-- A party has read bytes at these places, or written them: it has seen every write of them, but for those that the copy misses that it read
(R181). -/
def markSeen (s : State) (who : Party) (ls : List Loc) (missing : List Nat) : State :=
  { s with past := s.past.map (fun p => if p.touches ls && !missing.contains p.id then p.pass who else p) }

/-- The writes that a party has seen: what it hands on with a release. -/
def viewOf (s : State) (who : Party) : List Nat := (s.past.filter (fun p => p.seen.contains who)).map (·.id)

/-- The L1 of a party. -/
def Party.l1 : Party → Option Place
  | .core k => some (.l1 k)
  | _ => none

/-- A party sees these writes; a core's L1 keeps no copy that misses one of them, which its groups may no longer read (R188). -/
def joinView (s : State) (who : Party) (ids : List Nat) : State :=
  let past := s.past.map (fun p => if ids.contains p.id then p.pass who else p)
  { s with
    past := past
    copies := s.copies.filter (fun c => !(who.l1 == some c.place && past.any (fun p => c.stale.contains p.id && p.seen.contains who))) }

/-- What one party has seen, another sees too. -/
def joinParty (s : State) (who other : Party) : State := joinView s who (viewOf s other)

/-- A release and an acquire of scope `sc` by a group lie within each other's scope (R185, R188): a work queue's writes within `.dev`, those of the
host and of a peer device within `.sys`. -/
def Release.meets (r : Release) (sc : Scope) (gid team core : Nat) : Bool :=
  match r.party with
  | .core k =>
    match min (scopeRank r.rel.scope) (scopeRank sc) with
    | 1 => r.rel.gid == gid
    | 2 => r.rel.team == team
    | 3 => dieOfCore k == dieOfCore core
    | _ => true
  | .hub => decide (scopeRank sc ≥ 4)
  | _ => decide (scopeRank sc ≥ 5)

/-- A group's acquire has read these releases: its core sees what those that it synchronises with had seen (R188). -/
def acquire (s : State) (core gid team : Nat) (sc : Scope) (rels : List Release) : State :=
  joinView s (.core core) ((rels.filter (fun r => r.meets sc gid team core)).flatMap (fun r => r.rel.view))

/-- The releases whose values a copy that misses these writes holds at a place: those that stood there before the oldest of them. -/
def relsAt (s : State) (missing : List Nat) (sp : Space) (a : Nat) : List Release :=
  let all := match s.past.find? (fun p => missing.contains p.id && p.space == sp && p.has a) with
    | none => s.releases
    | some p => p.rels
  all.filter (fun r => r.space == sp && r.addrs.contains a)

/-- The releases whose values stand at any of these places. -/
def relsOf (s : State) (ls : List Loc) : List Release := ls.flatMap (fun l => relsAt s [] l.space l.addr)

/-- Releases stand no more at these bytes. -/
def endReleasesWhere (s : State) (p : Space → Nat → Bool) : State :=
  { s with releases := (s.releases.map (fun r => { r with addrs := r.addrs.filter (fun a => !p r.space a) })).filter (fun r => !r.addrs.isEmpty) }

/-- A write takes the place of releases at its bytes. -/
def endReleases (s : State) (ws : List (Loc × Byte)) : State := endReleasesWhere s (fun sp a => ws.any (fun w => w.1.space == sp && w.1.addr == a))

/-- A release by a party has been performed at these bytes (R187). -/
def addRelease (s : State) (who : Party) (ws : List (Loc × Byte)) (rel : Option Rel) : State :=
  match rel, ws with
  | some r, w :: _ => { s with releases := s.releases ++ [{ space := w.1.space, addrs := ws.map (fun x => x.1.addr), party := who, rel := r }] }
  | _, _ => s

/-- What the hub, the host or a peer device hands on with a write at `.sys` that is a release. -/
def outsideRel (s : State) (who : Party) : Rel := { scope := .sys, gid := 0, team := 0, view := viewOf s who }

/-- A place read at the home slice for a core: its L1 keeps no superseded copy of the sector (R181). -/
def dropStaleAt (s : State) (core : Nat) (l : Loc) : State :=
  markSeen (dropCopies s l.space (l.addr / 64) (fun c => !c.stale.isEmpty && c.place == .l1 core)) (.core core) [l] []

/-- The writes of a sector that have not reached the storage behind the caches. -/
def notBehind (s : State) (sp : Space) (sec : Nat) : List Nat :=
  (s.past.filter (fun p => p.space == sp && p.sector == sec && !p.behind)).map (·.id)

/-- Sectors are written behind the caches as a copy holds them, which misses some writes. -/
def markBehind (s : State) (sp : Space) (sec : Nat) (missing : List Nat) : State :=
  { s with past := s.past.map (fun p => if p.space == sp && p.sector == sec && !missing.contains p.id then { p with behind := true } else p) }

/-- A write is undone: the releases that stood at its bytes stand there again. -/
def undoWrite (s : State) (p : Past) : State :=
  let s := endReleasesWhere s (fun sp a => sp == p.space && p.has a)
  { s with
    past := s.past.filter (fun q => q.id != p.id)
    copies := s.copies.map (fun c => { c with stale := c.stale.filter (fun v => v != p.id) })
    releases := s.releases ++ (p.rels.map (fun r => { r with addrs := r.addrs.filter p.has })).filter (fun r => !r.addrs.isEmpty) }

/-- `inval` dropped dirty bytes: what is left is newest, and the writes that it misses are lost, the last first (R164, R177). -/
def forgetLost (s : State) (sp : Space) (sec : Nat) : State :=
  let lost := match ((dirtyCopy s isL1 sp sec).or (dirtyCopy s isGuest sp sec)).or (copyAt s .home sp sec) with
    | some c => c.stale
    | none => notBehind s sp sec
  (s.past.filter (fun p => p.space == sp && p.sector == sec && lost.contains p.id)).foldr (fun p s => undoWrite s p) s

/-! ### Monitors (R132, R133) -/

/-- The comparisons of `waitc` (R131). -/
def compareMem (cmp : BitVec 4) (bitsOf v w : Nat) : Bool :=
  match cmp.toNat with
  | 0 => v == w
  | 1 => v != w
  | 2 => decide (v < w)
  | 3 => decide (v ≥ w)
  | 4 => decide (signedOf bitsOf v < signedOf bitsOf w)
  | _ => decide (signedOf bitsOf v ≥ signedOf bitsOf w)

/-- The value of `n` bytes as their home slice holds them. -/
def homeLe (s : State) (sp : Space) (a n : Nat) : Nat := leValue ((List.range n).map (fun i => (homeBytes s sp ((a + i) / 64)).getD ((a + i) % 64) 0))

/-- A monitor's comparison on its bytes at the slice: the masked value against the operand (R71, R131). -/
def monitorHolds (s : State) (m : Monitor) : Bool :=
  compareMem m.cmp (8 * m.size) (homeLe s m.space m.addr m.size &&& m.mask.toNat) m.operand.toNat

/-- The team of a waiter; a work queue has none. -/
def waiterTeam (s : State) (m : Monitor) : Option Nat :=
  match m.waiter with
  | .sub gid _ => (s.groups.find gid).map (·.team)
  | .queue _ => none

/-- The scope of the `waitc` that waits as a producer. -/
def waitScope (g : Group) (id : Nat) : Scope :=
  ((g.inflight.find? (fun i => i.seq == id)).map (fun i =>
    match i.what with
    | .wait _ _ _ sc => sc
    | _ => .none)).getD .none

/-- The places that a monitor watches. -/
def Monitor.locs (m : Monitor) : List Loc := (List.range m.size).map (fun i => { space := m.space, addr := m.addr + i, cache := 0, comp := false })

/-- A monitor gives its waiter the value, read with an acquire, and is free (R131, R181, R188). -/
def monitorGive (s : State) (m : Monitor) : State :=
  let s := { s with monitors := s.monitors.erase m }
  let rels := relsOf s m.locs
  match m.waiter with
  | .sub gid p =>
    let v := BitVec.ofNat 64 (homeLe s m.space m.addr m.size)
    let t := onGroup s gid (fun g => { g with inflight := g.inflight.map (fun i => if i.seq == p then { i with what := .values [(0, v)] [] } else i) })
    match s.groups.find gid, (waiterTeam s m).bind (fun t => s.teams.find t) with
    | some g, some team => acquire (m.locs.foldl (fun s l => dropStaleAt s team.core l) t) team.core gid g.team (waitScope g p) rels
    | _, _ => t
  | .queue q => joinView (markSeen { s with wqs := s.wqs.modify q (fun w => { w with satisfied := true }) } .hub m.locs []) .hub
      ((rels.filter (fun r => decide (scopeRank r.rel.scope ≥ 4))).flatMap (fun r => r.rel.view))

/-- A write of a sector has landed at its home slice: the monitors that watch it and now hold are satisfied (R132, R133). What stands in an L1 or a
guest copy has not landed. -/
def monitorsSee (s : State) (sp : Space) (sec : Nat) : State :=
  (s.monitors.filter (fun m => m.space == sp && m.addr / 64 == sec)).foldl (fun s m => if monitorHolds s m then monitorGive s m else s) s

/-! ### Write-backs between the levels (R156, R157, R162) -/

/-- The destination on the engine channel that the arrays of a core are (R379); a slice's is its number. -/
def arrayDest (core : Nat) : Nat := 512 + core

/-- The die of a destination. -/
def destDie (dest : Nat) : Nat := if dest < 512 then dest / 16 else dieOfCore (dest - 512)

/-- A core sends to a destination on a channel (R135). What goes to another die, to the hub die for a peer's port, and the response to a request
there cross the die-to-die links as flits; what goes to a peer leaves its port as one (R237). -/
def noteSend (s : State) (core ch dest : Nat) : State :=
  let c := coreOf s core
  let s := setCore s core { c with channels := c.channels.modify ch (fun l => if l.contains dest then l else l ++ [dest]) }
  let d := dieOfCore core
  let far := if ch == 3 then hubDie else destDie dest
  let s := sendFlits s (dieRoute s d far) ch
  let s := if ch == 3 then sendFlits s [dest] 3 else s
  if ch == 1 then s else sendFlits s (dieRoute s far d) 1

/-- The slice that an L2 place of a sector lies in; a guest copy lies in slice fold_4(L >> 5) of its die (R160). -/
def sliceOf (pl : Place) (sp : Space) (sec : Nat) : Nat :=
  match pl with
  | .guest d => d * 16 + homeSlice sp (sec * 64)
  | _ => homeDie sp (sec * 64) * 16 + homeSlice sp (sec * 64)

/-- The responses of the cores whose L1 copies of a sector a slice recalls or invalidates, and the messages between the home slice and the guest
slices whose copies it takes (R135, R192, R237; log 60). -/
def noteAnswers (s : State) (sp : Space) (sec : Nat) (p : Copy → Bool) : State :=
  (s.copies.filter (fun c => c.space == sp && c.sector == sec && p c)).foldl (fun s c =>
    match c.place with
    | .l1 k => noteSend s k 1 (sliceOf (l2Place sp sec (dieOfCore k)) sp sec)
    | .guest d => crossing s (homeDie sp (sec * 64)) d
    | .home => s) s

/-- A dirty L1 copy is written into the L2 copy of its die and becomes clean (R162). -/
def pushL1 (s : State) (sp : Space) (sec : Nat) : State :=
  match dirtyCopy s isL1 sp sec with
  | none => s
  | some c =>
    let s := noteAnswers s sp sec (fun d => d.place == c.place)
    let s := putLine s { c with place := l2Place sp sec (copyDie c), pin := none }
    monitorsSee (settlePoison (putCopy s { c with dirty := false }) sp (sec / 4)) sp sec

/-- A dirty guest copy is written to the home slice, by a message between the dies, and becomes clean (R162, R237). -/
def pushGuest (s : State) (sp : Space) (sec : Nat) : State :=
  match dirtyCopy s isGuest sp sec with
  | none => s
  | some c =>
    let s := crossing s (copyDie c) (homeDie sp (sec * 64))
    monitorsSee (settlePoison (putCopy (putLine s { c with place := .home }) { c with dirty := false }) sp (sec / 4)) sp sec

/-- The home slice recalls a dirty L1 or guest copy (R192, R199). -/
def recallCopies (s : State) (sp : Space) (sec : Nat) : State := pushGuest (pushL1 s sp sec) sp sec

/-- The home slice recalls a sector and invalidates every other copy, with their acknowledgements (R192). -/
def homeOnly (s : State) (sp : Space) (sec : Nat) : State :=
  dropCopies (noteAnswers (recallCopies s sp sec) sp sec (fun _ => true)) sp sec (fun c => c.place != .home)

/-- The home slice does so for the whole line before a write or an atomic is performed there (R192, R199). -/
def homeLine (s : State) (sp : Space) (sec : Nat) : State := (lineSectors (sec / 4)).foldl (fun s x => homeOnly s sp x) s

/-- The stored code of a DRAM line (R154). -/
def codeOf (s : State) (line : Nat) : Nat := (s.codes.find line).getD 3

def setCode (s : State) (line c : Nat) : State := { s with codes := if c == 3 then s.codes.erase line else s.codes.insert line c }

/-- A write of some sectors of a compressed line meets an uncorrectable read of its code or data (R157). -/
def mergeFails (s : State) (sp : Space) (line : Nat) (whole bad : Bool) : Bool := sp == .dram && codeOf s line != 3 && !whole && bad

/-- Bytes of one line are written behind the caches: compressed as the slice finds, when CW is set; a write of some sectors of a compressed line
merges, and an uncorrectable read of it poisons the line and loses the merge (R156, R157). -/
def storeLine (s : State) (sp : Space) (line : Nat) (ws : List (List Host.Cell)) (cw : Bool) (code : Nat) (bad : Bool) : State :=
  let whole := decide ((ws.map List.length).sum ≥ 256)
  if mergeFails s sp line whole bad then poisonLine s sp line (if code % 2 == 0 then 1 else 2)
  else
    let packed := sp == .dram && codeOf s line != 3
    let s := ws.foldl (fun s w => setBacking s sp w) s
    if sp == .dram && (whole || packed) then setCode s line (if cw then code else 3) else s

/-- The cells of a copy's sector. -/
def Copy.cells (c : Copy) : List Host.Cell := c.bytes.mapIdx (fun i b => (c.sector * 64 + i, b))

/-- The dirty home copies among sectors of a line are written behind the caches and stay, clean; they stay dirty while the port trains (R240). A merge that fails loses them, and the
copies that depend on them go too (R157, R161, R162). -/
def writeBackLine (s : State) (sp : Space) (line : Nat) (secs : List Nat) (code : Nat) (bad : Bool) : State :=
  let cs := (secs.filterMap (fun x => copyAt s .home sp x)).filter (·.dirty)
  match (if backHeld s sp then [] else cs) with
  | [] => s
  | c :: _ =>
    let lost := mergeFails s sp line (decide (cs.length == 4)) bad
    let s := storeLine s sp line (cs.map Copy.cells) c.cw code bad
    cs.foldl (fun s d =>
      if lost then dropCopies s sp d.sector (fun e => copyDie e == copyDie d)
      else markBehind (putCopy s { d with dirty := false }) sp d.sector d.stale) s

/-- The same, where the implementation's compressor and memory decide. -/
def writeBackFree (s : State) (sp : Space) (line : Nat) (secs : List Nat) : State :=
  writeBackLine (fresh s) sp line secs (Config.freeNat s.free % 4) (Config.freeBool s.free)

/-- A slice evicts a line of its home copies, and with it every copy that depends on it (R161, R162). -/
def evictHome (s : State) (sp : Space) (line code : Nat) (bad drop : Bool) : State :=
  let s := (lineSectors line).foldl (fun s x => recallCopies s sp x) s
  let s := writeBackLine s sp line (lineSectors line) code bad
  if drop && !backHeld s sp then (lineSectors line).foldl (fun s x => dropCopies s sp x (fun _ => true)) s else s

/-- A slice evicts a guest line of its die, and with it the L1 copies of the die (R161, R162). -/
def evictGuest (s : State) (sp : Space) (line die : Nat) (drop : Bool) : State :=
  let mine : Copy → Bool := fun c => copyDie c == die && c.place != .home
  let s := (lineSectors line).foldl (fun s x => if (dirtyCopy s isL1 sp x).any mine then pushL1 s sp x else s) s
  let s := (lineSectors line).foldl (fun s x => if (dirtyCopy s isGuest sp x).any mine then pushGuest s sp x else s) s
  if drop then (lineSectors line).foldl (fun s x => dropCopies s sp x mine) s else s

/-! ### Capacity (R7, R9) -/

/-- The L2 lines of a slice. -/
def sliceLines (s : State) (k : Nat) : List (Place × Space × Nat) :=
  ((s.copies.filter (fun c => !isL1 c.place && sliceOf c.place c.space c.sector == k)).map (fun c => (c.place, c.space, c.sector / 4))).eraseDups

/-- The lines of a full set of 16 ways in which a line must find room; none where the slice holds the line or the set has room (R7; log 57). -/
def fullSet (s : State) (pl : Place) (sp : Space) (sec : Nat) : List (Place × Space × Nat) :=
  let line := sec / 4
  if s.copies.any (fun c => c.place == pl && c.space == sp && c.sector / 4 == line) then []
  else
    let all := sliceLines s (sliceOf pl sp sec)
    if all.length < 16 then []
    else
      let set := all.filter (fun x => Config.l2Set x.2.2 == Config.l2Set line)
      if set.length < 16 then [] else set

/-- An L2 line cannot leave its slice: what is dirty of it would go through a link or port that trains (R161, R162, R240). -/
def lineStays (s : State) (x : Place × Space × Nat) : Bool :=
  s.copies.any (fun c => c.space == x.2.1 && c.sector / 4 == x.2.2 && c.dirty &&
    match x.1 with
    | .guest d => copyDie c == d && c.place != .home && routeHeld s d (homeDie c.space (c.sector * 64))
    | _ => backHeld s c.space || routeHeld s (copyDie c) (homeDie c.space (c.sector * 64)))

/-- No line can leave a full set for the line: the access that would allocate it waits (R7, R240). -/
def noRoom (s : State) (pl : Place) (sp : Space) (sec : Nat) : Bool :=
  let set := fullSet s pl sp sec
  !set.isEmpty && set.all (lineStays s)

/-- A slice makes room for a line in its set: one of its 16 leaves, as the implementation chooses among those that can (R7; log 57). -/
def roomL2 (s : State) (pl : Place) (sp : Space) (sec : Nat) : State :=
  let set := (fullSet s pl sp sec).filter (fun x => !lineStays s x)
  match set[Config.freeNat s.free % set.length]? with
  | some (.guest d, v, n) => evictGuest (fresh s) v n d true
  | some (_, v, n) => evictHome (fresh s) v n (Config.freeNat s.free % 4) (Config.freeBool s.free) true
  | none => s

/-- A line leaves an L1, and its pin ends (R162, R190). -/
def evictL1 (s : State) (core : Nat) (c : Copy) : State :=
  let s := if c.dirty then pushL1 s c.space c.sector else s
  dropCopies s c.space c.sector (fun d => d.place == .l1 core)

/-- An L1 of 2,048 lines makes room for one: one leaves, as the implementation chooses (R9; log 57). -/
def roomL1 (s : State) (core : Nat) : State :=
  let mine := s.copies.filter (fun c => c.place == .l1 core)
  if mine.length < 2048 then s
  else
    match mine[Config.freeNat s.free % mine.length]? with
    | some c => evictL1 (fresh s) core c
    | none => s

/-! ### Errors met by a reader (R120, R157, R219), and what waits -/

/-- Reading the sector meets poison or, at the cells of an IDLE array, a row that fails its check. -/
def sectorBad (s : State) (sp : Space) (sec : Nat) : Bool :=
  s.poisoned.contains (sp, sec) ||
  (sp == .array && (copyAt s .home sp sec).isNone &&
    let a := arrayOf s (arrayIndex (sec * 64))
    a.st == .idle && (rowsAt a ((List.range 64).map (fun i => windowOffset (sec * 64) + i))).any (fun r => !rowGood a r))

/-- Reading the sector must wait for admission to the cells of a RUNNING or PAUSED array (R216). -/
def sectorWaits (s : State) (sp : Space) (sec : Nat) : Bool :=
  sp == .array && (copyAt s .home sp sec).isNone && arrayBusy (arrayOf s (arrayIndex (sec * 64)))

/-- A waiting read of a sector of a window is admitted: its home slice holds the cells as the last completed gate left them, and the access
takes a gate step (R216). -/
def admitRead (s : State) (sec : Nat) : State :=
  let a := arrayOf s (sec / 2048)
  let a := { a with reads := a.reads.erase (sec % 2048) }
  if sectorWaits s .array sec then
    putCopy (roomL2 (setArray s (sec / 2048) { a with admits := a.admits + 1, owed := a.owed + 1 }) .home .array sec)
      { Copy.clean .home .array sec (homeBytes s .array sec) false with stale := notBehind s .array sec }
  else setArray s (sec / 2048) a

def locSector (l : Loc) : Nat := l.addr / 64

/-- A read that reaches the cells of a RUNNING array asks for admission; a PAUSED array admits it as it arrives (R216). -/
def askRead (s : State) (l : Loc) : State :=
  let sec := locSector l
  let a := arrayOf s (sec / 2048)
  if !sectorWaits s l.space sec then s
  else if a.st == .paused then admitRead s sec
  else if a.reads.contains (sec % 2048) then s
  else setArray s (sec / 2048) { a with reads := a.reads ++ [sec % 2048] }

def askReads (s : State) (ls : List Loc) : State := ls.foldl askRead s

/-! ### Access through one core's L1, and at the home slice -/

/-- The access is not cached on this device: HOST and PEER pages with CACHE 2. -/
def direct (l : Loc) : Bool :=
  match l.space with
  | .peer _ | .host => l.cache == 2
  | _ => false

/-- A write of the place goes past the home slices to its destination: PEER pages, and HOST pages with CACHE 2 (R194). -/
def directStore (l : Loc) : Bool :=
  match l.space with
  | .peer _ => true
  | _ => direct l

/-- The access may be served from the core's L1: CACHE 0 (R160). -/
def throughL1 (l : Loc) : Bool := !direct l && l.cache == 0

/-- Before a core reads a sector: a dirty copy of another die is recalled home, a dirty L1 copy of its own die reaches the L2 (R162). -/
def gatherSector (s : State) (core : Nat) (sp : Space) (sec : Nat) : State :=
  if (dirtyCopy s isL1 sp sec).any (fun c => copyDie c != dieOfCore core) ||
     (dirtyCopy s isGuest sp sec).any (fun c => copyDie c != dieOfCore core)
  then recallCopies s sp sec else pushL1 s sp sec

/-- A slice of a die reads the code of a line through its metadata cache of 1,024 entries of 256 lines, and counts a miss (R155; log 55). -/
def readMeta (s : State) (ctx line d k : Nat) : State :=
  let held := (s.metaCache.find (d * 16 + k)).getD []
  if held.contains (line / 2 ^ 17) then s
  else
    countSlice { s with
      metaCache := s.metaCache.insert (d * 16 + k) ((if held.length ≥ 1024 then held.drop 1 else held) ++ [line / 2 ^ 17]) } d k 8 ctx 1

/-- A home slice holds a line whole, as it expands it: the sectors that it did not hold come from the storage (R163). -/
def expandLine (s : State) (sp : Space) (line : Nat) (cw : Bool) : State :=
  (lineSectors line).foldl (fun s x =>
    if (copyAt s .home sp x).isSome then s
    else putLine (roomL2 s .home sp x) { Copy.clean .home sp x (homeBytes s sp x) cw with stale := notBehind s sp x }) s

/-- A slice reads the code of a DRAM line that it fills; a compressed one it expands whole, where the access allocates, and an uncorrectable error
met as it does poisons the line (R155, R163). -/
def fillCode (s : State) (ctx : Nat) (l : Loc) : State :=
  if l.space != .dram || (copyAt s .home .dram (locSector l)).isSome then s
  else
    let line := l.addr / 256
    let d := homeDie .dram l.addr
    let k := homeSlice .dram l.addr
    let s := readMeta s ctx line d k
    if codeOf s line == 3 then s
    else
      let s := countSlice s d k 4 ctx 1
      let s := if Config.freeBool s.free then poisonLine (fresh s) .dram line (1 + Config.freeNat s.free % 2) else fresh s
      if l.cache == 2 then s else expandLine s .dram line l.comp

/-- One of these places in each sector. -/
def bySector (ls : List Loc) : List Loc :=
  ((ls.map (fun l => (l.space, locSector l))).eraseDups).filterMap (fun k => ls.find? (fun l => l.space == k.1 && locSector l == k.2))

/-- One of these places in each line. -/
def byLine (ls : List Loc) : List Loc :=
  ((ls.map (fun l => (l.space, l.addr / 256))).eraseDups).filterMap (fun k => ls.find? (fun l => l.space == k.1 && l.addr / 256 == k.2))

/-- The codes of the lines of an access are read once each (R155, R262). -/
def fillCodes (s : State) (ctx : Nat) (ls : List Loc) : State := (byLine ls).foldl (fun s l => fillCode s ctx l) s

/-- The home slice and the L2 of the core's die hold the clean copy `c`, where they hold none or a superseded one. -/
def installBelow (s : State) (core : Nat) (c : Copy) : State :=
  let pl := l2Place c.space c.sector (dieOfCore core)
  let s :=
    if (copyAt s .home c.space c.sector).isNone then putLine (roomL2 (backCrossing s c.space (c.sector * 64)) .home c.space c.sector) { c with place := .home }
    else s
  match copyAt s pl c.space c.sector with
  | some g => if !g.stale.isEmpty then putLine s { c with place := pl } else s
  | none => putLine (roomL2 s pl c.space c.sector) { c with place := pl }

/-- Of the writes of a sector, in coherence order, those that a core's fill leaves out, as the number `k` picks: none that the core has seen, and none
of which a later write of the same bytes is seen (R181, R186). -/
def leftOut (core k : Nat) : List Past → List Past
  | [] => []
  | p :: later =>
    let out := leftOut core (k / 2) later
    if k % 2 == 1 && !p.seen.contains (.core core) && later.all (fun q => !p.meets q || out.any (fun x => x.id == q.id)) then p :: out else out

/-- The bytes with which a core fills its L1: the newest, but for writes that it has not seen, as the implementation serves them (R186; log 14). -/
def fillBytes (s : State) (core : Nat) (c : Copy) : State × Copy :=
  let ps := s.past.filter (fun p => p.space == c.space && p.sector == c.sector)
  if ps.all (fun p => p.seen.contains (.core core)) then (s, c)
  else
    let out := leftOut core (Config.freeNat s.free) ps
    (fresh s, { c with bytes := out.foldr (fun p b => p.old.foldl (fun b w => b.set (w.1 % 64) w.2) b) c.bytes, stale := out.map (·.id) })

/-- The core takes a sector into its L1 and the L2 of its die (R161, R162): its newest bytes, where `newest` holds. A superseded copy is served as it
stands (R186). -/
def fillFrom (s : State) (core : Nat) (sp : Space) (sec : Nat) (cw newest : Bool) : State :=
  match copyAt s (.l1 core) sp sec with
  | some _ => s
  | none =>
    let s := gatherSector s core sp sec
    let c : Copy := .clean (.l1 core) sp sec (newestBytes s sp sec) cw
    let s := roomL1 (installBelow s core c) core
    let x := if newest then (s, c) else fillBytes s core c
    putCopy x.1 x.2

/-- The core reads a sector into its L1. -/
def fillL1 (s : State) (core : Nat) (sp : Space) (sec : Nat) (cw : Bool) : State := fillFrom s core sp sec cw false

/-- The home slice holds a copy of the sector after a read with allocation (R160). -/
def fillHome (s : State) (sp : Space) (sec : Nat) (cw : Bool) : State :=
  let s := recallCopies s sp sec
  match copyAt s .home sp sec with
  | some _ => s
  | none => putLine (roomL2 (backCrossing s sp (sec * 64)) .home sp sec) (.clean .home sp sec (newestBytes s sp sec) cw)

/-- No copy of a sector stays on the device: dirty data goes behind the caches first. HOST lines so keep to what the host sees (R194, R243); while
its port trains they stay (R240). -/
def dropHeld (s : State) (sp : Space) (sec : Nat) : State :=
  if backHeld s sp then s else dropCopies (writeBackFree (homeOnly s sp sec) sp (sec / 4) [sec]) sp sec (fun _ => true)

/-- Bytes delivered at a peer, or past the home slices at the host. -/
def destWrite (s : State) (sp : Space) (sec : Nat) (ws : List Host.Cell) : State := setBacking (dropHeld s sp sec) sp ws

/-- Bytes written at their home slice: other copies are recalled and invalidated first; a CACHE 2 access, or one straight to its
destination, allocates nothing (R160, R192). The bytes merged around them are read from storage; a row that fails its check poisons the
sector (R219; log 58). All bytes lie in one sector. -/
def homeWriteSector (s : State) (l : Loc) (ws : List Host.Cell) : State :=
  let sp := l.space
  let sec := locSector l
  if directStore l then destWrite s sp sec ws
  else
    let s := homeLine s sp sec
    let note : Bool → State := fun behind => notePast s sp sec (homeBytes s sp sec) ws [] behind
    match copyAt s .home sp sec with
    | some c => settlePoison (putLine (note false) { c with bytes := c.patch ws, dirty := true, cw := l.comp }) sp (sec / 4)
    | none =>
      if l.cache == 2 then
        let s := note true
        storeLine (fresh s) sp (sec / 4) [ws] l.comp (Config.freeNat s.free % 4) (Config.freeBool s.free)
      else
        let c := Copy.clean .home sp sec (homeBytes s sp sec) l.comp
        let s := if sectorBad s sp sec && ws.length < 64 then poison (note false) sp [sec] else note false
        settlePoison (putLine (roomL2 (backCrossing s sp (sec * 64)) .home sp sec) { c with bytes := c.patch ws, dirty := true }) sp (sec / 4)

/-- Once the die of a core owns a sector, its copies miss these writes of the core's: those of the home slice and of the L2 of the die stay, each other
one is dropped or left, as an implementation's invalidation falls (R162, R186, R192; log 14). -/
def invalidateOthers (s : State) (core : Nat) (sp : Space) (sec : Nat) (writes : List Nat) : State :=
  let keep := Config.freeBool s.free
  let under := l2Place sp sec (dieOfCore core)
  let s := noteAnswers s sp sec (fun c => c.place != .l1 core && c.place != under)
  { fresh s with copies := s.copies.filterMap (fun c =>
    if c.space == sp && c.sector == sec && c.place != .l1 core then
      if c.place == under || c.place == .home then some { c with stale := c.stale ++ writes }
      else if keep && c.pin.isNone then some { c with stale := c.stale ++ writes, dirty := false } else none
    else some c) }

/-- The die of a core asks the home slice for ownership of a sector that it does not own, on another die (R192, R237). -/
def askOwner (s : State) (core : Nat) (sp : Space) (sec : Nat) : State :=
  let d := dieOfCore core
  if s.copies.any (fun c => c.space == sp && c.sector == sec && c.dirty && copyDie c == d) then s else crossing s d (homeDie sp (sec * 64))

/-- Bytes written into a core's L1: the die obtains ownership, a dirty copy elsewhere is recalled, and the other copies are invalidated
(R162, R192). -/
def l1WriteSector (s : State) (core : Nat) (l : Loc) (ws : List Host.Cell) (pin : Option Nat) : State :=
  let sp := l.space
  let sec := locSector l
  let s := if (copyAt s (.l1 core) sp sec).any (fun c => !c.stale.isEmpty) then dropCopies s sp sec (fun c => c.place == .l1 core) else s
  let s := fillFrom (askOwner s core sp sec) core sp sec l.comp true
  match copyAt s (.l1 core) sp sec with
  | some c =>
    let d := { c with bytes := c.patch ws, dirty := true, cw := l.comp }
    let d := if pin.isSome && c.pin != pin then { d with pin := pin, pinAt := s.picks } else d
    let s := markSeen s (.core core) (ws.map (fun w => { l with addr := w.1 })) []
    let t := notePast s sp sec c.bytes ws [.core core] false
    putCopy (invalidateOthers t core sp sec (newWrites s t)) d
  | none => s

/-! ### Pins (R190) -/

/-- A core's pinned lines. -/
def pinnedOn (s : State) (core : Nat) : List Copy := s.copies.filter (fun c => c.place == .l1 core && c.pin.isSome)

/-- A pin past the 32nd evicts the oldest pinned line. -/
def limitPins (s : State) (core : Nat) : State :=
  match pinnedOn s core with
  | c :: rest => if rest.length ≥ 32 then evictL1 s core (rest.foldl (fun c d => if d.pinAt < c.pinAt then d else c) c) else s
  | [] => s

/-- Every pin of a team ends; its lines become ordinary dirty lines. -/
def endPins (s : State) (team : Nat) : State :=
  { s with copies := s.copies.map (fun c => if c.pin == some team then { c with pin := none } else c) }

/-- A core's pinned dirty lines reach the L2 of its die; their pins go on (R185, R190). -/
def pushPinned (s : State) (core : Nat) : State := ((pinnedOn s core).filter (·.dirty)).foldl (fun s c => pushL1 s c.space c.sector) s

/-- A core's dirty L1 lines and the dirty guest sectors of its die. -/
def dirtyOf (s : State) (core : Nat) : List Copy :=
  s.copies.filter (fun c => c.dirty && (c.place == .l1 core || c.place == .guest (dieOfCore core)))

/-- A link on the way of a copy to its home slice trains (R240). -/
def copyHeld (s : State) (c : Copy) : Bool := pathHeld s (copyDie c) (homeDie c.space (c.sector * 64))

/-- They are written home and stay, clean, as far as no link that trains keeps them (R192, R240, R396). -/
def writeHomeAll (s : State) (core : Nat) : State :=
  ((dirtyOf s core).filter (fun c => !copyHeld s c)).foldl (fun s c => recallCopies s c.space c.sector) s

/-- A line of them cannot go home yet. -/
def dirtyHeld (s : State) (core : Nat) : Bool := (dirtyOf s core).any (copyHeld s)

/-! ### Placed bytes -/

/-- The sectors that a list of placed bytes touches, in their order. -/
def sectorsOf (ws : List (Loc × Byte)) : List (Space × Nat) := (ws.map (fun w => (w.1.space, locSector w.1))).eraseDups

/-- The bytes of one sector. -/
def inSector (ws : List (Loc × Byte)) (k : Space × Nat) : List (Loc × Byte) := ws.filter (fun w => (w.1.space, locSector w.1) == k)

/-- Addresses and values of placed bytes. -/
def cellsOf (ws : List (Loc × Byte)) : List Host.Cell := ws.map (fun x => (x.1.addr, x.2))

/-- The lines that one write covers whole are poisoned no more (R157). -/
def clearWritten (s : State) (ws : List (Loc × Byte)) : State :=
  { s with poisoned := s.poisoned.filter (fun p => !(List.range 256).all (fun i => ws.any (fun w => w.1.space == p.1 && w.1.addr == p.2 / 4 * 256 + i))) }

/-- The bytes cover their line whole. -/
def wholeLine (ws : List (Loc × Byte)) : Bool :=
  match ws with
  | [] => false
  | w :: _ => decide (ws.length ≥ 256) && (List.range 256).all (fun i => ws.any (fun x => x.1.addr == w.1.addr / 256 * 256 + i))

/-- A whole line written at its home slice without allocation: one write, which merges nothing and takes the place of the copies there (R157). -/
def homeWriteLine (s : State) (l : Loc) (ws : List Host.Cell) : State :=
  let line := l.addr / 256
  let s := homeLine s l.space (locSector l)
  let s := (lineSectors line).foldl (fun s x =>
    dropCopies (notePast s l.space x (homeBytes s l.space x) (ws.filter (fun w => w.1 / 64 == x)) [] true) l.space x (fun _ => true)) s
  storeLine (fresh s) l.space line ((lineSectors line).map (fun x => ws.filter (fun w => w.1 / 64 == x))) l.comp
    (Config.freeNat s.free % 4) (Config.freeBool s.free)

/-- Bytes of one line written at their home slice, or delivered past it (R192, R193). -/
def writeHomeLine (s : State) (ws : List (Loc × Byte)) : State :=
  match ws with
  | [] => s
  | w :: t =>
    if w.1.cache == 2 && !directStore w.1 && wholeLine (w :: t) then homeWriteLine s w.1 (cellsOf (w :: t))
    else (sectorsOf (w :: t)).foldl (fun s k =>
      match inSector (w :: t) k with
      | [] => s
      | x :: xs => homeWriteSector s x.1 (cellsOf (x :: xs))) s

/-- The lines that a list of placed bytes touches, in their order. -/
def linesOf (ws : List (Loc × Byte)) : List (Space × Nat) := (ws.map (fun w => (w.1.space, w.1.addr / 256))).eraseDups

/-- The bytes of one line. -/
def inLine (ws : List (Loc × Byte)) (k : Space × Nat) : List (Loc × Byte) := ws.filter (fun w => (w.1.space, w.1.addr / 256) == k)

/-- Bytes written at their home slices, or delivered past them: line by line, in the place of what releases left there (R192, R193). -/
def writeHome (s : State) (ws : List (Loc × Byte)) : State :=
  endReleases (clearWritten ((linesOf ws).foldl (fun s k => writeHomeLine s (inLine ws k)) s) ws) ws

end Sys2Proof.Machine
end

