-- ==== Sys2Proof/Machine/Integer.lean ====
section
/-! DEFINITION. The integer, bitwise, move and compare instructions (spec/19_ref_compute.md R316 to R325). -/

namespace Sys2Proof.Machine

/-! ### Elements (R22, R320) -/

/-- The width of an element of an integer or floating type. -/
def elemBits : Ty → Nat
  | .i8 | .n8 => 8
  | .i16 | .n16 | .bf16 | .f16 => 16
  | .i64 | .n64 => 64
  | _ => 32

/-- The elements in a lane, or in a register pair for a 64-bit type. -/
def elemCount (t : Ty) : Nat := if t.w64 then 1 else 32 / elemBits t

def Ty.signed : Ty → Bool
  | .i8 | .i16 | .i32 | .i64 => true
  | _ => false

/-- Element `e` of a lane, as an unsigned number. -/
def elemAt (n x e : Nat) : Nat := bits x (n * e + n - 1) (n * e)

/-- A lane made of `cnt` elements of `n` bits. -/
def packElems (n cnt : Nat) (fn : Nat → Nat) : Nat :=
  (List.range cnt).foldl (fun a e => a + fn e % 2 ^ n * 2 ^ (n * e)) 0

/-- An element's value: signed or natural by type. -/
def elemVal (t : Ty) (x e : Nat) : Int :=
  let y := elemAt (elemBits t) x e
  if Ty.signed t then signedOf (elemBits t) y else (y : Int)

/-- An integer operation on every element of a lane, modulo 2^n (R320). -/
def intLane (t : Ty) (fn : Nat → Int → Int → Int → Int) (a b c : W64) : W64 :=
  let n := elemBits t
  BitVec.ofNat 64 (packElems n (elemCount t) (fun e => wrapInt n (fn n (elemVal t a.toNat e) (elemVal t b.toNat e) (elemVal t c.toNat e))))

/-! ### The shape of a value instruction (R316) -/

/-- A value instruction: in the active lanes of a vector destination, with its tag set whatever is active, or once under the
scalar guard. -/
def valueOp (op : Op) (f : Fields) (s : State) (tag : Env → BitVec 4) (fnV : Env → Nat → W64) (fnS : Env → W64) : Out :=
  issuePlain op f s fun e =>
    if f.dst.isV then finish e op f s (writeV e.g f.dst f.ty.w64 (e.active f) (tag e) (fnV e))
    else if e.guard f then finish e op f s (writeS e.g f.dst (fnS e))
    else finish e op f s e.g

/-- The three operands of lane `i`. -/
def laneArgs (fn : W64 → W64 → W64 → W64) (f : Fields) (e : Env) (i : Nat) : W64 :=
  fn (readWide f.ty.w64 e.g f f.sa i) (readWide f.ty.w64 e.g f f.sb i) (readWide f.ty.w64 e.g f f.sc i)

/-- The three operands of a scalar instruction. -/
def scalarArgs (fn : W64 → W64 → W64 → W64) (f : Fields) (e : Env) : W64 :=
  fn (readS e.g f f.sa) (readS e.g f f.sb) (readS e.g f f.sc)

/-- A scalar result of a type: 32-bit results are extended (R316). -/
def scalarResult (t : Ty) (x : W64) : W64 := if t.w32 then extend32 t (x.setWidth 32) else x

/-- A typed integer instruction. -/
def intOp (op : Op) (f : Fields) (s : State) (fn : Nat → Int → Int → Int → Int) : Out :=
  valueOp op f s (fun _ => tagOf f.ty) (laneArgs (intLane f.ty fn) f) (fun e => scalarResult f.ty (scalarArgs (intLane f.ty fn) f e))

def execAdd (f : Fields) (s : State) : Out := intOp .add f s (fun _ a b _ => a + b)
def execSub (f : Fields) (s : State) : Out := intOp .sub f s (fun _ a b _ => a - b)
def execMul (f : Fields) (s : State) : Out := intOp .mul f s (fun _ a b _ => a * b)
def execMad (f : Fields) (s : State) : Out := intOp .mad f s (fun _ a b c => a * b + c)
/-- The high half of the exact 2n-bit product. -/
def execMulh (f : Fields) (s : State) : Out := intOp .mulh f s (fun n a b _ => a * b / (2 : Int) ^ n)
def execNeg (f : Fields) (s : State) : Out := intOp .neg f s (fun _ a _ _ => -a)
def execAbs (f : Fields) (s : State) : Out := intOp .abs f s (fun _ a _ _ => if a < 0 then -a else a)
def execMin (f : Fields) (s : State) : Out := intOp .min f s (fun _ a b _ => if a < b then a else b)
def execMax (f : Fields) (s : State) : Out := intOp .max f s (fun _ a b _ => if a > b then a else b)

/-- `sar`: the shift count is the unsigned operand, at most the width less one (R322). -/
def execSar (f : Fields) (s : State) : Out :=
  let w := elemBits f.ty
  let fn : W64 → W64 → W64 → W64 := fun a b _ =>
    BitVec.ofNat 64 (wrapInt w (signedOf w a.toNat / (2 : Int) ^ min (b.toNat % 2 ^ w) (w - 1)))
  valueOp .sar f s (fun _ => tagOf f.ty) (laneArgs fn f) (fun e => scalarResult f.ty (scalarArgs fn f e))

/-! ### Add with carry (R320) -/

/-- a + b + carry, exact, of a type's width. -/
def carrySum (t : Ty) (a b : W64) (cin : Bool) : Nat :=
  a.toNat % 2 ^ elemBits t + b.toNat % 2 ^ elemBits t + cin.toNat

def execAddc (f : Fields) (s : State) : Out :=
  let n := elemBits f.ty
  issuePlain .addc f s fun e =>
    let p := maskRead e.g e.sub.em f.sc
    if f.dst.isV then
      let sum : Nat → Nat := fun i =>
        carrySum f.ty (readWide f.ty.w64 e.g f f.sa i) (readWide f.ty.w64 e.g f f.sb i) (p.getLsbD i)
      let m := e.active f
      let g := writeV e.g f.dst f.ty.w64 m (tagOf f.ty) (fun i => BitVec.ofNat 64 (sum i % 2 ^ n))
      finish e .addc f s (writePred g f.sc (maskOf (fun i => if m.getLsbD i then sum i ≥ 2 ^ n else p.getLsbD i)))
    else if e.guard f then
      let sum := carrySum f.ty (readS e.g f f.sa) (readS e.g f f.sb) (p.getLsbD 0)
      let g := writeS e.g f.dst (scalarResult f.ty (BitVec.ofNat 64 (sum % 2 ^ n)))
      finish e .addc f s (writePred g f.sc (if sum ≥ 2 ^ n then BitVec.allOnes 64 else 0))
    else finish e .addc f s e.g

/-! ### Long-latency producers (R100, R321) -/

/-- A long-latency producer takes its place in group order: its destination is empty, under its tag (R33, R100). -/
def launch (e : Env) (f : Fields) (g : Group) (tag : BitVec 4) (size : Nat) (what : Pending) : Group :=
  let rs := regsFrom (tyRegs f.ty) f.dst
  let g := rs.foldl setEmpty (rs.foldl (setTag tag) g)
  { g with
    inflight := g.inflight ++ [{ seq := g.seq, node := e.node, pc := e.pc, dst := f.dst, ty := f.ty, size := size, region := g.region.isOpen
                                 retrying := false, what := what }]
    seq := g.seq + 1 }

/-- The lanes of a mask with the values that `fn` gives. -/
def activeLanes (m : Mask) (fn : Nat → W64) : List (Nat × W64) :=
  ((List.range 64).filter (fun i => m.getLsbD i)).map (fun i => (i, fn i))

/-- Quotient and remainder (R321): a zero divisor gives all ones and the dividend. -/
def divRem (t : Ty) (a b : W64) : Int × Int :=
  let n := elemBits t
  let x := elemVal t a.toNat 0
  let y := elemVal t b.toNat 0
  if y == 0 then (if Ty.signed t then -1 else (2 : Int) ^ n - 1, x)
  else if Ty.signed t && x == -((2 : Int) ^ (n - 1)) && y == -1 then (x, 0)
  else (Int.tdiv x y, x - y * Int.tdiv x y)

/-- A division: its destination is empty until the result is written back. -/
def divOp (op : Op) (f : Fields) (s : State) (pick : Int × Int → Int) : Out :=
  let fn : W64 → W64 → W64 := fun a b => BitVec.ofNat 64 (wrapInt (elemBits f.ty) (pick (divRem f.ty a b)))
  issuePlain op f s fun e =>
    if f.dst.isV then
      let vals := activeLanes (e.active f) (fun i => fn (readWide f.ty.w64 e.g f f.sa i) (readWide f.ty.w64 e.g f f.sb i))
      finish e op f s (launch e f e.g (tagOf f.ty) 0 (.values vals []))
    else if e.guard f then
      let x := scalarResult f.ty (fn (readS e.g f f.sa) (readS e.g f f.sb))
      finish e op f s (launch e f e.g (tagOf f.ty) 0 (.values [(0, x)] []))
    else finish e op f s e.g

def execDiv (f : Fields) (s : State) : Out := divOp .div f s (·.1)
def execRem (f : Fields) (s : State) : Out := divOp .rem f s (·.2)

/-! ### Bitwise, shifts, counts and fields (R322, R323) -/

/-- A bitwise instruction: on the 32-bit lane of a vector or all 64 bits of a scalar; `fn` has the width and three operands. -/
def bitOp (op : Op) (f : Fields) (s : State) (tag : BitVec 4) (fn : Nat → Nat → Nat → Nat → Nat) : Out :=
  let go : Nat → W64 → W64 → W64 → W64 := fun n a b c => BitVec.ofNat 64 (fn n a.toNat b.toNat c.toNat % 2 ^ n)
  valueOp op f s (fun _ => tag) (laneArgs (go 32) f) (scalarArgs (go 64) f)

def execAnd (f : Fields) (s : State) : Out := bitOp .and f s tagRaw (fun _ a b _ => a &&& b)
def execOr (f : Fields) (s : State) : Out := bitOp .or f s tagRaw (fun _ a b _ => a ||| b)
def execXor (f : Fields) (s : State) : Out := bitOp .xor f s tagRaw (fun _ a b _ => a ^^^ b)
def execAndn (f : Fields) (s : State) : Out := bitOp .andn f s tagRaw (fun n a b _ => a &&& ((2 ^ n - 1) ^^^ b))
def execNot (f : Fields) (s : State) : Out := bitOp .not f s tagRaw (fun n a _ _ => (2 ^ n - 1) ^^^ a)
def execShl (f : Fields) (s : State) : Out := bitOp .shl f s tagRaw (fun n a b _ => if b ≥ n then 0 else a <<< b)
def execShr (f : Fields) (s : State) : Out := bitOp .shr f s tagRaw (fun n a b _ => if b ≥ n then 0 else a >>> b)
def execRot (f : Fields) (s : State) : Out :=
  bitOp .rot f s tagRaw (fun n a b _ => a <<< (b % n) ||| a >>> (n - b % n))

/-- Leading zero bits of the low `n` bits. -/
def leadingZeros : Nat → Nat → Nat
  | 0, _ => 0
  | n + 1, x => if x.testBit n then 0 else leadingZeros n x + 1

/-- One bits among the low `n`. -/
def oneBits (n x : Nat) : Nat := ((List.range n).filter (fun i => x.testBit i)).length

/-- The low `n` bits in reverse order. -/
def reverseBits (n x : Nat) : Nat := (List.range n).foldl (fun a i => 2 * a + (x.testBit i).toNat) 0

def execClz (f : Fields) (s : State) : Out := bitOp .clz f s tagN32 (fun n a _ _ => leadingZeros n a)
def execPopc (f : Fields) (s : State) : Out := bitOp .popc f s tagN32 (fun n a _ _ => oneBits n a)
def execBrev (f : Fields) (s : State) : Out := bitOp .brev f s tagRaw (fun n a _ _ => reverseBits n a)

/-- `bfe` (R323). -/
def fieldExtract (n a pos len : Nat) : Nat :=
  if pos ≥ n || len == 0 then 0 else (a >>> pos) % 2 ^ min len (n - pos)

def execBfe (f : Fields) (s : State) : Out := bitOp .bfe f s tagN32 fieldExtract

/-- `bfi` into `d` (R323). -/
def fieldInsert (n d a pos len : Nat) : Nat :=
  if pos ≥ n || len == 0 then d
  else
    let mask := (2 ^ min len (n - pos) - 1) <<< pos
    (d &&& ((2 ^ n - 1) ^^^ mask)) ||| ((a <<< pos) &&& mask)

def execBfi (f : Fields) (s : State) : Out :=
  let go : Nat → W64 → W64 → W64 → W64 → W64 := fun n d a b c => BitVec.ofNat 64 (fieldInsert n d.toNat a.toNat b.toNat c.toNat)
  valueOp .bfi f s (fun _ => tagRaw) (fun e i => laneArgs (go 32 (readWide false e.g f f.dst i)) f e i)
    (fun e => scalarArgs (go 64 (readS e.g f f.dst)) f e)

/-! ### Moves, selection, addresses (R324) -/

def execMov (f : Fields) (s : State) : Out :=
  valueOp .mov f s (fun e => copiedTag e.g f.sa) (fun e i => readWide f.ty.w64 e.g f f.sa i) (fun e => readS e.g f f.sa)

/-- IMM as a 64-bit value: sign-extended for a signed type and for none, zero-extended for a natural type. -/
def moviValue (f : Fields) : W64 := if f.ty == .n32 || f.ty == .n64 then f.imm.setWidth 64 else f.imm.signExtend 64

def execMovi (f : Fields) (s : State) : Out :=
  valueOp .movi f s (fun _ => tagOf f.ty) (fun _ _ => moviValue f) (fun _ => moviValue f)

def execSel (f : Fields) (s : State) : Out :=
  valueOp .sel f s (fun e => selTag e.g f.sb f.sc)
    (fun e i => readWide f.ty.w64 e.g f (if (maskRead e.g e.sub.em f.sa).getLsbD i then f.sb else f.sc) i)
    (fun e => readS e.g f (if (maskRead e.g e.sub.em f.sa).getLsbD 0 then f.sb else f.sc))

def execLea (f : Fields) (s : State) : Out :=
  let k := bits f.imm.toNat 2 0
  intOp .lea f s (fun _ a b _ => a + b * (2 : Int) ^ k)

/-! ### Compare (R325) -/

/-- The comparisons of `cmp` (R280). -/
def compareInt (cc : BitVec 4) (a b : Int) : Bool :=
  match cc.toNat with
  | 0 => a == b
  | 1 => a != b
  | 2 => decide (a < b)
  | 3 => decide (a ≤ b)
  | 4 => decide (a > b)
  | _ => decide (a ≥ b)

def execCmp (f : Fields) (s : State) : Out :=
  issuePlain .cmp f s fun e =>
    if f.sa.isV || f.sb.isV then
      let m := e.active f
      let r : Nat → Bool := fun i => compareInt f.mod (elemVal f.ty (readWide f.ty.w64 e.g f f.sa i).toNat 0)
        (elemVal f.ty (readWide f.ty.w64 e.g f f.sb i).toNat 0)
      let old := maskRead e.g e.sub.em f.dst
      finish e .cmp f s (writePred e.g f.dst (maskOf (fun i => if m.getLsbD i then r i else old.getLsbD i)))
    else if e.guard f then
      let r := compareInt f.mod (elemVal f.ty (readS e.g f f.sa).toNat 0) (elemVal f.ty (readS e.g f f.sb).toNat 0)
      finish e .cmp f s (writePred e.g f.dst (if r then BitVec.allOnes 64 else 0))
    else finish e .cmp f s e.g

/-! ### Popping a completion record (R76, R77, R324) -/

/-- `mov` from a queue register: the pop is a long-latency producer; no entry, or a late record under `^`, is EMPTY_SOURCE at step 3 of
R295 (`emptySource`); the record of a drain held for Commit() may not be popped (R117). -/
def execMovFromQueue (f : Fields) (s : State) : Out :=
  let q := queueNo f.sa
  issue .movFromQueue f s (fun _ => decide (q ≥ 5)) never
    (fun e => match oldestCmd e.g q with
      | some c => c.waitCommit && e.guard f
      | none => false)
    fun e =>
      if !e.guard f then finish e .movFromQueue f s e.g
      else
        match oldestCmd e.g q with
        | none => trap0 s e .movFromQueue f 0x09
        | some c =>
          let g := launch e f e.g tagRaw 0 (.pop q c.seq)
          let g := { g with queues := g.queues.modify q (fun l => l.map (fun d => if d.seq == c.seq then { d with popped := true } else d)) }
          finish e .movFromQueue f s g

end Sys2Proof.Machine
end

