-- ==== Sys2Proof/Machine/Control.lean ====
section
/-! DEFINITION. The control, region and system instructions (spec/18_ref_control.md R297 to R314; split and fuse, spec/06_group.md R92 to R99;
signatures, spec/07_region.md R122, R123). -/

namespace Sys2Proof.Machine

/-! ### Branches, calls and jumps (R297) -/

def execNop (f : Fields) (s : State) : Out := issuePlain .nop f s fun e => finish e .nop f s e.g

/-- `yield` only restarts the issue wait (R300, R105). -/
def execYield (f : Fields) (s : State) : Out := issuePlain .yield f s fun e => finish e .yield f s e.g

def execBra (f : Fields) (s : State) : Out :=
  issuePlain .bra f s fun e => finishAt e .bra f s e.g (if e.guard f then e.target f else e.next f.form.length)

def execBrc (f : Fields) (s : State) : Out :=
  issuePlain .brc f s fun e =>
    finishAt e .brc f s e.g
      (if e.guard f && (maskRead e.g e.sub.em f.sa &&& e.sub.em) != 0 then e.target f else e.next f.form.length)

/-- The number of the link register: the named one, or s(S - 4). -/
def linkIndex (g : Group) (x : Sel) : Nat :=
  match x with
  | .s n => n.val
  | _ => g.s - 4

def execCall (f : Fields) (s : State) : Out :=
  issuePlain .call f s fun e =>
    if e.guard f then
      finishAt e .call f s (setS e.g (linkIndex e.g f.dst) { val := (e.next f.form.length).setWidth 64, full := true }) (e.target f)
    else finish e .call f s e.g

def execJmpi (f : Fields) (s : State) : Out :=
  issuePlain .jmpi f s fun e =>
    finishAt e .jmpi f s e.g (if e.guard f then e.far (readS e.g f f.sa) else e.next f.form.length)

def execRet (f : Fields) (s : State) : Out :=
  issuePlain .ret f s fun e =>
    finishAt e .ret f s e.g (if e.guard f then e.far (sreg e.g (linkIndex e.g f.sa)).val else e.next f.form.length)

/-! ### Split and fuse (R95 to R98) -/

/-- The depth of a node (R90). -/
def depthOf (n : Nat) : Nat := Nat.log2 n

/-- Sub-groups in ascending node number, with a further one. -/
def insertSub (x : Sub) : List Sub → List Sub
  | [] => [x]
  | y :: t => if x.node < y.node then x :: y :: t else y :: insertSub x t

/-- The two children that a split leaves in place of a node. -/
def splitSub (g : Group) (x : Sub) (taken other : Mask) (target next : VAddr) : Group :=
  let a := { x with node := 2 * x.node, em := taken, live := taken, pc := target }
  let b := { x with node := 2 * x.node + 1, em := other, live := other, pc := next }
  let g := { g with subs := insertSub b (insertSub a (g.subs.filter (fun y => y.node != x.node))), splits := g.splits.insert x.node x.live }
  if x.node == 1 then { g with sig := sigEvent g.sig 1 } else g

def execBrd (f : Fields) (s : State) : Out :=
  issuePlain .brd f s fun e =>
    let p := maskRead e.g e.sub.em f.sa
    let t := e.sub.em &&& p
    let n := e.sub.em &&& ~~~p
    let next := e.next f.form.length
    if t == 0 then finishAt e .brd f s e.g next
    else if n == 0 then finishAt e .brd f s e.g (e.target f)
    else if depthOf e.node ≥ 8 || e.g.subs.length ≥ 16 then trap0 s e .brd f 0x07
    else
      let g := sigAfter e.g e.node .brd f
      .next (countCore (account (setGroup s e.gid (splitSub g e.sub t n (e.target f) next)) e .brd f) e.core 13 e.team.ctx 1)

/-- The fuse check on two siblings (R97). -/
def fuseGood (g : Group) (a b : Sub) : Bool :=
  (a.live &&& b.live) == 0 && (g.splits.find (a.node / 2)) == some (a.live ||| b.live)

/-- The merge of `a`, which arrived later or stands, with its sibling `b`, to go on at `next` in their parent's place (R96). -/
def mergeSub (g : Group) (a b : Sub) (next : VAddr) : Group :=
  let n := a.node / 2
  let em := a.em ||| (if b.st == .exited then 0 else b.em)
  let m := { a with node := n, em := em, live := a.live ||| b.live, pc := next, st := .runnable }
  let g := { g with subs := insertSub m (g.subs.filter (fun y => y.node != a.node && y.node != b.node && y.node != n)), splits := g.splits.erase n }
  if n == 1 then { g with sig := sigEvent g.sig 2 } else g

def execFuse (f : Fields) (s : State) : Out :=
  issuePlain .fuse f s fun e =>
    if e.node == 1 then finish e .fuse f s e.g
    else
      let next := e.next f.form.length
      let merge : Sub → Out := fun b =>
        if fuseGood e.g e.sub b then .next (account (setGroup s e.gid (mergeSub e.g e.sub b next)) e .fuse f)
        else .next (consumeError (account s e .fuse f) e.gid e.node 0x0C 0)
      let stand : Out :=
        .next (account (setGroup s e.gid (onSub e.g e.node (fun x => { x with st := .atFuse f.form.length }))) e .fuse f)
      match subOf e.g (e.node ^^^ 1) with
      | none => stand
      | some b =>
        match b.st with
        | .exited => merge b
        | .atFuse _ => if b.pc == e.pc then merge b else .next (consumeError (account s e .fuse f) e.gid e.node 0x0C 0)
        | _ => stand

/-! ### Exit (R98, R299, R82) -/

/-- EXITED siblings give way to their EXITED parent, as far as that reaches; its LIVE is theirs together (R98; log 76). -/
def collapse : Nat → Group → Nat → Group × Nat
  | 0, g, n => (g, n)
  | fuel + 1, g, n =>
    if n ≤ 1 then (g, n)
    else
      match subOf g n, subOf g (n ^^^ 1) with
      | some a, some b =>
        if b.st == .exited then
          let m := { a with node := n / 2, em := 0, live := a.live ||| b.live }
          collapse fuel { g with subs := insertSub m (g.subs.filter (fun y => y.node != n && y.node != n ^^^ 1 && y.node != n / 2))
                                 splits := g.splits.erase (n / 2) } (n / 2)
        else (g, n)
      | _, _ => (g, n)

/-- What the last group's exit does: the kernel counts the team, its monitors and pins end (R82, R190). Its records stay for the commands
that still run, and its resources count as free. -/
def teamExit (s : State) (t : Nat) : State :=
  match s.teams.find t with
  | none => s
  | some team =>
    let s := endPins s t
    let s := (teamGroups s t).foldl (fun s e => freeMonitors s e.1 (fun _ => true)) s
    { s with kernels := s.kernels.modify team.kernel (fun k => { k with exited := k.exited + 1 }) }

/-- A sub-group of a group with a CLOSED region becomes EXITED: its records are kept for its siblings, one of which may then merge at its
`fuse`; one that an image brought back standing there executes its `fuse` again (R58). -/
def exitSub (s : State) (gid node : Nat) : State :=
  match s.groups.find gid with
  | none => s
  | some g =>
    let (g, n) := collapse 10 (onSub g node (fun x => { x with st := .exited, em := 0, handler := none })) node
    let s := setGroup s gid g
    match subOf g n, subOf g (n ^^^ 1) with
    | some a, some b =>
      if n == 1 then s
      else
        match b.st with
        | .atFuse k =>
          if k == 0 then onGroup s gid (fun g => onSub g b.node (fun x => { x with st := .runnable }))
          else if fuseGood g b a then setGroup s gid (mergeSub g b a (b.pc + BitVec.ofNat 80 k))
          else consumeError (onGroup s gid (fun g => onSub g b.node (fun x => { x with st := .runnable }))) gid b.node 0x0C 0
        | _ => s
    | _, _ => s

/-- A `commit` or `exit` that has performed Commit() opens no region; what Commit() owes to another sub-group's committing instruction stands
(R111). -/
def endReopen (g : Group) (node : Nat) : Region := { g.region with reopen := g.region.reopen.filter (fun r => r.1 != node) }

def execExit (f : Fields) (s : State) : Out :=
  issuePlain .exit f s fun e =>
    if e.guard f then
      commitFirst s e fun s e =>
        let g := { sigAfter e.g e.node .exit f with region := endReopen e.g e.node }
        let s := exitSub (account (setGroup s e.gid g) e .exit f) e.gid e.node
        .next (if teamExited s e.g.team then teamExit s e.g.team else s)
    else finish e .exit f s e.g

/-! ### Sleep and EM (R301, R302) -/

/-- The clk within which a sleep that is over must end (R301). -/
def sleepSlack : Nat := 256

def execSleepClk (f : Fields) (s : State) : Out :=
  issuePlain .sleepClk f s fun e =>
    let n := if f.sa.isNone then f.imm.toNat else (readS e.g f f.sa).toNat % 2 ^ 32
    let g := if e.guard f && n != 0 then onSub e.g e.node (fun x => { x with st := .sleeping (n + sleepSlack) }) else e.g
    finish e .sleepClk f s g

/-- A value read as W bits by `movem` and `pmov`. -/
def maskValue (g : Group) (em : Mask) (f : Fields) (x : Sel) : Mask :=
  match x with
  | .imm => f.imm.setWidth 64
  | .s n => (sreg g n.val).val
  | x => maskRead g em x

def execMovem (f : Fields) (s : State) : Out :=
  issuePlain .movem f s fun e =>
    if !e.guard f then finish e .movem f s e.g
    else if e.g.region.isOpen then trap0 s e .movem f 0x03
    else finish e .movem f s (onSub e.g e.node (fun x => { x with em := maskValue e.g x.em f f.sa &&& x.live }))

/-! ### Regions and signatures (R303, R304, R123) -/

/-- A committing atomic of the group is still to be performed outside any region: no region opens before it has been (R118, R119; log 67). -/
def betweenRegions (g : Group) : Bool :=
  closedAtoms g || g.subs.any (fun x => match x.st with
    | .performing _ _ => true
    | _ => false)

def execRegion (f : Fields) (s : State) : Out :=
  let p := bits f.imm.toNat 7 0
  let q := bits f.imm.toNat 14 8
  issue .region f s (fun e => decide (p > e.g.v) || decide (q > e.g.s)) (fun e => betweenRegions e.g) never fun e =>
    commitFirst s e fun s e =>
      let next := e.next f.form.length
      let g := onSub (sigAfter e.g e.node .region f) e.node (fun x => { x with pc := next, walked := [] })
      .next (account (setGroup s e.gid (openRegion g e.node p q next)) e .region f)

def execCommit (f : Fields) (s : State) : Out :=
  issuePlain .commit f s fun e =>
    commitFirst s e fun s e => finish e .commit f s { e.g with region := endReopen e.g e.node }

/-- `sigchk`: SIG is compared and set to 0 in any case; a mismatch is then a rollback trigger inside a region and a fault outside one, or in
a handler (R55, R123). -/
def execSigchk (f : Fields) (s : State) : Out :=
  issuePlain .sigchk f s fun e =>
    if e.node != 1 then finish e .sigchk f s e.g
    else if e.g.sig != f.imm && e.team.launch.sigEn then
      .next (consumeError (account (setGroup s e.gid { e.g with sig := 0 }) e .sigchk f) e.gid e.node 0x0C 0)
    else finish e .sigchk f s { e.g with sig := 0 }

def execSigrst (f : Fields) (s : State) : Out := issuePlain .sigrst f s fun e => finish e .sigrst f s { e.g with sig := 0 }

/-! ### Traps (R305, R306) -/

/-- `trap` and `brk`: cause TRAP with a value, resuming at Next. -/
def softTrap (op : Op) (f : Fields) (s : State) (v : W64) : Out :=
  issuePlain op f s fun e =>
    if e.guard f then .next (raise (account s e op f) e.gid e.node 0x0A (e.next f.form.length) (v.setWidth 80) false)
    else finish e op f s e.g

def execTrap (f : Fields) (s : State) : Out := softTrap .trap f s (f.imm.setWidth 64)
def execBrk (f : Fields) (s : State) : Out := softTrap .brk f s (f.imm.setWidth 64 ||| 0x8000000000000000)

def execEret (f : Fields) (s : State) : Out :=
  issue .eret f s (fun e => e.sub.handler.isNone) never never fun e =>
    match e.sub.handler with
    | some h => .next (account (setGroup s e.gid (leaveHandler e.g e.node h)) e .eret f)
    | none => trap0 s e .eret f 0x01

/-! ### Special registers (R308 to R311) -/

/-- The value of special register `n`, but for LANE. -/
def specValue (s : State) (e : Env) (n : Nat) : W64 :=
  let t := e.team
  let r := t.launch
  let d := dieOf s (dieOfCore t.core)
  let nat : Nat → W64 := BitVec.ofNat 64
  match n with
  | 0x00 => 64
  | 0x02 => nat e.g.num
  | 0x03 => if t.cont then 0 else nat (t.x + r.nx * (t.y + r.ny * t.z))
  | 0x04 => if t.cont then 0 else nat t.x
  | 0x05 => if t.cont then 0 else nat t.y
  | 0x06 => if t.cont then 0 else nat t.z
  | 0x07 => nat e.g.consumer.toNat
  | 0x08 => if t.cont then 1 else nat (r.pCount + r.cCount)
  | 0x09 => nat (logicalCore s t.core)
  | 0x0A => nat (dieOfCore t.core)
  | 0x0B => (coreOf s t.core).cycle
  | 0x0C => nat d.step
  | 0x0D => nat d.band
  | 0x0E => nat s.power.boostLeft
  | 0x0F => nat (allowLevel s t.core)
  | 0x10 => e.sub.regionPc.setWidth 64
  | 0x11 => e.g.region.reentry.setWidth 64
  | 0x12 => 0x00081F16
  | 0x13 => if t.cont then 1 else nat r.nx
  | 0x14 => if t.cont then 1 else nat r.ny
  | 0x15 => if t.cont then 1 else nat r.nz
  | _ => 0

def execRdspec (f : Fields) (s : State) : Out :=
  let n := bits f.imm.toNat 7 0
  issuePlain .rdspec f s fun e =>
    if f.dst.isS then
      if !e.guard f then finish e .rdspec f s e.g
      else if n == 0x01 then trap0 s e .rdspec f 0x01
      else finish e .rdspec f s (writeS e.g f.dst (specValue s e n))
    else if n == 0x0B || n == 0x10 then trap0 s e .rdspec f 0x01
    else
      finish e .rdspec f s (writeV e.g f.dst false (e.active f) tagN32 (fun i => if n == 0x01 then BitVec.ofNat 64 i else specValue s e n))

def execWrspec (f : Fields) (s : State) : Out :=
  issue .wrspec f s (fun _ => bits f.imm.toNat 7 0 != 0x11) never never fun e =>
    let x := if f.sa.isNone then bits f.imm.toNat 31 8 else (readS e.g f f.sa).toNat
    if e.guard f then finish e .wrspec f s { e.g with region := { e.g.region with reentry := BitVec.ofNat 8 (min x 255) } }
    else finish e .wrspec f s e.g

/-! ### Single lanes (R312) -/

/-- The lane that `laneget` and `laneset` name; a register gives its low six bits. -/
def laneIndex (g : Group) (f : Fields) : Nat := if f.sb.isNone then bits f.imm.toNat 6 0 else (readS g f f.sb).toNat % 64

def execLaneget (f : Fields) (s : State) : Out :=
  issuePlain .laneget f s fun e =>
    let l := laneIndex e.g f
    if !e.guard f then finish e .laneget f s e.g
    else if l ≥ 64 then trap0 s e .laneget f 0x01
    else
      let x := if f.ty.w64 then readPair e.g f f.sa l else extend32 f.ty (readLane e.g f f.sa l)
      finish e .laneget f s (launch e f e.g tagRaw 0 (.values [(0, x)] []))

/-- A lane of a vector register written, under the tag it has. -/
def setLane (g : Group) (n l : Nat) (x : W32) : Group := setV g n { vreg g n with lanes := (vreg g n).lanes.set l x }

def execLaneset (f : Fields) (s : State) : Out :=
  issuePlain .laneset f s fun e =>
    let l := laneIndex e.g f
    if !e.guard f then finish e .laneset f s e.g
    else if l ≥ 64 then trap0 s e .laneset f 0x01
    else if e.g.region.isOpen && !e.inHandler && (dests e.g.s .laneset f).any (fun r => r.protectedBy e.g.region.p e.g.region.q) then
      trap0 s e .laneset f 0x03
    else
      let x := readS e.g f f.sa
      match f.dst with
      | .v n =>
        let g := setLane e.g n.val l (x.setWidth 32)
        finish e .laneset f s (if f.ty.w64 then setLane g (n.val + 1) l ((x >>> 32).setWidth 32) else g)
      | _ => finish e .laneset f s e.g

/-! ### Modes and flags (R313, R314) -/

def execFmode (f : Fields) (s : State) : Out :=
  issuePlain .fmode f s fun e =>
    let new : W64 := if f.sa.isNone then BitVec.ofNat 64 (bits f.imm.toNat 2 0) else readS e.g f f.sa
    if !e.guard f then finish e .fmode f s e.g
    else if new.toNat ≥ 8 then trap0 s e .fmode f 0x01
    else finish e .fmode f s { writeS e.g f.dst (e.g.fpm.setWidth 64) with fpm := new.setWidth 3 }

def execFlclr (f : Fields) (s : State) : Out :=
  issuePlain .flclr f s fun e =>
    let m := e.active f
    finish e .flclr f s { e.g with fl := e.g.fl.mapIdx (fun i x => if bitAt f.imm.toNat i then x &&& ~~~m else x) }

/-! ### Steps of the sub-groups themselves -/

/-- Commit() goes on once the region's producers and fills have completed (R113); the instruction then issues again. -/
def execCommitProceed (gid node : Nat) (s : State) : Out :=
  match s.groups.find gid with
  | none => .next s
  | some g =>
    match subOf g node with
    | none => .next s
    | some x =>
      if x.st != .committing || (g.region.isOpen && commitWaits g) then .next s
      else
        let s := if g.region.isOpen then commitNow s gid node else s
        .next (onGroup s gid (fun g => onSub g node (fun x => { x with st := .runnable })))

/-- The clk of a sleep have elapsed (R301). -/
def Sub.slept (x : Sub) : Bool :=
  match x.st with
  | .sleeping n => decide (n ≤ sleepSlack)
  | _ => false

/-- A sleep ends, once its clk have elapsed (R301). -/
def execSleepExpire (gid node : Nat) (s : State) : Out :=
  .next (onGroup s gid (fun g => onSub g node (fun x => if x.slept then { x with st := .runnable } else x)))

end Sys2Proof.Machine
end

