-- ==== Sys2Proof/Machine/Numbers.lean ====
section
/-! DEFINITION. The number formats (spec/02_numbers.md R24 to R42): floating values as exact dyadics, rounding, the SX blocks, and the
bounds of the special functions (spec/19_ref_compute.md R332). -/

namespace Sys2Proof.Machine

/-! ### Floating formats (R24) -/

/-- A format: exponent bits and fraction bits. -/
structure Fmt where
  eb : Nat
  mb : Nat
deriving DecidableEq, Repr

def fmtF32 : Fmt := { eb := 8, mb := 23 }
def fmtF16 : Fmt := { eb := 5, mb := 10 }
def fmtBF16 : Fmt := { eb := 8, mb := 7 }

def fmtOf : Ty → Fmt
  | .bf16 => fmtBF16
  | .f16 => fmtF16
  | _ => fmtF32

def Fmt.bias (f : Fmt) : Nat := 2 ^ (f.eb - 1) - 1
def Fmt.width (f : Fmt) : Nat := f.eb + f.mb + 1
/-- The least normal exponent. -/
def Fmt.emin (f : Fmt) : Int := 1 - (f.bias : Int)
/-- The canonical NaN. -/
def Fmt.nan (f : Fmt) : Nat := (2 ^ f.eb - 1) * 2 ^ f.mb + 2 ^ (f.mb - 1)
def Fmt.sign (f : Fmt) (neg : Bool) : Nat := if neg then 2 ^ (f.eb + f.mb) else 0
def Fmt.inf (f : Fmt) (neg : Bool) : Nat := f.sign neg + (2 ^ f.eb - 1) * 2 ^ f.mb
/-- The largest finite value. -/
def Fmt.big (f : Fmt) (neg : Bool) : Nat := f.sign neg + (2 ^ f.eb - 1) * 2 ^ f.mb - 1

/-- A floating datum: a NaN, an infinity, or ±m × 2^e. -/
inductive FpNum where
  | nan (signalling : Bool)
  | inf (neg : Bool)
  | fin (neg : Bool) (m : Nat) (e : Int)
deriving DecidableEq, Repr

/-- The datum that bits hold; a subnormal is read as a zero of its sign under FLUSH (R37). -/
def Fmt.read (f : Fmt) (flush : Bool) (x : Nat) : FpNum :=
  let neg := x.testBit (f.eb + f.mb)
  let e := bits x (f.eb + f.mb - 1) f.mb
  let m := x % 2 ^ f.mb
  if e == 2 ^ f.eb - 1 then (if m == 0 then .inf neg else .nan (!m.testBit (f.mb - 1)))
  else if e == 0 then .fin neg (if flush then 0 else m) (f.emin - f.mb)
  else .fin neg (m + 2 ^ f.mb) ((e : Int) - f.bias - f.mb)

def FpNum.isNan : FpNum → Bool
  | .nan _ => true
  | _ => false

def FpNum.isSnan : FpNum → Bool
  | .nan s => s
  | _ => false

def FpNum.isZero : FpNum → Bool
  | .fin _ m _ => m == 0
  | _ => false

def FpNum.isInf : FpNum → Bool
  | .inf _ => true
  | _ => false

def FpNum.neg : FpNum → Bool
  | .nan _ => false
  | .inf s => s
  | .fin s _ _ => s

def FpNum.negate : FpNum → FpNum
  | .nan s => .nan s
  | .inf s => .inf (!s)
  | .fin s m e => .fin (!s) m e

/-! ### Rounding (R35 to R38) -/

/-- Whether a magnitude with `rest` below its last kept place, of `2^k`, and `sticky` beyond, rounds up under a mode (R35). -/
def roundsUp (rm : Nat) (neg : Bool) (odd : Bool) (rest k : Nat) (sticky : Bool) : Bool :=
  match rm with
  | 0 => decide (2 * rest > 2 ^ k) || (2 * rest == 2 ^ k && k != 0 && (sticky || odd))
  | 1 => false
  | 2 => neg && (rest != 0 || sticky)
  | _ => !neg && (rest != 0 || sticky)

/-- m × 2^e in units of 2^q, rounded; whether it was inexact. -/
def roundUnits (rm : Nat) (neg : Bool) (m : Nat) (e q : Int) (sticky : Bool) : Nat × Bool :=
  if q ≤ e then (m * 2 ^ (e - q).toNat, sticky)
  else
    let k := (q - e).toNat
    let n := m / 2 ^ k
    let r := m % 2 ^ k
    (if roundsUp rm neg (n % 2 == 1) r k sticky then n + 1 else n, r != 0 || sticky)

/-- RoundFP of R296: the magnitude m × 2^e, and a little more when `sticky`, rounded once to a format, with tininess after rounding. -/
def Fmt.round (f : Fmt) (rm : Nat) (flush : Bool) (neg : Bool) (m : Nat) (e : Int) (sticky : Bool) : Nat × FpFlags :=
  if m == 0 then (f.sign neg, {})
  else
    let top : Int := Nat.log2 m + e
    let q := top - f.mb
    let unb := (roundUnits rm neg m e q sticky).1
    let tiny := decide (top < f.emin) && !(top == f.emin - 1 && unb == 2 ^ (f.mb + 1))
    let q' := max q (f.emin - f.mb)
    let (n, inexact) := roundUnits rm neg m e q' sticky
    let exp : Nat := (q' + f.mb + f.bias).toNat
    let raw := exp * 2 ^ f.mb + n - 2 ^ f.mb
    if tiny && flush then (f.sign neg, { uf := true, nx := true })
    else if raw ≥ (2 ^ f.eb - 1) * 2 ^ f.mb then
      let toInf := match rm with
        | 0 => true
        | 1 => false
        | 2 => neg
        | _ => !neg
      (if toInf then f.inf neg else f.big neg, { of := true, nx := true })
    else (f.sign neg + raw, { uf := tiny && inexact, nx := inexact })

/-- A signed exact dyadic rounded; an exact zero takes the sign given. -/
def Fmt.roundInt (f : Fmt) (rm : Nat) (flush : Bool) (zeroNeg : Bool) (x : Int) (e : Int) : Nat × FpFlags :=
  if x == 0 then (f.sign zeroNeg, {}) else f.round rm flush (decide (x < 0)) x.natAbs e false

/-! ### Sums and products (R327) -/

/-- The product of two data that is not invalid. -/
def FpNum.mul (a b : FpNum) : FpNum :=
  match a, b with
  | .fin s m e, .fin t n k => .fin (s != t) (m * n) (e + k)
  | .nan s, _ => .nan s
  | _, .nan s => .nan s
  | a, b => .inf (a.neg != b.neg)

/-- A product 0 × ∞. -/
def FpNum.badMul (a b : FpNum) : Bool := (a.isZero && b.isInf) || (a.isInf && b.isZero)

/-- The exact sum of finite terms in units of 2^e, with the least of their exponents. -/
def sumTerms (ts : List FpNum) : Int × Int :=
  let e := ts.foldl (fun a t => match t with
    | .fin _ _ k => min a k
    | _ => a) 0
  (ts.foldl (fun a t => match t with
    | .fin s m k => a + (if s then -1 else 1) * (m * 2 ^ (k - e).toNat : Nat)
    | _ => a) 0, e)

/-- The rounded sum of products and addends, with its flags (R327, R38). -/
def Fmt.sum (f : Fmt) (rm : Nat) (flush : Bool) (prods : List (FpNum × FpNum)) (adds : List FpNum) : Nat × FpFlags :=
  let ins := prods.flatMap (fun p => [p.1, p.2]) ++ adds
  let badP := prods.any (fun p => p.1.badMul p.2)
  let anyNan := ins.any FpNum.isNan
  let terms := prods.map (fun p => p.1.mul p.2) ++ adds
  let infs := terms.filter FpNum.isInf
  let clash := !anyNan && !badP && infs.any FpNum.neg && infs.any (fun x => !x.neg)
  let nv := ins.any FpNum.isSnan || badP || clash
  if anyNan || badP || clash then (f.nan, { nv := nv })
  else
    match infs with
    | x :: _ => (f.inf x.neg, { nv := nv })
    | [] =>
      let (x, e) := sumTerms terms
      let same := terms.all FpNum.neg || terms.all (fun t => !t.neg)
      f.roundInt rm flush (if same then terms.any FpNum.neg else rm == 2) x e

/-! ### Order (R328, R329) -/

/-- Two data that are no NaN, compared as real numbers. -/
def FpNum.lt (a b : FpNum) : Bool :=
  match a, b with
  | .inf s, .inf t => s && !t
  | .inf s, _ => s
  | _, .inf t => !t
  | a, b =>
    let (x, _) := sumTerms [b, a.negate]
    decide (x > 0)

def FpNum.eq (a b : FpNum) : Bool := !a.isNan && !b.isNan && !FpNum.lt a b && !FpNum.lt b a

/-- The bits of a datum of the format itself. -/
def Fmt.write (f : Fmt) (x : FpNum) : Nat :=
  match x with
  | .nan _ => f.nan
  | .inf s => f.inf s
  | .fin s m e => (f.round 0 false s m e false).1

/-- `fmin` and `fmax`: −0 below +0; a lone NaN gives way (R328). -/
def Fmt.pick (f : Fmt) (max : Bool) (a b : FpNum) : Nat × FpFlags :=
  let nv := a.isSnan || b.isSnan
  let less : Bool := FpNum.lt a b || (a.isZero && b.isZero && a.neg && !b.neg)
  let r := if a.isNan then b else if b.isNan then a else if less != max then a else b
  (f.write r, { nv := nv })

/-! ### Integral values (R331, R334, R26) -/

/-- A finite magnitude rounded to an integer; whether it was inexact. -/
def roundInteger (rm : Nat) (neg : Bool) (m : Nat) (e : Int) : Nat × Bool := roundUnits rm neg m e 0 false

/-- `frnd` (R331). -/
def Fmt.integral (f : Fmt) (rm : Nat) (x : FpNum) : Nat × FpFlags :=
  match x with
  | .nan s => (f.nan, { nv := s })
  | .inf s => (f.inf s, {})
  | .fin s m e =>
    let n := (roundInteger rm s m e).1
    ((f.round 0 false s n 0 false).1, {})

/-- A float converted to an integer range: round, saturate, and flag as R26 gives. A saturated result raises NV only (log 64). -/
def toInteger (rm : Nat) (lo hi : Int) (x : FpNum) : Int × FpFlags :=
  match x with
  | .nan _ => (0, { nv := true })
  | .inf s => (if s then lo else hi, { nv := true })
  | .fin s m e =>
    let (n, inexact) := roundInteger rm s m e
    let v : Int := if s then -(n : Int) else n
    if v < lo then (lo, { nv := true }) else if v > hi then (hi, { nv := true }) else (v, { nx := inexact })

/-- Conversion between floating formats: one rounding (R334 to R336). Every NaN gives the canonical NaN, one of BF16 widened too (log 64). -/
def Fmt.convert (f : Fmt) (rm : Nat) (flush : Bool) (x : FpNum) : Nat × FpFlags :=
  match x with
  | .nan s => (f.nan, { nv := s })
  | .inf s => (f.inf s, {})
  | .fin s m e => f.round rm flush s m e false

/-- The bit of the class of R330. -/
def Fmt.classBit (f : Fmt) (x : Nat) : Nat :=
  let neg := x.testBit (f.eb + f.mb)
  let e := bits x (f.eb + f.mb - 1) f.mb
  let m := x % 2 ^ f.mb
  if e == 2 ^ f.eb - 1 then (if m == 0 then (if neg then 2 else 9) else if m.testBit (f.mb - 1) then 1 else 0)
  else if e == 0 then (if m == 0 then (if neg then 5 else 6) else if neg then 4 else 7)
  else if neg then 3 else 8

/-! ### Square roots -/

/-- The integer square root, bit by bit from bit `k` down. -/
def isqrtFrom : Nat → Nat → Nat → Nat
  | 0, _, r => r
  | k + 1, n, r => isqrtFrom k n (if (r + 2 ^ k) * (r + 2 ^ k) ≤ n then r + 2 ^ k else r)

def isqrt (n : Nat) : Nat := isqrtFrom (Nat.log2 n / 2 + 1) n 0

/-- √(m × 2^e) as r × 2^k and a little more when `sticky`: r has at least 60 bits. -/
def rootParts (m : Nat) (e : Int) : Nat × Int × Bool :=
  let s : Nat := 160 + (e % 2).toNat
  let n := m * 2 ^ s
  let r := isqrt n
  (r, (e - (s : Int)) / 2, r * r != n)

/-- `fsqrt`: one rounding under a mode (R332). -/
def Fmt.sqrt (f : Fmt) (rm : Nat) (flush : Bool) (x : FpNum) : Nat × FpFlags :=
  match x with
  | .nan s => (f.nan, { nv := s })
  | .inf false => (f.inf false, {})
  | .inf true => (f.nan, { nv := true })
  | .fin s m e =>
    if m == 0 then (f.sign s, {})
    else if s then (f.nan, { nv := true })
    else
      let (r, k, sticky) := rootParts m e
      f.round rm flush false r k sticky

/-! ### The special functions: a value near the exact one, and the results inside the bound (R332; log 7) -/

/-- Fixed-point places of the near values. -/
def nearPlaces : Nat := 160

/-- π/2 in units of 2^-320, ln 2 and log2 e in units of 2^-160. -/
def halfPi320 : Nat := 0x1921fb54442d18469898cc51701b839a252049c1114cf98e804177d4c76273644a29410f31c6809bb
def ln2At160 : Nat := 0xb17217f7d1cf79abc9e3b39803f2f6af40f34326
def log2eAt160 : Nat := 0x171547652b82fe1777d0ffda0d23a7d11d6aef551

/-- A signed dyadic in units of 2^-p, rounded down. -/
def scaled (p : Nat) (neg : Bool) (m : Nat) (e : Int) : Int :=
  let k : Int := e + p
  let n : Int := if k ≥ 0 then (m * 2 ^ k.toNat : Nat) else (m / 2 ^ (-k).toNat : Nat)
  if neg then -n else n

/-- A Taylor series in fixed point: the term `t`, multiplied by x / 2^160 and divided by k, k + 1, and so on, for `n` terms. -/
def series (x : Int) (step : Nat) (sgn : Int) : Nat → Nat → Int → Int → Int
  | 0, _, _, acc => acc
  | n + 1, k, t, acc =>
    let t1 := (t * x / 2 ^ 160) / k
    let t2 := if step == 2 then (t1 * x / 2 ^ 160) / (k + 1) else t1
    series x step sgn n (k + step) (sgn * t2) (acc + sgn * t2)

/-- 2^(y / 2^160) as r × 2^k. -/
def nearExp2 (y : Int) : Nat × Int :=
  let n : Int := y / 2 ^ 160
  let fr : Int := y - n * 2 ^ 160
  let x : Int := fr * (ln2At160 : Int) / 2 ^ 160
  ((series x 1 1 45 1 (2 ^ 160) (2 ^ 160)).toNat, n - 160)

/-- `n` bits of log2 of z / 2^200 in [1, 2), by repeated squaring. -/
def log2Bits : Nat → Nat → Nat → Nat
  | 0, _, acc => acc
  | n + 1, z, acc =>
    let y := z * z / 2 ^ 200
    if y ≥ 2 ^ 201 then log2Bits n (y / 2) (2 * acc + 1) else log2Bits n y (2 * acc)

/-- log2 (m × 2^e) in units of 2^-90. -/
def nearLog2 (m : Nat) (e : Int) : Int :=
  let l := Nat.log2 m
  ((l : Int) + e) * 2 ^ 90 + (log2Bits 90 (m * 2 ^ 200 / 2 ^ l) 0 : Nat)

/-- x reduced by multiples of π/2: the count, and what remains in units of 2^-160. -/
def reduceAngle (neg : Bool) (m : Nat) (e : Int) : Int × Int :=
  let x := scaled 320 neg m e
  let k := (2 * x + halfPi320) / (2 * halfPi320)
  (k, (x - k * halfPi320) / 2 ^ 160)

/-- sin r and cos r for |r| below 1, in units of 2^-160. -/
def nearSin (r : Int) : Int := series r 2 (-1) 20 2 r r
def nearCos (r : Int) : Int := series r 2 (-1) 20 1 (2 ^ 160) (2 ^ 160)

/-- sin of an angle, or of the angle plus π/2. -/
def nearSine (cosine : Bool) (neg : Bool) (m : Nat) (e : Int) : Int :=
  let (k, r) := reduceAngle neg m e
  match ((k + (if cosine then 1 else 0)) % 4).toNat with
  | 0 => nearSin r
  | 1 => nearCos r
  | 2 => -nearSin r
  | _ => -nearCos r

/-- tanh of a magnitude, in units of 2^-160. -/
def nearTanh (m : Nat) (e : Int) : Nat :=
  let x := scaled 160 false m e
  if x ≥ 64 * 2 ^ 160 then 2 ^ 160 - 1
  else
    let (r, k) := nearExp2 (2 * x * log2eAt160 / 2 ^ 160)
    let y := r * 2 ^ (k + 160).toNat
    (y - 2 ^ 160) * 2 ^ 160 / (y + 2 ^ 160)

/-- The place of F32 bits in the order of their values, zeros together. -/
def orderOf (x : Nat) : Int := if x.testBit 31 then -((x % 2 ^ 31 : Nat) : Int) else x

def ofOrder (i : Int) : Nat := if i < 0 then 2 ^ 31 + i.natAbs else i.toNat

/-- The greatest F32 that is at most x × 2^e, and the least that is at least it, in that order. -/
def floorF32 (x : Int) (e : Int) : Int := orderOf (fmtF32.roundInt 2 false false x e).1
def ceilF32 (x : Int) (e : Int) : Int := orderOf (fmtF32.roundInt 3 false false x e).1

/-- One unit in the last place of x × 2^e as an F32, as an exponent. -/
def ulpExp (x : Int) (e : Int) : Int := max (Nat.log2 x.natAbs + e - 23) (-149)

/-- The F32 results within b × 2^k of x × 2^e, of which `choice` names one: NX always, OF and UF by magnitude. Where no finite F32 is within
the bound the infinity of that sign is the result. -/
def withinBound (choice : Nat → Nat) (flush : Bool) (x : Int) (e : Int) (b : Nat) (k : Int) : Nat × FpFlags :=
  let q := min e k
  let v := x * 2 ^ (e - q).toNat
  let w : Int := (b * 2 ^ (k - q).toNat : Nat)
  let lo := ceilF32 (v - w) q
  let hi := floorF32 (v + w) q
  let n := (hi - lo + 1).toNat
  let r := ofOrder (if hi < lo && v < 0 then hi else lo + ((choice n % max n 1 : Nat) : Int))
  let mag := r % 2 ^ 31
  if mag == 0x7F800000 then (r, { of := true, nx := true })
  else if mag < 0x800000 then (if flush then r / 2 ^ 31 * 2 ^ 31 else r, { uf := true, nx := true })
  else (r, { nx := true })

/-- A magnitude is a power of two: its exponent. -/
def powerOfTwo (m : Nat) (e : Int) : Option Int := if m == 2 ^ Nat.log2 m then some (Nat.log2 m + e) else none

/-- The .f32 form of a special function on a datum (R332). -/
def specialF32 (op : Op) (choice : Nat → Nat) (flush : Bool) (x : FpNum) : Nat × FpFlags :=
  let f := fmtF32
  match op, x with
  | _, .nan s => (f.nan, { nv := s })
  | .frcp, .inf s => (f.sign s, {})
  | .frcp, .fin s m e =>
    if m == 0 then (f.inf s, { dz := true })
    else
      match powerOfTwo m e with
      | some k => f.round 0 flush s 1 (-k) false
      | none =>
        let v : Int := (2 ^ 250 / m : Nat)
        withinBound choice flush (if s then -v else v) (-250 - e) 1 (ulpExp v (-250 - e))
  | .frsq, .inf s => if s then (f.nan, { nv := true }) else (0, {})
  | .frsq, .fin s m e =>
    if m == 0 then (f.inf s, { dz := true })
    else if s then (f.nan, { nv := true })
    else
      let near : Nat × FpFlags :=
        let (r, k, _) := rootParts m e
        let v : Int := (2 ^ 300 / r : Nat)
        withinBound choice flush v (-300 - k) 1 (ulpExp v (-300 - k))
      match powerOfTwo m e with
      | some k => if k % 2 == 0 then f.round 0 flush false 1 (-(k / 2)) false else near
      | none => near
  | .fexp2, .inf s => (if s then 0 else f.inf false, {})
  | .fexp2, .fin s m e =>
    let y := scaled 160 s m e
    if m == 0 then (0x3F800000, {})
    else if y ≥ 128 * 2 ^ 160 then (f.inf false, { of := true, nx := true })
    else if y % 2 ^ 160 == 0 && e ≥ -160 && y ≥ -149 * 2 ^ 160 then f.round 0 flush false 1 (y / 2 ^ 160) false
    else
      let y := max y (-400 * 2 ^ 160)
      let (r, k) := nearExp2 y
      withinBound choice flush r k 2 (ulpExp r k)
  | .flog2, .inf s => if s then (f.nan, { nv := true }) else (f.inf false, {})
  | .flog2, .fin s m e =>
    if m == 0 then (f.inf true, { dz := true })
    else if s then (f.nan, { nv := true })
    else
      match powerOfTwo m e with
      | some k => f.roundInt 0 flush false k 0
      | none =>
        let v := nearLog2 m e
        let inner := decide (-(2 : Int) ^ 90 ≤ v) && decide (v ≤ 2 ^ 90)
        if inner then withinBound choice flush v (-90) 1 (-22) else withinBound choice flush v (-90) 2 (ulpExp v (-90))
  | .fsin, .inf _ => (f.nan, { nv := true })
  | .fsin, .fin s m e => if m == 0 then (f.sign s, {}) else withinBound choice flush (nearSine false s m e) (-160) 1 (-22)
  | .fcos, .inf _ => (f.nan, { nv := true })
  | .fcos, .fin s m e => if m == 0 then (0x3F800000, {}) else withinBound choice flush (nearSine true s m e) (-160) 1 (-22)
  | .ftanh, .inf s => (f.sign s + 0x3F800000, {})
  | .ftanh, .fin s m e =>
    if m == 0 then (f.sign s, {})
    else
      let v : Int := nearTanh m e
      let u := ulpExp v (-160)
      if u + 1 ≥ -24 then withinBound choice flush (if s then -v else v) (-160) 2 u
      else withinBound choice flush (if s then -v else v) (-160) 1 (-24)
  | _, _ => (f.nan, {})

/-! ### SX blocks (R27 to R31) -/

/-- The magnitude bits of an SX type. -/
def sxBits : Ty → Nat
  | .sx2 => 2
  | .sx4 => 4
  | _ => 7

/-- The datum of an element byte under E and the shift byte (R27, R29). -/
def sxElem (m e shift j byte : Nat) : FpNum :=
  if e == 255 then .nan false
  else
    let mag := bits byte 6 (7 - m)
    let sg := bits shift (2 * (j / 4) + 1) (2 * (j / 4))
    if mag == 0 then .fin false 0 0 else .fin (byte.testBit 7) mag ((e : Int) - 127 - sg - ((m : Int) - 1))

/-- The exponent of a magnitude's leading bit. -/
def leadExp : FpNum → Int
  | .fin _ m e => Nat.log2 m + e
  | _ => 0

/-- A quantised block: E, the shift byte, the element bytes, and the flags of each element (R31). -/
structure SxBlock where
  e : Nat
  shift : Nat
  bytes : List Nat
  flags : List FpFlags
deriving DecidableEq, Repr

/-- A magnitude in units of 2^q, rounded half to even; whether it was inexact. -/
def sxUnits (x : FpNum) (q : Int) : Nat × Bool :=
  match x with
  | .fin _ m e => roundUnits 0 false m e q false
  | _ => (0, false)

/-- Quantisation of 16 values with m magnitude bits (R31). -/
def sxQuantise (m : Nat) (xs : List FpNum) : SxBlock :=
  if xs.any (fun x => x.isNan || x.isInf) then
    { e := 255, shift := 0, bytes := List.replicate 16 0, flags := xs.map (fun x => { nv := x.isNan || x.isInf }) }
  else if xs.all FpNum.isZero then { e := 0, shift := 0, bytes := List.replicate 16 0, flags := List.replicate 16 {} }
  else
    let top := (xs.filter (fun x => !x.isZero)).foldl (fun a x => max a (leadExp x)) (-1000)
    let e := (max (top + 127) 0).toNat
    let unit : Nat → Int := fun t => (e : Int) - 127 - t - ((m : Int) - 1)
    let fits : Nat → Nat → Bool := fun qd t => (List.range 4).all (fun j => decide ((sxUnits (xs.getD (4 * qd + j) (.inf false)) (unit t)).1 ≤ 2 ^ m - 1))
    let sigma : Nat → Nat := fun qd => if fits qd 3 then 3 else if fits qd 2 then 2 else if fits qd 1 then 1 else 0
    let code : Nat → Nat × FpFlags := fun j =>
      let x := xs.getD j (.inf false)
      let (n, inexact) := sxUnits x (unit (sigma (j / 4)))
      let n' := min n (2 ^ m - 1)
      ((if n' != 0 && x.neg then 128 else 0) + n' * 2 ^ (7 - m), { of := decide (n > 2 ^ m - 1), nx := inexact || decide (n > 2 ^ m - 1) })
    { e := e, shift := (List.range 4).foldl (fun a qd => a + sigma qd * 4 ^ qd) 0
      bytes := (List.range 16).map (fun j => (code j).1), flags := (List.range 16).map (fun j => (code j).2) }

end Sys2Proof.Machine
end

