-- ==== Sys2Proof/Machine/Flights.lean ====
section
/-! DEFINITION. Writes on their way to their home slices, to peers and to the host, and what holds them (spec/11_ordering.md R181 to R195,
spec/14_link.md R240, R242); the messages that accesses send and count (spec/08_barrier.md R135, spec/15_power.md R262); and the accesses of the hub,
the host and peer devices. -/

namespace Sys2Proof.Machine

/-! ### Places -/

/-- Where a message for a place goes: to a peer port, or to its home slice. -/
def sendsTo (l : Loc) : Bool × Nat :=
  match l.space with
  | .peer p => (true, p)
  | sp => (false, homeDie sp l.addr * 16 + homeSlice sp l.addr)

def samePlace (a b : Loc) : Bool := a.space == b.space && a.addr == b.addr

/-- Two lists of places share a byte. -/
def overlap (a b : List Loc) : Bool := a.any (fun x => b.any (samePlace x))

/-! ### Ports and links in the way (R240, R242) -/

/-- The access meets a port that is FAILED or DOWN, or a refusal by the peer device. -/
def peerFails (s : State) (l : Loc) : Bool :=
  match l.space with
  | .peer p => (linkOf s p).st == .failed || (linkOf s p).st == .down || !Config.peerAdmits p l.addr
  | _ => false

/-- Copies of a line on other dies cannot be recalled or invalidated: a link on the way trains. -/
def recallHeld (s : State) (sp : Space) (line : Nat) : Bool :=
  s.links.any (fun e => decide (17 ≤ e.1) && e.2.st == .training) &&
    s.copies.any (fun c => c.space == sp && c.sector / 4 == line && c.place != .home && pathHeld s (homeDie sp (line * 256)) (copyDie c))

/-- The storage of a place behind its home slice is out of reach: the host port trains, or a link between the slice and the hub die. -/
def behindHeld (s : State) (sp : Space) (a : Nat) : Bool := backHeld s sp || (sp == .host && pathHeld s (homeDie sp a) hubDie)

/-- Traffic from a die to a place is held at the sender: a port trains, or a link on the way, or the set of the home slice in which the line must find
room holds only lines that such a port or link keeps there (R7, R240). -/
def portHeld (s : State) (die : Nat) (l : Loc) : Bool :=
  match l.space with
  | .peer p => (linkOf s p).st == .training || pathHeld s die hubDie
  | sp => behindHeld s sp l.addr || pathHeld s die (homeDie sp l.addr) || recallHeld s sp (l.addr / 256) ||
      (l.cache != 2 && noRoom s .home sp (locSector l))

/-- The die of a team. -/
def teamDie (s : State) (team : Nat) : Nat := ((s.teams.find team).map (fun t => dieOfCore t.core)).getD hubDie

/-- The error record of a discarded store (R158, R242). -/
def linkLost (s : State) (l : Loc) : State :=
  match l.space with
  | .peer p => appendError s (l.addr / 256 * 256) 4 0xFF p s.refclk
  | _ => s

/-- Reading the place is an uncorrectable error (R157, R219, R242). -/
def badLoc (s : State) (l : Loc) : Bool := peerFails s l || sectorBad s l.space (locSector l)

/-- A write of the place from a die cannot be performed at its home slice: a pin, a hold, host memory or copies behind a port or link that trains, or
cells that a schedule uses (R191, R201, R216, R240). -/
def homeBusy (s : State) (die : Nat) (team : Option Nat) (l : Loc) : Bool :=
  linePinned s l.space (l.addr / 256) team || lineHeld s l.space (l.addr / 256) 0 || sectorWaits s l.space (locSector l) ||
  pathHeld s die (homeDie l.space l.addr) || recallHeld s l.space (l.addr / 256) ||
  ((copyAt s .home l.space (locSector l)).isNone && (behindHeld s l.space l.addr || (l.cache != 2 && noRoom s .home l.space (locSector l))))

/-! ### Writes performed at their home slices -/

/-- What the hub die sends for the hub, the host or a peer device crosses the die-to-die links (R7, R237). -/
def partyCrossing (s : State) (who : Party) (ls : List Loc) : State :=
  match who with
  | .core _ | .command _ _ => s
  | _ => (byLine ls).foldl (fun s l => crossing s hubDie (homeDie l.space l.addr)) s

/-- A party's write is performed at its home slices, or past them; then the monitors see it, with the release that it is (R132, R181, R188, R192). -/
def performWrite (s : State) (who : Party) (ws : List (Loc × Byte)) (rel : Option Rel) : State :=
  let s := partyCrossing s who (ws.map (·.1))
  let s := addRelease (markSeen (writeHome s ws) who (ws.map (·.1)) []) who ws rel
  (sectorsOf ws).foldl (fun s k => monitorsSee s k.1 k.2) s

/-- Bytes written by a core into its L1; a narrow release pins their lines (R183, R190). -/
def writeNear (s : State) (core : Nat) (ws : List (Loc × Byte)) (pin : Option Nat) (rel : Option Rel) : State :=
  let s := (sectorsOf ws).foldl (fun s k =>
    match inSector ws k with
    | [] => s
    | w :: t =>
      let s := l1WriteSector s core w.1 (cellsOf (w :: t)) pin
      if pin.isSome then limitPins s core else s) s
  addRelease (endReleases s ws) (.core core) ws rel

/-! ### Writes on their way (R135, R181, R194) -/

/-- The die from which the write comes. -/
def Flight.die (f : Flight) : Nat :=
  match f.who with
  | .core k => dieOfCore k
  | _ => hubDie

def Flight.locs (f : Flight) : List Loc := f.bytes.map (·.1)

/-- A core has sent the write. -/
def Flight.ofCore (f : Flight) (core : Nat) : Bool := f.who == .core core

/-- The write cannot be delivered yet: past the home slices, its port trains (R240). -/
def Flight.waits (s : State) (f : Flight) : Bool := f.bytes.any (fun w => if directStore w.1 then portHeld s f.die w.1 else homeBusy s f.die f.team w.1)

/-- The write goes to this destination. -/
def Flight.goesTo (f : Flight) (d : Bool × Nat) : Bool := f.bytes.any (fun w => sendsTo w.1 == d)

/-- The write was sent before `y` and is delivered before it: one of the same core to the same destination (R135), one of the same party outside the
cores, or one to the same bytes (R181). -/
def Flight.precedes (x y : Flight) : Bool :=
  (x.who == y.who && (x.die == hubDie || y.bytes.any (fun w => x.goesTo (sendsTo w.1)))) || overlap x.locs y.locs

/-- Nothing that is still on its way must be delivered before this write. -/
def flightFirst (s : State) (f : Flight) : Bool := !(s.flights.takeWhile (fun x => x != f)).any (fun x => x.precedes f)

/-- The writes on their way that satisfy `p`, with all that must be delivered before them, oldest first. -/
def flightsFor (s : State) (p : Flight → Bool) : List Flight :=
  s.flights.foldr (fun f l => if p f || l.any (fun y => f.precedes y) then f :: l else l) []

/-- A write on its way is performed at its home slices or delivered past them, or lost with an error record at a port that has failed (R194, R242). -/
def landFlight (s : State) (f : Flight) : State :=
  let s := { s with flights := s.flights.erase f }
  match f.bytes with
  | [] => s
  | w :: _ => if directStore w.1 && peerFails s w.1 then linkLost s w.1 else performWrite s f.who f.bytes f.rel

/-- The writes that satisfy `p` land, with what must be delivered before them, oldest first, as far as nothing holds them. -/
def landFlights (s : State) (p : Flight → Bool) : State :=
  (flightsFor s p).foldl (fun s f => if f.waits s || !flightFirst s f then s else landFlight s f) s

/-- Stores of the core to these bytes are delivered before its own later access to them (R180, R181). -/
def landBefore (s : State) (core : Nat) (ls : List Loc) : State := landFlights s (fun f => f.ofCore core && overlap f.locs ls)

/-- Every write on its way to these bytes is delivered before a later one in coherence order is performed (R181, R193, R199). -/
def landOnto (s : State) (ls : List Loc) : State := landFlights s (fun f => overlap f.locs ls)

/-- A store of the core to one of these bytes stays on its way: the core's own access to them waits (R180, R240). -/
def ownFlight (s : State) (core : Nat) (ls : List Loc) : Bool := (landBefore s core ls).flights.any (fun f => f.ofCore core && overlap f.locs ls)

/-- A write to one of these bytes stays on its way: a later write that is performed at once must wait (R181). -/
def flightStays (s : State) (ls : List Loc) : Bool := (landOnto s ls).flights.any (fun f => overlap f.locs ls)

/-- A store leaves its core for its destination. Past the home slices no copy of the bytes stays on the device (R194). -/
def sendStore (s : State) (core team : Nat) (ws : List (Loc × Byte)) (rel : Option Rel) : State :=
  let s := (sectorsOf (ws.filter (fun w => directStore w.1))).foldl (fun s k => dropHeld s k.1 k.2) s
  { s with flights := s.flights ++ [{ who := .core core, team := some team, bytes := ws, rel := rel }] }

/-- Bytes that a core's store writes: into its L1 for CACHE 0, past the home slices, or at them, on their way there for a while as the
implementation delivers them, and behind what is on its way to the same bytes (R181, R183, R194). -/
def writeCore (s : State) (core team : Nat) (ws : List (Loc × Byte)) (pin : Bool) (rel : Option Rel) : State :=
  match ws with
  | [] => s
  | w :: _ =>
    if directStore w.1 then sendStore s core team ws rel
    else
      let ls := ws.map (·.1)
      let stays := flightStays s ls
      let s := landOnto s ls
      if throughL1 w.1 then writeNear s core ws (if pin then some team else none) rel
      else if stays || Config.freeBool s.free then sendStore (fresh s) core team ws rel
      else performWrite (fresh s) (.core core) ws rel

/-! ### Traffic (R135, R262) -/

/-- A slice counts an access, and a miss where it holds no home copy (R262). -/
def countAccess (s : State) (ctx : Nat) (l : Loc) : State :=
  let d := homeDie l.space l.addr
  let k := homeSlice l.space l.addr
  let s := countSlice s d k 2 ctx 1
  if (copyAt s .home l.space (locSector l)).isNone then countSlice s d k 3 ctx 1 else s

/-- The slice of an L2 place counts an access, and a miss where it holds no copy there (R262). -/
def countAt (s : State) (ctx : Nat) (pl : Place) (sp : Space) (sec : Nat) : State :=
  let k := sliceOf pl sp sec
  let s := countSlice s (k / 16) (k % 16) 2 ctx 1
  if (copyAt s pl sp sec).isNone then countSlice s (k / 16) (k % 16) 3 ctx 1 else s

/-- The request that an access at its home slice, or at a peer, sends (R135). -/
def noteAccess (s : State) (core ctx : Nat) (l : Loc) : State :=
  let s := noteSend s core (if (sendsTo l).1 then 3 else 0) (sendsTo l).2
  if (sendsTo l).1 then s else countAccess s ctx l

/-- The request of a core's access performed at the home slice, whatever its own die holds, and to the peer whose line the slice does not hold (R132,
R135, R192). -/
def noteHome (s : State) (core ctx : Nat) (l : Loc) : State :=
  let home := (copyAt s .home l.space (locSector l)).isSome
  if direct l || (l.cache != 0 && !home) then noteAccess s core ctx l
  else
    let s := countAt (noteSend s core 0 (sliceOf .home l.space (locSector l))) ctx .home l.space (locSector l)
    if (sendsTo l).1 && !home then noteSend s core 3 (sendsTo l).2 else s

/-- The request of a core's access to the L2: for CACHE 0 to the slice of its die that backs its L1, which asks the home slice where it holds no copy
(R160, R161), and else to the home slice; and to the peer whose line no slice holds (R135, R237, R262). -/
def noteRead (s : State) (core ctx : Nat) (l : Loc) : State :=
  let sec := locSector l
  if throughL1 l then
    let home := (copyAt s .home l.space sec).isSome
    let pl := l2Place l.space sec (dieOfCore core)
    let fromHome := pl != .home && (copyAt s pl l.space sec).isNone
    let s := countAt (noteSend s core 0 (sliceOf pl l.space sec)) ctx pl l.space sec
    let s := if fromHome then countAt (crossing s (dieOfCore core) (homeDie l.space l.addr)) ctx .home l.space sec else s
    if (sendsTo l).1 && !home then noteSend s core 3 (sendsTo l).2 else s
  else noteHome s core ctx l

/-! ### Parties outside the cores (R71, R83, R195) -/

/-- A write by the hub, the host or a peer device: behind what is on its way to its bytes and what the party has sent before, and held at its sender
while a pin, a hold, a port or a link that trains keeps it (R181, R191, R240). -/
def outsideWrite (s : State) (who : Party) (ws : List (Loc × Byte)) (rel : Option Rel) : State :=
  let f : Flight := { who := who, team := none, bytes := ws, rel := rel }
  let s := landFlights s (fun x => x.precedes f)
  if s.flights.any (fun x => x.precedes f) || f.waits s then { s with flights := s.flights ++ [f] } else performWrite s who ws rel

/-- Such a write as a release at `.sys`. -/
def writeOutside (s : State) (who : Party) (ws : List (Loc × Byte)) : State := outsideWrite s who ws (some (outsideRel s who))

/-- Its read is an acquire at `.sys`: of releases at `.sys`, and by the hub, which is on the device, at `.dev` (R72, R185, R195). -/
def acquireOutside (s : State) (who : Party) (ls : List Loc) : State :=
  joinView (markSeen s who ls []) who
    (((relsOf s ls).filter (fun r => decide (scopeRank r.rel.scope ≥ (if who == .hub then 4 else 5)))).flatMap (fun r => r.rel.view))

/-! ### The hub's own accesses by physical address -/

/-- Where a physical address of a descriptor or command lies. -/
def hubSpace (pa : Nat) : Space := if physAddr pa < dramEnd then .dram else .host

def hubLoc (pa : Nat) : Loc := { space := hubSpace pa, addr := physAddr pa, cache := 2, comp := false }

/-- The byte at a physical address, as the hub's own write on its way there, or its home slice, holds it (R180). -/
def hubByte (s : State) (pa : Nat) : Byte :=
  ((s.flights.foldl (fun r f => if f.who == .hub then ((f.bytes.find? (fun w => samePlace w.1 (hubLoc pa))).map (·.2)).or r else r) none)).getD
    (newestByte s (hubLoc pa).space (hubLoc pa).addr)

/-- The hub writes bytes at their home slices. -/
def hubWrite (s : State) (pa : Nat) (bs : List Byte) : State := outsideWrite s .hub (bs.mapIdx (fun i b => (hubLoc (pa + i), b))) none

/-- The hub reads bytes at their home slices. -/
def hubRead (s : State) (pa n : Nat) : List Byte := (List.range n).map (fun i => hubByte s (pa + i))

def hubReadLe (s : State) (pa n : Nat) : Nat := leValue (hubRead s pa n)

/-- The hub's access to a physical address is held at the hub (R240). -/
def hubHeld (s : State) (pa : Nat) : Bool := portHeld s hubDie (hubLoc pa)

/-- What the hub's read of `n` bytes does at their home slices: messages between the dies, and the codes of the lines, as those of any reader (R155,
R163, R237). -/
def hubFetch (s : State) (ctx pa n : Nat) : State :=
  let ls := (List.range n).map (fun i => hubLoc (pa + i))
  fillCodes (partyCrossing s .hub ls) ctx ls

end Sys2Proof.Machine
end

