-- ==== Sys2Proof/Machine/Translate.lean ====
section
/-! DEFINITION. Address translation: the five-level walk, the TLBs, and the faults that a translation raises (spec/09_page.md R138 to
R153, spec/06_group.md R102, spec/03_context.md R54, R60, spec/17_encoding.md R289). -/

namespace Sys2Proof.Machine

/-! ### The walk (R139 to R143) -/

/-- The levels below the root: number, lowest index bit, index bits. -/
def walkLevels : List (Nat × Nat × Nat) := [(4, 68, 12), (3, 55, 13), (2, 42, 13), (1, 29, 13), (0, 16, 13)]

def kindOf : Nat → Option Kind
  | 0 => some .normal | 1 => some .comp | 2 => some .stash | 3 => some .scarab | 4 => some .host | 5 => some .peer
  | _ => none

/-- A leaf of a page of `2^lowBit` bytes, with the checks of R141 and R142; a leaf that names the metadata area, which no PTE can map
(R155), is malformed too (log 55). -/
def leafOf (ctx vpn lowBit e : Nat) : WalkEnd :=
  let pa := bits e 83 32
  let kind := kindOf (bits e 10 8)
  let cache := bits e 12 11
  let port := bits e 19 16
  match kind with
  | none => .malformed
  | some k =>
    if bits e 127 84 != 0 || bits e 31 20 != 0 || bits e 15 13 != 0 || bitAt e 7 || pa % 2 ^ lowBit != 0 || cache == 3 ||
       (k == .scarab && (lowBit == 29 || cache != 1 || bits pa 51 35 != 0)) || ((k == .stash || k == .comp) && cache == 2) ||
       (port != 0 && k != .peer)
    then .malformed
    else if (k == .normal || k == .comp || k == .stash) && pa ≥ dramEnd then .beyond
    else if (k == .normal || k == .comp || k == .stash) && decide (pa + 2 ^ lowBit > dramEnd - 0x3000_0000) then .malformed
    else .leaf { ctx := ctx, also := [], vpn := vpn / 2 ^ (lowBit - 16) * 2 ^ (lowBit - 16), span := 2 ^ (lowBit - 16), pa := pa, kind := k, cache := cache
                 port := port, r := bitAt e 2, w := bitAt e 3, x := bitAt e 4, g := bitAt e 5 }

/-- The page-table entry at a physical address, read through its home slice. -/
def entryAt (s : State) (pa : Nat) : Nat := newestLe s .dram pa 16

/-- The walk from a table over the levels that remain. -/
def walkFrom (s : State) (ctx va : Nat) (table : Nat) : List (Nat × Nat × Nat) → WalkEnd
  | [] => .malformed
  | (level, lo, n) :: rest =>
    let pa := table + 16 * bits va (lo + n - 1) lo
    if pa ≥ dramEnd then .beyond
    else if sectorBad s .dram (pa / 64) then .poisoned
    else
      let e := entryAt s pa
      if !bitAt e 0 then .absent level
      else if bitAt e 1 then (if level ≤ 1 then leafOf ctx (va / 2 ^ 16) lo e else .malformed)
      else if level == 0 || bits e 127 84 != 0 || bits e 31 2 != 0 || bits e 48 32 != 0 then .malformed
      else walkFrom s ctx va (bits e 83 32) rest

/-- The walk of an address in a context. -/
def walk (s : State) (ctx : Nat) (va : Nat) : WalkEnd :=
  match s.contexts.find ctx with
  | some c => walkFrom s ctx va c.desc.ptRoot walkLevels
  | none => .malformed

/-! ### Walk caches (R144) -/

/-- The table pointers that a walk meets. -/
def walkPointers (s : State) (ctx va : Nat) (table : Nat) : List (Nat × Nat × Nat) → List Pointer
  | [] => []
  | (level, lo, n) :: rest =>
    let pa := table + 16 * bits va (lo + n - 1) lo
    let e := entryAt s pa
    if pa ≥ dramEnd || sectorBad s .dram (pa / 64) || !bitAt e 0 || bitAt e 1 || level == 0 || bits e 127 84 != 0 || bits e 31 2 != 0 ||
       bits e 48 32 != 0 then []
    else { ctx := ctx, level := level, part := va / 2 ^ lo, table := bits e 83 32 } :: walkPointers s ctx va (bits e 83 32) rest

/-- The lowest address bit that the pointers of a level leave open. -/
def pointerLow (level : Nat) : Nat := ((walkLevels.find? (fun l => l.1 == level)).map (·.2.1)).getD 16

/-- The cached pointers of a die that a walk may start from. -/
def usablePointers (d : Die) (ctx va : Nat) : List Pointer :=
  d.pointers.filter (fun p => p.ctx == ctx && p.part == va / 2 ^ pointerLow p.level)

/-- Where a walk of the die's walkers starts: the table and the levels that remain, from the root or from a cached pointer, as the
implementation chooses. -/
def walkStart (s : State) (d : Die) (ctx va : Nat) : Option (Nat × List (Nat × Nat × Nat)) :=
  let ps := usablePointers d ctx va
  match (if ps.isEmpty then none else ps[Config.freeNat s.free % (ps.length + 1)]?), s.contexts.find ctx with
  | some p, _ => some (p.table, walkLevels.filter (fun l => l.1 < p.level))
  | none, some c => some (c.desc.ptRoot, walkLevels)
  | none, none => none

/-- A walk of the die's walkers from its start, and the pointers that it adds. -/
def dieWalk (s : State) (ctx va : Nat) (start : Option (Nat × List (Nat × Nat × Nat))) : WalkEnd × List Pointer :=
  match start with
  | none => (.malformed, [])
  | some (table, ls) =>
    let r := walkFrom s ctx va table ls
    (r, if r == .poisoned then [] else walkPointers s ctx va table ls)

/-- The codes of the lines that a walk reads from DRAM, each read before its entry is looked at (R155, R163). -/
def walkCodes (s : State) (ctx va table : Nat) : List (Nat × Nat × Nat) → State
  | [] => s
  | (level, lo, n) :: rest =>
    let pa := table + 16 * bits va (lo + n - 1) lo
    if pa ≥ dramEnd then s
    else
      let s := fillCode s ctx { space := .dram, addr := pa, cache := 2, comp := false }
      let e := entryAt s pa
      if sectorBad s .dram (pa / 64) || !bitAt e 0 || bitAt e 1 || level == 0 || bits e 127 84 != 0 || bits e 31 2 != 0 || bits e 48 32 != 0 then s
      else walkCodes s ctx va (bits e 83 32) rest

/-- The hub's own walk of an address in a context reads its tables' lines so too, over the links between the dies (R155, R237). -/
def hubWalkCodes (s : State) (ctx va : Nat) : State :=
  match s.contexts.find ctx with
  | some c => walkCodes (crossing s hubDie (homeDie .dram c.desc.ptRoot)) ctx va c.desc.ptRoot walkLevels
  | none => s

/-- The physical address of the entry at which a walk meets an uncorrectable error. -/
def badEntry (s : State) (va table : Nat) : List (Nat × Nat × Nat) → Nat
  | [] => table
  | (_, lo, n) :: rest =>
    let pa := table + 16 * bits va (lo + n - 1) lo
    if sectorBad s .dram (pa / 64) then pa else badEntry s va (bits (entryAt s pa) 83 32) rest

/-! ### TLBs (R144) -/

/-- The translation covers the page of an address, for its context or another whose walk produced the same G leaf. -/
def Trans.covers (t : Trans) (ctx va : Nat) : Bool :=
  (t.ctx == ctx || t.also.contains ctx) && decide (t.vpn ≤ va / 2 ^ 16) && decide (va / 2 ^ 16 < t.vpn + t.span)

/-- The same G leaf, whatever contexts it stands for. -/
def Trans.sameGlobal (t u : Trans) : Bool := t.g && { t with ctx := u.ctx, also := u.also } == u

/-- A TLB of `cap` entries with a further one; a G entry of the same leaf takes the context in, and else the oldest leaves (log 59). -/
def tlbAdd (l : List Trans) (cap : Nat) (t : Trans) : List Trans :=
  if l.any (fun u => t.sameGlobal u && (u.ctx == t.ctx || u.also.contains t.ctx)) then l
  else if l.any t.sameGlobal then l.map (fun u => if t.sameGlobal u then { u with also := u.also ++ [t.ctx] } else u)
  else
    let l := l.filter (fun u => !(u.ctx == t.ctx && u.vpn == t.vpn && u.span == t.span))
    (if l.length ≥ cap then l.drop 1 else l) ++ [t]

/-- The translation that a core's L1 TLB holds. -/
def tlbFind (s : State) (core ctx va : Nat) : Option Trans := (coreOf s core).tlb.find? (·.covers ctx va)

/-- The translation that the shared TLB of a die holds, for a miss in a core's L1 TLB (R145). -/
def sharedFind (s : State) (die ctx va : Nat) : Option Trans := (dieOf s die).tlb.find? (·.covers ctx va)

/-- A translation enters the shared TLB of a die. -/
def dieFill (s : State) (die : Nat) (t : Trans) : State :=
  let d := dieOf s die
  setDie s die { d with tlb := tlbAdd d.tlb 16384 t }

/-- A translation enters a core's L1 TLB. -/
def tlbFill (s : State) (core : Nat) (t : Trans) : State :=
  let c := coreOf s core
  setCore s core { c with tlb := tlbAdd c.tlb 128 t }

/-- What an instruction at a PC knows of a virtual page: what the shared TLB or a walk has delivered to it, else what the L1 TLB holds. -/
def pageFor (s : State) (core ctx : Nat) (walked : List Walked) (pc : VAddr) (va : Nat) : Option WalkEnd :=
  match walked.find? (fun w => w.pc == pc && w.vpn == va / 2 ^ 16) with
  | some w => some w.found
  | none => (tlbFind s core ctx va).map WalkEnd.leaf

/-- The issuing instruction's page. -/
def pageAt (s : State) (e : Env) (va : Nat) : Option WalkEnd := pageFor s e.core e.team.ctx e.sub.walked e.pc va

/-- Where a byte lies under a translation. -/
def Trans.loc (t : Trans) (va : Nat) : Loc :=
  let a := t.pa + (va - t.vpn * 2 ^ 16)
  let sp : Space := match t.kind with
    | .normal | .comp | .stash => .dram
    | .scarab => .array
    | .host => .host
    | .peer => .peer t.port
  { space := sp, addr := a, cache := t.cache, comp := t.kind == .comp }

/-- The drain band (R60); it stays reserved while a recreated context is neither RESTOREd nor DESTROYed (R62). -/
def inDrainBand (s : State) (l : Loc) : Bool := (s.drain.enable || s.contexts.any (fun e => e.2.recreated)) && l.space == .array && decide (bits l.addr 22 17 ≥ 48)

/-- The permissions of R143 with the drain band of R60. -/
def permitted (s : State) (a : Access) (t : Trans) (va : Nat) : Bool :=
  !inDrainBand s (t.loc va) &&
  (match a with
   | .read | .engineRead => t.r
   | .write | .engineWrite => t.w
   | .atomic => t.r && t.w
   | .fetch => t.x)

/-! ### Fault entries (R147, R148) -/

def accessCode : Access → Nat
  | .read => 0 | .write => 1 | .fetch => 2 | .engineRead => 3 | .engineWrite => 4 | .atomic => 5

/-- Writes an entry, PI and the message. -/
def writeFault (s : State) (r : FaultRec) : State :=
  let q := s.faultq
  let seq := q.seq + 1
  let bs := leBytes 16 r.addr.toNat ++ leBytes 2 r.ctx ++ leBytes 1 (accessCode r.access) ++ leBytes 1 r.flags ++ leBytes 1 r.level ++
    leBytes 1 r.die ++ leBytes 2 r.core ++ leBytes 8 seq
  let s := hubWrite s (q.ring + seq % 65536 * 32) bs
  let s := hubWrite s q.piAddr (leBytes 8 seq)
  countHub { s with faultq := { q with seq := seq, entered := q.entered ++ [(r.ctx, r.addr.toNat / 2 ^ 16)] }, msix := s.msix ++ [q.vector] } 5 r.ctx 1

/-- A not-present fault is entered, kept by its core, or parks without an entry of its own. -/
def enterFault (s : State) (r : FaultRec) : State :=
  let q := s.faultq
  if q.entered.contains (r.ctx, r.addr.toNat / 2 ^ 16) then s
  else if q.declared && q.seq - q.ci < 65536 then writeFault s r
  else { s with faultq := { q with kept := q.kept ++ [r] } }

/-! ### What a failed translation does to a sub-group (R102, R119, R120) -/

/-- A not-present page: inside an open region the group rolls back, once for the triggers of one clk, and the sub-group parks at REGION_PC or
escalates; outside one it parks at its instruction (R102, R120). `rolled` holds where the group has rolled back in this clk. The fault is entered, or
kept, where the rollback escalates too, which the manual does not say (log 35). -/
def notPresent (s : State) (gid node level : Nat) (access : Access) (addr : VAddr) (straddle rolled : Bool) : State :=
  match s.groups.find gid with
  | none => s
  | some g =>
    match subOf g node, s.teams.find g.team with
    | some x, some team =>
      if x.handler.isSome then raise s gid node 0x08 x.pc addr straddle
      else
        let inRegion := g.region.isOpen
        let s := if inRegion && !rolled then rollTrigger s gid node else s
        let s := enterFault s { addr := addr, ctx := team.ctx, access := access, flags := straddle.toNat + 2 * inRegion.toNat, level := level
                                die := dieOfCore team.core, core := logicalCore s team.core }
        if inRegion && g.region.reentry.toNat + (if rolled then 0 else 1) > reentryLimit team.launch then s
        else onGroup s gid (fun g => onSub g node (fun x => { x with st := .parked addr straddle }))
    | _, _ => s

/-- The I-cache of 4,096 words with a further word; which leaves a full one is the model's choice: the oldest (R9; log 59). -/
def cacheWord (s : State) (core ctx : Nat) (pc : VAddr) (w : Fetched) : State :=
  let c := coreOf s core
  let l := c.icache.filter (fun x => !(x.ctx == ctx && x.pc == pc))
  setCore s core { c with icache := (if l.length ≥ 4096 then l.drop 1 else l) ++ [{ ctx := ctx, pc := pc, word := w, stamp := s.nextId }] }

def cachedWord (s : State) (core ctx : Nat) (pc : VAddr) : Option Fetched :=
  ((coreOf s core).icache.find? (fun x => x.ctx == ctx && x.pc == pc)).map (·.word)

/-- The word is a FETCH_FAULT mark. -/
def Fetched.isFault : Fetched → Bool
  | .faulted _ => true
  | _ => false

/-- The bytes that a fault of a fetch leaves to the FETCH_FAULT word: the length that the first byte gives, or 1 where its own page faults
(R289). -/
def faultLength (s : State) (core ctx : Nat) (x : Sub) (straddle : Bool) : Nat :=
  if !straddle then 1
  else
    match pageFor s core ctx x.walked x.pc x.pc.toNat with
    | some (.leaf t) => byteLength ((homeBytes s (t.loc x.pc.toNat).space ((t.loc x.pc.toNat).addr / 64)).getD ((t.loc x.pc.toNat).addr % 64) 0).toNat
    | _ => 1

/-- A failed walk of an instruction fetch: the fill leaves a FETCH_FAULT word; where one already stands, the fetch is that of its issue, and the
fault is raised (R289). -/
def fetchFails (s : State) (core ctx : Nat) (x : Sub) (w : WalkEnd) (r : Requester) : State :=
  if !(cachedWord s core ctx x.pc).any Fetched.isFault then cacheWord s core ctx x.pc (.faulted (faultLength s core ctx x r.straddle))
  else
    match w with
    | .absent level => notPresent s r.gid r.node level .fetch r.addr r.straddle false
    | .poisoned => consumeError s r.gid r.node 0x0B r.addr
    | _ => raise s r.gid r.node 0x08 x.pc r.addr r.straddle

/-- The walk has found a leaf. -/
def WalkEnd.isLeaf : WalkEnd → Bool
  | .leaf _ => true
  | _ => false

/-- The weight of a word at its issue, which a walk that fails ends (R256). -/
def wordCharge (w : Option Fetched) : Nat :=
  match w with
  | some (.instr i _) => ((Instr.expand i).map (fun x => issueCharge x.1 x.2)).getD 2
  | _ => 2

/-- The instruction that asked for a walk is still in flight. -/
def stillAsks (s : State) (r : Requester) : Bool :=
  (s.groups.find r.gid).any (fun g => (subOf g r.node).any (fun x => x.st == .runnable && x.pc == r.pc) && (s.teams.find g.team).any (fun t => !t.evicting))

/-- What a translation, or a failure that the instruction judges itself, leaves with the instruction at its PC. -/
def keepPage (s : State) (gid node : Nat) (pc addr : VAddr) (w : WalkEnd) : State :=
  onGroup s gid (fun g => onSub g node (fun x => { x with
    walked := x.walked.filter (fun k => k.pc == pc) ++ [{ pc := pc, vpn := addr.toNat / 2 ^ 16, found := w }] }))

/-- A walk's result reaches one requester, when its instruction is still in flight: a translation lets it issue again; a failure is a fault of
its sub-group, or is kept for the instruction to judge. -/
def deliverWalk (s : State) (w : WalkEnd) (r : Requester) : State :=
  match s.groups.find r.gid with
  | none => s
  | some g =>
    match subOf g r.node, s.teams.find g.team with
    | some x, some team =>
      if !stillAsks s r then s
      else
        let keep : State → State := fun s => keepPage s r.gid r.node r.pc r.addr w
        let s := if r.quiet || w.isLeaf || (r.access == .fetch && !(cachedWord s team.core team.ctx x.pc).any Fetched.isFault) then s
          else charge s team.core team.ctx (wordCharge (cachedWord s team.core team.ctx x.pc))
        match w with
        | .leaf t => keep (tlbFill s team.core t)
        | .beyond => s
        | .absent level =>
          if r.quiet then keep s
          else if r.access == .fetch then fetchFails s team.core team.ctx x w r
          else notPresent s r.gid r.node level r.access r.addr r.straddle false
        | .malformed =>
          if r.quiet then keep s
          else if r.access == .fetch then fetchFails s team.core team.ctx x w r
          else raise s r.gid r.node 0x08 x.pc r.addr r.straddle
        | .poisoned =>
          if r.quiet then keep s
          else if r.access == .fetch then fetchFails s team.core team.ctx x w r
          else consumeError s r.gid r.node 0x0B r.addr
    | _, _ => s

/-- The result reaches the requesters of one group in one clk: a rollback that one of them causes answers for all, and each that meets a page that is
not present parks (R102, R120). -/
def deliverGroup (s : State) (w : WalkEnd) : List Requester → State
  | [] => s
  | r :: rest =>
    let rolls := (s.groups.find r.gid).any (fun g => g.region.isOpen)
    let t := deliverWalk s w r
    let rolled := rolls && (t.groups.find r.gid).map (fun g => g.region.reentry) != (s.groups.find r.gid).map (fun g => g.region.reentry)
    if !rolled then deliverGroup t w rest
    else
      match w with
      | .absent level => (rest.filter (fun q => stillAsks s q && !q.quiet && q.access != .fetch)).foldl
          (fun t q => notPresent t q.gid q.node level q.access q.addr q.straddle true) t
      | _ => t

/-- A walk's result reaches every requester (R145). -/
def deliverAll (s : State) (w : WalkEnd) (who : List Requester) : State :=
  ((who.map (·.gid)).eraseDups).foldl (fun s gid => deliverGroup s w (who.filter (fun r => r.gid == gid))) s

/-- A miss takes an entry in the die's walker queue, or merges into the one queued; past 4,096 entries it waits (R145). -/
def queueWalk (s : State) (die ctx vpn : Nat) (who : Option Requester) : State :=
  let d := dieOf s die
  if d.walks.any (fun w => w.ctx == ctx && w.vpn == vpn) then
    setDie s die { d with walks := d.walks.map (fun w =>
      if w.ctx == ctx && w.vpn == vpn then
        { w with who := w.who ++ who.toList.filter (fun r => !w.who.any (fun q => q.gid == r.gid && q.node == r.node)) }
      else w) }
  else if d.walks.length ≥ 4096 then s
  else setDie s die { d with walks := d.walks ++ [{ ctx := ctx, vpn := vpn, who := who.toList }] }

/-- A requester already waits for this walk. -/
def walkAsked (s : State) (die ctx : Nat) (r : Requester) : Bool :=
  (dieOf s die).walks.any (fun w => w.ctx == ctx && w.vpn == r.addr.toNat / 2 ^ 16 && w.who.any (fun q => q.gid == r.gid && q.node == r.node))

/-- The die's walker queue has no place for a walk: the miss waits, without effect (R145). -/
def walksFull (s : State) (die ctx vpn : Nat) : Bool :=
  decide ((dieOf s die).walks.length ≥ 4096) && !(dieOf s die).walks.any (fun w => w.ctx == ctx && w.vpn == vpn)

/-- A core's miss in its L1 TLB that the shared TLB of its die serves, counted (R145, R262). -/
def sharedHit (s : State) (core ctx : Nat) (t : Trans) : State := tlbFill (countCore s core 7 ctx 1) core t

/-- A sub-group's miss in its core's L1 TLB, counted once: the shared TLB of the die serves it, or it is queued (R145, R262). -/
def requestWalk (s : State) (e : Env) (kind : Access) (v : VAddr) (straddle quiet : Bool) : State :=
  match sharedFind s (dieOfCore e.core) e.team.ctx v.toNat with
  | some t => keepPage (sharedHit s e.core e.team.ctx t) e.gid e.node e.pc v (.leaf t)
  | none =>
  let r : Requester := { gid := e.gid, node := e.node, pc := e.pc, access := kind, addr := v, straddle := straddle, quiet := quiet }
  if walkAsked s (dieOfCore e.core) e.team.ctx r || walksFull s (dieOfCore e.core) e.team.ctx (v.toNat / 2 ^ 16) then s
  else queueWalk (countCore s e.core 7 e.team.ctx 1) (dieOfCore e.core) e.team.ctx (v.toNat / 2 ^ 16) (some r)

/-- A walker finishes the walk at place `idx` of the die's queue and delivers it to every requester. An uncorrectable table entry leaves an error
record (R145, R158). -/
def execPageWalkComplete (die idx : Nat) (s : State) : Out :=
  let d := dieOf s die
  match d.walks[idx]? with
  | none => .next s
  | some w =>
    if idx ≥ 32 then .next s
    else
      let start := walkStart s d w.ctx (w.vpn * 2 ^ 16)
      let s := if (usablePointers d w.ctx (w.vpn * 2 ^ 16)).isEmpty then s else fresh s
      let s := match start with
        | some (table, ls) => walkCodes s w.ctx (w.vpn * 2 ^ 16) table ls
        | none => s
      let d := dieOf s die
      let (r, met) := dieWalk s w.ctx (w.vpn * 2 ^ 16) start
      if r == .beyond then .fault .noSuchAddress
      else
        let s := match r, start with
          | .poisoned, some (table, ls) => sliceError s .dram (badEntry s (w.vpn * 2 ^ 16) table ls / 256) 3
          | _, _ => s
        let s := setDie s die { d with walks := d.walks.eraseIdx idx, pointers := (d.pointers ++ met).eraseDups }
        let s := match r with
          | .leaf t => dieFill s die t
          | _ => s
        .next (deliverAll s r w.who)

/-! ### Translating the accesses of an instruction (R351) -/

/-- One access before translation: lane, address of the first byte, size. -/
structure VAcc where
  lane : Nat
  va : VAddr
  size : Nat
deriving DecidableEq, Repr

/-- The address of byte `j` of an access: bits [63:0] wrap (R138). -/
def vaByte (va : VAddr) (j : Nat) : VAddr := BitVec.ofNat 80 (va.toNat / 2 ^ 64 * 2 ^ 64 + (va.toNat + j) % 2 ^ 64)

/-- How translating ends: in places, in a wait for a walk, or in a fault of the sub-group. -/
inductive Xlat where
  | ok (s : State) (accs : List Acc)
  | wait (s : State)
  | stop (s : State)
deriving DecidableEq, Repr

/-- The bytes of an access at which a page begins: its first byte, and the first on another page. -/
def pageStarts (a : VAcc) : List VAddr :=
  ((List.range a.size).map (fun j => vaByte a.va j)).filter (fun v => v == a.va || v.toNat % 2 ^ 16 == 0)

/-- One page of an access: translated, waiting for a walk, or denied. -/
def xlatPage (s : State) (e : Env) (kind : Access) (a : VAcc) (v : VAddr) : Xlat :=
  let straddle := v.toNat / 2 ^ 16 != a.va.toNat / 2 ^ 16
  match pageAt s e v.toNat with
  | some (.leaf t) => if permitted s kind t v.toNat then .ok s [] else .stop (raise s e.gid e.node 0x08 e.pc v straddle)
  | _ => .wait (requestWalk s e kind v straddle false)

/-- The pages of an access, lowest first. -/
def xlatPages (s : State) (e : Env) (kind : Access) (a : VAcc) : List VAddr → Xlat
  | [] => .ok s []
  | v :: rest =>
    match xlatPage s e kind a v with
    | .ok s _ => xlatPages s e kind a rest
    | r => r

/-- The places of an access's bytes, once every page is translated. -/
def placeAcc (s : State) (e : Env) (a : VAcc) : Acc :=
  { lane := a.lane, off := 0, va := a.va, locs := (List.range a.size).filterMap (fun j =>
      let v := (vaByte a.va j).toNat
      match pageAt s e v with
      | some (.leaf t) => some (t.loc v)
      | _ => none) }

/-- Translate(A, kind) in ascending lane. -/
def xlat (s : State) (e : Env) (kind : Access) : List VAcc → Xlat
  | [] => .ok s []
  | a :: rest =>
    match xlatPages s e kind a (pageStarts a) with
    | .ok s _ =>
      match xlat s e kind rest with
      | .ok s accs => .ok s (placeAcc s e a :: accs)
      | r => r
    | r => r

/-! ### Instruction fetch (R287 to R290) -/

/-- How a fill of one instruction goes: a word; a page that needs a walk; a page without X; a sector to be admitted; or bytes that are
uncorrectable. -/
inductive FillEnd where
  | word (f : Fetched)
  | miss (addr : VAddr) (straddle : Bool)
  | denied (len : Nat) (addr : VAddr) (straddle : Bool)
  | asks (l : Loc)
  | poisoned (len : Nat) (addr : VAddr)
deriving DecidableEq, Repr

/-- A byte and the first byte of every page that `n` bytes from `pc` reach behind it. -/
def codePages (pc : VAddr) (n : Nat) : List VAddr :=
  ((List.range n).map (fun j => pc + BitVec.ofNat 80 j)).filter (fun v => v == pc || v.toNat % 2 ^ 16 == 0)

/-- The pages of an instruction's bytes, lowest first: the first that stops the fill, or their translations. -/
def fillPages (s : State) (look : Nat → Option WalkEnd) (pc : VAddr) (len : Nat) : List VAddr → Except FillEnd (List Trans)
  | [] => .ok []
  | v :: rest =>
    let straddle := v.toNat / 2 ^ 16 != pc.toNat / 2 ^ 16
    match look v.toNat with
    | some (.leaf t) =>
      if permitted s .fetch t v.toNat then
        match fillPages s look pc len rest with
        | .ok ts => .ok (t :: ts)
        | .error r => .error r
      else .error (.denied len v straddle)
    | _ => .error (.miss v straddle)

/-- The places of an instruction's bytes through its pages' translations. -/
def codeLocs (ctx : Nat) (ts : List Trans) (pc : VAddr) (n : Nat) : List Loc :=
  (List.range n).filterMap (fun j =>
    let v := (pc + BitVec.ofNat 80 j).toNat
    (ts.find? (·.covers ctx v)).map (fun t => t.loc v))

/-- The instruction's bytes as L2 holds them, never an L1 data copy (R290). -/
def fetchByte (s : State) (l : Loc) : Byte := (homeBytes s l.space (locSector l)).getD (l.addr % 64) 0

/-- The bytes of `n` places from `pc`, or what stops their fetch: a sector to be admitted (R216), or one that is bad (R219, R289). -/
def fetchBytes (s : State) (ctx : Nat) (ts : List Trans) (pc : VAddr) (n : Nat) : Except FillEnd (List Byte) :=
  let ls := codeLocs ctx ts pc n
  match ls.find? (fun l => sectorWaits s l.space (locSector l)) with
  | some l => .error (.asks l)
  | none =>
    match ls.findIdx? (fun l => sectorBad s l.space (locSector l)) with
    | some i => .error (.poisoned n (pc + BitVec.ofNat 80 i))
    | none => .ok (ls.map (fetchByte s))

/-- The word that an instruction's bytes make; what does not decode is an ILLEGAL word of its length (R273, R288). -/
def wordOf (bs : List Byte) : Fetched :=
  match decode bs with
  | .ok (i, n) => .instr i n
  | .error _ =>
    match bs with
    | b :: _ => .illegal (byteLength b.toNat)
    | [] => .illegal 1

/-- The I-cache fill of the instruction at `pc`, with the translations that `look` gives (R289). -/
def fillWord (s : State) (ctx : Nat) (look : Nat → Option WalkEnd) (pc : VAddr) : FillEnd :=
  match fillPages s look pc 1 (codePages pc 1) with
  | .error r => r
  | .ok ts =>
    match fetchBytes s ctx ts pc 1 with
    | .error r => r
    | .ok bs =>
      let n := match bs with
        | b :: _ => byteLength b.toNat
        | [] => 1
      match fillPages s look pc n (codePages pc n) with
      | .error r => r
      | .ok ts =>
        match fetchBytes s ctx ts pc n with
        | .error r => r
        | .ok bs => .word (wordOf bs)

/-- The places of an instruction's bytes, one of each sector. -/
def codeSectors (s : State) (ctx : Nat) (look : Nat → Option WalkEnd) (pc : VAddr) (n : Nat) : List Loc :=
  match fillPages s look pc n (codePages pc n) with
  | .error _ => []
  | .ok ts => ((codeLocs ctx ts pc n).map (fun l => { l with addr := locSector l * 64 })).eraseDups

/-- How a fill ends once the codes of the lines that it takes from DRAM have been read: an error met there is one of the fetch (R155, R163). -/
def fetchWord (s : State) (ctx : Nat) (look : Nat → Option WalkEnd) (pc : VAddr) : State × FillEnd :=
  match fillWord s ctx look pc with
  | .word w =>
    let n := match w with
      | .instr _ k | .illegal k | .faulted k => k
    let t := fillCodes s ctx (codeSectors s ctx look pc n)
    (t, fillWord t ctx look pc)
  | r => (s, r)

/-- The home slices keep what a fetch has read, where the page's CACHE field allocates (R160); the core has sent for each sector (R135). -/
def fetchFill (s : State) (core ctx : Nat) (look : Nat → Option WalkEnd) (pc : VAddr) (n : Nat) : State :=
  (codeSectors s ctx look pc n).foldl (fun s l =>
      let s := noteRead s core ctx l
      if l.cache == 2 || (copyAt s .home l.space (locSector l)).isSome then s
      else putLine (roomL2 (backCrossing s l.space l.addr) .home l.space (locSector l)) (.clean .home l.space (locSector l) (homeBytes s l.space (locSector l)) l.comp)) s

/-- The bytes that a fetched word has taken. -/
def Fetched.len : Fetched → Nat
  | .instr _ n | .illegal n | .faulted n => n

/-- A fetched word enters the I-cache. -/
def takeWord (s : State) (core ctx : Nat) (look : Nat → Option WalkEnd) (pc : VAddr) (w : Fetched) : State :=
  cacheWord (fetchFill s core ctx look pc w.len) core ctx pc w

/-- The fill of one instruction ahead of its issue; a page that the TLBs do not hold is walked first. -/
def execIcacheFill (core ctx : Nat) (pc : VAddr) (s : State) : Out :=
  if (s.contexts.find ctx).isNone || core ≥ 4096 || (cachedWord s core ctx pc).isSome then .next s
  else
    let look := pageFor s core ctx [] pc
    let (s, found) := fetchWord s ctx look pc
    match found with
    | .word w => .next (takeWord s core ctx look pc w)
    | .miss v _ =>
      match sharedFind s (dieOfCore core) ctx v.toNat with
      | some t => .next (sharedHit s core ctx t)
      | none => .next (queueWalk s (dieOfCore core) ctx (v.toNat / 2 ^ 16) none)
    | .asks l => .next (askRead s l)
    | .denied n _ _ | .poisoned n _ => .next (cacheWord s core ctx pc (.faulted n))

/-- What issue finds at the PC: a word from the I-cache or newly filled, or a fill that goes on. -/
inductive Found where
  | word (s : State) (f : Fetched)
  | wait (s : State)
deriving DecidableEq, Repr

/-- The issuing sub-group's word. -/
def fetchAt (s : State) (e : Env) : Found :=
  match cachedWord s e.core e.team.ctx e.pc with
  | some w => .word s w
  | none =>
    let look := pageAt s e
    let (s, found) := fetchWord s e.team.ctx look e.pc
    match found with
    | .word w => .word (takeWord s e.core e.team.ctx look e.pc w) w
    | .miss v straddle => .wait (requestWalk s e .fetch v straddle false)
    | .asks l => .wait (askRead s l)
    | .denied n _ _ | .poisoned n _ => .word (cacheWord s e.core e.team.ctx e.pc (.faulted n)) (.faulted n)

/-- An ILLEGAL word at issue (R277, R288). -/
def execIllegalWordIssue (_len : Nat) (s : State) : Out := illegalWord s

/-- A FETCH_FAULT word at issue: the instruction is fetched again, and a fault of the new fetch is raised, here or by its walk (R289). -/
def execFetchFaultIssue (_len : Nat) (s : State) : Out :=
  match envOf s with
  | none => .next s
  | some e =>
    match takeDeferred s e with
    | some s => .next s
    | none =>
      let look := pageAt s e
      let (s, found) := fetchWord s e.team.ctx look e.pc
      match found with
      | .word w => .next (takeWord s e.core e.team.ctx look e.pc w)
      | .miss v straddle => .next (requestWalk (cacheWord s e.core e.team.ctx e.pc (.faulted _len)) e .fetch v straddle false)
      | .asks l => .next (askRead s l)
      | .denied n v straddle => .next (raise (accountWord (cacheWord s e.core e.team.ctx e.pc (.faulted n)) e) e.gid e.node 0x08 e.pc v straddle)
      | .poisoned n v => .next (consumeError (accountWord (cacheWord s e.core e.team.ctx e.pc (.faulted n)) e) e.gid e.node 0x0B v)

end Sys2Proof.Machine
end

