-- ==== Sys2Proof/Machine/Memory.lean ====
section
/-! DEFINITION. Loads, stores, scratchpad accesses, atomics and range operations (spec/20_ref_memory.md R348 to R361), the order in which they are
performed (spec/11_ordering.md R180 to R193, R199), and the regions' held stores (spec/07_region.md R115, R116). -/

namespace Sys2Proof.Machine

/-! ### Addresses and sizes (R348, R350) -/

/-- Bytes of a scalar access of a type. -/
def scalarBytes : Ty → Nat
  | .i8 | .n8 => 1
  | .i16 | .n16 => 2
  | .i32 | .n32 => 4
  | .f32 => 4
  | _ => 8

/-- The lane size L. -/
def laneBytes (t : Ty) : Nat := if t.w64 then 8 else 4

/-- The bytes of one access. -/
def accessBytes (scalar : Bool) (t : Ty) : Nat := if scalar then scalarBytes t else laneBytes t

/-- EA of a scalar address. -/
def eaScalar (e : Env) (f : Fields) : VAddr := e.va (readS e.g f f.sa + f.imm.signExtend 64)

/-- EA of lane `i`: the pair's value, or the scalar address and `i` lanes of `n` bytes. -/
def eaLane (e : Env) (f : Fields) (n i : Nat) : VAddr :=
  if f.sa.isV then e.va (readPair e.g f f.sa i + f.imm.signExtend 64) else vaByte (eaScalar e f) (i * n)

/-- An address aligned down to `n` bytes. -/
def alignDown (va : VAddr) (n : Nat) : VAddr := BitVec.ofNat 80 (va.toNat / n * n)

/-- The active lanes, ascending. -/
def lanesActive (e : Env) (f : Fields) : List Nat := (List.range 64).filter (fun i => (e.active f).getLsbD i)

/-- Accesses() of R351. -/
def accesses (e : Env) (f : Fields) (scalar aligned : Bool) : List VAcc :=
  let n := accessBytes scalar f.ty
  let fix : VAddr → VAddr := fun v => if aligned then alignDown v n else v
  if scalar then (if e.guard f then [{ lane := 0, va := fix (eaScalar e f), size := n }] else [])
  else (lanesActive e f).map (fun i => { lane := i, va := fix (eaLane e f n i), size := n })

/-- The units in which an access is performed: itself when it is single-copy atomic, else its bytes (R349). -/
def unitsOf (a : Acc) : List Acc :=
  if a.va.toNat % a.locs.length == 0 then [a]
  else a.locs.mapIdx (fun j l => { lane := a.lane, off := a.off + j, va := vaByte a.va j, locs := [l] })

/-- The bytes that a list of accesses touches. -/
def accLocs (as : List Acc) : List Loc := as.flatMap (·.locs)

/-! ### What a group has under way -/

/-- The places that a store-queue entry writes. -/
def StoreEntry.locs (x : StoreEntry) : List Loc :=
  match x.kind with
  | .bytes us => us.flatMap (fun u => u.map (·.1))
  | .scratch _ => []
  | .atomics ops => ops.flatMap (fun o => o.acc.locs)

/-- The places that a producer in flight still reads or writes. -/
def Inflight.locs (i : Inflight) : List Loc :=
  match i.what with
  | .load accs _ _ => accLocs accs
  | .atomic ops _ _ _ => ops.flatMap (fun o => o.acc.locs)
  | .wait a _ _ _ => a.locs
  | _ => []

/-- A producer that acquires, or joins a command's accesses (R187, R197): later accesses of its group wait for it. -/
def Inflight.acquires (i : Inflight) : Bool :=
  match i.what with
  | .load _ _ q => q != .none
  | .atomic _ _ q _ => q != .none
  | .wait _ _ _ _ | .pop _ _ => true
  | _ => false

/-- A load or atomic that has not read its value. -/
def Inflight.reads (i : Inflight) : Bool :=
  match i.what with
  | .load _ _ _ | .atomic _ _ _ _ | .wait _ _ _ _ | .lds _ _ => true
  | _ => false

def Inflight.pops (i : Inflight) : Bool :=
  match i.what with
  | .pop _ _ => true
  | _ => false

/-- An access performed at its home slice, in group order with the others such: an atomic, a `waitc`, an acquire load at `.dev` or `.sys` (R192). -/
def Inflight.atHome (i : Inflight) : Bool :=
  match i.what with
  | .load _ _ q => q == .dev || q == .sys
  | .atomic _ _ _ _ | .wait _ _ _ _ => true
  | _ => false

/-- An `mred`, or an atomic without a result, which is performed at its home slice too (R192, R199). -/
def StoreEntry.atHome (x : StoreEntry) : Bool :=
  match x.kind with
  | .atomics _ => true
  | _ => false

/-- A load of a CACHE 0 line, or of scratchpad, which R183 and R356 order the same way. -/
def Inflight.ordered (i : Inflight) : Bool :=
  match i.what with
  | .load accs _ _ => (accLocs accs).any throughL1
  | .lds _ _ => true
  | _ => false

/-- An `atom` without a result that acquires (R187, R189). -/
def StoreEntry.acquires (x : StoreEntry) : Bool := x.acq.any (fun r => r != .none)

/-- An acquire earlier than place `seq` in group order has not read its value. -/
def acquirePending (g : Group) (seq : Nat) : Bool :=
  g.inflight.any (fun i => decide (i.seq < seq) && i.acquires) || g.storeQ.any (fun x => !x.held && decide (x.seq < seq) && x.acquires)

/-- Committed stores have not left the queue. -/
def committedStores (g : Group) : Bool := g.storeQ.any (fun x => !x.held)

/-- A release at a scope is not yet performed: earlier stores are not visible there, an earlier access has not been performed, an effect
joined by a pop has not come, or a range operation is not complete (R187, R355). At `.grp` an issued store is visible (R185). -/
def releaseWaits (g : Group) (sc : Scope) : Bool :=
  (sc != .grp && committedStores g) || !g.rangeOps.isEmpty || g.inflight.any (fun i => i.reads || i.pops)

/-- Stores of the core to home slices that have left their queues and are not yet performed (R181, R185). -/
def homeFlights (s : State) (core : Nat) : Bool := s.flights.any (fun f => f.ofCore core && f.bytes.any (fun w => !directStore w.1))

/-- What a release at a scope waits for, the stores on their way to home slices with it, and at `.dev` and `.sys` the dirty lines that a link keeps from
theirs (R185, R187, R240). -/
def releaseHeldUp (s : State) (core : Nat) (g : Group) (sc : Scope) : Bool :=
  releaseWaits g sc || (sc != .grp && homeFlights s core) || (decide (scopeRank sc ≥ 4) && dirtyHeld s core)

/-- A release performed at a scope: at `.die` and wider the team's pins end, and lines that other teams pin reach the L2 of the die; at `.dev`
and `.sys` the core's and die's dirty lines go home (R185, R190, R192). -/
def releaseAt (s : State) (e : Env) (sc : Scope) : State :=
  let s := if scopeRank sc ≥ 3 then pushPinned (endPins s e.g.team) e.core else s
  if scopeRank sc ≥ 4 then writeHomeAll s e.core else s

/-! ### Loads that are held, or fail -/

/-- A copy on this device serves a core's load of the place, without a request to a peer. -/
def heldFor (s : State) (core : Nat) (l : Loc) : Bool :=
  !direct l && l.cache != 2 && ((copyAt s .home l.space (locSector l)).isSome || (l.cache == 0 && (copyAt s (.l1 core) l.space (locSector l)).isSome))

/-- A core's access to the place is held: by a port that trains, where no copy on the device serves it, or by a die-to-die link, where none on the
core's die does (R240). -/
def accessHeld (s : State) (core : Nat) (l : Loc) : Bool :=
  let sec := locSector l
  let die := dieOfCore core
  let mine := throughL1 l && (copyAt s (.l1 core) l.space sec).isSome
  let near := mine || (throughL1 l && (copyAt s (.guest die) l.space sec).isSome)
  let home := !direct l && l.cache != 2 && (copyAt s .home l.space sec).isSome
  !mine && match l.space with
  | .peer _ => portHeld s die l && !heldFor s core l
  | sp => (behindHeld s sp l.addr && !heldFor s core l) || (!near && (pathHeld s die (homeDie sp l.addr) || recallHeld s sp (l.addr / 256))) ||
      (!direct l && l.cache != 2 && ((!home && noRoom s .home sp sec) || (throughL1 l && !near && noRoom s (l2Place sp sec die) sp sec)))

/-- A core's load of the place meets an uncorrectable error (R157, R219, R242). -/
def badRead (s : State) (core : Nat) (l : Loc) : Bool := (peerFails s l && !heldFor s core l) || sectorBad s l.space (locSector l)

/-! ### Held stores (R115, R116) -/

/-- The lines that an entry's bytes lie on. -/
def StoreEntry.lines (x : StoreEntry) : List LineId :=
  match x.kind with
  | .scratch ws => (ws.map (fun w => LineId.scratch (w.1 / 64))).eraseDups
  | _ => (x.locs.map (fun l => LineId.mem l.space (l.addr / 64))).eraseDups

/-- A load records the lines it reads, as far as the region holds no store to them and 32 are not recorded. -/
def recordLines (g : Group) (ids : List LineId) : Group :=
  if !g.region.isOpen then g
  else
    let held := (g.storeQ.filter (·.held)).flatMap (·.lines)
    let lines := ids.foldl (fun l x => if l.length < 32 && !l.contains x && !held.contains x then l ++ [x] else l) g.region.lines
    { g with region := { g.region with lines := lines } }

/-- How Hold() ends: a group with the entry, or the cause of a fault. `acq` is given of an `atom`, with the scope at which it acquires. -/
def hold (g : Group) (node : Nat) (kind : StoreKind) (rel : Option Rel) (acq : Option Scope) : Except Nat Group :=
  let x : StoreEntry :=
    { seq := g.seq, node := node, held := g.region.isOpen, kind := kind, pin := rel.any (fun r => decide (scopeRank r.scope ≤ 2)), rel := rel, commit := 0
      acq := acq }
  if x.held && x.lines.any (fun l => g.region.lines.contains l) then .error 0x03
  else if x.held && (g.storeQ.filter (·.held)).length ≥ 48 then .error 0x04
  else .ok { g with storeQ := g.storeQ ++ [x], seq := g.seq + 1 }

/-! ### `ld` (R354) -/

/-- The tag that a load sets (R350). -/
def loadTag (t : Ty) : BitVec 4 := tagOf t

/-- A range operation of the group that has not completed covers a byte (R358). -/
def rangeCovers (g : Group) (ls : List Loc) : Bool :=
  g.rangeOps.any (fun r => r.spans.any (fun p => ls.any (fun l => l.space == p.1 && decide (p.2.1 ≤ l.addr) && decide (l.addr < p.2.1 + p.2.2))))

/-- The tag of a vector destination is set, its bits kept (R33). -/
def setTags (g : Group) (t : Ty) (d : Sel) (tag : BitVec 4) : Group :=
  match d with
  | .v _ => (regsFrom (tyRegs t) d).foldl (fun g r =>
      match r with
      | .v n => setV g n { vreg g n with tag := tag }
      | _ => g) g
  | _ => g

/-- A vector `ld` whose translation waits inside a region has its tag set: a rollback leaves that of the cancelled producer (R34, R354; log 66). -/
def execLd (f : Fields) (s : State) : Out :=
  issuePlain .ld f s fun e =>
    let scalar := f.dst.isS
    if scalar && !e.guard f then finish e .ld f s e.g
    else
      match xlat s e .read (accesses e f scalar false) with
      | .wait s => .next (if e.g.region.isOpen then onGroup s e.gid (fun g => setTags g f.ty f.dst (loadTag f.ty)) else s)
      | .stop s => .next (account s e .ld f)
      | .ok s accs =>
        if rangeCovers e.g (accLocs accs) then .next s
        else
          let g := recordLines e.g ((accLocs accs).map (fun l => LineId.mem l.space (l.addr / 64)))
          let acq : Scope := if f.aux == 1 && !accs.isEmpty then scopeEff f.scope else .none
          finish e .ld f s (launch e f g (loadTag f.ty) (accessBytes scalar f.ty) (.load (accs.flatMap unitsOf) [] acq))

/-! ### `st` (R354) -/

/-- The data of lane `i` of a store or atomic. -/
def storeData (e : Env) (f : Fields) (x : Sel) (scalar : Bool) (i : Nat) : W64 :=
  if scalar then readS e.g f x else readWide f.ty.w64 e.g f x i

/-- The units of a store: bytes that a later access of the same instruction writes are left to it, so the highest lane wins. -/
def storeUnits (us : List (List (Loc × Byte))) : List (List (Loc × Byte)) :=
  match us with
  | [] => []
  | u :: rest =>
    let u := u.filter (fun w => !rest.any (fun v => v.any (fun x => samePlace x.1 w.1)))
    if u.isEmpty then storeUnits rest else u :: storeUnits rest

/-- The writes of a store's accesses. -/
def storeWrites (e : Env) (f : Fields) (scalar : Bool) (accs : List Acc) : List (List (Loc × Byte)) :=
  storeUnits (accs.flatMap (fun a =>
    let bs := leBytes a.locs.length (storeData e f f.sb scalar a.lane).toNat
    (unitsOf a).map (fun u => u.locs.mapIdx (fun j l => (l, bs.getD (u.off + j) 0)))))

/-- The scope at which an access of flavour `.rel` or after a fence releases: the wider of the two; a `.rel` at `.grp` or `.team` so widened pins
nothing (R189, R190; log 79). -/
def releaseScope (g : Group) (rel : Bool) (sc : Scope) : Option Scope :=
  match rel, g.fenceRel with
  | false, r => r
  | true, none => some (scopeEff sc)
  | true, some r => some (scopeMax (scopeEff sc) r)

/-- The release that the issuing group's access carries, with what its core has gone past by then (R187, R188). -/
def relOf (s : State) (e : Env) (sc : Scope) : Rel := { scope := sc, gid := e.gid, team := e.g.team, view := viewOf s (.core e.core) }

/-- The places of these accesses lie behind a peer port. -/
def behindPort (as : List Acc) : Bool := as.any (fun a => a.locs.any (fun l => (sendsTo l).1))

/-- A committing atomic has issued, and its sub-group waits at it until it has been performed (R119). -/
def waitPerformed (e : Env) (f : Fields) (s : State) (g : Group) : Out :=
  let g := sigAfter g e.node .atom f
  .next (account (setGroup s e.gid (onSub g e.node (fun x => { x with st := .performing e.g.seq f.form.length }))) e .atom f)

/-- A store of translated accesses enters the queue. Behind an `atom` at a peer, which alone can fault once it is there, its sub-group waits
(R119, R242). -/
def storeEnter (e : Env) (op : Op) (f : Fields) (s : State) (accs : List Acc) (kind : StoreKind) (rel acq : Option Scope) : Out :=
  let done : State → Group → Out := fun s g => if rel.isSome then finishCommitting e op f s g else finish e op f s g
  if accs.isEmpty then done s e.g
  else
    match rel with
    | some sc =>
      if releaseHeldUp s e.core e.g sc then .next s
      else
        match hold e.g e.node kind (some (relOf s e sc)) acq with
        | .ok g => if op == .atom && behindPort accs then waitPerformed e f (releaseAt s e sc) g else done (releaseAt s e sc) g
        | .error c => trap0 s e op f c
    | none =>
      match hold e.g e.node kind none acq with
      | .ok g => done s g
      | .error c => trap0 s e op f c

/-- The group after its next `st` or `atom` takes a pending `fence.rel`. -/
def fenceTaken (e : Env) : Env := { e with g := { e.g with fenceRel := none } }

def execSt (f : Fields) (s : State) : Out :=
  let scalar := f.sa.isS && !f.sb.isV
  issuePlain .st f s fun e =>
    let rel := releaseScope e.g (f.aux == 2) f.scope
    let body : State → Env → Out := fun s e =>
      match xlat s e .write (accesses e f scalar false) with
      | .wait s => .next s
      | .stop s => .next (account s e .st f)
      | .ok s accs => storeEnter (fenceTaken e) .st f s accs (.bytes (storeWrites e f scalar accs)) rel none
    if rel.isSome then commitFirst s e body else body s e

/-! ### `lds` and `sts` (R356) -/

/-- The element size of a tag (R169). -/
def tagSize (t : Nat) : Nat := if t ≤ 3 then 4 else if t ≤ 7 then 2 else 1

/-- The bank steps of a scratchpad access of these words: the most distinct ones in any of the 64 banks (R10, R167). -/
def bankSteps (words : List Nat) : Nat :=
  let ws := words.eraseDups
  (ws.map (fun w => (ws.filter (fun x => x % 64 == w % 64)).length)).foldl max 0

/-- The bank steps of an access beyond the first are counted (R262). -/
def countBanks (s : State) (core ctx : Nat) (words : List Nat) : State :=
  if bankSteps words ≤ 1 then s else countCore s core 12 ctx (bankSteps words - 1)

/-- The words of `n` bytes at a team offset. -/
def wordsAt (n off : Nat) : List Nat := (List.range ((n + 3) / 4)).map (fun k => off / 4 + k)

/-- The handle of `lds` and `sts`. -/
def scratchHandle (f : Fields) : Option Nat := if f.imm.getLsbD 26 then some (bits f.imm.toNat 25 20) else none

/-- The bytes of the team's allocation that a plain access, or one through a tile, may reach: first, and one past the last. -/
def scratchRange (t : Team) (h : Option Nat) : Nat × Nat :=
  let all := t.launch.scratch * 1024
  match h with
  | none => (0, all)
  | some n =>
    let x := tileOf t n
    (x.data, min all (x.data + (x.rows - 1) * x.pitch + x.cols * tagSize x.tag))

/-- Lane and first team offset of every access, aligned down to its size. -/
def scratchAccs (e : Env) (f : Fields) (scalar : Bool) : List (Nat × Nat) :=
  let n := accessBytes scalar f.ty
  let off : W32 := (f.imm.setWidth 20).signExtend 32
  let base := match scratchHandle f with
    | some h => (tileOf e.team h).data
    | none => 0
  let place : W32 → Nat := fun x => (base + x.toNat) / n * n
  if scalar then (if e.guard f then [(0, place ((readS e.g f f.sa).setWidth 32 + off))] else [])
  else (lanesActive e f).map (fun i =>
    (i, place (if f.sa.isV then readLane e.g f f.sa i + off else (readS e.g f f.sa).setWidth 32 + off + BitVec.ofNat 32 (i * n))))

/-- Every access lies in the range. -/
def scratchOk (e : Env) (f : Fields) (n : Nat) (as : List (Nat × Nat)) : Bool :=
  let r := scratchRange e.team (scratchHandle f)
  as.all (fun a => decide (r.1 ≤ a.2) && decide (a.2 + n ≤ r.2))

/-- The first access outside the range, as the faulting address. -/
def scratchFault (e : Env) (f : Fields) (n : Nat) (as : List (Nat × Nat)) : VAddr :=
  let r := scratchRange e.team (scratchHandle f)
  match as.find? (fun a => !(decide (r.1 ≤ a.2) && decide (a.2 + n ≤ r.2))) with
  | some a => BitVec.ofNat 80 a.2
  | none => 0

/-- The handle names no tile of the team (R171). -/
def badHandle (e : Env) (h : Option Nat) : Bool :=
  match h with
  | some n => decide (n ≥ e.team.tiles.length)
  | none => false

/-- The tile behind the handle is not in the state. -/
def tileNot (e : Env) (st : TileState) (h : Option Nat) : Bool :=
  match h with
  | some n => (tileOf e.team n).st != st
  | none => false

def execLds (f : Fields) (s : State) : Out :=
  let scalar := f.dst.isS
  let h := scratchHandle f
  issue .lds f s (fun e => badHandle e h) (fun e => tileNot e .ready h) never fun e =>
    let n := accessBytes scalar f.ty
    let as := scratchAccs e f scalar
    if scalar && !e.guard f then finish e .lds f s e.g
    else if !scratchOk e f n as then trapAt s e .lds f 0x08 (scratchFault e f n as) false
    else
      let g := recordLines e.g (as.map (fun a => LineId.scratch (a.2 / 64)))
      finish e .lds f s (launch e f g (loadTag f.ty) n (.lds as h))

/-- The bytes that `sts` writes, the highest lane last. -/
def scratchWrites (e : Env) (f : Fields) (scalar : Bool) (n : Nat) (as : List (Nat × Nat)) : List Host.Cell :=
  as.flatMap (fun a => (leBytes n (storeData e f f.sb scalar a.1).toNat).mapIdx (fun j b => (a.2 + j, b)))

def execSts (f : Fields) (s : State) : Out :=
  let scalar := f.sa.isS && !f.sb.isV
  let h := scratchHandle f
  issue .sts f s (fun e => badHandle e h) never never fun e =>
    let n := accessBytes scalar f.ty
    let as := scratchAccs e f scalar
    if as.isEmpty then finish e .sts f s e.g
    else if tileNot e .empty h then trap0 s e .sts f 0x01
    else if !scratchOk e f n as then trapAt s e .sts f 0x08 (scratchFault e f n as) false
    else
      match hold e.g e.node (.scratch (scratchWrites e f scalar n as)) none none with
      | .ok g => finish e .sts f s g
      | .error c => trap0 s e .sts f c

/-! ### `pref` (R357) -/

/-- The addresses of a `pref`. -/
def prefVas (e : Env) (f : Fields) : List VAddr :=
  if f.sa.isS then (if e.guard f then [eaScalar e f] else []) else (lanesActive e f).map (eaLane e f 4)

/-- The place of an address that a `pref` may bring near: its translation permits a read. -/
def prefLoc (s : State) (e : Env) (v : VAddr) : Option Loc :=
  match pageAt s e v.toNat with
  | some (.leaf t) => if permitted s .read t v.toNat then some (t.loc v.toNat) else none
  | _ => none

/-- The line of an access is brought into the L1, or to its home slice; a window line that misses there asks for admission. What meets a pin, a
hold, a port that does not serve, or poison is dropped (R216, R357). -/
def prefLine (s : State) (core : Nat) (team : Nat) (l : Loc) : State :=
  let sec := locSector l
  if l.cache == 2 || pinnedAway s l.space sec (some team) || lineHeld s l.space (l.addr / 256) 0 || portHeld s (dieOfCore core) l then s
  else if sectorWaits s l.space sec then askRead s l
  else
    let s := fillCode s (ctxOfTeam s team) l
    if badRead s core l then s
    else
    let s := noteRead s core (ctxOfTeam s team) l
    if l.cache == 0 then fillL1 s core l.space sec l.comp else fillHome s l.space sec l.comp

/-- `pref` brings lines near and completes at issue; it waits for a walk, and for a range operation on its bytes (R145, R357, R358). -/
def execPref (f : Fields) (s : State) : Out :=
  issuePlain .pref f s fun e =>
    let vas := prefVas e f
    match vas.find? (fun v => (pageAt s e v.toNat).isNone) with
    | some v => .next (requestWalk s e .read v false true)
    | none =>
      let ls := vas.filterMap (prefLoc s e)
      if rangeCovers e.g ls then .next s
      else
        let s := ls.foldl (fun s l => prefLine s e.core e.g.team l) s
        finish e .pref f s ((s.groups.find e.gid).getD e.g)

/-! ### Range operations (R358, R409) -/

/-- What a page of the range is to the operation: its stretch, nothing, or what stops the instruction: a walk, or a fault. -/
inductive RangePage where
  | part (len : Nat) (loc : Loc)
  | skip
  | stop (s : State)
deriving DecidableEq, Repr

/-- The permissions an operation needs. -/
def rangeNeeds (op : Op) (t : Trans) : Bool :=
  match op with
  | .clean => t.r
  | .inval => t.w
  | _ => t.r && t.w

/-- A sub-group that faults asks for its pages again when it comes back. -/
def forgetWalks (s : State) (e : Env) : State := onGroup s e.gid (fun g => onSub g e.node (fun x => { x with walked := [] }))

/-- The part of the range from `va` on one page: an uncorrectable table entry is a consumed error (R145). -/
def rangePage (s : State) (e : Env) (op : Op) (f : Fields) (va len : Nat) : RangePage :=
  let v : VAddr := BitVec.ofNat 80 va
  let denied := raise (forgetWalks (account s e op f) e) e.gid e.node 0x08 e.pc v false
  match pageAt s e va with
  | some (.leaf t) => if inDrainBand s (t.loc va) || !rangeNeeds op t then .stop denied else .part len (t.loc va)
  | some (.absent _) => .skip
  | some .poisoned => .stop (consumeError (forgetWalks (account s e op f) e) e.gid e.node 0x0B v)
  | none => .stop (requestWalk s e .read v false true)
  | some _ => .stop denied

/-- The pages of the range [va, va + len). -/
def rangePages (s : State) (e : Env) (op : Op) (f : Fields) (va len : Nat) : List RangePage :=
  let first := va / 2 ^ 16
  let last := (va + len - 1) / 2 ^ 16
  (List.range (last + 1 - first)).map (fun i =>
    let lo := max va ((first + i) * 2 ^ 16)
    let hi := min (va + len) ((first + i + 1) * 2 ^ 16)
    rangePage s e op f lo (hi - lo))

/-- The sectors of a stretch. -/
def stretchSectors (l : Loc) (len : Nat) : List Loc :=
  let first := l.addr / 64
  (List.range ((l.addr + len - 1) / 64 + 1 - first)).map (fun i => { l with addr := (first + i) * 64 })

def rangeOp (op : Op) (f : Fields) (s : State) : Out :=
  issuePlain op f s fun e =>
    let a := (readS e.g f f.sa).toNat
    let len := if f.sb.isS then (readS e.g f f.sb).toNat else f.imm.toNat
    if !e.guard f then finish e op f s e.g
    else if len == 0 then finish e op f s e.g
    else if len > 2 ^ 40 || a + len > 2 ^ 64 then trap0 s e op f 0x01
    else
      let ps := rangePages s e op f (e.va (readS e.g f f.sa)).toNat len
      match ps.findSome? (fun p => match p with
        | .stop s => some s
        | _ => none) with
      | some s => .next s
      | none =>
        let spans := ps.filterMap (fun p => match p with
          | .part n l => some (l.space, l.addr, n)
          | _ => none)
        let secs := ps.flatMap (fun p => match p with
          | .part n l => stretchSectors l n
          | _ => [])
        let r : RangeOp := { seq := e.g.seq, node := e.node, op := op, scope := scopeEff f.scope, spans := spans, sectors := secs }
        finish e op f s { e.g with rangeOps := e.g.rangeOps ++ [r], seq := e.g.seq + 1 }

def execClean (f : Fields) (s : State) : Out := rangeOp .clean f s
def execInval (f : Fields) (s : State) : Out := rangeOp .inval f s
def execClinv (f : Fields) (s : State) : Out := rangeOp .clinv f s

/-- The operation reaches copies at a place from the issuing core (R164). -/
def reaches (sc : Scope) (core : Nat) (c : Copy) : Bool :=
  if scopeRank sc ≤ 2 then c.place == .l1 core
  else if scopeRank sc == 3 then copyDie c == dieOfCore core
  else true

/-- Home copies are written behind the caches: everywhere but HOST and PEER lines below `.sys` (R164). -/
def writesBehind (sc : Scope) (sp : Space) : Bool :=
  match sp with
  | .dram | .array => true
  | _ => scopeRank sc == 5

/-- Dirty data that the operation reaches moves toward its home. -/
def cleanSector (s : State) (sc : Scope) (core : Nat) (sp : Space) (sec : Nat) : State :=
  let s := if (dirtyCopy s isL1 sp sec).any (reaches sc core) then pushL1 s sp sec else s
  let s := if (dirtyCopy s isGuest sp sec).any (reaches sc core) then pushGuest s sp sec else s
  match copyAt s .home sp sec with
  | some c => if reaches sc core c && writesBehind sc sp then writeBackFree s sp (sec / 4) [sec] else s
  | none => s

/-- The copies that the operation reaches leave. An L2 copy takes the L1 copies of its die with it, dirty data too (R161, R164). A home copy that
the operation may not write behind stays. -/
def dropReached (s : State) (op : Op) (sc : Scope) (core : Nat) (sp : Space) (sec : Nat) : State :=
  let gone : Copy → Bool := fun c => reaches sc core c && (c.place != .home || op == .inval || writesBehind sc sp)
  let lost := s.copies.any (fun c => c.space == sp && c.sector == sec && c.dirty && gone c)
  let s := dropCopies s sp sec gone
  if lost then forgetLost s sp sec else s

/-- The messages by which a core has a range operation done in the L2: to the slice of its die at `.die`, to the home slice at `.dev` and `.sys`
(R135, R164). -/
def noteRange (s : State) (core : Nat) (sc : Scope) (sp : Space) (sec : Nat) : State :=
  if (copyAt s (.l1 core) sp sec).any (·.dirty) || scopeRank sc == 3 then noteSend s core 0 (sliceOf (l2Place sp sec (dieOfCore core)) sp sec)
  else if scopeRank sc ≥ 4 then noteSend s core 0 (sliceOf .home sp sec)
  else s

/-- A range operation acts on one sector. -/
def rangeSector (s : State) (op : Op) (sc : Scope) (core : Nat) (l : Loc) : State :=
  let sp := l.space
  let sec := locSector l
  let s := noteRange s core sc sp sec
  match op with
  | .clean => cleanSector s sc core sp sec
  | .inval => dropReached s op sc core sp sec
  | _ => dropReached (cleanSector s sc core sp sec) op sc core sp sec

/-- A sector, chosen freely among those left. -/
def pickFrom {α : Type} (s : State) (l : List α) : Option (Nat × α) :=
  let k := Config.freeNat s.free % l.length
  (l[k]?).map (fun x => (k, x))

/-- A store that the core has sent lands, or a write of a party outside the cores, or the first that must be delivered before it (R135, R181, R194); one
to cells that a schedule uses asks for admission (R216). -/
def landOne (s : State) (core : Nat) : State :=
  match pickFrom s (s.flights.filter (fun f => f.ofCore core || f.die == hubDie)) with
  | none => s
  | some (_, f) =>
    match flightsFor s (fun x => x == f) with
    | x :: _ => if x.waits s then fresh (askReads s (x.bytes.map (·.1))) else landFlight (fresh s) x
    | [] => s

/-- A range operation cannot act on a sector now: a drain holds its line, or a port or link on the way of what it moves trains (R201, R240). -/
def rangeHeld (s : State) (sc : Scope) (core : Nat) (l : Loc) : Bool :=
  lineHeld s l.space (l.addr / 256) 0 || (behindHeld s l.space l.addr && writesBehind sc l.space) ||
  (decide (scopeRank sc ≥ 3) && s.copies.any (fun c => c.space == l.space && c.sector == locSector l && reaches sc core c && pathHeld s (copyDie c) (homeDie l.space l.addr))) ||
  (decide (scopeRank sc ≥ 4) && pathHeld s (dieOfCore core) (homeDie l.space l.addr))

/-- A range operation goes on by one sector, and completes with its last. It starts once the committed stores issued before it have left
(R409), waits at a line that another team pins or a drain holds (R165, R201), and at its end for writes that have not reached their cells
(R165, R217). -/
def execRangeOpComplete (gid id : Nat) (s : State) : Out :=
  match s.groups.find gid with
  | none => .next s
  | some g =>
    match g.rangeOps.find? (fun r => r.seq == id), s.teams.find g.team with
    | some r, some team =>
      if g.storeQ.any (fun x => !x.held && decide (x.seq < r.seq)) || acquirePending g r.seq then .next s
      else if homeFlights s team.core then .next (landOne s team.core)
      else
        let drop : State → State := fun s => onGroup s gid (fun g => { g with rangeOps := g.rangeOps.filter (fun x => x.seq != id) })
        let parked : State → Bool := fun s => r.op != .inval && writeParked s r.spans
        match pickFrom s r.sectors with
        | none => .next (if parked s then s else drop s)
        | some (k, l) =>
          if pinnedAway s l.space (locSector l) (some g.team) then .next (fresh (countCore s team.core 8 team.ctx 1))
          else if rangeHeld s r.scope team.core l then .next (fresh s)
          else
            let s := rangeSector (fresh s) r.op r.scope team.core l
            if r.sectors.length ≤ 1 && !parked s then .next (drop s)
            else
              .next (onGroup s gid (fun g => { g with rangeOps := g.rangeOps.map (fun x =>
                if x.seq == id then { x with sectors := x.sectors.eraseIdx k } else x) }))
    | _, _ => .next s

/-! ### `fence` (R184, R189, R359) -/

/-- A committed `atom` without a result has not been performed. -/
def atomsCommitted (g : Group) : Bool := g.storeQ.any (fun x => !x.held && x.acq.isSome)

/-- The `atom` held for its region that is the latest load or atomic of the group. -/
def heldAtom (g : Group) : Option StoreEntry :=
  ((g.storeQ.filter (fun x => x.held && x.acq.isSome)).getLast?).filter (fun x => decide (g.lastRead.1 ≤ x.seq))

/-- A fence makes the latest earlier load or atomic an acquire: one that has read acquires now, and an `atom` held for its region when it is performed
(R117, R189). -/
def fenceAcquire (s : State) (e : Env) (sc : Scope) : State × Group :=
  match heldAtom e.g with
  | some x =>
    (s, { e.g with storeQ := e.g.storeQ.map (fun y =>
      if y.seq == x.seq then { y with acq := y.acq.map (fun r => if r == .none then sc else scopeMax r sc) } else y) })
  | none => (acquire s e.core e.gid e.g.team sc e.g.lastRead.2, e.g)

def execFence (f : Fields) (s : State) : Out :=
  issuePlain .fence f s fun e =>
    let sc := scopeEff f.scope
    let full := f.aux == 0 || f.aux == 3
    if !e.guard f then finish e .fence f s e.g
    else if f.aux == 1 then
      if e.g.inflight.any (·.reads) || atomsCommitted e.g then .next s else finish e .fence f (fenceAcquire s e sc).1 (fenceAcquire s e sc).2
    else
      let g := { (if full then (fenceAcquire s e sc).2 else e.g) with fenceRel := some (match e.g.fenceRel with
        | some r => scopeMax r sc
        | none => sc) }
      if full then
        if committedStores e.g || releaseHeldUp s e.core e.g sc then .next s else finish e .fence f (fenceAcquire (releaseAt s e sc) e sc).1 g
      else if scopeRank sc ≥ 3 then
        if releaseHeldUp s e.core e.g sc then .next s else finish e .fence f (releaseAt s e sc) g
      else finish e .fence f s g

/-! ### Atomics (R199, R360, R361) -/

/-- A scalar atomic (R353); SC is an operand of `cas` alone (R277). -/
def atomScalar (f : Fields) : Bool := f.sa.isS && !f.sb.isV && !(f.mod == 7 && f.sc.isV) && !f.dst.isV

/-- The operations of an atomic, in ascending lane. -/
def atomOps (e : Env) (f : Fields) (scalar : Bool) (accs : List Acc) : List AtomOp :=
  accs.map (fun a => { acc := a, mod := f.mod, ty := f.ty, b := storeData e f f.sb scalar a.lane, c := storeData e f f.sc scalar a.lane })

/-- An access that R361 denies: a HOST page with CACHE 2. -/
def hostUncached (as : List Acc) : Option VAddr :=
  (as.find? (fun a => a.locs.any (fun l => l.space == .host && l.cache == 2))).map (·.va)

/-- The value that an atomic writes (R360). -/
def atomNew (o : AtomOp) (old : Nat) : Nat :=
  let n := elemBits o.ty
  let b := o.b.toNat % 2 ^ n
  let fl := o.ty == .f32
  let less := if Ty.signed o.ty then decide (signedOf n old < signedOf n b) else decide (old < b)
  let num : Nat → FpNum := fun x => fmtF32.read false x
  match o.mod.toNat with
  | 0 => if fl then (fmtF32.sum 0 false [] [num old, num b]).1 else (old + b) % 2 ^ n
  | 1 => if fl then (fmtF32.pick false (num old) (num b)).1 else if less then old else b
  | 2 => if fl then (fmtF32.pick true (num old) (num b)).1 else if less then b else old
  | 3 => old &&& b
  | 4 => old ||| b
  | 5 => old ^^^ b
  | 6 => b
  | _ => if old == b then o.c.toNat % 2 ^ n else old

/-- The first byte of an operation's location. -/
def AtomOp.loc (o : AtomOp) : Loc := o.acc.locs.headD { space := .dram, addr := 0, cache := 0, comp := false }

/-- An operation's line is pinned for another team. -/
def atomPinned (s : State) (team : Nat) (o : AtomOp) : Bool := linePinned s o.loc.space (o.loc.addr / 256) (some team)

/-- The operation waits for a held line, for a port that trains, for a write on its way to the same bytes that cannot be delivered yet, or for
admission to the cells. -/
def atomWaits (s : State) (core : Nat) (o : AtomOp) : Bool :=
  flightStays s o.acc.locs || lineHeld s o.loc.space (o.loc.addr / 256) 0 || portHeld s (dieOfCore core) o.loc || sectorWaits s o.loc.space (locSector o.loc)

/-- An atomic performed at its home slice, which first takes back every other copy of the line (R192, R199). The releases that it follows at its
place still stand, and its own with them (R188). A narrow release pins its line in the core's L1 (R190). -/
def performAtom (s : State) (core team : Nat) (rel : Option Rel) (o : AtomOp) : State × Nat :=
  let l := o.loc
  let n := o.acc.locs.length
  let s := noteAccess (landOnto s o.acc.locs) core (ctxOfTeam s team) l
  let s := countSlice s (homeDie l.space l.addr) (homeSlice l.space l.addr) 9 (ctxOfTeam s team) 1
  let s := if directStore l then dropHeld s l.space (locSector l) else homeLine s l.space (locSector l)
  let old := newestLe s l.space l.addr n
  let before := s.releases
  let ws := o.acc.locs.zip (leBytes n (atomNew o old))
  let s := markSeen { writeHome s ws with releases := before } (.core core) o.acc.locs []
  let s := monitorsSee (addRelease s (.core core) ws rel) l.space (locSector l)
  let s :=
    if rel.any (fun r => decide (scopeRank r.scope ≤ 2)) && throughL1 l then
      let s := fillL1 s core l.space (locSector l) l.comp
      match copyAt s (.l1 core) l.space (locSector l) with
      | some c => limitPins (putCopy s (if c.pin == some team then c else { c with pin := some team, pinAt := s.picks })) core
      | none => s
    else s
  (s, old)

/-- One of the operations that may be performed next: chosen freely, but in ascending lane on one location. -/
def pickAtom (s : State) (ops : List AtomOp) : Option AtomOp :=
  (pickFrom s ops).bind (fun p => ops.find? (fun o => overlap o.acc.locs p.2.acc.locs))

/-- An `atom` with a result has issued, and SIG counts it. Between two regions its sub-group waits until it has been performed, so that its own
fault is taken outside any region (R118, R119); outside a region the sub-group goes on at once. -/
def finishBetween (e : Env) (f : Fields) (s : State) (g : Group) : Out :=
  if g.region.reopen.any (fun r => r.1 == e.node) then waitPerformed e f s g else finish e .atom f s g

def execAtom (f : Fields) (s : State) : Out :=
  let scalar := atomScalar f
  issuePlain .atom f s fun e =>
    if (scalar || f.dst.isS) && !e.guard f then finish e .atom f s e.g
    else
      let rel := releaseScope e.g (f.aux == 2 || f.aux == 3) f.scope
      let acq : Scope := if f.aux == 1 || f.aux == 3 then scopeEff f.scope else .none
      let body : State → Env → Out := fun s e =>
        match xlat s e .atomic (accesses e f scalar true) with
        | .wait s => .next s
        | .stop s => .next (account s e .atom f)
        | .ok s accs =>
          match hostUncached accs with
          | some va => trapAt s e .atom f 0x08 va false
          | none =>
            let ops := atomOps e f scalar accs
            if f.dst.isNone then storeEnter (fenceTaken e) .atom f s accs (.atomics ops) rel (some acq)
            else
              let g := launch e f (fenceTaken e).g (tagOf f.ty) (laneBytes f.ty)
                (.atomic ops [] (if accs.isEmpty then .none else acq) (rel.map (relOf s e)))
              let done : State → Out := fun s => if accs.isEmpty then finishCommitting e .atom f s g else finishBetween e f s g
              match rel with
              | some sc =>
                if accs.isEmpty then done s
                else if releaseHeldUp s e.core e.g sc then .next s
                else done (releaseAt s e sc)
              | none => done s
      if !f.dst.isNone || rel.isSome then commitFirst s e body else body s e

def execMred (f : Fields) (s : State) : Out :=
  let scalar := f.sa.isS && !f.sb.isV
  issuePlain .mred f s fun e =>
    if scalar && !e.guard f then finish e .mred f s e.g
    else
      match xlat s e .atomic (accesses e f scalar true) with
      | .wait s => .next s
      | .stop s => .next (account s e .mred f)
      | .ok s accs =>
        match hostUncached accs with
        | some va => trapAt s e .mred f 0x08 va false
        | none => storeEnter e .mred f s accs (.atomics (atomOps e f scalar accs)) none none

/-! ### Long-latency producers finish (R100, R180 to R183) -/

/-- The lanes of a producer's destination written, the tag of issue kept, and the destination full. -/
def writeDest (g : Group) (i : Inflight) (vals : List (Nat × W64)) : Group :=
  let g :=
    match i.dst with
    | .v n =>
      writeV g i.dst i.ty.w64 (maskOf (fun l => vals.any (fun v => v.1 == l))) (vreg g n.val).tag
        (fun l => ((vals.find? (fun v => v.1 == l)).map (·.2)).getD 0)
    | .s n =>
      match vals with
      | v :: _ => setS g n.val { val := v.2, full := true }
      | [] => g
    | _ => g
  (regsFrom (tyRegs i.ty) i.dst).foldl markFull g

/-- The producer is no longer in flight. -/
def retireProducer (g : Group) (id : Nat) : Group := { g with inflight := g.inflight.filter (fun i => i.seq != id) }

/-- A producer's pending work replaced. -/
def setPending (g : Group) (id : Nat) (w : Pending) : Group :=
  { g with inflight := g.inflight.map (fun i => if i.seq == id then { i with what := w } else i) }

/-- The producer ends with its values and flags. -/
def completeProducer (g : Group) (i : Inflight) (vals : List (Nat × W64)) (flags : List Mask) : Group :=
  let g := retireProducer (writeDest g i vals) i.seq
  if flags.isEmpty then g else { g with fl := raiseFlags g.fl flags }

/-- A sub-group outside its handler, whose region is CLOSED, is back at the instruction that faulted (R53); one that waits between two
regions for its atomic is back at it in any case. -/
def backTo (g : Group) (i : Inflight) : Group :=
  if g.region.isOpen then
    { g with subs := g.subs.map (fun x =>
        match x.st with
        | .performing p _ => if p == i.seq then { x with st := .runnable, regionPc := i.pc } else x
        | _ => x) }
  else onSub g (resolveNode g i.node) (fun x => if x.handler.isSome then x else { x with pc := i.pc, st := .runnable })

/-- The group's context lets its groups issue; a halt has stopped them otherwise (R48). -/
def groupIssues (s : State) (g : Group) : Bool :=
  (s.teams.find g.team).any (fun t => (s.contexts.find t.ctx).any ctxIssues)

/-- A producer met an uncorrectable error: its destination keeps its bits, and the group consumes the error. Inside a region it rolls back;
outside, the fault is taken at the instruction itself (R53, R119, R351). A group that a halt has stopped keeps its PC (R48), and when it is evicted
or drained before it issues again the error is lost, since no field of an image holds it (log 83). -/
def failProducer (s : State) (gid : Nat) (i : Inflight) (va : VAddr) : State :=
  consumeError (onGroup s gid (fun g =>
    let g := retireProducer (writeDest g i []) i.seq
    if groupIssues s g then backTo g i else g)) gid i.node 0x0B va

/-- The byte that the group's own earlier store, the youngest of them, gives to a load (R180). -/
def forwarded (g : Group) (seq : Nat) (l : Loc) : Option Byte :=
  g.storeQ.foldl (fun r x =>
    if x.seq < seq then
      match x.kind with
      | .bytes us => ((us.flatten.find? (fun w => samePlace w.1 l)).map (·.2)).or r
      | _ => r
    else r) none

/-- A committed atomic of the group that has not been performed stands before these bytes, or before another access at a home slice (R192). -/
def atomBefore (g : Group) (seq : Nat) (atHome : Bool) (ls : List Loc) : Bool :=
  g.storeQ.any (fun x => !x.held && decide (x.seq < seq) && x.atHome && (atHome || x.acquires || overlap x.locs ls))

/-- An earlier load or atomic of the group must be performed before one of these places: an acquire, a load of a CACHE 0 line before
another, one access at a home slice before another, or one of the same bytes (R181, R183, R187, R192). -/
def earlierFirst (g : Group) (i : Inflight) (ls : List Loc) : Bool :=
  g.inflight.any (fun j => decide (j.seq < i.seq) &&
    (j.acquires || (j.ordered && i.ordered) || (j.atHome && i.atHome) || overlap j.locs ls))

/-- A byte that a core has read, with the releases whose values it is (R188). -/
abbrev ByteRead := State × Byte × List Release

/-- A read at the home slice returns its newest bytes to a core, which reads nothing older from then on (R181, R193). An acquire at `.sys` reads a
peer's line at the peer (R188). -/
def readHome (s : State) (core : Nat) (acq : Scope) (l : Loc) : ByteRead :=
  let sec := locSector l
  let s := if acq == .sys && directStore l then dropHeld s l.space sec else s
  let s := if direct l then backCrossing s l.space l.addr else if l.cache == 2 then recallCopies s l.space sec else fillHome s l.space sec l.comp
  (dropStaleAt s core l, newestByte s l.space l.addr, relsAt s [] l.space l.addr)

/-- The request and the miss of an access that its core's L1 does not hold (R135, R262). -/
def noteMiss (s : State) (core ctx : Nat) (l : Loc) : State :=
  if (copyAt s (.l1 core) l.space (locSector l)).isNone then countCore (noteRead s core ctx l) core 6 ctx 1 else s

/-- The access is served through the core's L1: for CACHE 0, unless it acquires at `.dev` or `.sys`, which reads at the home slice (R160, R192, R355). -/
def nearRead (acq : Scope) (l : Loc) : Bool := throughL1 l && acq != .dev && acq != .sys

/-- The messages of a core's read (R135, R262). -/
def noteLoad (s : State) (core ctx : Nat) (acq : Scope) (l : Loc) : State :=
  if nearRead acq l then noteMiss s core ctx l else if acq == .dev || acq == .sys then noteHome s core ctx l else noteRead s core ctx l

/-- A byte read by a core, which has seen every write of it from then on but for those that its copy misses (R160, R181). -/
def readLoc (s : State) (core : Nat) (acq : Scope) (l : Loc) : ByteRead :=
  if nearRead acq l then
    let s := fillL1 s core l.space (locSector l) l.comp
    match copyAt s (.l1 core) l.space (locSector l) with
    | some c => (markSeen s (.core core) [l] c.stale, c.bytes.getD (l.addr % 64) 0, relsAt s c.stale l.space l.addr)
    | none => (s, newestByte s l.space l.addr, relsAt s [] l.space l.addr)
  else readHome s core acq l

/-- The bytes of a unit, own stores forwarded, with the releases read. -/
def readUnit (s : State) (core ctx : Nat) (g : Group) (seq : Nat) (acq : Scope) (a : Acc) : State × List Byte × List Release :=
  let s := (bySector (a.locs.filter (fun l => (forwarded g seq l).isNone))).foldl (fun s l => noteLoad s core ctx acq l) s
  a.locs.foldl (fun r l =>
    match forwarded g seq l with
    | some b => (r.1, r.2.1 ++ [b], r.2.2)
    | none =>
      let x := readLoc r.1 core acq l
      (x.1, r.2.1 ++ [x.2.1], r.2.2 ++ x.2.2)) (s, [], [])

/-- The releases that the group's latest load or atomic has read, for a later `fence.acq` (R189). -/
def noteLast (g : Group) (seq : Nat) (rels : List Release) : Group :=
  if g.lastRead.1 < seq then { g with lastRead := (seq, rels) }
  else if g.lastRead.1 == seq then { g with lastRead := (seq, g.lastRead.2 ++ rels) } else g

/-- A read of the group has met these releases: one of an acquire synchronises with them (R188, R189). -/
def readRels (s : State) (gid core team seq : Nat) (acq : Scope) (rels : List Release) : State :=
  let s := onGroup s gid (fun g => noteLast g seq rels)
  if acq == .none then s else acquire s core gid team acq rels

/-- A producer whose access a pinned line refused waits to be sent again (R191, R262). -/
def retryLater (s : State) (gid core ctx id : Nat) : State :=
  onGroup (countCore s core 8 ctx 1) gid (fun g => { g with inflight := g.inflight.map (fun j => if j.seq == id then { j with retrying := true } else j) })

/-- The value of a lane of a load, from its bytes. -/
def gotValue (i : Inflight) (got : Map Byte) (lane : Nat) : W64 :=
  let v := leValue ((List.range i.size).map (fun j => (Map.find got (lane * 8 + j)).getD 0))
  if i.dst.isS && Ty.signed i.ty then BitVec.ofNat 64 (wrapInt 64 (signedOf (8 * i.size) v)) else BitVec.ofNat 64 v

/-- The lanes of a load with their values. -/
def gotLanes (i : Inflight) (got : Map Byte) : List (Nat × W64) :=
  ((got.map (fun e => e.1 / 8)).eraseDups).map (fun l => (l, gotValue i got l))

/-- One unit of a load is performed; the last ends it. -/
def loadStep (s : State) (gid core ctx : Nat) (g : Group) (i : Inflight) (accs : List Acc) (got : Map Byte) (acq : Scope) : State :=
  let fin : State → Map Byte → State := fun s got => onGroup s gid (fun g => completeProducer g i (gotLanes i got) [])
  match pickFrom s accs with
  | none => fin s got
  | some (k, a) =>
    let need := a.locs.filter (fun l => (forwarded g i.seq l).isNone)
    if need.any (fun l => pinnedAway s l.space (locSector l) (some g.team)) then fresh (retryLater s gid core ctx i.seq)
    else if ownFlight s core need || need.any (fun l => lineHeld s l.space (l.addr / 256) 0 || accessHeld s core l) then fresh s
    else if need.any (fun l => sectorWaits s l.space (locSector l)) then fresh (askReads s need)
    else
    let s := fillCodes s ctx need
    if need.any (badRead s core) then fresh (failProducer s gid i a.va)
    else
      let r := readUnit (landBefore s core need) core ctx g i.seq acq a
      let got := (r.2.1.mapIdx (fun j b => (a.lane * 8 + a.off + j, b))).foldl (fun m e => Map.insert m e.1 e.2) got
      let s := fresh (readRels r.1 gid core g.team i.seq acq r.2.2)
      if accs.length ≤ 1 then fin s got else onGroup s gid (fun g => setPending g i.seq (.load (accs.eraseIdx k) got acq))

/-- A sub-group waits at its committing atomic, which has been performed. -/
def hasPerformed (g : Group) (x : Sub) : Bool :=
  match x.st with
  | .performing p _ => !g.inflight.any (fun i => i.seq == p) && !g.storeQ.any (fun y => y.seq == p)
  | _ => false

/-- A sub-group goes on behind its committing atomic, and the region with the same P and Q opens there (R118). -/
def goBehind (g : Group) (x : Sub) : Group :=
  let next := x.pc + BitVec.ofNat 80 ((issuedLen x).getD 0)
  let g := onSub g x.node (fun x => { x with pc := next, st := .runnable, walked := [] })
  match g.region.reopen with
  | some (n, p, q) => if n == x.node then openRegion g x.node p q next else g
  | none => g

/-- An atomic of the group has ended: the sub-groups whose committing atomics have been performed go on, each once no atomic that a sibling has
issued outside any region would meet the region that is to open behind its own (R118, R119; log 67). -/
def atomPassed (g : Group) : Group :=
  (g.subs.filter (hasPerformed g)).foldl (fun g x => if owedRegion g x.node && closedAtoms g then g else goBehind g x) g

/-- One operation of an atomic with a result is performed; the last ends it. -/
def atomStep (s : State) (gid core ctx : Nat) (g : Group) (i : Inflight) (ops : List AtomOp) (got : List (Nat × W64)) (acq : Scope)
    (rel : Option Rel) : State :=
  let fin : State → List (Nat × W64) → State := fun s got => onGroup s gid (fun g => atomPassed (completeProducer g i got []))
  match pickAtom s ops with
  | none => fin s got
  | some o =>
    if atomPinned s g.team o then fresh (retryLater s gid core ctx i.seq)
    else if atomWaits s core o then fresh (askReads s o.acc.locs)
    else
    let s := fillCode s ctx o.loc
    if badLoc s o.loc then fresh (onGroup (failProducer s gid i o.acc.va) gid atomPassed)
    else
      let rels := relsOf (landOnto s o.acc.locs) o.acc.locs
      let r := performAtom s core g.team rel o
      let v : W64 := BitVec.ofNat 64 r.2
      let got := got ++ [(o.acc.lane, if i.dst.isS && i.ty.w32 then extend32 i.ty (v.setWidth 32) else v)]
      let s := fresh (readRels r.1 gid core g.team i.seq acq rels)
      if ops.length ≤ 1 then fin s got else onGroup s gid (fun g => setPending g i.seq (.atomic (ops.erase o) got acq rel))

/-- A scratchpad load's values, own stores forwarded. -/
def ldsLanes (team : Team) (g : Group) (i : Inflight) (as : List (Nat × Nat)) : List (Nat × W64) :=
  let own : Memory := g.storeQ.foldl (fun m x =>
    if x.seq < i.seq then
      match x.kind with
      | .scratch ws => ws.foldl (fun m w => m.write w.1 w.2) m
      | _ => m
    else m) team.scratch
  as.map (fun a =>
    let v := own.readLe a.2 i.size
    (a.1, if i.dst.isS && Ty.signed i.ty then BitVec.ofNat 64 (wrapInt 64 (signedOf (8 * i.size) v)) else BitVec.ofNat 64 v))

/-- A completion record (R76). -/
def recordOf (c : Command) : W64 := BitVec.ofNat 64 (c.payload % 2 ^ 40 + c.status % 256 * 2 ^ 40 + c.tag.toNat * 2 ^ 48)

/-- An earlier pop of the queue still waits: its record comes first (R76). -/
def popBefore (g : Group) (i : Inflight) (q : Nat) : Bool :=
  g.inflight.any (fun j => decide (j.seq < i.seq) && (match j.what with
    | .pop r _ => r == q
    | _ => false))

/-- A pop gives the record of its entry, once the command has completed and the pops of its queue before it have theirs, and joins it: the core
goes past what the command's writes superseded (R76, R197). The entry leaves, or stays popped while its region is open (R77). -/
def popStep (s : State) (gid core : Nat) (g : Group) (i : Inflight) (q cmd : Nat) : State :=
  match (g.queues.getD q []).find? (fun c => c.seq == cmd) with
  | none => s
  | some c =>
    if c.st != .done || popBefore g i q then s
    else
      let g := completeProducer g i [(0, recordOf c)] []
      setGroup (joinParty s (.core core) (.command gid cmd)) gid (if i.region then g else { g with queues := g.queues.modify q (fun l => l.filter (fun d => d.seq != cmd)) })

/-- The producer's sub-group waits in MONITOR for it: MONITOR_WAKE ends it. -/
def inMonitor (g : Group) (id : Nat) : Bool :=
  g.subs.any (fun x =>
    match x.st with
    | .monitor p _ _ _ => p == id
    | _ => false)

/-- A long-latency producer performs its next access or writes its destination, which becomes full (R100). -/
def execLongLatencyWriteback (gid id : Nat) (s : State) : Out :=
  match s.groups.find gid with
  | none => .next s
  | some g =>
    match g.inflight.find? (fun i => i.seq == id), s.teams.find g.team with
    | some i, some team =>
      if i.retrying || inMonitor g id then .next s
      else
        match i.what with
        | .values vals flags => .next (setGroup s gid (completeProducer g i vals flags))
        | .load accs got acq =>
          if earlierFirst g i (accLocs accs) || atomBefore g i.seq i.atHome (accLocs accs) then .next s
          else .next (loadStep s gid team.core team.ctx g i accs got acq)
        | .lds as _ =>
          if earlierFirst g i [] || atomBefore g i.seq false [] then .next s
          else
            let s := countBanks s team.core team.ctx (as.flatMap (fun a => wordsAt i.size a.2))
            .next (freeTiles (setGroup s gid (completeProducer g i (ldsLanes team g i as) [])) g.team)
        | .atomic ops got acq rel =>
          let ls := ops.flatMap (fun o => o.acc.locs)
          if earlierFirst g i ls || atomBefore g i.seq true ls || g.storeQ.any (fun x => !x.held && decide (x.seq < i.seq) && overlap x.locs ls) then .next s
          else .next (atomStep s gid team.core team.ctx g i ops got acq rel)
        | .pop q cmd => .next (popStep s gid team.core g i q cmd)
        | .wait _ _ _ _ => .next s
    | _, _ => .next s

/-- An access refused by a pinned line is sent again (R191). -/
def execRetryResend (gid id : Nat) (s : State) : Out :=
  .next (onGroup s gid (fun g => { g with inflight := g.inflight.map (fun i => if i.seq == id then { i with retrying := false } else i) }))

/-! ### The store queue (R183, R360) -/

/-- An earlier range operation has still to act on a sector that the entry writes: it acts on what was committed at its issue (R117). -/
def rangeBefore (g : Group) (x : StoreEntry) : Bool :=
  g.rangeOps.any (fun r => decide (r.seq < x.seq) &&
    r.sectors.any (fun k => x.locs.any (fun l => l.space == k.space && locSector l == locSector k)))

/-- An earlier load, acquire or range operation of the group holds back an entry that leaves: loads before stores on CACHE 0 lines and scratchpad,
accesses at home slices, accesses to the same bytes, and range operations on their sectors (R117, R183, R187, R188, R192). -/
def storeWaits (g : Group) (x : StoreEntry) : Bool :=
  let ordered := match x.kind with
    | .scratch _ => true
    | _ => x.locs.any throughL1
  rangeBefore g x || g.inflight.any (fun i => decide (i.seq < x.seq) && (i.acquires || (i.ordered && ordered) || (i.atHome && x.atHome) || overlap i.locs x.locs))

/-- An entry of the queue goes on with what is left of it, or leaves. -/
def setEntry (g : Group) (x : StoreEntry) (kind : Option StoreKind) : Group :=
  match kind with
  | some k => { g with storeQ := g.storeQ.map (fun y => if y.seq == x.seq then { x with kind := k } else y) }
  | none => { g with storeQ := g.storeQ.filter (fun y => y.seq != x.seq) }

/-- A sub-group that waits at its committing atomic goes on with its next step. -/
def unwait (g : Group) (id : Nat) : Group :=
  { g with subs := g.subs.map (fun x => match x.st with
      | .performing p _ => if p == id then { x with st := .runnable } else x
      | _ => x) }

/-- An atomic without a result that meets an uncorrectable error is not performed: its line is poisoned, and a record is appended (R360). Behind
a port that fails it is a consumed error of its group (R242), of a committing one at its instruction (R119). -/
def skipAtom (s : State) (gid : Nat) (x : StoreEntry) (o : AtomOp) : State :=
  if !peerFails s o.loc then poisonLine s o.loc.space (o.loc.addr / 256) 2
  else if x.rel.isSome then consumeError (onGroup s gid (fun g => unwait (setEntry g x none) x.seq)) gid x.node 0x0B o.acc.va
  else consumeError s gid x.node 0x0B o.acc.va

/-- The requests of a store: for a line of CACHE 0 that its core's L1 does not hold as its own, else as of any access (R135, R162). -/
def noteStore (s : State) (core ctx : Nat) (l : Loc) : State :=
  if throughL1 l && !directStore l then
    match copyAt s (.l1 core) l.space (locSector l) with
    | some c => if c.dirty then s else noteSend s core 0 (sliceOf (l2Place l.space (locSector l) (dieOfCore core)) l.space (locSector l))
    | none => noteMiss s core ctx l
  else noteAccess s core ctx l

/-- What an entry writes next, and what is left of it: one of its units, or at once those of a line that it covers whole without allocation, as the
implementation joins them, and where the line is poisoned (R157, R349). -/
def nextUnit (s : State) (us : List (List (Loc × Byte))) : Option (List (Loc × Byte) × List (List (Loc × Byte))) :=
  (pickFrom s us).map (fun p =>
    match p.2 with
    | [] => ([], us.eraseIdx p.1)
    | w :: _ =>
      let mine : List (Loc × Byte) → Bool := fun v => v.any (fun y => y.1.space == w.1.space && y.1.addr / 256 == w.1.addr / 256)
      let line := (us.filter mine).flatten
      if w.1.cache == 2 && !directStore w.1 && wholeLine line &&
          ((lineSectors (w.1.addr / 256)).any (fun x => s.poisoned.contains (w.1.space, x)) || Config.freeBool s.free)
      then (line, us.filter (fun v => !mine v)) else (p.2, us.eraseIdx p.1))

/-- What keeps a store to a place in its queue: a pin, counted, or anything else (R191, R201, R240). -/
def storePinned (s : State) (team : Nat) (l : Loc) : Bool :=
  if throughL1 l || directStore l then pinnedAway s l.space (locSector l) (some team) else linePinned s l.space (l.addr / 256) (some team)

/-- The die of the core cannot obtain ownership of a sector: a link on the way to its home slice, or to a copy elsewhere, trains (R192, R240). -/
def ownHeld (s : State) (core : Nat) (l : Loc) : Bool :=
  !s.copies.any (fun c => c.space == l.space && c.sector == locSector l && c.dirty && copyDie c == dieOfCore core) &&
    (pathHeld s (dieOfCore core) (homeDie l.space l.addr) || recallHeld s l.space (l.addr / 256))

def storeHeld (s : State) (core : Nat) (l : Loc) : Bool :=
  lineHeld s l.space (l.addr / 256) 0 || (!directStore l && ((throughL1 l && (flightStays s [l] || ownHeld s core l)) || accessHeld s core l))

/-- One write of a committed store leaves its core; the last ends its entry. -/
def storeStep (s : State) (gid : Nat) (team : Team) (g : Group) (x : StoreEntry) (us : List (List (Loc × Byte))) : State :=
  match nextUnit s us with
  | none => onGroup s gid (fun g => setEntry g x none)
  | some (u, rest) =>
    let ls := u.map (·.1)
    if ls.any (storePinned s g.team) then fresh (countCore s team.core 8 team.ctx 1)
    else if ls.any (storeHeld s team.core) then fresh s
    else if ls.any (fun l => sectorWaits s l.space (locSector l)) then fresh (askReads s ls)
    else
      let s := (bySector ls).foldl (fun s l => noteStore s team.core team.ctx l) s
      let s := if wholeLine u then s else fillCodes s team.ctx (ls.filter (fun l => !directStore l))
      let s := fresh (writeCore s team.core g.team u x.pin x.rel)
      onGroup s gid (fun g => setEntry g x (if rest.isEmpty then none else some (.bytes rest)))

/-- One operation of a committed atomic without a result is performed or skipped; the last ends its entry. -/
def mredStep (s : State) (gid : Nat) (team : Team) (g : Group) (x : StoreEntry) (ops : List AtomOp) : State :=
  match pickAtom s ops with
  | none => onGroup s gid (fun g => atomPassed (setEntry g x none))
  | some o =>
    if atomPinned s g.team o then fresh (countCore s team.core 8 team.ctx 1)
    else if atomWaits s team.core o then fresh (askReads s o.acc.locs)
    else
      let s := fresh (onGroup (fillCode s team.ctx o.loc) gid (fun g => setEntry g x (if ops.length ≤ 1 then none else some (.atomics (ops.erase o)))))
      let s := if badLoc s o.loc then skipAtom s gid x o
        else
          let t := (performAtom s team.core g.team x.rel o).1
          match x.acq with
          | some acq => readRels t gid team.core g.team x.seq acq (relsOf (landOnto s o.acc.locs) o.acc.locs)
          | none => t
      if ops.length ≤ 1 then onGroup s gid atomPassed else s

/-- A store that the core has sent lands, or the oldest entry of the group, once committed, performs one of its writes and leaves with the last:
entries leave in FIFO order (R182, R183, R199, R356). -/
def execStoreQueueRetire (gid : Nat) (s : State) : Out :=
  match s.groups.find gid with
  | none => .next s
  | some g =>
    match s.teams.find g.team with
    | none => .next s
    | some team =>
      match g.storeQ with
      | [] => .next (landOne s team.core)
      | x :: _ =>
        if s.flights.any (fun f => f.ofCore team.core || f.die == hubDie) && Config.freeBool s.free then .next (landOne (fresh s) team.core)
        else if x.held || storeWaits g x then .next (fresh s)
        else
          let s := fresh s
          match x.kind with
          | .scratch ws =>
            let s := countBanks s team.core team.ctx (ws.map (fun w => w.1 / 4))
            let s := setTeam s g.team { team with scratch := ws.foldl (fun m w => m.write w.1 w.2) team.scratch }
            .next (onGroup s gid (fun g => setEntry g x none))
          | .bytes us => .next (storeStep s gid team g x us)
          | .atomics ops => .next (mredStep s gid team g x ops)

/-! ### Evictions (R161, R162) -/

/-- The space and line that the step names: the space stands above bit 52 (log 1). -/
def evictPlace (x : Nat) : Space × Nat :=
  let a := x % 2 ^ 52
  match x / 2 ^ 52 with
  | 0 => (.dram, a)
  | 1 => (.array, a)
  | 2 => (.host, a)
  | n + 3 => (.peer n, a)

/-- A slice writes back a line, or evicts it with every copy that depends on it (R161, R162); the pins of the line end with their copies. -/
def execL2Eviction (line : Nat) (guest : Option Nat) (drop : Bool) (code : BitVec 2) (bad : Bool) (s : State) : Out :=
  let (sp, n) := evictPlace line
  if lineHeld s sp n 0 || lineStays s ((guest.map Place.guest).getD .home, sp, n) then .next s
  else
    match guest with
    | some d => .next (evictGuest s sp n d drop)
    | none => .next (evictHome s sp n code.toNat bad drop)

end Sys2Proof.Machine
end

