-- ==== Sys2Proof/Machine/Sync.lean ====
section
/-! DEFINITION. Barriers, condition monitors and the mayfly probe (spec/08_barrier.md R125 to R136, spec/20_ref_memory.md R359, R361, R362). -/

namespace Sys2Proof.Machine

/-- A sub-group that stood at its instruction goes on behind it: SIG counts the instruction, and the PC moves by its length. -/
def goOn (g : Group) (node k : Nat) (op : Op) (mod : BitVec 4) : Group :=
  onSub (sigAfter g node op { mod := mod }) node (fun x => { x with pc := x.pc + BitVec.ofNat 80 k, st := .runnable })

/-! ### Barriers (R125 to R130) -/

/-- The count that an arrival names: an immediate, or the low 8 bits of a register (R126). -/
def barCount (e : Env) (f : Fields) : Nat := if f.sa.isNone then bits f.imm.toNat 15 8 else (readS e.g f f.sa).toNat % 256

def barNumber (f : Fields) : Nat := bits f.imm.toNat 3 0

/-- `bara` and `bars` issue: the sub-group arrives, with its PC at the instruction until the arrival is counted. -/
def arrive (op : Op) (f : Fields) (s : State) (waits : Bool) : Out :=
  issue op f s (fun e => decide (barNumber f ≥ e.team.barriers.length)) never (fun e => e.g.region.isOpen) fun e =>
    let c := barCount e f
    if c == 0 then trap0 s e op f 0x01
    else .next (account (setGroup s e.gid (onSub e.g e.node (fun x => { x with st := .arriving (barNumber f) c waits f.form.length }))) e op f)

def execBara (f : Fields) (s : State) : Out := arrive .bara f s false
def execBars (f : Fields) (s : State) : Out := arrive .bars f s true

/-- `barq` reads PAR, ARRIVED and COUNT as they stand (R128). -/
def execBarq (f : Fields) (s : State) : Out :=
  issue .barq f s (fun e => decide (barNumber f ≥ e.team.barriers.length)) never never fun e =>
    if !e.guard f then finish e .barq f s e.g
    else
      let b := e.team.barriers.getD (barNumber f) { count := 0, arrived := 0, par := false }
      finish e .barq f s (writeS e.g f.dst (BitVec.ofNat 64 (b.count.toNat + b.arrived.toNat * 2 ^ 8 + b.par.toNat * 2 ^ 16)))

/-- A phase completes: every sub-group of the team that waits in it is released (R125). -/
def releasePhase (s : State) (team bar : Nat) : State :=
  (teamGroups s team).foldl (fun s e =>
    onGroup s e.1 (fun g => { g with subs := g.subs.map (fun x => if x.st == .waitBars bar then { x with st := .runnable } else x) })) s

/-- What an arrival with count `c` makes of a barrier, and whether the phase completes; none on a mismatch (R125). -/
def arriveAt (b : Barrier) (c : Nat) : Option (Barrier × Bool) :=
  if b.count == 0 then
    if c == 1 then some ({ count := 0, arrived := 0, par := !b.par }, true) else some ({ b with count := BitVec.ofNat 8 c, arrived := 1 }, false)
  else if b.count.toNat == c then
    if b.arrived.toNat + 1 < c then some ({ b with arrived := b.arrived + 1 }, false)
    else some ({ count := 0, arrived := 0, par := !b.par }, true)
  else none

/-- An arrival is counted once the group's committed stores, the effects it popped and its range operations are done (R127, R355). -/
def execBarrierArrive (gid node : Nat) (s : State) : Out :=
  match s.groups.find gid with
  | none => .next s
  | some g =>
    match subOf g node, s.teams.find g.team with
    | some x, some team =>
      match x.st with
      | .arriving bar c waits k =>
        if releaseHeldUp s team.core g .team then .next s
        else
          match arriveAt (team.barriers.getD bar { count := 0, arrived := 0, par := false }) c with
          | none => .next (raise (onGroup s gid (fun g => onSub g node (fun x => { x with st := .runnable }))) gid node 0x06 x.pc 0 false)
          | some (b, complete) =>
            let s := setTeam s g.team { team with barriers := team.barriers.set bar b }
            let g := goOn g node k (if waits then .bars else .bara) 0
            let g := if waits && !complete then onSub g node (fun y => { y with st := .waitBars bar, barsPc := x.pc }) else g
            let s := setGroup s gid g
            .next (if complete then releasePhase s g.team bar else s)
      | _ => .next s
    | _, _ => .next s

/-! ### Condition monitors (R131 to R134) -/

/-- The monitors of the home slice of a place. -/
def sliceMonitors (s : State) (sp : Space) (a : Nat) : Nat :=
  (s.monitors.filter (fun m => homeDie m.space m.addr == homeDie sp a && homeSlice m.space m.addr == homeSlice sp a)).length

/-- Pages of this place can be watched by a slice: not PEER and not HOST (R132). -/
def canArm (sp : Space) : Bool :=
  match sp with
  | .dram | .array => true
  | _ => false

/-- The monitor entry of a producer. -/
def monitorFor (ctx gid id : Nat) (l : Loc) (n : Nat) (cmp : BitVec 4) (operand : W64) : Monitor :=
  { space := l.space, addr := l.addr, size := n, cmp := cmp, operand := BitVec.ofNat 64 (operand.toNat % 2 ^ (8 * n))
    mask := BitVec.ofNat 64 (2 ^ (8 * n) - 1), ctx := ctx, waiter := .sub gid id }

/-- The read of a `waitc`, fresh at the home slice, or at the device behind a port (R131, R132). -/
def freshRead (s : State) (core ctx : Nat) (l : Loc) (ls : List Loc) : State :=
  let s := noteHome s core ctx l
  let s := if directStore l then dropHeld s l.space (locSector l) else recallCopies s l.space (locSector l)
  ls.foldl (fun s l => dropStaleAt s core l) s

/-- An earlier access of the group must be performed before a `waitc` of these bytes (R180, R187, R192); a store of its core that cannot land keeps it
waiting too. -/
def waitcWaits (g : Group) (ls : List Loc) : Bool :=
  g.storeQ.any (fun x => !x.held && (x.atHome || overlap x.locs ls)) || g.inflight.any (fun i => i.acquires || i.atHome || overlap i.locs ls)

/-- What keeps a read at the home slice of a place from being performed now, with the state after its request; none where nothing does: a
pinned line (R191), a held one (R201), a port that trains (R240), cells that a schedule uses (R216). -/
def readHeld (s : State) (core ctx team : Nat) (l : Loc) : Option State :=
  if pinnedAway s l.space (locSector l) (some team) then some (countCore s core 8 ctx 1)
  else if lineHeld s l.space (l.addr / 256) 0 || portHeld s (dieOfCore core) l then some s
  else if sectorWaits s l.space (locSector l) then some (askRead s l)
  else none

def execWaitc (f : Fields) (s : State) : Out :=
  issuePlain .waitc f s fun e =>
    let n := laneBytes f.ty
    let n := if f.ty == .n32 then 4 else n
    let va := alignDown (eaScalar e f) n
    if !e.guard f then finish e .waitc f s e.g
    else
      match xlat s e .read [{ lane := 0, va := va, size := n }] with
      | .wait s => .next s
      | .stop s => .next (account s e .waitc f)
      | .ok s accs =>
        let a := accs.headD { lane := 0, off := 0, va := va, locs := [] }
        let l := a.locs.headD { space := .dram, addr := 0, cache := 0, comp := false }
        if l.space == .host && l.cache == 2 then trapAt s e .waitc f 0x08 va false
        else if waitcWaits e.g a.locs || ownFlight s e.core a.locs then .next s
        else
        match readHeld s e.core e.team.ctx e.g.team l with
        | some s => .next s
        | none =>
        let s := fillCode (landBefore s e.core a.locs) e.team.ctx l
        if badLoc s l then .next (consumeError (account s e .waitc f) e.gid e.node 0x0B va)
        else
          let s := freshRead s e.core e.team.ctx l a.locs
          let v := newestLe s l.space l.addr n
          let op := readS e.g f f.sb
          if compareMem f.mod (8 * n) v (op.toNat % 2 ^ (8 * n)) then
            let s := acquire s e.core e.gid e.g.team (scopeEff f.scope) (relsOf s a.locs)
            finish e .waitc f s (launch e f e.g tagRaw 0 (.values [(0, BitVec.ofNat 64 v)] []))
          else
            let armed := canArm l.space && decide (sliceMonitors s l.space l.addr < 1024)
            let id := e.g.seq
            let g := launch e f e.g tagRaw n (.wait a f.mod op (scopeEff f.scope))
            let g := onSub g e.node (fun x => { x with st := .monitor id armed f.form.length f.mod })
            let s := countSlice s (homeDie l.space l.addr) (homeSlice l.space l.addr) (if armed then 6 else 7) e.team.ctx 1
            let s := if armed then { s with monitors := s.monitors ++ [monitorFor e.team.ctx e.gid id l n f.mod op] } else s
            .next (account (setGroup s e.gid g) e .waitc f)

/-- An unarmed waiter reads again, every 4,096 clk: a fresh read at its scope (R132). -/
def execMonitorRecheck (gid node : Nat) (s : State) : Out :=
  match s.groups.find gid with
  | none => .next s
  | some g =>
    match (subOf g node).map Sub.st, s.teams.find g.team with
    | some (.monitor id false _ _), some team =>
      if !(s.contexts.find team.ctx).any ctxIssues then .next s
      else
      match g.inflight.find? (fun i => i.seq == id) with
      | some i =>
        match i.what with
        | .wait a cmp op sc =>
          let l := a.locs.headD { space := .dram, addr := 0, cache := 0, comp := false }
          let n := a.locs.length
          if ownFlight s team.core a.locs then .next s
          else
          match readHeld s team.core team.ctx g.team l with
          | some s => .next s
          | none =>
            let s := fillCode (landBefore s team.core a.locs) team.ctx l
            if badLoc s l then
              .next (failProducer (onGroup s gid (fun g => onSub g node (fun x => { x with st := .runnable }))) gid i a.va)
            else
              let s := freshRead s team.core team.ctx l a.locs
              let v := newestLe s l.space l.addr n
              if compareMem cmp (8 * n) v (op.toNat % 2 ^ (8 * n)) then
                let s := acquire s team.core gid g.team sc (relsOf s a.locs)
                .next (onGroup s gid (fun g => setPending g id (.values [(0, BitVec.ofNat 64 v)] [])))
              else .next s
        | _ => .next s
      | none => .next s
    | _, _ => .next s

/-- The value that satisfied a waiter's comparison reaches it: its destination is full, and it goes on behind the `waitc` (R108, R131). -/
def execMonitorWake (gid node : Nat) (s : State) : Out :=
  match s.groups.find gid with
  | none => .next s
  | some g =>
    match (subOf g node).map Sub.st, s.teams.find g.team with
    | some (.monitor id _ k cmp), some team =>
      if !(s.contexts.find team.ctx).any ctxIssues then .next s
      else
      match g.inflight.find? (fun i => i.seq == id) with
      | some i =>
        match i.what with
        | .values vals flags =>
          let g := goOn (completeProducer g i vals flags) node k .waitc cmp
          .next (setGroup s gid g)
        | _ => .next s
      | none => .next s
    | _, _ => .next s

/-! ### The mayfly probe (R135) -/

def execFprobe (f : Fields) (s : State) : Out :=
  issuePlain .fprobe f s fun e =>
    if !e.guard f then finish e .fprobe f s e.g
    else
      .next (account (setGroup s e.gid (onSub e.g e.node (fun x => { x with st := .probing (f.imm.setWidth 4) f.form.length }))) e .fprobe f)

/-- The channels that a mask selects: 0 selects all four. -/
def probeChannels (m : BitVec 4) (c : Nat) : Bool := m == 0 || m.getLsbD c

/-- A store on its way that a probe of these channels waits for: on the peer channel, or for the host on the request channel (R135, R194). -/
def probed (m : BitVec 4) (f : Flight) : Bool := f.bytes.any (fun w => probeChannels m (if (sendsTo w.1).1 then 3 else 0))

/-- The probe sent after the group's committed stores has been acknowledged everywhere: the stores on their way have landed, and the sets are
clear (R135, R194). -/
def execProbeComplete (gid node : Nat) (s : State) : Out :=
  match s.groups.find gid with
  | none => .next s
  | some g =>
    match (subOf g node).map Sub.st, s.teams.find g.team with
    | some (.probing m k), some team =>
      let s := if committedStores g then s else landFlights s (fun f => f.ofCore team.core && probed m f)
      if committedStores g || s.flights.any (fun f => f.ofCore team.core && probed m f) then .next s
      else
        let c := coreOf s team.core
        let s := setCore s team.core { c with channels := c.channels.mapIdx (fun i l => if probeChannels m i then [] else l) }
        .next (onGroup s gid (fun g => goOn g node k .fprobe 0))
    | _, _ => .next s

end Sys2Proof.Machine
end

