-- ==== Sys2Proof/Machine/Tiles.lean ====
section
/-! DEFINITION. The tile table and the issue of engine commands (spec/21_ref_engines.md R364 to R383, spec/10_tile.md R168 to R171,
spec/04_queue.md R73 to R77, spec/09_page.md R146, spec/13_stash.md R231). -/

namespace Sys2Proof.Machine

/-! ### Tiles and their users (R169 to R171) -/

/-- The magnitude bits of an SX tag, and none for another tag. -/
def tagSx (t : Nat) : Option Nat :=
  match t with
  | 10 => some 2
  | 11 => some 4
  | 12 => some 7
  | _ => none

/-- The bytes of a row in memory form (R370). -/
def rowBytes (t : Tile) : Nat :=
  match tagSx t.tag with
  | some m => t.cols / 16 * (2 * (m + 2))
  | none => t.cols * tagSize t.tag

/-- A handle at or above TILES (R171). -/
def noTile (n : Nat) (e : Env) : Bool := decide (n ≥ e.team.tiles.length)

/-- An accumulator handle at or above ACC (R174). -/
def noAcc (f : Fields) (e : Env) : Bool := decide (accField f ≥ e.team.accs.length)

def tileState (e : Env) (n : Nat) : TileState := (tileOf e.team n).st

/-! ### `talloc`, `tset`, `tfree`, `tstat` (R367 to R369) -/

/-- The tile that geometry and placement words describe, when no zero field is set. -/
def tileFrom (geom place : Nat) (st : TileState) (old : Tile) : Tile :=
  { old with st := st, tag := bits geom 3 0, rows := bits geom 15 8, cols := bits geom 23 16, pitch := bits geom 51 32
             data := bits place 31 0, scale := bits place 63 32, chkValid := false }

/-- The geometry and placement words of an entry. -/
def geometryOf (t : Tile) : Nat := t.tag + t.rows * 2 ^ 8 + t.cols * 2 ^ 16 + t.pitch * 2 ^ 32
def placementOf (t : Tile) : Nat := t.data + t.scale * 2 ^ 32

/-- The entry breaks a rule of R368: ILLEGAL. -/
def tileIllegal (geom : Nat) (t : Tile) : Bool :=
  let sx := (tagSx t.tag).isSome
  bits geom 63 52 != 0 || bits geom 31 24 != 0 || bits geom 7 4 != 0 || decide (t.tag > 12) ||
  t.rows == 0 || decide (t.rows > 64) || t.cols == 0 || decide (t.cols > 64) || (sx && t.cols % 16 != 0) ||
  t.pitch % 4 != 0 || decide (t.pitch < t.cols * tagSize t.tag) || t.data % 64 != 0 || t.scale % 64 != 0 || (!sx && t.scale != 0)

/-- The entry's areas leave the allocation: PROTECTION. -/
def tileOutside (scratch : Nat) (t : Tile) : Bool :=
  decide (t.data + (t.rows - 1) * t.pitch + t.cols * tagSize t.tag > scratch * 1024) ||
  ((tagSx t.tag).isSome && decide (t.scale + t.rows * t.cols / 8 > scratch * 1024))

/-- Writes an entry after its checks. -/
def putTile (op : Op) (f : Fields) (s : State) (e : Env) (geom place : Nat) (st : TileState) (old : Tile) (g : Group) : Out :=
  let t := tileFrom geom place st old
  if tileIllegal geom t then trap0 s e op f 0x01
  else if tileOutside e.team.launch.scratch t then trapAt s e op f 0x08 (BitVec.ofNat 80 t.data) false
  else finish e op f (setTeam s e.g.team (setTile e.team (cmdTile f) t)) g

def execTalloc (f : Fields) (s : State) : Out :=
  let n := cmdTile f
  issue .talloc f s (noTile n) never never fun e =>
    if tileState e n != .free then trap0 s e .talloc f 0x01
    else
      let g := if e.g.region.isOpen then { e.g with region := { e.g.region with tallocs := e.g.region.tallocs ++ [n] } } else e.g
      putTile .talloc f s e (readS e.g f f.sa).toNat (readS e.g f f.sb).toNat .empty Tile.freed g

def execTset (f : Fields) (s : State) : Out :=
  let n := cmdTile f
  issue .tset f s (noTile n) never (fun e => e.g.region.isOpen) fun e =>
    let old := tileOf e.team n
    if old.st != .empty then trap0 s e .tset f 0x01
    else
      let geom := if f.sa.isNone then geometryOf old else (readS e.g f f.sa).toNat
      let place := if f.sb.isNone then placementOf old else (readS e.g f f.sb).toNat
      putTile .tset f s e geom place (if f.imm.getLsbD 8 then .ready else .empty) old e.g

/-- `tfree` waits for every command that has issued on the tile; inside a region it is deferred to Commit(). -/
def execTfree (f : Fields) (s : State) : Out :=
  let n := cmdTile f
  issue .tfree f s (noTile n)
    (fun e => tileState e n == .filling || tileState e n == .draining || (tileState e n != .free && tileUsed s e.g.team n)) never fun e =>
    if tileState e n == .free then trap0 s e .tfree f 0x01
    else if e.g.region.isOpen then
      finish e .tfree f s { e.g with region := { e.g.region with tfrees := e.g.region.tfrees ++ [n] } }
    else finish e .tfree f (setTeam s e.g.team (setTile e.team n Tile.freed)) e.g

def stateCode : TileState → Nat
  | .free => 0 | .empty => 1 | .filling => 2 | .ready => 3 | .draining => 4

def execTstat (f : Fields) (s : State) : Out :=
  let n := cmdTile f
  issue .tstat f s (noTile n) never never fun e =>
    let t := tileOf e.team n
    finish e .tstat f s
      (writeS e.g f.dst (BitVec.ofNat 64 (stateCode t.st + t.tag * 2 ^ 8 + t.rows * 2 ^ 16 + t.cols * 2 ^ 24 + t.chkValid.toNat * 2 ^ 32)))

/-! ### Translating an engine command's ranges (R146) -/

/-- How translating a command's ranges ends: in pages, in a wait for a walk, or in a fault of the sub-group. -/
inductive EngX where
  | ok (ts : List Trans)
  | wait (s : State)
  | stop (s : State)
deriving DecidableEq, Repr

/-- The first byte on each page of the `n` bytes from `va`. -/
def pagesOf (va : VAddr) (n : Nat) : List VAddr :=
  if n == 0 then []
  else
    let into := va.toNat % 2 ^ 16
    (List.range ((into + n - 1) / 2 ^ 16 + 1)).map (fun i => if i == 0 then va else vaByte va (i * 2 ^ 16 - into))

/-- One page: its translation, or a walk through the die's queue; a fault is one of the issuing sub-group at the instruction (R145). -/
def engPage (s : State) (e : Env) (kind : Access) (deny : Trans → Bool) (first v : VAddr) : EngX :=
  let straddle := v.toNat / 2 ^ 16 != first.toNat / 2 ^ 16
  match pageAt s e v.toNat with
  | some (.leaf t) => if permitted s kind t v.toNat && !deny t then .ok [t] else .stop (raise s e.gid e.node 0x08 e.pc v straddle)
  | _ => .wait (requestWalk s e kind v straddle false)

def engPages (s : State) (e : Env) (kind : Access) (deny : Trans → Bool) (first : VAddr) : List VAddr → EngX
  | [] => .ok []
  | v :: rest =>
    match engPage s e kind deny first v with
    | .ok t =>
      match engPages s e kind deny first rest with
      | .ok ts => .ok (t ++ ts)
      | r => r
    | r => r

/-- Every page that the segments touch, each a first byte and a length, is translated in order. -/
def engTranslate (s : State) (e : Env) (kind : Access) (deny : Trans → Bool) (segs : List (VAddr × Nat)) : EngX :=
  match segs with
  | [] => .ok []
  | (va, _) :: _ => engPages s e kind deny va (segs.flatMap (fun x => pagesOf x.1 x.2)).eraseDups

def allow : Trans → Bool := fun _ => false

/-- The contiguous range of a tile copy: first row's first byte to last row's last (R371). -/
def copyRange (va : VAddr) (t : Tile) (p : Nat) : List (VAddr × Nat) := [(va, (t.rows - 1) * p + rowBytes t)]

/-- The rows of a rectangle in memory. -/
def rowSegs (va : VAddr) (rows pitch len : Nat) : List (VAddr × Nat) := (List.range rows).map (fun i => (vaByte va (i * pitch), len))

/-! ### Entering a queue (R75, R364) -/

/-- The queue has no free entry (R104). -/
def queueFull (q : Nat) (e : Env) : Bool := decide ((e.g.queues.getD q []).length ≥ 16)

/-- The command's tag. -/
def cmdTag (e : Env) (f : Fields) : BitVec 16 := (readS e.g f f.sc).setWidth 16

/-- The value of the register that a selector names, or zero (R63). -/
def operandOf (e : Env) (f : Fields) (x : Sel) : W64 := if x.isS then readS e.g f x else 0

/-- A command takes an entry. -/
def pushCmd (e : Env) (op : Op) (f : Fields) (q : Nat) (vd va vb : W64) (pages : List Trans) (waits : Bool) (payload : Nat) : Group :=
  let c : Command :=
    { seq := e.g.seq, pc := e.pc, node := e.node, op := op, fields := f, vd := vd, va := va, vb := vb, tag := cmdTag e f, pages := pages.eraseDups
      owed := false, region := e.g.region.isOpen, waitCommit := waits, popped := false, st := .queued, status := 0, payload := payload, progress := 0
      holding := false, tilesAt := [], buf := [], bad := [], ops := [f.dst, f.sa, f.sb, f.sc].map (operandOf e f), before := [] }
  { e.g with queues := e.g.queues.modify q (fun l => l ++ [c]), seq := e.g.seq + 1 }

/-- An engine command goes on with the pages of its ranges; the issue of one that faults there is charged (R256). -/
def withPages (e : Env) (op : Op) (f : Fields) (x : EngX) (k : List Trans → Out) : Out :=
  match x with
  | .ok ts => k ts
  | .wait s => .next s
  | .stop s => .next (account s e op f)

/-- The end of an engine command's issue: it enters its queue when its ranges translate. -/
def forkCmd (e : Env) (op : Op) (f : Fields) (s : State) (x : EngX) (commits : Bool) (g : List Trans → Group) : Out :=
  withPages e op f x fun ts => if commits then finishCommitting e op f s (g ts) else finish e op f s (g ts)

/-! ### The copy engine's commands (R370 to R372) -/

/-- P of a command: the register, or RowBytes. -/
def pitchOf (e : Env) (f : Fields) (row : Nat) : Nat :=
  let p := (readS e.g f f.sb).toNat
  if p == 0 then row else p

def badPitch (p row : Nat) : Bool := decide (p < row) || decide (p ≥ 2 ^ 32)

/-- A fill's target is in a state in which it waits (R171). -/
def fillBlocked (s : State) (e : Env) (n : Nat) : Bool :=
  match tileState e n with
  | .filling | .draining => true
  | .ready => tileRead s e.g.team n
  | _ => false

def execCpyIn (f : Fields) (s : State) : Out :=
  let n := cmdTile f
  issue .cpyIn f s (noTile n) (fun e => queueFull 1 e || fillBlocked s e n) (fun e => e.g.region.isOpen && tileState e n == .ready) fun e =>
    let t := tileOf e.team n
    let p := pitchOf e f (rowBytes t)
    let va := e.va (readS e.g f f.sa)
    if t.st == .free then trap0 s e .cpyIn f 0x01
    else if badPitch p (rowBytes t) then trap0 s e .cpyIn f 0x01
    else
      forkCmd e .cpyIn f s (engTranslate s e .engineRead allow (copyRange va t p)) false
        (fun ts => pushCmd e .cpyIn f 1 0 (readS e.g f f.sa) (BitVec.ofNat 64 p) ts false 0)

def execCpyOut (f : Fields) (s : State) : Out :=
  let n := cmdTile f
  issue .cpyOut f s (noTile n) (fun e => queueFull 1 e || tileState e n != .ready) never fun e =>
    let t := tileOf e.team n
    let p := pitchOf e f (rowBytes t)
    let va := e.va (readS e.g f f.sa)
    commitFirst s e fun s e =>
      if badPitch p (rowBytes t) then trap0 s e .cpyOut f 0x01
      else
        forkCmd e .cpyOut f s (engTranslate s e .engineWrite allow (copyRange va t p)) true
          (fun ts => pushCmd e .cpyOut f 1 0 (readS e.g f f.sa) (BitVec.ofNat 64 p) ts false 0)

def execCpyMm (f : Fields) (s : State) : Out :=
  issue .cpyMm f s never (queueFull 1) never fun e =>
    let len := if f.sb.isS then (readS e.g f f.sb).toNat else f.imm.toNat
    let d := readS e.g f f.dst
    let a := readS e.g f f.sa
    commitFirst s e fun s e =>
      if len > 2 ^ 32 - 1 || a.toNat + len > 2 ^ 64 || d.toNat + len > 2 ^ 64 then trap0 s e .cpyMm f 0x01
      else
        withPages e .cpyMm f (engTranslate s e .engineRead allow [(e.va a, len)]) fun src =>
          forkCmd e .cpyMm f s (engTranslate s e .engineWrite allow [(e.va d, len)]) true
            (fun ts => pushCmd e .cpyMm f 1 d a (BitVec.ofNat 64 len) (src ++ ts) false 0)

/-! ### The matrix engine's commands (R373 to R377) -/

/-- The shape of an `mma`: M, N and the two values of K. -/
def mmaShape (lay : Nat) (a b : Tile) : Nat × Nat × Nat × Nat :=
  let (m, ka) := if bitAt lay 0 then (a.cols, a.rows) else (a.rows, a.cols)
  let (n, kb) := if bitAt lay 1 then (b.cols, b.rows) else (b.rows, b.cols)
  (m, n, ka, kb)

/-- The block size of a format (R42). -/
def kBlock (t : Ty) : Nat := if t.isSX then 16 else if t == .bf16 then 4 else 1

/-- The layout or the shape breaks R373. -/
def mmaIllegal (t : Ty) (lay : Nat) (a b : Tile) : Bool :=
  let (_, _, ka, kb) := mmaShape lay a b
  bits lay 63 2 != 0 || ka != kb || ka % kBlock t != 0 || (t.isSX && bits lay 1 0 != 0)

def execMma (f : Fields) (s : State) : Out :=
  issue .mma f s (fun e => noAcc f e || noTile (tileA f) e || noTile (tileB f) e)
    (fun e => queueFull 0 e || tileState e (tileA f) != .ready || tileState e (tileB f) != .ready) never fun e =>
    let a := tileOf e.team (tileA f)
    let b := tileOf e.team (tileB f)
    let lay := readS e.g f f.sa
    if a.tag != (tagOf f.ty).toNat || b.tag != (tagOf f.ty).toNat then trap0 s e .mma f 0x02
    else if mmaIllegal f.ty lay.toNat a b then trap0 s e .mma f 0x01
    else finish e .mma f s (pushCmd e .mma f 0 0 lay 0 [] false 0)

def execMzero (f : Fields) (s : State) : Out :=
  issue .mzero f s (noAcc f) (queueFull 0) never fun e => finish e .mzero f s (pushCmd e .mzero f 0 0 0 0 [] false 0)

/-- A rectangle of an accumulator tile (R376). -/
structure Rect where
  row0 : Nat
  col0 : Nat
  rows : Nat
  cols : Nat
  pitch : Nat
deriving DecidableEq, Repr

/-- The rectangle of a region word; none named means the whole tile. -/
def rectOf (f : Fields) (w : Nat) : Rect :=
  let r : Rect :=
    if f.sb.isNone then { row0 := 0, col0 := 0, rows := 64, cols := 64, pitch := 0 }
    else { row0 := bits w 5 0, col0 := bits w 13 8, rows := bits w 21 16 + 1, cols := bits w 29 24 + 1, pitch := bits w 63 32 }
  { r with pitch := if r.pitch == 0 then r.cols * 4 else r.pitch }

/-- The region word or the address breaks R376. -/
def rectIllegal (f : Fields) (w addr : Nat) : Bool :=
  let r := rectOf f w
  (!f.sb.isNone && (bits w 31 30 != 0 || bits w 23 22 != 0 || bits w 15 14 != 0 || bits w 7 6 != 0)) ||
  decide (r.row0 + r.rows > 64) || decide (r.col0 + r.cols > 64) || (!toTile f && addr % 4 != 0) ||
  r.pitch % 4 != 0 || decide (r.pitch < r.cols * 4)

/-- The counterpart tile is not tagged F32. -/
def rectFormat (e : Env) (f : Fields) : Bool := toTile f && (tileOf e.team (tileA f)).tag != 3

/-- The counterpart tile is too small. -/
def rectSmall (e : Env) (f : Fields) (r : Rect) : Bool :=
  toTile f && (decide ((tileOf e.team (tileA f)).rows < r.rows) || decide ((tileOf e.team (tileA f)).cols < r.cols))

/-- The memory of a rectangle: its rows, when the counterpart is memory. -/
def rectSegs (e : Env) (f : Fields) (r : Rect) : List (VAddr × Nat) :=
  if toTile f then [] else rowSegs (e.va (readS e.g f f.sa)) r.rows r.pitch (r.cols * 4)

def execMload (f : Fields) (s : State) : Out :=
  issue .mload f s (fun e => noAcc f e || (toTile f && noTile (tileA f) e))
    (fun e => queueFull 0 e || (toTile f && tileState e (tileA f) != .ready)) never fun e =>
    let w := readS e.g f f.sb
    let a := readS e.g f f.sa
    let r := rectOf f w.toNat
    if rectFormat e f then trap0 s e .mload f 0x02
    else if rectIllegal f w.toNat a.toNat || rectSmall e f r then trap0 s e .mload f 0x01
    else
      forkCmd e .mload f s (engTranslate s e .engineRead allow (rectSegs e f r)) false (fun ts => pushCmd e .mload f 0 0 a w ts false 0)

/-- A HOST page with CACHE 2, where no atomic is performed (R361, R377). -/
def hostUc (t : Trans) : Bool := t.kind == .host && t.cache == 2

/-- `mdrain` and `mdrain.add`: to memory they commit; to a tile they wait for Commit() inside a region. -/
def mdrainOp (op : Op) (f : Fields) (s : State) (access : Access) (deny : Trans → Bool) : Out :=
  issue op f s (fun e => noAcc f e || (toTile f && noTile (tileA f) e)) (queueFull 0) never fun e =>
    let w := readS e.g f f.sb
    let a := readS e.g f f.sa
    let r := rectOf f w.toNat
    if toTile f then
      if tileState e (tileA f) == .free then trap0 s e op f 0x01
      else if rectFormat e f then trap0 s e op f 0x02
      else if rectIllegal f w.toNat a.toNat || rectSmall e f r then trap0 s e op f 0x01
      else finish e op f s (pushCmd e op f 0 0 a w [] e.g.region.isOpen 0)
    else
      commitFirst s e fun s e =>
        if rectIllegal f w.toNat a.toNat then trap0 s e op f 0x01
        else forkCmd e op f s (engTranslate s e access deny (rectSegs e f r)) true (fun ts => pushCmd e op f 0 0 a w ts false 0)

def execMdrain (f : Fields) (s : State) : Out := mdrainOp .mdrain f s .engineWrite allow
/-- `mdrain.add` to memory needs R and W. -/
def execMdrainAdd (f : Fields) (s : State) : Out := mdrainOp .mdrainAdd f s .engineWrite (fun t => !t.r || hostUc t)

/-! ### `stash` and `restore` (R231, R378) -/

/-- Block bytes of a mode: W7, or W3 when AUX is 1. -/
def blockBytes (f : Fields) : Nat := if f.aux == 1 then 32 else 64

/-- The blocks of a tile. -/
def tileBlocks (t : Tile) : Nat := (t.rows * t.cols + 63) / 64

def stashLen (e : Env) (f : Fields) : Nat := if f.sb.isS then (readS e.g f f.sb).toNat else bits f.imm.toNat 15 0

/-- The length or the base breaks R231. -/
def stashBad (e : Env) (f : Fields) (t : Tile) : Bool :=
  stashLen e f != tileBlocks t * blockBytes f || (readS e.g f f.sa).toNat % blockBytes f != 0

def notStash (t : Trans) : Bool := t.kind != .stash

def stashTag (t : Tile) : Bool := t.tag == 3 || t.tag == 4

def execStash (f : Fields) (s : State) : Out :=
  let n := tileS f
  issue .stash f s (noTile n) (fun e => queueFull 2 e || tileState e n != .ready) never fun e =>
    let t := tileOf e.team n
    if !stashTag t then trap0 s e .stash f 0x02
    else
      commitFirst s e fun s e =>
        let a := readS e.g f f.sa
        if stashBad e f t then trap0 s e .stash f 0x0D
        else
          forkCmd e .stash f s (engTranslate s e .engineWrite notStash [(e.va a, stashLen e f)]) true
            (fun ts => pushCmd e .stash f 2 0 a (BitVec.ofNat 64 (stashLen e f)) ts false 0)

def execRestore (f : Fields) (s : State) : Out :=
  let n := tileS f
  issue .restore f s (noTile n) (fun e => queueFull 2 e || fillBlocked s e n) never fun e =>
    let t := tileOf e.team n
    let a := readS e.g f f.sa
    if t.st == .free then trap0 s e .restore f 0x01
    else if !stashTag t then trap0 s e .restore f 0x02
    else if e.g.region.isOpen && t.st == .ready then trap0 s e .restore f 0x03
    else if stashBad e f t then trap0 s e .restore f 0x0D
    else
      forkCmd e .restore f s (engTranslate s e .engineRead notStash [(e.va a, stashLen e f)]) false
        (fun ts => pushCmd e .restore f 2 0 a (BitVec.ofNat 64 (stashLen e f)) ts false 0)

/-! ### Array commands (R379 to R382) -/

/-- The array that sA names, when its page is a SCARAB page. -/
def arrayAt (ts : List Trans) (va : VAddr) : Nat :=
  match ts with
  | t :: _ => arrayIndex (t.loc va.toNat).addr
  | [] => 0

def notScarab (t : Trans) : Bool := t.kind != .scarab

/-- The window's page is translated. -/
def windowX (s : State) (e : Env) (f : Fields) (kind : Access) : EngX :=
  engTranslate s e kind notScarab [(e.va (readS e.g f f.sa), 1)]

/-- An array command travels on the engine channel (R379). -/
def sendArray (s : State) (core arr : Nat) (c : ArrayCmd) : State :=
  let a := arrayOf s arr
  let c : ArrayCmd := match c with
    | .schedule x => .schedule { x with arrival := s.nextId }
    | c => c
  noteSend { setArray s arr { a with waiting := a.waiting ++ [c] } with nextId := s.nextId + 1 } core 2 (arrayDest (arr / 64))

/-- A command to an array is held at its sender: a die-to-die link on its way trains (R240). -/
def arrayHeld (s : State) (core arr : Nat) : Bool := routeHeld s (dieOfCore core) (dieOfCore (arr / 64))

/-- A configuration command: sent at issue, with no queue entry (R380). -/
def configOp (op : Op) (f : Fields) (s : State) (c : ArrayCmd) : Out :=
  issuePlain op f s fun e =>
    withPages e op f (windowX s e f .engineWrite) fun ts =>
      let arr := arrayAt ts (e.va (readS e.g f f.sa))
      if arrayHeld s e.core arr then .next s else finish e op f (sendArray s e.core arr c) e.g

def execXcfg (f : Fields) (s : State) : Out := configOp .xcfg f s (.xcfg (bits f.imm.toNat 1 0))
def execXpool (f : Fields) (s : State) : Out :=
  configOp .xpool f s (.xpool (bits f.imm.toNat 17 17) (bits f.imm.toNat 9 0) (bits f.imm.toNat 16 10))
def execXration (f : Fields) (s : State) : Out := configOp .xration f s (.xration (bits f.imm.toNat 15 0))

/-- A schedule before its fetch. -/
def bareSchedule (e : Env) : Schedule :=
  { gid := e.gid, cmd := e.g.seq, ctx := e.team.ctx, rom := none, gates := [], lo := 0, hi := 0, passes := 0, scrub := false, arrival := 0
    words := none }

/-- A schedule command enters q3 and waits at its array's sequencer. It keeps the pages of its words and of its window (R151), words first; its
payload is the bytes that its fetch reads. -/
def forkSchedule (e : Env) (op : Op) (f : Fields) (s : State) (ws ts : List Trans) (vb : W64) (sch : Schedule) (len : Nat) : Out :=
  let arr := arrayAt ws (e.va (readS e.g f f.sa))
  if arrayHeld s e.core arr then .next s
  else finishCommitting e op f (sendArray s e.core arr (.schedule sch)) (pushCmd e op f 3 (BitVec.ofNat 64 arr) (readS e.g f f.sa) vb (ts ++ ws) false len)

/-- The bytes of a schedule whose header word is `h` (R381). -/
def scheduleLen (h : Nat) : Nat :=
  let n := bits h 61 51
  if n == 0 || n > 1024 then 8 else 8 + 8 * n

/-- The places of the header word. -/
def headerLocs (ts : List Trans) (va : VAddr) : List Loc :=
  match ts with
  | t :: _ => (List.range 8).map (fun i => t.loc (va.toNat + i))
  | [] => []

/-- The header word as the core reads it to size the range: the group's own committed stores first (R180, R381). -/
def headerWord (s : State) (g : Group) (ls : List Loc) : Nat :=
  leValue (ls.map (fun l => (forwarded g g.seq l).getD (newestByte s l.space l.addr)))

/-- The core's read of the header waits: for an earlier acquire or pop of the group (R187, R197), an atomic of the group on it, a hold, a pin, a port that trains, or admission to the cells. -/
def headerWaits (s : State) (e : Env) (ls : List Loc) : Option State :=
  if acquirePending e.g e.g.seq || atomBefore e.g e.g.seq false ls || ownFlight s e.core ls then some s else ls.findSome? (readHeld s e.core e.team.ctx e.g.team)

def execXrun (f : Fields) (s : State) : Out :=
  issue .xrun f s never (queueFull 3) never fun e =>
    commitFirst s e fun s e =>
      let b := readS e.g f f.sb
      let va := e.va b
      withPages e .xrun f (windowX s e f .engineWrite) fun ws =>
        if f.imm.getLsbD 0 then forkSchedule e .xrun f s ws [] b { bareSchedule e with rom := some b } 0
        else if b.toNat % 8 != 0 then trap0 s e .xrun f 0x01
        else
          withPages e .xrun f (engTranslate s e .engineRead allow [(va, 8)]) fun hs =>
            let ls := headerLocs hs va
            match headerWaits s e ls with
            | some s => .next s
            | none =>
              let len := scheduleLen (headerWord s e.g ls)
              withPages e .xrun f (engTranslate s e .engineRead allow [(va, len)]) fun ts =>
                forkSchedule e .xrun f s ws ts b (bareSchedule e) len

def execXgate (f : Fields) (s : State) : Out :=
  issue .xgate f s never (queueFull 3) never fun e =>
    commitFirst s e fun s e =>
      let b := readS e.g f f.sb
      withPages e .xgate f (windowX s e f .engineWrite) fun ws =>
        forkSchedule e .xgate f s ws [] b
          { bareSchedule e with gates := [b], lo := bits f.imm.toNat 9 0, hi := bits f.imm.toNat 19 10, passes := 1, scrub := f.imm.getLsbD 20 } 0

/-- A configuration command waits at the sequencer. -/
def configWaits (a : ArrayUnit) : Bool :=
  a.waiting.any (fun c =>
    match c with
    | .schedule _ => false
    | _ => true)

/-- What `xstat` reads (R382). -/
def xstatValue (a : ArrayUnit) (sel axis idx : Nat) : Nat :=
  let queued := (a.waiting.filter (fun c =>
    match c with
    | .schedule _ => true
    | _ => false)).length
  match sel with
  | 0 => a.cfg.toNat
  | 1 =>
    let st := match a.st with
      | .idle => 0
      | .running => 1
      | .paused => 2
      | .suspended => 3
    let (gate, pass) := match a.run with
      | some r => (r.gate, r.pass)
      | none => (0, 0)
    st + queued % 256 * 2 ^ 8 + pass % 256 * 2 ^ 21 + gate % 2048 * 2 ^ 29
  | 2 =>
    match (if axis == 0 then a.map0 else a.map1).getD idx none with
    | some l => l % 1024
    | none => 2 ^ 16
  | _ => (a.wear.find (axis * 1024 + idx)).getD 0

/-- `xstat` reads at a gate boundary; a configuration sent before it to an array that runs nothing is in effect first. -/
def execXstat (f : Fields) (s : State) : Out :=
  issuePlain .xstat f s fun e =>
    withPages e .xstat f (windowX s e f .engineRead) fun ts =>
      let a := arrayOf s (arrayAt ts (e.va (readS e.g f f.sa)))
      if arrayHeld s e.core (arrayAt ts (e.va (readS e.g f f.sa))) || (a.run.isNone && configWaits a) then .next s
      else finish e .xstat f s (writeS e.g f.dst (BitVec.ofNat 64 (xstatValue a (bits f.imm.toNat 1 0) (bits f.imm.toNat 2 2) (bits f.imm.toNat 12 3))))

/-! ### `post` (R73, R74, R383) -/

/-- The four registers that `post` reads. -/
def postReg (g : Group) (x : Sel) (i : Nat) : W64 :=
  match x with
  | .s n => (sreg g (n.val + i)).val
  | _ => 0

/-- `post`: ARG0 is translated inside the region, with no permission needed; then Commit(). The record is kept with its command: KID's
address in `va`, ARG0 in `vb`, the home die as the payload, ARG1 and ARG2 in the operand buffer. -/
def execPost (f : Fields) (s : State) : Out :=
  issue .post f s (fun e => match f.sa with
    | .s n => decide (n.val + 3 ≥ e.g.s)
    | _ => true) (queueFull 4) never fun e =>
    let kid := postReg e.g f.sa 0
    let arg0 := postReg e.g f.sa 1
    let v := e.va arg0
    if kid.toNat % 128 != 0 then trap0 s e .post f 0x01
    else
      match pageAt s e v.toNat with
      | some (.leaf t) =>
        commitFirst s e fun s e =>
          let l := t.loc v.toNat
          let g := pushCmd e .post f 4 0 kid arg0 [t] false (homeDie l.space l.addr)
          let args : Memory := Memory.writeBytes (Memory.writeBytes [] 0 (leBytes 8 (postReg e.g f.sa 2).toNat)) 8 (leBytes 8 (postReg e.g f.sa 3).toNat)
          let g := { g with queues := g.queues.modify 4 (fun q => q.modify (q.length - 1) (fun c => { c with buf := args })) }
          finishCommitting e .post f s g
      | _ => .next (requestWalk s e .engineRead v false false)

end Sys2Proof.Machine
end

