-- ==== Sys2Proof/Machine/Engines.lean ====
section
/-! DEFINITION. How the matrix engine and the copy engine carry out their commands (spec/21_ref_engines.md R365, R370 to R378, spec/10_tile.md
R170, R172, R175, R176, spec/02_numbers.md R28, R40, R41, spec/13_stash.md R224 to R235, spec/11_ordering.md R196 to R201). A START step takes a
command up; each COMPLETE step carries it on by a row, block or sector, and the last one delivers its record. -/

namespace Sys2Proof.Machine

/-! ### The queues -/

/-- The oldest command of a queue that has not completed (R198). -/
def headCmd (g : Group) (q : Nat) : Option Command := (g.queues.getD q []).find? (fun c => c.st != .done)

/-- Applies `fn` to a command. -/
def onCmd (s : State) (gid q seq : Nat) (fn : Command → Command) : State :=
  onGroup s gid (fun g => { g with queues := g.queues.modify q (fun l => l.map (fun c => if c.seq == seq then fn c else c)) })

/-- The command completes: its record is delivered (R76), and tiles that only it still used may become FREE. -/
def finishCmd (s : State) (gid q : Nat) (c : Command) (status payload : Nat) : State :=
  (fun s => ((s.groups.find gid).map (fun g => freeTiles s g.team)).getD s) <| onCmd s gid q c.seq (fun c => { c with st := .done, status := status, payload := payload, tilesAt := [], buf := [], bad := [], before := [] })

/-- A command that another group or this one has started in these queues on the core (R14). -/
def engineBusy (s : State) (core : Nat) (qs : List Nat) : Bool :=
  s.groups.any (fun e => ((s.teams.find e.2.team).any (fun t => t.core == core)) &&
    qs.any (fun q => (e.2.queues.getD q []).any (fun c => c.st == .started)))

/-- The fork: earlier stores have left the queue and earlier acquires have read (R187, R196); the context's work goes on, and a `post` also
while the supply fails (R61). -/
def forkReady (s : State) (g : Group) (team : Team) (c : Command) : Bool :=
  !g.storeQ.any (fun x => !x.held && decide (x.seq < c.seq)) && !acquirePending g c.seq && !c.waitCommit && !c.owed && c.st == .queued &&
  (match s.contexts.find team.ctx with
   | some x => ctxIssues x || (s.failing && c.op == .post)
   | none => false)

/-- A queue's next command with its group and team. -/
structure Job where
  gid : Nat
  q : Nat
  g : Group
  team : Team
  c : Command
deriving DecidableEq, Repr

/-- The command that a step is about. -/
def jobOf (s : State) (gid q : Nat) : Option Job :=
  match s.groups.find gid with
  | none => none
  | some g =>
    match headCmd g q, s.teams.find g.team with
    | some c, some team => some { gid := gid, q := q, g := g, team := team, c := c }
    | _, _ => none

/-- A unit of a halting context stops now: its record has this CYCLE (R50). -/
def stampStop (s : State) (ctx core source : Nat) : State :=
  match s.contexts.find ctx with
  | some c => setCtx s ctx { c with
      held := c.held.map (fun h => if h.1 == core && h.2.1 == source then (core, source, (coreOf s core).cycle) else h) }
  | none => s

/-- A started command goes on: its context is not halted, or it is an `mdrain.add`, which completes (R48). -/
def cmdRuns (s : State) (j : Job) : Bool :=
  j.c.st == .started && ((s.contexts.find j.team.ctx).any ctxIssues || j.c.op == .mdrainAdd)

/-! ### Errors (R365) -/

/-- The issuing sub-group, when it still issues. -/
def liveNode (g : Group) (n : Nat) : Option Nat := (subOf g (resolveNode g n)).bind (fun x => if x.st == .exited then none else some x.node)

/-- A cause raised before the sub-group's next instruction, or the halt line when it has exited. -/
def deferError (s : State) (gid node cause : Nat) (addr : VAddr) : State :=
  match s.groups.find gid with
  | none => s
  | some g =>
    match liveNode g node with
    | some n => setGroup s gid { g with deferred := g.deferred ++ [(n, cause, addr)] }
    | none =>
      match s.teams.find g.team with
      | none => s
      | some team =>
        match s.contexts.find team.ctx with
        | none => s
        | some ctx =>
          let ev : Event :=
            { cause := cause, gid := some gid, die := dieOfCore team.core, core := logicalCore s team.core, team := team.index, group := g.num
              flags := stopFlags g.region.isOpen false false false, reentry := g.region.reentry, pc := 0, addr := addr
              cycle := (coreOf s team.core).cycle }
          setCtx s team.ctx { ctx with raised := ctx.raised ++ [ev] }

/-- An error of a non-committing command: a rollback trigger in its region, else the status and the deferred cause. -/
def cmdError (s : State) (j : Job) (status cause payload : Nat) (addr : VAddr) : State :=
  if j.c.region && j.g.region.isOpen then rollTrigger s j.gid (resolveNode j.g j.c.node)
  else deferError (finishCmd s j.gid j.q j.c status payload) j.gid j.c.node cause addr

/-! ### Issuing a recorded command again (R63) -/

/-- A stretch of memory that a rebuilt command reaches, with the access it makes and the pages its rule denies. -/
structure Reach where
  kind : Access
  deny : Trans → Bool
  segs : List (VAddr × Nat)

/-- The memory that a rebuilt command reaches (R146, R231, R377). -/
def workSegs (team : Team) (c : Command) : List Reach :=
  let va : W64 → VAddr := fun x => BitVec.ofNat 80 (team.hi * 2 ^ 64 + x.toNat)
  let t := tileOf team (cmdTile c.fields)
  let r := rectOf c.fields c.vb.toNat
  let rect := if toTile c.fields then [] else rowSegs (va c.va) r.rows r.pitch (r.cols * 4)
  match c.op with
  | .cpyIn => [⟨.engineRead, allow, copyRange (va c.va) t c.vb.toNat⟩]
  | .cpyOut => [⟨.engineWrite, allow, copyRange (va c.va) t c.vb.toNat⟩]
  | .cpyMm => [⟨.engineRead, allow, [(va c.va, c.vb.toNat)]⟩, ⟨.engineWrite, allow, [(va c.vd, c.vb.toNat)]⟩]
  | .mload => [⟨.engineRead, allow, rect⟩]
  | .mdrain => [⟨.engineWrite, allow, rect⟩]
  | .mdrainAdd => [⟨.engineWrite, fun p => !p.r || hostUc p, rect⟩]
  | .stash => [⟨.engineWrite, notStash, [(va c.va, c.vb.toNat)]⟩]
  | .restore => [⟨.engineRead, notStash, [(va c.va, c.vb.toNat)]⟩]
  | .xrun => (if c.fields.imm.getLsbD 0 then [] else [⟨.engineRead, allow, [(va c.vb, 8)]⟩]) ++ [⟨.engineWrite, notScarab, [(va c.va, 1)]⟩]
  | .xgate => [⟨.engineWrite, notScarab, [(va c.va, 1)]⟩]
  | _ => []

/-- How the ranges of a command that is issued again translate (R146): its pages with the bytes that a schedule's fetch reads, or the first
address that fails, the access, and what its walk found, or a wait for the read of a schedule's header. -/
inductive Reissue where
  | ok (pages : List Trans) (len : Nat)
  | fails (kind : Access) (va : VAddr) (found : WalkEnd)
  | waits (s : State)
deriving DecidableEq, Repr

/-- The pages of some stretches, in order, up to the first that is not present, not permitted or denied. -/
def workPages (s : State) (ctx : Nat) (rs : List Reach) : Reissue :=
  (rs.flatMap (fun x => (x.segs.flatMap (fun y => pagesOf y.1 y.2)).map (fun v => (x, v)))).foldl (fun r y =>
    match r with
    | .ok l n =>
      match walk s ctx y.2.toNat with
      | .leaf t => if permitted s y.1.kind t y.2.toNat && !y.1.deny t then .ok (l ++ [t]) n else .fails y.1.kind y.2 (.leaf t)
      | w => .fails y.1.kind y.2 w
    | r => r) (.ok [] 0)

/-- The translations of a rebuilt command of a team, from the tables then in force; a schedule's header, which the core reads as at its first issue,
sizes the range that follows it (R63, R216, R381). -/
def translateAgain (s : State) (id : Nat) (team : Team) (c : Command) : Reissue :=
  match workPages s team.ctx (workSegs team c) with
  | .ok ts _ =>
    if c.op == .xrun && !c.fields.imm.getLsbD 0 then
      let va : VAddr := BitVec.ofNat 80 (team.hi * 2 ^ 64 + c.vb.toNat)
      let ls := headerLocs ts va
      match ls.findSome? (readHeld s team.core team.ctx id) with
      | some s => .waits s
      | none =>
        let n := scheduleLen (leValue (ls.map (fun l => newestByte s l.space l.addr)))
        match workPages s team.ctx [⟨.engineRead, allow, [(va, n)]⟩] with
        | .ok us _ => .ok (us ++ ts).eraseDups n
        | r => r
    else .ok ts.eraseDups 0
  | r => r

/-- The schedule of a command that is issued again, before its fetch (R63). -/
def scheduleAgain (gid : Nat) (ctx : Nat) (c : Command) : Schedule :=
  let base : Schedule :=
    { gid := gid, cmd := c.seq, ctx := ctx, rom := none, gates := [], lo := 0, hi := 0, passes := 0, scrub := false, arrival := 0, words := none }
  let x := c.ops.getD 2 0
  if c.op == .xgate then
    { base with gates := [x], lo := bits c.fields.imm.toNat 9 0, hi := bits c.fields.imm.toNat 19 10, passes := 1, scrub := c.fields.imm.getLsbD 20 }
  else { base with rom := if c.fields.imm.getLsbD 0 then some x else none }

/-- The command is in its queue with its pages; a schedule is sent to the array of its window. -/
def issueAgain (s : State) (gid q : Nat) (team : Team) (c : Command) (ts : List Trans) (len : Nat) : State :=
  let arr := match ts.find? (·.covers team.ctx (BitVec.ofNat 80 (team.hi * 2 ^ 64 + c.va.toNat) : VAddr).toNat) with
    | some t => arrayIndex (t.loc (team.hi * 2 ^ 64 + c.va.toNat)).addr
    | none => 0
  let s := onCmd s gid q c.seq (fun c => { c with owed := false, pages := ts, payload := len, vd := if q == 3 then BitVec.ofNat 64 arr else c.vd })
  if q == 3 then sendArray s team.core arr (.schedule (scheduleAgain gid team.ctx c)) else s

/-- The command takes no entry: its instruction has faulted. -/
def dropOwed (s : State) (gid q seq : Nat) : State :=
  onGroup s gid (fun g => { g with queues := g.queues.modify q (fun l => l.filter (fun c => !(c.owed && c.seq == seq))) })

/-- A sub-group of the group is FAULT_PARKED on the page of an address. -/
def parkedAt (g : Group) (va : VAddr) : Bool :=
  g.subs.any (fun x => match x.st with
    | .parked a _ => a.toNat / 2 ^ 16 == va.toNat / 2 ^ 16
    | _ => false)

/-- A fault of a command that is issued again is one of its group (R63, R102, R119, R146): an absent page parks the group's first RUNNABLE
sub-group, and the command is tried again after the resolution; any other failure raises its cause in the first that has not exited, and the
command takes no entry. The record names no sub-group, so which one it is is the model's choice (log 70). -/
def faultAgain (s : State) (gid q : Nat) (g : Group) (team : Team) (c : Command) (kind : Access) (va : VAddr) : WalkEnd → State
  | .absent level =>
    match g.subs.find? (fun x => x.st == .runnable && x.handler.isNone) with
    | some x => if team.evicting || parkedAt g va then s else notPresent s gid x.node level kind va false false
    | none => s
  | .beyond => s
  | .poisoned => deferError (dropOwed s gid q c.seq) gid 1 0x0B va
  | .malformed | .leaf _ => deferError (dropOwed s gid q c.seq) gid 1 0x08 va

/-- A recorded command is issued again, in a group whose region is OPEN too: it was issued before that region (R63, R235). -/
def reissue (s : State) (gid q seq : Nat) : State :=
  match s.groups.find gid with
  | none => s
  | some g =>
    match (g.queues.getD q []).find? (fun c => c.owed && c.seq == seq), s.teams.find g.team with
    | some c, some team =>
      match translateAgain s g.team team c with
      | .ok ts len => issueAgain s gid q team c ts len
      | .fails kind va found => faultAgain s gid q g team c kind va found
      | .waits s => s
    | _, _ => s

/-- The recorded commands of a group that are still to be issued again, oldest first in each queue. -/
def reissueGroup (s : State) (gid : Nat) : State :=
  match s.groups.find gid with
  | none => s
  | some g =>
    (g.queues.mapIdx (fun q l => (l.filter (·.owed)).map (fun c => (q, c.seq)))).flatten.foldl (fun s x => reissue s gid x.1 x.2) s

/-- A page's fault has failed: no command that waits for it is issued (R149). -/
def failOwed (s : State) (gid page : Nat) : State :=
  match s.groups.find gid with
  | none => s
  | some g =>
    match s.teams.find g.team with
    | none => s
    | some team =>
      let waits : Command → Bool := fun c => c.owed &&
        (match translateAgain s g.team team c with
         | .fails _ va (.absent _) => va.toNat / 2 ^ 16 == page
         | _ => false)
      setGroup s gid { g with queues := g.queues.map (fun l => l.filter (fun c => !waits c)) }

/-! ### Memory at the engines -/

/-- The place of an address of a command (R146). -/
def cmdLoc (j : Job) (va : VAddr) : Option Loc := (j.c.pages.find? (·.covers j.team.ctx va.toNat)).map (fun t => t.loc va.toNat)

/-- The places of `n` bytes from `va`. -/
def cmdLocs (j : Job) (va : VAddr) (n : Nat) : List Loc := (List.range n).filterMap (fun i => cmdLoc j (vaByte va i))

/-- The address of a command's operand. -/
def jobVa (j : Job) (x : W64) : VAddr := BitVec.ofNat 80 (j.team.hi * 2 ^ 64 + x.toNat)

/-- How an engine's read goes on: bytes, a wait, a failed port, or an uncorrectable error. -/
inductive EngRead where
  | ok (s : State) (bs : List Byte)
  | wait (s : State)
  | lost
  | bad (s : State)
deriving DecidableEq, Repr

inductive EngWrite where
  | ok (s : State)
  | wait (s : State)
  | lost
deriving DecidableEq, Repr

/-- What keeps an engine's access to these places waiting, with the state after its requests: a pin of another team, a write that stays on its way,
before which its own may not be performed (R181), a hold of any drain (R201), a port that trains (R240), or, where `reads` is what it reads, admission
to the cells (R216). -/
def engWaits (s : State) (j : Job) (write : Bool) (ls reads : List Loc) : Option State :=
  if ls.any (fun l => linePinned s l.space (l.addr / 256) (some j.g.team)) then some (countCore s j.team.core 8 j.team.ctx 1)
  else if (if write then flightStays s ls else ownFlight s j.team.core ls) || ls.any (fun l => lineHeld s l.space (l.addr / 256) 0 || portHeld s (dieOfCore j.team.core) l) then some s
  else if reads.any (fun l => sectorWaits s l.space (locSector l)) then some (askReads s reads)
  else none

/-- The messages that an engine's access sends: to every home slice, or peer, of its bytes (R135). -/
def noteEngine (s : State) (core : Nat) (ls : List Loc) : State :=
  ((ls.map sendsTo).eraseDups).foldl (fun s d => noteSend s core (if d.1 then 3 else 2) d.2) s

/-- The home slices take in what an engine reads: dirty copies recalled, copies filled where CACHE allocates, but for a sector that is bad (R160,
R162, R219). -/
def engFill (s : State) (j : Job) (ls : List Loc) : State :=
  (bySector ls).foldl (fun s l =>
    if direct l || sectorBad s l.space (locSector l) then s
    else if l.cache == 2 then recallCopies s l.space (locSector l)
    else fillHome s l.space (locSector l) l.comp)
    (noteEngine (landBefore s j.team.core ls) j.team.core ls)

/-- A read of the place finds its port failed, and no copy on this device (R242). -/
def engLost (s : State) (l : Loc) : Bool := peerFails s l && (direct l || (copyAt s .home l.space (locSector l)).isNone)

/-- An engine reads bytes at their home slices. -/
def engRead (s : State) (j : Job) (ls : List Loc) : EngRead :=
  match engWaits s j false ls ls with
  | some s => .wait s
  | none =>
    if ls.any (engLost s) then .lost
    else
      let s := fillCodes s j.team.ctx ls
      if ls.any (fun l => sectorBad s l.space (locSector l)) then .bad s
      else
        let s := engFill s j ls
        .ok s (ls.map (fun l => newestByte s l.space l.addr))

/-- The places of a write whose sectors it does not cover whole: their other bytes are read (R216). -/
def mergeReads (ls : List Loc) : List Loc :=
  ls.filter (fun l => decide ((ls.filter (fun k => k.space == l.space && locSector k == locSector l)).length < 64))

/-- Bytes that a command writes at their home slices; what they supersede is past its group once it has popped the record (R197). -/
def cmdWrite (s : State) (j : Job) (ws : List (Loc × Byte)) : State := performWrite s (.command j.gid j.c.seq) ws none

/-- An engine writes bytes at their home slices, behind every write that is on its way to them (R181, R197). -/
def engWrite (s : State) (j : Job) (ws : List (Loc × Byte)) : EngWrite :=
  let ls := ws.map (·.1)
  match engWaits s j true ls (mergeReads ls) with
  | some s => .wait s
  | none =>
    if ls.any (peerFails s) then .lost
    else .ok (cmdWrite (noteEngine (fillCodes (landOnto s ls) j.team.ctx (mergeReads ls)) j.team.core ls) j ws)

/-! ### Elements of tiles (R28, R29, R169) -/

/-- Team offset of element (i, j). -/
def elemAddr (t : Tile) (i j : Nat) : Nat := t.data + i * t.pitch + j * tagSize t.tag

/-- Team offset of the scale bytes of block `b` of row `i`. -/
def scaleAddr (t : Tile) (i b : Nat) : Nat := t.scale + 2 * (i * t.cols / 16 + b)

/-- The datum of an element. -/
def tileNum (m : Memory) (t : Tile) (i j : Nat) : FpNum :=
  let a := elemAddr t i j
  match tagSx t.tag with
  | some k => sxElem k (m.read (scaleAddr t i (j / 16))).toNat (m.read (scaleAddr t i (j / 16) + 1)).toNat (j % 16) (m.read a).toNat
  | none =>
    match t.tag with
    | 4 => fmtBF16.read false (m.readLe a 2)
    | 5 => fmtF16.read false (m.readLe a 2)
    | _ => fmtF32.read false (m.readLe a 4)

/-- A block's DRAM form from its element bytes and scales. -/
def sxPackBlock (m e shift : Nat) (el : Nat → Nat) : List Byte :=
  let w := m + 2
  let x := (List.range 16).foldl (fun a j =>
    let b := el j
    let spare := if j < 8 then bitAt e j else bitAt shift (j - 8)
    a + (spare.toNat + 2 * bits b 6 (7 - m) + (bitAt b 7).toNat * 2 ^ (m + 1)) * 2 ^ (w * j)) 0
  leBytes (2 * w) x

/-- The element byte `j` of a block in DRAM form. -/
def sxUnpackElem (m x j : Nat) : Nat :=
  let fld := bits x ((m + 2) * j + m + 1) ((m + 2) * j)
  (bitAt fld (m + 1)).toNat * 128 + bits fld m 1 * 2 ^ (7 - m)

/-- E and the shift byte of a block in DRAM form. -/
def sxUnpackScale (m x lo : Nat) : Nat := (List.range 8).foldl (fun a j => a + (bitAt x ((m + 2) * (lo + j))).toNat * 2 ^ j) 0

/-- A row in memory form (R370). -/
def rowOut (m : Memory) (t : Tile) (i : Nat) : List Byte :=
  match tagSx t.tag with
  | some k =>
    (List.range (t.cols / 16)).flatMap (fun b =>
      sxPackBlock k (m.read (scaleAddr t i b)).toNat (m.read (scaleAddr t i b + 1)).toNat (fun j => (m.read (elemAddr t i (16 * b + j))).toNat))
  | none => m.readBytes (elemAddr t i 0) (rowBytes t)

/-- A row of memory form written into the scratchpad. -/
def rowIn (m : Memory) (t : Tile) (i : Nat) (bs : List Byte) : Memory :=
  match tagSx t.tag with
  | some k =>
    (List.range (t.cols / 16)).foldl (fun m b =>
      let x := leValue ((bs.drop (b * (2 * (k + 2)))).take (2 * (k + 2)))
      let m := (List.range 16).foldl (fun m j => m.write (elemAddr t i (16 * b + j)) (BitVec.ofNat 8 (sxUnpackElem k x j))) m
      (m.write (scaleAddr t i b) (BitVec.ofNat 8 (sxUnpackScale k x 0))).write (scaleAddr t i b + 1) (BitVec.ofNat 8 (sxUnpackScale k x 8))) m
  | none => m.writeBytes (elemAddr t i 0) bs

/-! ### Checksums (R172, R375) -/

/-- RNE(c + x), subnormals kept, NaN canonical. -/
def addF32 (c : Nat) (x : FpNum) : Nat := (fmtF32.sum 0 false [] [fmtF32.read false c, x]).1

/-- The tag has checksums. -/
def checksummed (tag : Nat) : Bool := tag == 3 || tag == 4 || tag == 5 || (tagSx tag).isSome

def rowSumsOf (m : Memory) (t : Tile) : List W32 :=
  (List.range 64).map (fun i => if i < t.rows then BitVec.ofNat 32 ((List.range t.cols).foldl (fun c j => addF32 c (tileNum m t i j)) 0) else 0)

def colSumsOf (m : Memory) (t : Tile) : List W32 :=
  (List.range 64).map (fun j => if j < t.cols then BitVec.ofNat 32 ((List.range t.rows).foldl (fun c i => addF32 c (tileNum m t i j)) 0) else 0)

/-- The tile at the end of a fill, with the sums of what the fill has moved into `m`. -/
def filled (m : Memory) (t : Tile) : Tile :=
  if checksummed t.tag then { t with st := .ready, chkValid := true, rowSums := rowSumsOf m t, colSums := colSumsOf m t }
  else { t with st := .ready, chkValid := false }

/-- `.chk` finds a difference. -/
def chkFails (m : Memory) (t : Tile) : Bool := t.chkValid && (rowSumsOf m t != t.rowSums || colSumsOf m t != t.colSums)

/-- The team's tile `n` changed. -/
def onTile (s : State) (team n : Nat) (fn : Tile → Tile) : State :=
  { s with teams := s.teams.modify team (fun t => { t with tiles := t.tiles.modify n fn }) }

def setScratch (s : State) (team : Nat) (m : Memory) : State :=
  { s with teams := s.teams.modify team (fun t => { t with scratch := m }) }

/-! ### Accumulator tiles (R174 to R176) -/

/-- The physical tile behind a command's handle. -/
def physAcc (j : Job) : Nat := j.team.accs.getD (accField j.c.fields) 0

def accTile (s : State) (core h : Nat) : AccTile := ((coreOf s core).accTiles.find h).getD { data := [], shadow := none }

def setAcc (s : State) (core h : Nat) (a : AccTile) : State :=
  let c := coreOf s core
  setCore s core { c with accTiles := c.accTiles.insert h a }

/-- Element (i, j) of a tile. -/
def accRead (a : Map W32) (i j : Nat) : W32 := (Map.find a (64 * i + j)).getD 0

/-- An element written; +0 leaves no entry. -/
def accWrite (a : Map W32) (i j : Nat) (x : W32) : Map W32 := if x == 0 then a.erase (64 * i + j) else a.insert (64 * i + j) x

/-- The region of another group owns the tile's shadow (R176). -/
def shadowAway (s : State) (j : Job) : Bool :=
  match (accTile s j.team.core (physAcc j)).shadow with
  | some sh => sh.owner != j.gid
  | none => false

/-- The shadow that a command of an open region takes first (R175). -/
def takeShadow (s : State) (j : Job) : State :=
  let a := accTile s j.team.core (physAcc j)
  if j.c.region && j.g.region.isOpen && a.shadow.isNone then
    setAcc s j.team.core (physAcc j) { a with shadow := some { owner := j.gid, data := a.data } }
  else s

/-! ### Products (R40, R41, R374) -/

/-- A(i, k) under the layout, from the operand buffer. -/
def opA (m : Memory) (lay : Nat) (t : Tile) (i k : Nat) : FpNum := if bitAt lay 0 then tileNum m t k i else tileNum m t i k
/-- B(k, j). -/
def opB (m : Memory) (lay : Nat) (t : Tile) (k j : Nat) : FpNum := if bitAt lay 1 then tileNum m t k j else tileNum m t j k

/-- c after one k-block from `k0`: an exact sum of products with one rounding, or for F32 a rounded product and a rounded sum,
whose zero has the sign that an IEEE 754 addition gives it (log 64). -/
def kStep (t : Ty) (a b : Nat → FpNum) (c k0 : Nat) : Nat :=
  if t == .f32 then
    if (fmtF32.read false c).isNan then fmtF32.nan
    else addF32 c (fmtF32.read false (fmtF32.sum 0 false [(a k0, b k0)] []).1)
  else
    (fmtF32.sum 0 false ((List.range (kBlock t)).map (fun d => (a (k0 + d), b (k0 + d)))) [.fin false 0 0, fmtF32.read false c]).1

/-- An element of the product after the k-blocks from `from_` to below `to_`. -/
def kSum (t : Ty) (a b : Nat → FpNum) (c from_ to_ : Nat) : Nat :=
  (List.range (to_ - from_)).foldl (fun c d => kStep t a b c ((from_ + d) * kBlock t)) c

/-- The accumulator tile after k-blocks `from_` to below `to_` of an `mma`. -/
def mmaBlocks (j : Job) (acc : Map W32) (from_ to_ : Nat) : Map W32 :=
  let f := j.c.fields
  let lay := j.c.va.toNat
  let ta := j.c.tilesAt.getD 0 Tile.freed
  let tb := j.c.tilesAt.getD 1 Tile.freed
  let (m, n, _, _) := mmaShape lay ta tb
  (List.range m).foldl (fun acc i =>
    (List.range n).foldl (fun acc k =>
      accWrite acc i k (BitVec.ofNat 32 (kSum f.ty (fun x => opA j.c.buf lay ta i x) (fun x => opB j.c.buf lay tb x k) (accRead acc i k).toNat from_ to_)))
      acc) acc

/-- The k-blocks of an `mma`. -/
def mmaCount (j : Job) : Nat :=
  let (_, _, k, _) := mmaShape j.c.va.toNat (j.c.tilesAt.getD 0 Tile.freed) (j.c.tilesAt.getD 1 Tile.freed)
  k / kBlock j.c.fields.ty

/-! ### The matrix engine (R374 to R377) -/

/-- The command's rectangle. -/
def jobRect (j : Job) : Rect := rectOf j.c.fields j.c.vb.toNat

/-- Row `i` of the rectangle in memory. -/
def rectRow (j : Job) (i : Nat) : List Loc := cmdLocs j (vaByte (jobVa j j.c.va) (i * (jobRect j).pitch)) ((jobRect j).cols * 4)

/-- An `mload`'s source read whole into the buffer, element (i, j) at 256 i + 4 j. -/
def readRect (s : State) (j : Job) : EngRead :=
  let r := jobRect j
  if toTile j.c.fields then
    let t := tileOf j.team (tileA j.c.fields)
    .ok s ((List.range r.rows).flatMap (fun i => j.team.scratch.readBytes (elemAddr t i 0) (r.cols * 4)))
  else engRead s j ((List.range r.rows).flatMap (rectRow j))

/-- The bad byte that an engine read met, as an address. -/
def badVa (s : State) (j : Job) (va : VAddr) (pitch rows len : Nat) : VAddr :=
  (((List.range rows).flatMap (fun i => (List.range len).map (fun k => vaByte va (i * pitch + k)))).find? (fun v =>
    (cmdLoc j v).any (badLoc s))).getD va

/-- Takes a matrix command up. -/
def startMatrix (s : State) (j : Job) : State :=
  let found := (accTile s j.team.core (physAcc j)).data
  let begin (s : State) (fn : Command → Command) : State := onCmd s j.gid 0 j.c.seq (fun c => fn { c with st := .started, before := found })
  let f := j.c.fields
  match j.c.op with
  | .mma =>
    let ta := tileOf j.team (tileA f)
    let tb := tileOf j.team (tileB f)
    if f.aux == 1 && (chkFails j.team.scratch ta || chkFails j.team.scratch tb) then
      cmdError s j 3 0x0C ((f.aux == 1 && ta.chkValid).toNat + 2 * (f.aux == 1 && tb.chkValid).toNat) 0
    else
      begin (takeShadow s j) (fun c => { c with
        tilesAt := [ta, tb], buf := j.team.scratch, payload := (f.aux == 1 && ta.chkValid).toNat + 2 * (f.aux == 1 && tb.chkValid).toNat })
  | .mload =>
    match readRect s j with
    | .wait s => s
    | .lost => cmdError s j 2 0x0B 0 (badVa s j (jobVa j j.c.va) (jobRect j).pitch (jobRect j).rows ((jobRect j).cols * 4))
    | .bad s => cmdError s j 1 0x0B 0 (badVa s j (jobVa j j.c.va) (jobRect j).pitch (jobRect j).rows ((jobRect j).cols * 4))
    | .ok s bs => begin (takeShadow s j) (fun c => { c with buf := Memory.writeBytes [] 0 bs })
  | .mzero => begin (takeShadow s j) id
  | _ => begin s id

/-- A drain's target tile does not let it start: it is not EMPTY or READY (R377). -/
def drainTileWaits (j : Job) : Bool :=
  (drainsTiles j.c.op j.c.fields).any (fun n => (tileOf j.team n).st != .empty && (tileOf j.team n).st != .ready)

/-- An operand tile is FILLING again, for a fill that issued before the reader: the reader starts after it (R171). -/
def readTileWaits (j : Job) : Bool := (readsTiles j.c.op j.c.fields).any (fun n => (tileOf j.team n).st == .filling)

/-- The matrix engine takes up the group's next command, when the engine is free. -/
def execMatrixCmdStart (gid : Nat) (s : State) : Out :=
  match jobOf s gid 0 with
  | none => .next s
  | some j =>
    if j.c.owed then .next (reissueGroup s gid)
    else if !forkReady s j.g j.team j.c || engineBusy s j.team.core [0] || decide (allowLevel s j.team.core ≥ 3) || drainTileWaits j || readTileWaits j ||
        ((j.c.op == .mma || j.c.op == .mzero || j.c.op == .mload) && shadowAway s j) then .next s
    else .next (startMatrix s j)

/-- The lines of a rectangle in memory, in ascending physical address (R201). -/
def rectLines (j : Job) : List (Space × Nat) :=
  ((((List.range (jobRect j).rows).flatMap (rectRow j)).map (fun l => (l.space, l.addr / 256))).eraseDups).mergeSort (fun a b => decide (a.2 ≤ b.2))

/-- A slice grants the next hold of an `mdrain.add` to memory, which the engine channel asks for; with the last, the command holds every line (R135,
R201). What is on its way to the line lands first, whoever sent it (R181); a sector of the rectangle whose rows fail their check is poisoned as it is
read (R219). -/
def execMdrainHoldGrant (gid : Nat) (s : State) : Out :=
  match jobOf s gid 0 with
  | none => .next s
  | some j =>
    if j.c.op != .mdrainAdd || toTile j.c.fields || j.c.st != .started || j.c.holding then .next s
    else
      match (rectLines j).find? (fun l => !s.lineHolds.contains (l.1, l.2, gid + 1)) with
      | none => .next (onCmd s gid 0 j.c.seq (fun c => { c with holding := true }))
      | some l =>
        let rect := (List.range (jobRect j).rows).flatMap (rectRow j)
        let secs := (lineSectors l.2).filter (fun x => rect.any (fun p => p.space == l.1 && locSector p == x))
        let here : Loc := { space := l.1, addr := l.2 * 256, cache := 1, comp := false }
        if secs.any (fun x => pinnedAway s l.1 x (some j.g.team)) then .next (countCore s j.team.core 8 j.team.ctx 1)
        else if lineHeld s l.1 l.2 (gid + 1) || portHeld s (dieOfCore j.team.core) here then .next s
        else if secs.any (sectorWaits s l.1) then .next (askReads s (secs.map (fun x => { here with addr := x * 64 })))
        else
          let mine : Flight → Bool := fun f => f.bytes.any (fun w => w.1.space == l.1 && w.1.addr / 256 == l.2)
          let s := landFlights s mine
          if s.flights.any mine then .next s
          else
          let s := noteEngine (fillCode s j.team.ctx here) j.team.core [here]
          let s := match l.1 with
            | .peer p => (lineSectors l.2).foldl (fun s x => dropHeld s (Space.peer p) x) s
            | .array => secs.foldl (fun s x => fillHome (if sectorBad s .array x then poison s .array [x] else s) .array x false) s
            | sp => (lineSectors l.2).foldl (fun s x => recallCopies s sp x) s
          .next { s with lineHolds := s.lineHolds ++ [(l.1, l.2, gid + 1)] }

/-- The holds of a group's drain end. -/
def releaseHolds (s : State) (gid : Nat) : State := { s with lineHolds := s.lineHolds.filter (fun h => h.2.2 != gid + 1) }

/-- The bits of row `i` of the drained rectangle. -/
def accRow (s : State) (j : Job) (i : Nat) : List Nat :=
  let r := jobRect j
  let a := (accTile s j.team.core (physAcc j)).data
  (List.range r.cols).map (fun k => (accRead a (r.row0 + i) (r.col0 + k)).toNat)

/-- The words of a rectangle in memory with their sums: a word whose read is bad is left and poisoned. -/
def addWords (s : State) (j : Job) : List (List Loc × Nat) :=
  (List.range (jobRect j).rows).flatMap (fun i =>
    (accRow s j i).mapIdx (fun k a =>
      let ls := ((rectRow j i).drop (4 * k)).take 4
      let old := leValue (ls.map (fun l => newestByte s l.space l.addr))
      (ls, addF32 old (fmtF32.read false a))))

/-- Destination sectors poisoned by a committing command, with a record for each line; a home copy of such a sector counts as not written
(R365). -/
def poisonSectors (s : State) (ls : List Loc) : State :=
  let secs := (ls.map (fun l => (l.space, locSector l))).eraseDups
  let s : State := { s with copies := s.copies.map (fun c => if c.place == .home && secs.contains (c.space, c.sector) then { c with dirty := false } else c) }
  let s := secs.foldl (fun s p => poison s p.1 [p.2]) s
  ((ls.map (fun l => (l.space, l.addr / 256))).eraseDups).foldl (fun s p => sliceError s p.1 p.2 2) s

/-- `mdrain.add` to memory, every line held: all the additions, then the record (R201). -/
def addRect (s : State) (j : Job) : State :=
  let ws := addWords s j
  let bad := ws.filter (fun w => w.1.any (fun l => sectorBad s l.space (locSector l)))
  let lost := ws.any (fun w => w.1.any (peerFails s))
  let good := ws.filter (fun w => !w.1.any (fun l => badLoc s l))
  let s := cmdWrite (noteEngine s j.team.core (good.flatMap (·.1))) j (good.flatMap (fun w => w.1.zip (leBytes 4 w.2)))
  let s := poisonSectors s (bad.flatMap (·.1))
  finishCmd (releaseHolds s j.gid) j.gid 0 j.c (if lost then 2 else if bad.isEmpty then 0 else 1) 0

/-- A rectangle written, or added, into a tile's data area; CHK_VALID ends (R377). -/
def drainTile (s : State) (j : Job) (add : Bool) : State :=
  let n := tileA j.c.fields
  let t := tileOf j.team n
  let m := (List.range (jobRect j).rows).foldl (fun m i =>
    ((accRow s j i).mapIdx (fun k x => (k, x))).foldl (fun m kx =>
      let a := elemAddr t i kx.1
      m.writeBytes a (leBytes 4 (if add then addF32 (m.readLe a 4) (fmtF32.read false kx.2) else kx.2))) m) j.team.scratch
  onTile (setScratch s j.g.team m) j.g.team n (fun t => { t with chkValid := false })

/-- One further row of a plain `mdrain` or of an `mload`; the last ends it. -/
def rowStep (j : Job) (more : State) (count : Nat) : State :=
  if j.c.progress + 1 ≥ count then finishCmd more j.gid 0 j.c j.c.status 0
  else onCmd more j.gid 0 j.c.seq (fun c => { c with progress := c.progress + 1 })

/-- The matrix engine carries its command on. -/
def stepMatrix (s : State) (j : Job) : State :=
  let core := j.team.core
  let h := physAcc j
  let r := jobRect j
  match j.c.op with
  | .mma =>
    let a := accTile s core h
    let s' := setAcc s core h { a with data := mmaBlocks j a.data j.c.progress (j.c.progress + 1) }
    if j.c.progress + 1 ≥ mmaCount j then finishCmd s' j.gid 0 j.c 0 j.c.payload
    else onCmd s' j.gid 0 j.c.seq (fun c => { c with progress := c.progress + 1 })
  | .mzero =>
    let a := accTile s core h
    finishCmd (setAcc s core h { a with data := [] }) j.gid 0 j.c 0 0
  | .mload =>
    let a := accTile s core h
    let i := j.c.progress
    let data := (List.range r.cols).foldl (fun d k =>
      accWrite d (r.row0 + i) (r.col0 + k) (BitVec.ofNat 32 (j.c.buf.readLe ((i * r.cols + k) * 4) 4))) a.data
    rowStep j (setAcc s core h { a with data := data }) r.rows
  | .mdrain =>
    if toTile j.c.fields then finishCmd (drainTile s j false) j.gid 0 j.c 0 0
    else
      let i := j.c.progress
      match engWrite s j ((rectRow j i).zip ((accRow s j i).flatMap (leBytes 4))) with
      | .wait s => s
      | .lost => finishCmd s j.gid 0 j.c 2 0
      | .ok s => rowStep j s r.rows
  | .mdrainAdd =>
    if toTile j.c.fields then finishCmd (drainTile s j true) j.gid 0 j.c 0 0
    else if j.c.holding then addRect s j
    else s
  | _ => s

def execMatrixCmdComplete (gid : Nat) (s : State) : Out :=
  match jobOf s gid 0 with
  | none => .next s
  | some j => if cmdRuns s j then .next (stampStop (stepMatrix s j) j.team.ctx j.team.core 1) else .next s

/-! ### The copy engine (R370 to R372) -/

/-- The copy engine may take the command up (R14, R106). -/
def copyMayStart (s : State) (j : Job) : Bool :=
  forkReady s j.g j.team j.c && !engineBusy s j.team.core [1, 2] && decide (allowLevel s j.team.core < 4)

/-- A fill's target is free for it: EMPTY or READY. Readers that issued before it have finished (`fillBlocked`); those that issued after it
wait until it is READY again (R170, R171). -/
def fillMayStart (j : Job) (n : Nat) : Bool := (tileOf j.team n).st == .empty || (tileOf j.team n).st == .ready

/-- A command starts, with its tile in a new state; the state that it found stands as its payload (R63). -/
def startWith (s : State) (j : Job) (n : Nat) (fn : Tile → Tile) : State :=
  onTile (onCmd s j.gid j.q j.c.seq (fun c => { c with st := .started, payload := stateCode (tileOf j.team n).st })) j.g.team n fn

/-- A tile that a fill starts on. -/
def Tile.filling (t : Tile) : Tile := { t with st := .filling, chkValid := false }

/-- The source of a `cpy.mm`, and where its bytes are bad or lost. -/
def copySource (j : Job) : List Loc := cmdLocs j (jobVa j j.c.va) j.c.vb.toNat

def execCopyCmdStart (gid : Nat) (s : State) : Out :=
  match jobOf s gid 1 with
  | none => .next s
  | some j =>
    if j.c.owed then .next (reissueGroup s gid)
    else if !copyMayStart s j then .next s
    else
      let n := cmdTile j.c.fields
      match j.c.op with
      | .cpyIn => .next (if fillMayStart j n then startWith s j n Tile.filling else s)
      | .cpyOut => .next (if (tileOf j.team n).st == .ready then startWith s j n (fun t => { t with st := .draining }) else s)
      | _ =>
        let ls := copySource j
        match engWaits s j false ls ls with
        | some s => .next s
        | none =>
        if ls.any (engLost s) then .next (finishCmd s gid 1 j.c 2 0)
        else
          let s := fillCodes s j.team.ctx ls
          let bad := (List.range ls.length).filter (fun i => (ls[i]?).any (fun l => sectorBad s l.space (locSector l)))
          let s := engFill s j ls
          let bs := ls.map (fun l => newestByte s l.space l.addr)
          .next (onCmd s gid 1 j.c.seq (fun c => { c with st := .started, buf := Memory.writeBytes [] 0 bs, bad := bad }))

/-- The tile of a started fill or drain is no longer in that state: a rollback of another group has undone its `talloc`. The command ends as it
stands and leaves the tile alone (R170; log 81). -/
def tileLost (j : Job) (n : Nat) (st : TileState) : Bool := (tileOf j.team n).st != st

/-- One row of a fill. -/
def cpyInStep (s : State) (j : Job) : State :=
  let n := cmdTile j.c.fields
  let t := tileOf j.team n
  let i := j.c.progress
  let va := vaByte (jobVa j j.c.va) (i * j.c.vb.toNat)
  let fail : State → Nat → State := fun s status =>
    cmdError (onTile s j.g.team n Tile.emptied) j status 0x0B i (badVa s j va 0 1 (rowBytes t))
  if tileLost j n .filling then finishCmd s j.gid 1 j.c 0 i
  else
  match engRead s j (cmdLocs j va (rowBytes t)) with
  | .wait s => s
  | .lost => fail s 2
  | .bad s => fail s 1
  | .ok s bs =>
    let s := setScratch s j.g.team (rowIn j.team.scratch t i bs)
    let moved := rowIn j.c.buf t i bs
    if i + 1 ≥ t.rows then finishCmd (onTile s j.g.team n (filled moved)) j.gid 1 j.c 0 t.rows
    else onCmd s j.gid 1 j.c.seq (fun c => { c with progress := i + 1, buf := moved })

/-- One row of a drain to memory. -/
def cpyOutStep (s : State) (j : Job) : State :=
  let n := cmdTile j.c.fields
  let t := tileOf j.team n
  let i := j.c.progress
  let va := vaByte (jobVa j j.c.va) (i * j.c.vb.toNat)
  let ready : State → State := fun s => onTile s j.g.team n (fun t => { t with st := .ready })
  if tileLost j n .draining then finishCmd s j.gid 1 j.c 0 i
  else
  match engWrite s j ((cmdLocs j va (rowBytes t)).zip (rowOut j.team.scratch t i)) with
  | .wait s => s
  | .lost => finishCmd (ready s) j.gid 1 j.c 2 i
  | .ok s =>
    if i + 1 ≥ t.rows then finishCmd (ready s) j.gid 1 j.c 0 t.rows
    else onCmd s j.gid 1 j.c.seq (fun c => { c with progress := i + 1 })

/-- The next piece of a `cpy.mm`, up to the end of a destination sector. -/
def cpyMmStep (s : State) (j : Job) : State :=
  let len := j.c.vb.toNat
  let k := j.c.progress
  let va := vaByte (jobVa j j.c.vd) k
  let n := min (64 - va.toNat % 64) (len - k)
  let ls := cmdLocs j va n
  if n == 0 then finishCmd s j.gid 1 j.c j.c.status len
  else
    match engWrite s j (ls.zip (j.c.buf.readBytes k n)) with
    | .wait s => s
    | .lost => finishCmd s j.gid 1 j.c 2 k
    | .ok s =>
      let hit := j.c.bad.any (fun i => decide (k ≤ i) && decide (i < k + n))
      let s := if hit then poisonSectors s ls else s
      let status := if hit then 1 else j.c.status
      if k + n ≥ len then finishCmd s j.gid 1 j.c status len
      else onCmd s j.gid 1 j.c.seq (fun c => { c with progress := k + n, status := status })

def execCopyCmdComplete (gid : Nat) (s : State) : Out :=
  match jobOf s gid 1 with
  | none => .next s
  | some j =>
    if !cmdRuns s j then .next s
    else
      match j.c.op with
      | .cpyIn => .next (cpyInStep s j)
      | .cpyOut => .next (cpyOutStep s j)
      | _ => .next (cpyMmStep s j)

/-! ### The Cicada encoder (R224 to R230) -/

/-- Field width b of a mode. -/
def fieldBits (w3 : Bool) : Nat := if w3 then 3 else 7

/-- The exponent of Step(E, s). -/
def stepExp (b e sg : Nat) : Int := (e : Int) - 127 + 1 - sg - ((b : Int) - 1)

/-- RNE(|x| / Step(E, s)). -/
def codeQ (b e sg : Nat) (x : FpNum) : Nat :=
  match x with
  | .fin _ m k => (roundUnits 0 false m k (stepExp b e sg) false).1
  | _ => 0

/-- The larger magnitude of two finite data. -/
def maxMag (a x : FpNum) : FpNum :=
  let ab : FpNum → FpNum := fun y => match y with
    | .fin _ m e => .fin false m e
    | y => y
  if FpNum.lt (ab a) (ab x) then ab x else ab a

/-- E of a block of finite values, not all zero. -/
def blockExp (b : Nat) (amax : FpNum) : Nat :=
  let e := (max (leadExp amax + 127) 1).toNat
  if e < 254 && decide (codeQ b e 0 amax > 2 ^ (b - 1) - 1) then e + 1 else e

/-- The shift of a subgroup: the largest that fits, or 0. -/
def groupShift (b e : Nat) (xs : List FpNum) : Nat :=
  let smax := (min 15 ((e : Int) + 7 - ((b : Int) - 1))).toNat
  (List.range (smax + 1)).foldl (fun r s => if xs.all (fun x => decide (codeQ b e s x ≤ 2 ^ (b - 1) - 1)) then s else r) 0

/-- A block from its header parts and fields. -/
def blockOf (b e : Nat) (shifts fields : List Nat) : List Byte :=
  let v := (fields.mapIdx (fun j x => x * 2 ^ (b * j))).foldl (· + ·) 0
  let sh := (shifts.mapIdx (fun g x => x * 2 ^ (4 * g))).foldl (· + ·) 0
  leBytes 8 (crc24 v (64 * b) + sh * 2 ^ 24 + e * 2 ^ 56) ++ leBytes (8 * b) v

/-- The field of a value in a special block (R228). -/
def specialField (b : Nat) (x : FpNum) : Nat :=
  match x with
  | .nan _ => 2
  | .inf s => 1 + s.toNat * 2 ^ (b - 1)
  | .fin _ _ _ => 0

/-- Encode(x, b) of R226 on 64 BF16 values. -/
def encodeBlock (w3 : Bool) (xs : List FpNum) : List Byte :=
  let b := fieldBits w3
  if xs.any (fun x => x.isNan || x.isInf) then blockOf b 255 (List.replicate 8 0) (xs.map (specialField b))
  else
    let amax := xs.foldl maxMag (.fin false 0 0)
    if amax.isZero then blockOf b 0 (List.replicate 8 0) (List.replicate 64 0)
    else
      let e := blockExp b amax
      let shifts := (List.range 8).map (fun g => groupShift b e ((xs.drop (8 * g)).take 8))
      let fields := xs.mapIdx (fun j x =>
        let q := min (codeQ b e (shifts.getD (j / 8) 0) x) (2 ^ (b - 1) - 1)
        if q == 0 then 0 else q + x.neg.toNat * 2 ^ (b - 1))
      blockOf b e shifts fields

/-- The block's CRC agrees with its fields (R229). -/
def blockGood (w3 : Bool) (bs : List Byte) : Bool :=
  let x := leValue bs
  bits x 23 0 == crc24 (x / 2 ^ 64) (64 * fieldBits w3)

/-- The datum of value `j` of a block (R230). With E = 255 every field code from 2 up is the canonical NaN, of which the rule names only 2 and 3
(log 89). -/
def blockNum (w3 : Bool) (bs : List Byte) (j : Nat) : FpNum :=
  let b := fieldBits w3
  let x := leValue bs
  let e := bits x 63 56
  let fld := bits x (64 + b * j + b - 1) (64 + b * j)
  let q := fld % 2 ^ (b - 1)
  let neg := bitAt fld (b - 1)
  if e == 255 then (if q == 0 then .fin false 0 0 else if q == 1 then .inf neg else .nan false)
  else if q == 0 then .fin false 0 0
  else .fin neg q (stepExp b e (bits x (27 + 4 * (j / 8)) (24 + 4 * (j / 8))))

/-- Element `n` of a tile in row-major order as BF16, +0 past the end (R224). -/
def stashValue (m : Memory) (t : Tile) (n : Nat) : FpNum :=
  if n < t.rows * t.cols then
    let x := tileNum m t (n / t.cols) (n % t.cols)
    if t.tag == 3 then fmtBF16.read false (fmtBF16.convert 0 false x).1 else x
  else .fin false 0 0

/-- A reconstructed block written into a tile; padding is not written. -/
def blockIn (m : Memory) (t : Tile) (w3 : Bool) (k : Nat) (bs : List Byte) : Memory :=
  (List.range 64).foldl (fun m j =>
    let n := 64 * k + j
    if n < t.rows * t.cols then
      let x := blockNum w3 bs j
      let a := elemAddr t (n / t.cols) (n % t.cols)
      if t.tag == 3 then m.writeBytes a (leBytes 4 (fmtF32.write x)) else m.writeBytes a (leBytes 2 (fmtBF16.write x))
    else m) m

/-- A stash or restore is taken up; a restore follows the group's earlier stashes by the order of q2 (R235). -/
def execCicadaCmdStart (gid : Nat) (s : State) : Out :=
  match jobOf s gid 2 with
  | none => .next s
  | some j =>
    if j.c.owed then .next (reissueGroup s gid)
    else if !copyMayStart s j then .next s
    else
      let n := tileS j.c.fields
      match j.c.op with
      | .restore => .next (if fillMayStart j n then startWith s j n Tile.filling else s)
      | _ => .next (if (tileOf j.team n).st == .ready then startWith s j n (fun t => { t with st := .draining }) else s)

/-- One block of a stash: encoded and written as one write at its home slice (R232). -/
def stashStep (s : State) (j : Job) : State :=
  let n := tileS j.c.fields
  let t := tileOf j.team n
  let k := j.c.progress
  let w3 := j.c.fields.aux == 1
  let nb := blockBytes j.c.fields
  let bs := encodeBlock w3 ((List.range 64).map (fun i => stashValue j.team.scratch t (64 * k + i)))
  let ready : State → State := fun s => onTile s j.g.team n (fun t => { t with st := .ready })
  if tileLost j n .draining then finishCmd s j.gid 2 j.c 0 k
  else
  match engWrite s j ((cmdLocs j (vaByte (jobVa j j.c.va) (k * nb)) nb).zip bs) with
  | .wait s => s
  | .lost => finishCmd (ready s) j.gid 2 j.c 2 k
  | .ok s =>
    let s := match cmdLoc j (vaByte (jobVa j j.c.va) (k * nb)) with
      | some l => countSlice s (homeDie l.space l.addr) (homeSlice l.space l.addr) 5 j.team.ctx 1
      | none => s
    if k + 1 ≥ tileBlocks t then finishCmd (ready s) j.gid 2 j.c 0 (k + 1)
    else onCmd s j.gid 2 j.c.seq (fun c => { c with progress := k + 1 })

/-- One block of a restore: checked and reconstructed (R230, R233). -/
def restoreStep (s : State) (j : Job) : State :=
  let n := tileS j.c.fields
  let t := tileOf j.team n
  let k := j.c.progress
  let w3 := j.c.fields.aux == 1
  let nb := blockBytes j.c.fields
  let va := vaByte (jobVa j j.c.va) (k * nb)
  let fail : State → State := fun s => cmdError (onTile s j.g.team n Tile.emptied) j 1 0x0B k va
  if tileLost j n .filling then finishCmd s j.gid 2 j.c 0 k
  else
  match engRead s j (cmdLocs j va nb) with
  | .wait s => s
  | .lost => fail s
  | .bad s => fail s
  | .ok s bs =>
    if !blockGood w3 bs then fail s
    else
      let s := setScratch s j.g.team (blockIn j.team.scratch t w3 k bs)
      let moved := blockIn j.c.buf t w3 k bs
      if k + 1 ≥ tileBlocks t then finishCmd (onTile s j.g.team n (filled moved)) j.gid 2 j.c 0 (k + 1)
      else onCmd s j.gid 2 j.c.seq (fun c => { c with progress := k + 1, buf := moved })

def execCicadaCmdComplete (gid : Nat) (s : State) : Out :=
  match jobOf s gid 2 with
  | none => .next s
  | some j =>
    if !cmdRuns s j then .next s
    else if j.c.op == .restore then .next (restoreStep s j)
    else .next (stashStep s j)

/-! ### Continuation records (R73, R74) -/

/-- The record of a `post` is stored at its home die, when it has room. -/
def execTaskRecordStore (gid : Nat) (s : State) : Out :=
  match jobOf s gid 4 with
  | none => .next s
  | some j =>
    let die := j.c.payload
    let d := dieOf s die
    if !forkReady s j.g j.team j.c || decide (d.tasks.length ≥ 65536) || routeHeld s (dieOfCore j.team.core) die then .next s
    else
      let r : TaskRec :=
        { ctx := j.team.ctx, kid := jobVa j j.c.va, arg0 := j.c.vb, arg1 := BitVec.ofNat 64 (j.c.buf.readLe 0 8)
          arg2 := BitVec.ofNat 64 (j.c.buf.readLe 8 8) }
      let s := noteSend (setDie s die { d with tasks := d.tasks ++ [r] }) j.team.core 2 (die * 16)
      .next (finishCmd s gid 4 j.c 0 die)

end Sys2Proof.Machine
end

