-- ==== Sys2Proof/Machine/Arrays.lean ====
section
/-! DEFINITION. The array sequencers: how a schedule starts, runs gate by gate, pauses and ends, how reads are admitted, and how
configuration commands take effect (spec/12_array.md R205 to R223, spec/01_machine.md R15, spec/21_ref_engines.md R379 to R382). -/

namespace Sys2Proof.Machine

/-! ### Gate words (R208) -/

def gateAxis (g : W64) : Nat := bits g.toNat 63 63
def gateOp (g : W64) : Nat := bits g.toNat 62 59
def gateOut (g : W64) : Nat := bits g.toNat 58 49

/-- The input fields A, B and C. -/
def gateIns (g : W64) : List Nat := [bits g.toNat 48 39, bits g.toNat 38 29, bits g.toNat 28 19]

/-- The inputs that an operation uses. -/
def gateArity (op : Nat) : Nat :=
  match op with
  | 2 => 1
  | 3 | 5 => 2
  | 4 | 6 => 3
  | _ => 0

def isEnd (g : W64) : Bool := gateOp g == 15

/-- A reserved operation, or a field that must be zero and is not. -/
def badGate (g : W64) : Bool :=
  (decide (gateOp g ≥ 7) && !isEnd g) || bits g.toNat 18 0 != 0 || ((gateIns g).drop (gateArity (gateOp g))).any (· != 0) ||
  (isEnd g && gateOut g != 0)

/-- The new output cell from the old one and the inputs. -/
def gateCell (op : Nat) (o a b c : Bool) : Bool :=
  match op with
  | 0 => false
  | 1 => true
  | 2 => o && !a
  | 3 => o && !(a || b)
  | 4 => o && !(a || b || c)
  | 5 => o || a || b
  | 6 => o || (a && b) || (b && c) || (a && c)
  | _ => o

/-! ### Cells by axis, line and lane (R204) -/

def cellAt (a : ArrayUnit) (x line lane : Nat) : Bool := if x == 0 then bitAt (rowOf a lane) line else bitAt (rowOf a line) lane

def setCell (a : ArrayUnit) (x line lane : Nat) (v : Bool) : ArrayUnit :=
  let (r, c) := if x == 0 then (lane, line) else (line, lane)
  setRow a r (putBits (rowOf a r) c 1 v.toNat)

/-- Lanes LO to HI. -/
def lanes (lo hi : Nat) : List Nat := (List.range (hi + 1 - lo)).map (· + lo)

/-- A gate on resolved lines: every input of a lane is read before its output is written. -/
def applyGate (a : ArrayUnit) (x op out : Nat) (ins : List Nat) (lo hi : Nat) : ArrayUnit :=
  (lanes lo hi).foldl (fun b k =>
    let v : Nat → Bool := fun i => (ins[i]?).any (fun l => cellAt b x l k)
    setCell b x out k (gateCell op (cellAt b x out k) (v 0) (v 1) (v 2))) a

/-! ### Configuration and scratch lines (R205, R206, R215) -/

def ration (a : ArrayUnit) : Nat := bits a.cfg.toNat 63 48

/-- The physical lines of an axis's pool. -/
def poolLines (a : ArrayUnit) (x : Nat) : List Nat :=
  let (base, count) := if x == 0 then (bits a.cfg.toNat 47 38, bits a.cfg.toNat 37 31) else (bits a.cfg.toNat 30 21, bits a.cfg.toNat 20 14)
  (List.range count).map (· + base)

def mapOf (a : ArrayUnit) (x : Nat) : List (Option Nat) := if x == 0 then a.map0 else a.map1

def setMap (a : ArrayUnit) (x : Nat) (m : List (Option Nat)) : ArrayUnit := if x == 0 then { a with map0 := m } else { a with map1 := m }

/-- The key of a line in the window counts and the wear counters. -/
def lineKey (x line : Nat) : Nat := x * 1024 + line

def windowCount (r : Run) (x line : Nat) : Nat := (r.w.find (lineKey x line)).getD 0
def wearOf (a : ArrayUnit) (x line : Nat) : Nat := (a.wear.find (lineKey x line)).getD 0

/-- The line may take an INIT and one more write under the ration. -/
def underRation (a : ArrayUnit) (r : Run) (x line : Nat) : Bool := ration a == 0 || decide (windowCount r x line + 2 ≤ ration a)

/-- Line `l` is preferred to `k`: least w, then least WEAR, then least index. -/
def betterLine (a : ArrayUnit) (r : Run) (x l k : Nat) : Bool :=
  let p := (windowCount r x l, wearOf a x l, l)
  let q := (windowCount r x k, wearOf a x k, k)
  decide (p.1 < q.1) || (p.1 == q.1 && (decide (p.2.1 < q.2.1) || (p.2.1 == q.2.1 && decide (p.2.2 < q.2.2))))

/-- The candidates of a remap. -/
def candidates (a : ArrayUnit) (r : Run) (x : Nat) : List Nat :=
  (poolLines a x).filter (fun l => !(mapOf a x).contains (some l) && underRation a r x l)

/-- How resolving a line ends: a line, or a stop status. -/
inductive Resolved where
  | line (a : ArrayUnit) (r : Run) (l : Nat)
  | stop (status : Nat)
deriving DecidableEq, Repr

/-- Phys(x, L, forInit). -/
def phys (a : ArrayUnit) (r : Run) (x l : Nat) (forInit : Bool) : Resolved :=
  if l < 960 then .line a r l
  else
    let k := l - 960
    let old := (mapOf a x).getD k none
    match old, forInit with
    | none, false => .stop 3
    | some p, false => .line a r p
    | _, true =>
      if old.any (underRation a r x) then .line a r (old.getD 0)
      else
        match candidates a r x with
        | [] => .stop 4
        | c :: cs =>
          let best := cs.foldl (fun b l => if betterLine a r x l b then l else b) c
          .line (setMap a x ((mapOf a x).set k (some best))) (if old.isSome then { r with remaps := r.remaps + 1 } else r) best

/-- The used inputs of a gate, resolved in order. -/
def physIns (a : ArrayUnit) (r : Run) (x : Nat) : List Nat → Except Nat (List Nat)
  | [] => .ok []
  | l :: ls =>
    match phys a r x l false with
    | .stop st => .error st
    | .line _ _ p =>
      match physIns a r x ls with
      | .ok ps => .ok (p :: ps)
      | e => e

/-- One write of a line is counted (R209, R214). -/
def countGate (a : ArrayUnit) (r : Run) (x line : Nat) : ArrayUnit × Run :=
  (addWear a (lineKey x line) 1, { r with w := r.w.insert (lineKey x line) (windowCount r x line + 1), wrote := true })

/-! ### ROM schedules (R221, R222) -/

/-- What a parameter word names. -/
structure Rom where
  rom : Nat
  n : Nat
  ca : Nat
  cb : Nat
  cd : Nat
  lo : Nat
  hi : Nat
deriving DecidableEq, Repr

def romOf (w : W64) : Rom :=
  { rom := bits w.toNat 63 58, n := bits w.toNat 57 52 + 1, ca := bits w.toNat 51 42, cb := bits w.toNat 41 32, cd := bits w.toNat 31 22
    lo := bits w.toNat 21 12, hi := bits w.toNat 11 2 }

/-- The columns of D. -/
def romWidth (m : Rom) : Nat := if m.rom == 2 || m.rom == 3 then 1 else m.n

def overlaps (a n b m : Nat) : Bool := decide (a < b + m) && decide (b < a + n)

/-- BAD_ROM. -/
def badRom (w : W64) : Bool :=
  let m := romOf w
  decide (m.rom > 5) || bits w.toNat 1 0 != 0 || decide (m.ca + m.n > 960) || decide (m.cb + m.n > 960) || decide (m.cd + romWidth m > 960) ||
  overlaps m.cd (romWidth m) m.ca m.n || overlaps m.cd (romWidth m) m.cb m.n || (decide (m.rom ≥ 4) && m.n != 16) || decide (m.lo > m.hi)

def romGates (m : Rom) : Nat :=
  match m.rom with
  | 0 => 12 * m.n
  | 1 => 13 * m.n + 1
  | 2 => 8 * m.n + 2
  | 3 => 6 * m.n + 1
  | 4 => 1624
  | _ => 2011

/-- The scratch lines k. -/
def romK (m : Rom) : Nat :=
  match m.rom with
  | 0 | 1 => 3
  | 2 | 3 => 2
  | 4 => 40
  | _ => 48

/-- All the INITs. -/
def romInits (m : Rom) : Nat := romK m * m.n

/-- The writes that each D column takes; for the BF16 schedules one figure over all the columns. -/
def romWrites (m : Rom) : List Nat :=
  match m.rom with
  | 0 => List.replicate m.n 6
  | 1 => (List.range m.n).map (fun i => if i == 0 then 8 else 7)
  | 2 => [4 * m.n + 2]
  | 3 => [2 * m.n + 1]
  | 4 => [344]
  | _ => [475]

/-- The value of the `n` columns from `base` in a row. -/
def field (a : ArrayUnit) (row base n : Nat) : Nat := bits (rowOf a row) (base + n - 1) base

/-- D of a lane. -/
def romResult (m : Rom) (x y : Nat) : Nat :=
  match m.rom with
  | 0 => (x + y) % 2 ^ m.n
  | 1 => (x + 2 ^ m.n - y) % 2 ^ m.n
  | 2 => (decide (x < y)).toNat
  | 3 => (x == y).toNat
  | 4 => (fmtBF16.sum 0 true [] [fmtBF16.read true x, fmtBF16.read true y]).1
  | _ => (fmtBF16.sum 0 true [(fmtBF16.read true x, fmtBF16.read true y)] []).1

/-- A gate of a ROM schedule: the next INIT, the one further gate of a scratch line, or a gate on D. -/
inductive RomGate where
  | init
  | use (k : Nat)
  | write (i : Nat)
deriving DecidableEq, Repr

/-- The gates that the figures of R222 leave possible next. -/
def romOptions (m : Rom) (r : Run) : List RomGate :=
  (if r.inits < romInits m && !r.pend.contains (r.inits % romK m) then [RomGate.init] else []) ++ r.pend.map RomGate.use ++
  ((List.range r.left.length).filter (fun i => decide (r.left.getD i 0 > 0))).map RomGate.write

/-- The gate that the implementation's ROM holds here (log 8). -/
def romGate (m : Rom) (r : Run) : RomGate :=
  let l := romOptions m r
  l.getD (Config.romPick m.rom m.n r.gate % l.length) .init

/-- The column that a gate on D writes. -/
def romColumn (m : Rom) (r : Run) (i : Nat) : Nat :=
  if m.rom ≥ 4 then m.cd + Config.romPick (m.rom + 64) m.n r.gate % 16 else m.cd + i

/-- A column of A, B or D. -/
def romOperand (w : W64) (c : Nat) : Bool := romReads w c || (decide ((romOf w).cd ≤ c) && decide (c < (romOf w).cd + romWidth (romOf w)))

/-- Lanes LO to HI of a column take free bits: what a ROM schedule leaves in a line before its end (log 8). -/
def scramble (v : Nat) (a : ArrayUnit) (line lo hi : Nat) : ArrayUnit := (lanes lo hi).foldl (fun b k => setCell b 0 line k (bitAt v k)) a

/-- D takes its results in lanes LO to HI, but for the lanes whose operands or lines have met other writes, where it stays free (R222; log 8). -/
def romFinish (m : Rom) (a : ArrayUnit) (tainted : List Nat) : ArrayUnit :=
  ((lanes m.lo m.hi).filter (fun k => !tainted.contains k)).foldl (fun b k =>
    setRow b k (putBits (rowOf b k) m.cd (romWidth m) (romResult m (field b k m.ca m.n) (field b k m.cb m.n)))) a

/-! ### The sequencer (R211, R213) -/

/-- The arrays of a core that hold a slot. -/
def slotsBusy (s : State) (core : Nat) : Nat := (s.arrays.filter (fun e => e.1 / 64 == core && arrayBusy e.2)).length

/-- The q3 command of a schedule. -/
def scheduleJob (s : State) (x : Schedule) : Option Job :=
  match s.groups.find x.gid with
  | none => none
  | some g =>
    match (g.queues.getD 3 []).find? (fun c => c.seq == x.cmd && c.st != .done), s.teams.find g.team with
    | some c, some team => some { gid := x.gid, q := 3, g := g, team := team, c := c }
    | _, _ => none

/-- The schedule at the head of an array's commands, when the array is IDLE and runs none. -/
def headSchedule (a : ArrayUnit) : Option Schedule :=
  if a.st != .idle || a.run.isSome then none
  else
    match a.waiting with
    | .schedule x :: _ => some x
    | _ => none

/-- The schedule's fork has been made (R196). -/
def scheduleForked (s : State) (x : Schedule) : Bool := (scheduleJob s x).any (fun j => forkReady s j.g j.team j.c)

/-- The schedule needs words that its fetch has not brought. -/
def needsWords (s : State) (x : Schedule) : Bool := x.words.isNone && (scheduleJob s x).any (fun j => j.c.op == .xrun && x.rom.isNone)

/-- The schedule may start: its fork has been made, its words have come, and every earlier command of its group's q3 is done (R14, R76, R198;
log 30). -/
def scheduleReady (s : State) (x : Schedule) : Bool :=
  scheduleForked s x && !needsWords s x &&
  (scheduleJob s x).any (fun j => !(j.g.queues.getD 3 []).any (fun d => decide (d.seq < j.c.seq) && d.st != .done))

/-- A SUSPENDED schedule whose team has been placed again, and which waits for a slot (R15, R213; log 30). -/
def suspendedReady (s : State) (a : ArrayUnit) : Option Schedule :=
  match a.run with
  | some r =>
    if a.st == .suspended && (scheduleJob s r.sched).any (fun j => (s.contexts.find j.team.ctx).any ctxIssues) then some r.sched else none
  | none => none

/-- The schedule that an array would run if it were given a slot. -/
def slotNext (s : State) (a : ArrayUnit) : Option Schedule :=
  match headSchedule a with
  | some x => if scheduleReady s x then some x else none
  | none => suspendedReady s a

/-- No older schedule of the core could take the slot (R15, R213). -/
def oldestOnCore (s : State) (core : Nat) (x : Schedule) : Bool :=
  s.arrays.all (fun e => e.1 / 64 != core || (slotNext s e.2).all (fun y => decide (x.arrival ≤ y.arrival)))

/-- A slot of the core is free for the schedule (R15, R106, R213). -/
def slotFree (s : State) (core : Nat) (x : Schedule) : Bool := decide (slotsBusy s core < 8) && allowLevel s core == 0 && oldestOnCore s core x

/-- A run at its start. -/
def Run.start (x : Schedule) : Run :=
  { sched := x, checkLeft := 128, gate := 0, pass := 0, w := [], remaps := 0, wrote := false, stop := none, endLeft := 0, declared0 := []
    declared1 := [], inits := 0, pend := [], left := [], tainted := [] }

/-- A run that the checks of R211 stop, at a gate index. -/
def Run.refused (x : Schedule) (status gate : Nat) : Run := { Run.start x with checkLeft := 0, stop := some status, gate := gate }

/-- The declared lines of an axis (R217). -/
def declaredLines (a : ArrayUnit) (gates : List W64) (x : Nat) : List Nat :=
  let outs := (gates.filter (fun g => gateAxis g == x && !isEnd g)).map gateOut
  ((outs.filter (fun l => decide (l < 960))) ++ (if outs.any (fun l => decide (l ≥ 960)) then poolLines a x else [])).eraseDups

/-- A schedule whose header is good: its gate words are checked. -/
def checkGates (a : ArrayUnit) (x : Schedule) : Run :=
  match x.gates.findIdx? badGate with
  | some i => Run.refused x 2 i
  | none =>
    { Run.start x with
      checkLeft := if x.scrub then 0 else 128, declared0 := declaredLines a x.gates 0, declared1 := declaredLines a x.gates 1 }

/-- The header breaks R210. -/
def badHeader (h : Nat) : Bool :=
  bits h 63 62 != 0 || bits h 22 1 != 0 || bits h 61 51 == 0 || decide (bits h 61 51 > 1024) || decide (bits h 50 41 > bits h 40 31) ||
  bits h 30 23 == 0

/-- A schedule in memory: header and gate words, as fetched. A word past the fetched range is free (log 2). -/
def fetched (a : ArrayUnit) (x : Schedule) (bs : List Byte) (v : Nat → Nat) : Run :=
  let h := leValue (bs.take 8)
  if badHeader h then Run.refused x 1 0
  else
    let word : Nat → W64 := fun i =>
      if 16 + 8 * i ≤ bs.length then BitVec.ofNat 64 (leValue ((bs.drop (8 + 8 * i)).take 8)) else BitVec.ofNat 64 (v i)
    checkGates a { x with
      gates := (List.range (bits h 61 51)).map word, lo := bits h 50 41, hi := bits h 40 31, passes := bits h 30 23, scrub := bitAt h 0 }

/-- A ROM schedule at its start. -/
def startRom (a : ArrayUnit) (x : Schedule) (w : W64) : Run :=
  if badRom w then Run.refused x 6 0
  else
    let m := romOf w
    { Run.start { x with lo := m.lo, hi := m.hi, passes := 1 } with
      declared0 := ((List.range (romWidth m)).map (· + m.cd) ++ poolLines a 0).eraseDups, left := romWrites m }

/-- The run takes the slot. -/
def beginRun (s : State) (arr : Nat) (r : Run) : State :=
  let a := arrayOf s arr
  let s := setArray s arr { a with waiting := a.waiting.drop 1, st := .running, run := some r, admits := 0, owed := 0 }
  onCmd s r.sched.gid 3 r.sched.cmd (fun c => { c with st := .started })

/-- A waiting schedule of the array whose fork has been made and whose words have not been fetched. -/
def unfetched (s : State) (a : ArrayUnit) : Option Schedule :=
  a.waiting.findSome? (fun c =>
    match c with
    | .schedule x => if scheduleForked s x && needsWords s x then some x else none
    | _ => none)

/-- The words of a waiting schedule as its fetch brought them. -/
def keepWords (s : State) (arr : Nat) (x : Schedule) (bs : List Byte) : State :=
  let a := arrayOf s arr
  setArray s arr { a with waiting := a.waiting.map (fun c =>
    match c with
    | .schedule y => if y.arrival == x.arrival then .schedule { y with words := some bs } else c
    | c => c) }

/-- The engine read at a schedule's fork, of its header and every gate word (R211). -/
def fetchWords (s : State) (arr : Nat) (x : Schedule) : State :=
  match scheduleJob s x with
  | none => s
  | some j =>
    match engRead s j (cmdLocs j (jobVa j j.c.vb) j.c.payload) with
    | .wait s => s
    | .ok s bs => keepWords s arr x bs
    | .lost => keepWords s arr x []
    | .bad s => keepWords s arr x []

/-- The run of a schedule that is given a slot, after the checks of R211. -/
def startRun (s : State) (a : ArrayUnit) (x : Schedule) : Run :=
  match x.rom, x.words with
  | some w, _ => startRom a x w
  | none, none => if x.lo > x.hi then Run.refused x 1 0 else checkGates a x
  | none, some [] => Run.refused x 5 0
  | none, some bs => fetched a x bs (fun i => Config.freeNat (s.free * 1024 + i))

/-- A group of the core whose next schedule is still to be issued again (R63). -/
def owedSchedule (s : State) (core : Nat) : Option Nat :=
  (s.groups.find? (fun e => (s.teams.find e.2.team).any (fun t => t.core == core) && (headCmd e.2 3).any (·.owed))).map (·.1)

/-- A schedule whose fork has been made is fetched; one at the head of its idle array is given a slot and checked (R15, R211, R213). -/
def execScheduleStart (arr : Nat) (s : State) : Out :=
  let core := arr / 64
  let s := ((owedSchedule s core).map (reissueGroup s)).getD s
  let a := arrayOf s arr
  match unfetched s a with
  | some x => .next (fetchWords s arr x)
  | none =>
    match headSchedule a with
    | none => .next s
    | some x =>
      if (scheduleJob s x).isNone then .next (setArray s arr { a with waiting := a.waiting.drop 1 })
      else if !scheduleReady s x || !slotFree s core x then .next s
      else .next (beginRun (fresh s) arr (startRun s a x))

/-! ### One step of a running schedule (R209, R211, R213, R220) -/

/-- The array at a stop status, or at the end of the last pass: the end update follows when a gate has written. -/
def stopRun (a : ArrayUnit) (r : Run) (status : Nat) : ArrayUnit :=
  { a with run := some { r with stop := some status, endLeft := if r.wrote then 128 else 0 } }

/-- The gate is done: the next gate, the next pass, or the end. -/
def advance (a : ArrayUnit) (r : Run) (gates passes : Nat) (endPass : Bool) : ArrayUnit :=
  if !endPass && r.gate + 1 < gates then { a with run := some { r with gate := r.gate + 1 } }
  else if r.pass + 1 < passes then { a with run := some { r with gate := 0, pass := r.pass + 1 } }
  else stopRun a { r with gate := gates, pass := r.pass + 1 } 0

/-- The eight rows of a check or update step, with `left` steps to go. -/
def stepRows (left : Nat) : List Nat := (List.range 8).map (fun i => (128 - left) * 8 + i)

/-- One gate of a schedule in memory. -/
def stepGate (a : ArrayUnit) (r : Run) : ArrayUnit :=
  let x := r.sched
  let g := x.gates.getD r.gate 0
  if isEnd g then advance a r x.gates.length x.passes true
  else
    match phys a r (gateAxis g) (gateOut g) (decide (gateOp g ≤ 1)) with
    | .stop st => stopRun a r st
    | .line a' r' o =>
      match physIns a' r' (gateAxis g) ((gateIns g).take (gateArity (gateOp g))) with
      | .error st => stopRun a' r' st
      | .ok ins =>
        if ins.contains o then stopRun a' r' 2
        else
          let (a', r') := countGate (applyGate a' (gateAxis g) (gateOp g) o ins x.lo x.hi) r' (gateAxis g) o
          advance a' r' x.gates.length x.passes false

/-- A gate of a ROM schedule has written `line`; with the last gate D holds its results. -/
def romWrote (m : Rom) (v : Nat) (a : ArrayUnit) (r : Run) (line : Nat) : ArrayUnit :=
  let (a, r) := countGate (scramble v a line m.lo m.hi) r 0 line
  let a := if r.gate + 1 ≥ romGates m then romFinish m a r.tainted else a
  advance a r (romGates m) 1 false

/-- One gate of a ROM schedule. `v` gives the free bits, and `clash` whether a gate whose output is also one of its possible inputs under another
name reads it there: a scratch line that is an operand column, a D column that is a scratch line (R209; log 8). -/
def stepRom (w : W64) (v : Nat) (clash : Bool) (a : ArrayUnit) (r : Run) : ArrayUnit :=
  let m := romOf w
  match romGate m r with
  | .init =>
    let k := r.inits % romK m
    match phys a r 0 (960 + k) true with
    | .stop st => stopRun a r st
    | .line a r l =>
      romWrote m v a { r with inits := r.inits + 1, pend := r.pend ++ [k], tainted := if romOperand w l then lanes m.lo m.hi else r.tainted } l
  | .use k =>
    match phys a r 0 (960 + k) false with
    | .stop st => stopRun a r st
    | .line a r l => if romOperand w l && clash then stopRun a r 2 else romWrote m v a { r with pend := r.pend.erase k } l
  | .write i =>
    if (List.range (romK m)).any (fun k => a.map0.getD k none == some (romColumn m r i)) && clash then stopRun a r 2
    else romWrote m v a { r with left := r.left.modify i (· - 1) } (romColumn m r i)

/-- One gate step: of the start check, of a gate, or of the end update. The start check reads all 1024 rows in its 128 steps; what its last step finds
is what each found, for no ordinary write changes whether a row agrees (R219, R220). -/
def stepRun (a : ArrayUnit) (r : Run) (v : Nat) (clash : Bool) : ArrayUnit :=
  if r.endLeft > 0 then
    let b := (stepRows r.endLeft).foldl (fun b k => setCheck b k (rowCrc b k)) a
    { b with run := some { r with endLeft := r.endLeft - 1 } }
  else if r.stop.isSome then a
  else if r.checkLeft > 0 then
    let r' := { r with checkLeft := r.checkLeft - 1 }
    if r.checkLeft > 1 || (List.range 1024).all (rowGood a) then { a with run := some r' } else stopRun a r' 5
  else
    match r.sched.rom with
    | some w => stepRom w v clash a r
    | none => stepGate a r

/-- The stop status that a halt leaves: no record is delivered (R213). -/
def haltedStatus : Nat := 0x100

/-- A gate step is charged and counted on the array's core (R256, R262). -/
def chargeGate (s : State) (core ctx : Nat) : State :=
  let c := coreOf s core
  countCore (setCore s core { c with charge := c.charge + 13 }) core 11 ctx 1

/-- A gate boundary admits up to `n` waiting accesses: the writes in arrival order, then the reads (R216, R217). -/
def boundary (s : State) (arr n : Nat) : State :=
  let a := arrayOf s arr
  let s := setArray s arr ((a.asked.take n).foldl admitWrite { a with asked := a.asked.drop n })
  ((a.reads.take (n - a.asked.length)).map (· + arr * 2048)).foldl admitRead s

/-- Every waiting access is admitted: where the array pauses or stops (R216, R223). -/
def admitAll (s : State) (arr : Nat) : State := boundary s arr ((arrayOf s arr).asked.length + (arrayOf s arr).reads.length)

/-- The run has made its last step. -/
def Run.finished (r : Run) : Bool := r.stop.isSome && r.endLeft == 0

/-- One step of a sequencer: a step owed for an admitted access; else, at level 1 or above, the pause; else what waits is admitted, and where that
owes nothing, one gate step. A halt's end update goes on at any level (R216, R253, R256). -/
def execGateStep (arr : Nat) (s : State) : Out :=
  let a := arrayOf s arr
  match a.run with
  | none => .next s
  | some r =>
    if !arrayBusy a then .next s
    else if a.owed > 0 then .next (chargeGate (setArray s arr { a with owed := a.owed - 1 }) (arr / 64) r.sched.ctx)
    else if a.st != .running || r.finished then .next s
    else if allowLevel s (arr / 64) ≥ 1 && r.stop != some haltedStatus then .next (admitAll (setArray s arr { a with st := .paused }) arr)
    else
      let t := boundary s arr (4 - a.admits)
      let b := arrayOf t arr
      match b.run with
      | none => .next t
      | some q =>
        if b.owed > 0 then .next t
        else
          let c := stepRun { b with admits := 0 } q (Config.freeNat t.free) (Config.freeBool t.free)
          .next (chargeGate (setArray (fresh t) arr c) (arr / 64) q.sched.ctx)

/-- A PAUSED schedule goes on when the level has fallen to 0; a SUSPENDED one when its team is placed and a slot is free, with its start check
first (R213, R220). -/
def execScheduleResume (arr : Nat) (s : State) : Out :=
  let a := arrayOf s arr
  if a.st == .paused && allowLevel s (arr / 64) == 0 then .next (setArray s arr { a with st := .running })
  else
    match suspendedReady s a with
    | some x =>
      if slotFree s (arr / 64) x then
        .next (setArray s arr { a with
          st := .running, run := a.run.map (fun r => { r with checkLeft := if x.scrub || r.stop.isSome then 0 else 128 }) })
      else .next s
    | none => .next s

/-! ### The end of a schedule (R212, R213, R217) -/

/-- The held writes reach the cells in arrival order. -/
def applyHeld (s : State) (arr : Nat) (l : List (List Host.Cell)) : State :=
  l.foldl (fun s ws => setBacking s .array (ws.map (fun w => (arr * 2 ^ 17 + w.1, w.2)))) s

/-- The record of R212 below its status. -/
def scheduleRecord (r : Run) : Nat := r.gate % 2 ^ 11 * 2 ^ 29 + r.pass % 2 ^ 8 * 2 ^ 21 + min r.remaps 255 * 2 ^ 13

/-- The array is IDLE again, with its held writes applied, and then the writes that still waited for admission; a read that waited meets the cells
of an IDLE array. The manual does not say whether such a write counts as one to an IDLE array: here it does, and one that meets a failing row, which
only a schedule without an end update leaves, appends a record (R217, R219; log 82). -/
def endRun (s : State) (arr : Nat) : State :=
  let a := arrayOf s arr
  applyHeld (setArray s arr { a with st := .idle, run := none, heldWrites := [], asked := [], reads := [], admits := 0 }) arr (a.heldWrites ++ a.asked)

/-- The accesses that the last boundary still admits: at most four of a RUNNING array (R216). -/
def lastBoundary (a : ArrayUnit) : Bool := (!a.asked.isEmpty || !a.reads.isEmpty) && (a.st == .paused || decide (a.admits < 4))

def execScheduleEnd (arr : Nat) (s : State) : Out :=
  let a := arrayOf s arr
  match a.run with
  | none => .next s
  | some r =>
    match r.stop with
    | none => .next s
    | some st =>
      if !arrayBusy a || r.endLeft > 0 || a.owed > 0 then .next s
      else if lastBoundary a then .next (if a.st == .paused then admitAll s arr else boundary s arr (4 - a.admits))
      else
        let s := endRun s arr
        if st == haltedStatus then .next (stampStop s r.sched.ctx (arr / 64) 3)
        else
          match scheduleJob s r.sched with
          | some j => .next (finishCmd s j.gid 3 j.c st (scheduleRecord r))
          | none => .next s

/-! ### Admitting reads (R216) -/

/-- A waiting write touches the sector: it reaches the cells first. -/
def writeAsked (a : ArrayUnit) (sec : Nat) : Bool := a.asked.any (fun ws => ws.any (fun w => w.1 / 64 == sec))

/-- A waiting read of a sector of the window is admitted: at most four accesses at each boundary of a RUNNING array; a PAUSED one admits every
access. -/
def execArrayReadAdmit (arr idx : Nat) (s : State) : Out :=
  let a := arrayOf s arr
  if !a.reads.contains idx || writeAsked a idx || (a.st == .running && a.admits ≥ 4) then .next s
  else .next (admitRead s (arr * 2048 + idx))

/-! ### Configuration (R205, R206) -/

/-- Replaces a field of the configuration word. -/
def setCfg (a : ArrayUnit) (lo n v : Nat) : ArrayUnit := { a with cfg := BitVec.ofNat 64 (putBits a.cfg.toNat lo n v) }

def applyConfig (a : ArrayUnit) (c : ArrayCmd) : ArrayUnit :=
  match c with
  | .schedule _ => a
  | .xcfg g => setCfg a 12 2 g
  | .xpool x base count =>
    let b := if x == 0 then setCfg (setCfg a 38 10 base) 31 7 count else setCfg (setCfg a 21 10 base) 14 7 count
    setMap b x (List.replicate 64 none)
  | .xration n => setCfg a 48 16 n

/-- A configuration command at the head takes effect once no schedule runs. -/
def execArrayConfigApply (arr : Nat) (s : State) : Out :=
  let a := arrayOf s arr
  if a.run.isSome then .next s
  else
    match a.waiting with
    | [] => .next s
    | .schedule _ :: _ => .next s
    | c :: rest => .next (setArray s arr (applyConfig { a with waiting := rest } c))

end Sys2Proof.Machine
end

