-- ==== Sys2Proof/Machine/Fetch.lean ====
section
/-! DEFINITION. How a group starts (spec/05_kernel.md R81), what a step runs next (log 1), and how a program is put where the next step fetches
it (log 11). -/

namespace Sys2Proof.Machine

/-! ### Group start state (R81) -/

def Region.closed : Region :=
  { isOpen := false, p := 0, q := 0, reentry := 0, fpmSnap := 0, sigSnap := 0, lines := [], tallocs := [], tfrees := [], reopen := none }

/-- A sub-group with every lane live at `pc`. -/
def Sub.start (pc : VAddr) : Sub :=
  { node := 1, pc := pc, em := BitVec.allOnes 64, live := BitVec.allOnes 64, regionPc := 0, st := .runnable, handler := none, barsPc := 0, walked := [], cutAtFuse := false }

/-- A group at its start. -/
def Group.start (team num part : Nat) (consumer : Bool) (v n : Nat) (pc : VAddr) (a0 a1 a2 : W64) : Group :=
  { team := team, num := num, part := part, consumer := consumer, v := v, s := n
    vregs := List.replicate v VReg.zero
    sregs := (([a0, a1, a2].map (fun x => { val := x, full := true : SReg })) ++ List.replicate (n - 3) SReg.zero).take n
    preds := List.replicate 7 0, fl := List.replicate 5 0, fpm := 0, sig := 0, region := .closed
    storeQ := [], inflight := [], queues := List.replicate 5 [], fenceRel := none, lastRead := (0, []), rangeOps := [], deferred := [], splits := []
    subs := [Sub.start pc], seq := 0 }

/-! ### What runs next -/

/-- A device step that may take place by itself: an instruction, and a marked word at issue, run only from the fetch. -/
def Instr.deviceStep (i : Instr) : Bool :=
  i.word?.isNone && i.two?.isNone && i.four?.isNone &&
  (match i with
   | .illegalWordIssue _ => false
   | .fetchFaultIssue _ => false
   | _ => true)

/-- What the machine does next: run an instruction or a device step in a state, or pass to a state. -/
inductive Take where
  | run (i : Instr) (s : State)
  | stay (s : State)
deriving DecidableEq, Repr

/-- A sub-group's issue: its instruction comes from the I-cache or is filled. -/
def takeIssue (s : State) : Take :=
  match envOf s with
  | none => .stay s
  | some e =>
    match fetchAt s e with
    | .wait s => .stay s
    | .word s (.instr i _) => .run i s
    | .word s (.illegal n) => .run (.illegalWordIssue n) s
    | .word s (.faulted n) => .run (.fetchFaultIssue n) s

/-- The next thing to happen. Where nothing is chosen, the free choice of log 1 is taken. -/
def takeNext (s : State) : Take :=
  match s.turn with
  | none => .stay { s with turn := some (Config.pick s.picks), picks := s.picks + 1 }
  | some (.issue gid node) => takeIssue { s with turn := none, cur := (gid, node) }
  | some (.device i) => if Instr.deviceStep i then .run i { s with turn := none } else .stay { s with turn := none }

/-! ### Placing a program (log 11) -/

/-- A page-table entry's 16 bytes. -/
def tableEntry (pa flags : Nat) : List Byte := leBytes 16 (pa * 2 ^ 32 + flags)

/-- The tables of the placed program: one page of code and data at virtual page 1. -/
def placedTables : List (Nat × List Byte) :=
  [(0x100000, tableEntry 0x120000 1), (0x120000, tableEntry 0x140000 1), (0x140000, tableEntry 0x160000 1), (0x160000, tableEntry 0x180000 1),
   (0x180010, tableEntry 0x200000 0x1F)]

def placedPc : VAddr := 0x10000

def placedDesc : CtxDesc :=
  { ptRoot := 0x100000, saveBase := 0, teamSlot := 1, slots := 0, stopBase := 0, stopSlots := 2, haltDump := false, trapBase := 0, trapEnable := 0 }

def placedLaunch : LaunchRec :=
  { code := placedPc, nx := 1, ny := 1, nz := 1, pCount := 1, cCount := 0, pV := 128, cV := 8, pS := 64, cS := 16, scratch := 64, tiles := 8
    acc := 4, barriers := 4, prio := 0, reentryMax := 0, sigEn := false, phase := 0, arg0 := 0, arg1 := 0, arg2 := 0, done := 0, doneValue := 0 }

def placedTeam : Team :=
  { ctx := 0, kernel := 0, index := 0, x := 0, y := 0, z := 0, core := 0, launch := placedLaunch, hi := 0, recAddr := 0, cont := false, delay := 0
    fresh := false, order := 0, evicting := false, scratch := [], tiles := List.replicate 8 Tile.freed
    barriers := List.replicate 4 { count := 0, arrived := 0, par := false }, accs := [0, 1, 2, 3]
    freeing := [] }

def placedKernel : Kernel :=
  { ctx := 0, addr := 0, launch := placedLaunch, st := .running, order := 0, next := 1, unplaced := [], saved := [], masks := [], exited := 0, cores := [0]
    home := none, cont := none, queue := none }

/-- The translation of the placed page, as a walk of `placedTables` gives it. -/
def placedTrans : Trans :=
  { ctx := 0, also := [], vpn := 1, span := 1, pa := 0x200000, kind := .normal, cache := 0, port := 0, r := true, w := true, x := true, g := false }

/-- The machine with the bytes of one instruction, zeros behind them, at the PC of group 0 of team 0 on core 0, which issues next; the core's
TLB holds its page. -/
def placeProgram (s : State) (bs : List Byte) : State :=
  let put : State → Nat → List Byte → State := fun s a bs => writeHome s (bs.mapIdx (fun i b => (hubLoc (a + i), b)))
  let s := placedTables.foldl (fun s e => put s e.1 e.2) s
  let s := put s 0x200000 bs
  let s := { s with
    status := .ready, turn := some (.issue 0 1)
    poisoned := s.poisoned.filter (fun p => p.1 != .dram)
    contexts := s.contexts.insert 0
      { st := .running, desc := placedDesc, raised := [], taken := [], held := [], pendingCmd := none, recreated := false, drained := [], slotsKept := [] }
    kernels := s.kernels.insert 0 placedKernel
    teams := s.teams.insert 0 placedTeam
    groups := s.groups.insert 0 (Group.start 0 0 0 false 128 64 placedPc 0 0 0)
    turns := { ready := [(0, 1, 0), (0, 1, 1), (0, 1, 2), (0, 1, 3)], groups := [], slots := [] }
    power := { s.power with powerStep := s.power.powerStep.setWidth 48 |>.setWidth 64 } }
  let c := coreOf s 0
  setCore s 0 { c with icache := c.icache.filter (fun x => x.ctx != 0), tlb := [placedTrans], level := 0 }

end Sys2Proof.Machine
end

