-- ==== Sys2Proof/Machine/Images.lean ====
section
/-! DEFINITION. Team images: what eviction, a halt's dump and the drain write, and what placement reads back (spec/03_context.md R56 to R59,
R63, R64, spec/10_tile.md R168, R172, R173, spec/24_prog_region.md R398). -/

namespace Sys2Proof.Machine

/-! ### Writing (R57, R58) -/

/-- The 32 bytes of a tile entry (R168). -/
def tileEntry (t : Tile) : List Byte :=
  leBytes 1 (stateCode t.st) ++ leBytes 1 t.tag ++ leBytes 1 t.rows ++ leBytes 1 t.cols ++ leBytes 4 t.data ++ leBytes 4 t.scale ++
  leBytes 4 t.pitch ++ leBytes 1 t.chkValid.toNat ++ List.replicate 15 0

/-- The 512 bytes of a tile's checksums (R172). -/
def tileSums (t : Tile) : List Byte := (t.rowSums ++ t.colSums).flatMap (fun x => leBytes 4 x.toNat)

/-- An accumulator tile, row-major. -/
def accBytes (a : Map W32) : List Byte := (List.range 4096).flatMap (fun i => leBytes 4 ((Map.find a i).getD 0).toNat)

/-- A value with bit `i` set where `p i` holds, for i below `n`. -/
def bitSet (n : Nat) (p : Nat → Bool) : Nat := (List.range n).foldl (fun a i => a + (p i).toNat * 2 ^ i) 0

/-- A sub-group entry. -/
def subEntry (x : Sub) : List Byte :=
  let atFuse := match x.st with
    | .atFuse _ => true
    | _ => false
  leBytes 16 x.regionPc.toNat ++ leBytes 8 x.em.toNat ++ leBytes 8 x.live.toNat ++ leBytes 2 x.node ++ leBytes 2 (x.node / 2) ++
  leBytes 1 (Nat.log2 x.node) ++ leBytes 1 (atFuse.toNat + 2 * (x.st == .exited).toNat) ++ List.replicate 10 0

/-- The occupied entries of a queue whose records have arrived and have not been popped (R77). -/
def unpopped (q : List Command) : List Command := q.filter (fun c => c.st == .done && !c.popped)

/-- The 16 slots of a queue's unpopped records. -/
def recordSlots (q : List Command) : List Byte :=
  let l := ((unpopped q).take 16).flatMap (fun c => leBytes 8 (recordOf c).toNat)
  l ++ List.replicate (128 - l.length) 0

/-- A group record (R58, R398). -/
def groupRecord (g : Group) : List Byte :=
  leBytes 1 g.num ++ leBytes 1 g.consumer.toNat ++ leBytes 1 g.v ++ leBytes 1 g.s ++
  leBytes 1 g.region.p ++ leBytes 1 g.region.q ++ leBytes 1 g.region.reentry.toNat ++ leBytes 1 g.subs.length ++
  leBytes 8 (((g.queues.mapIdx (fun i q => q.length % 32 * 2 ^ (5 * i))).foldl (· + ·) 0) + g.region.isOpen.toNat * 2 ^ 32) ++
  leBytes 4 g.sig.toNat ++ leBytes 4 g.fpm.toNat ++ g.preds.flatMap (fun x => leBytes 8 x.toNat) ++ g.fl.flatMap (fun x => leBytes 8 x.toNat) ++
  leBytes 64 ((g.vregs.mapIdx (fun i r => r.tag.toNat * 2 ^ (4 * i))).foldl (· + ·) 0) ++
  leBytes 16 (bitSet g.v (fun i => (vreg g i).full)) ++ leBytes 8 (bitSet g.s (fun i => (sreg g i).full)) ++
  g.queues.flatMap recordSlots ++ g.subs.flatMap subEntry ++ g.sregs.flatMap (fun r => leBytes 8 r.val.toNat) ++
  g.vregs.flatMap (fun r => r.lanes.flatMap (fun x => leBytes 4 x.toNat))

/-- The kinds of image (R57). -/
inductive ImageKind where
  | saved | dump | drained
deriving DecidableEq, Repr

def ImageKind.code : ImageKind → Nat
  | .saved => 1 | .dump => 2 | .drained => 3

/-- The tiles that a team holds. -/
def heldTiles (t : Team) : List Nat := (List.range t.tiles.length).filter (fun i => (tileOf t i).st != .free)

/-- A team's image with a WORK area, which only a drained image has. -/
def teamImage (s : State) (id : Nat) (t : Team) (kind : ImageKind) (work : List Byte) : List Byte :=
  let held := heldTiles t
  let groups := (teamGroups s id).map (·.2)
  let entries := match kind with
    | .drained => held.flatMap (fun i => tileEntry (tileOf t i)) ++ held.flatMap (fun i => tileSums (tileOf t i))
    | _ =>
      let zero : Nat → List Byte := fun n => List.replicate n 0
      ((List.range 64).flatMap (fun i => if held.contains i then tileEntry (tileOf t i) else zero 32)) ++
      ((List.range 64).flatMap (fun i => if held.contains i then tileSums (tileOf t i) else zero 512))
  let bars := (List.range 16).flatMap (fun i =>
    let b := t.barriers.getD i { count := 0, arrived := 0, par := false }
    leBytes 8 (b.count.toNat + b.arrived.toNat * 2 ^ 8 + b.par.toNat * 2 ^ 16))
  let shape := (if t.cont then 1 else t.launch.pCount) + (if t.cont then 0 else t.launch.cCount) * 2 ^ 8 + t.launch.scratch * 2 ^ 16
  let body := leBytes 16 t.recAddr.toNat ++ leBytes 4 t.x ++ leBytes 4 t.y ++ leBytes 4 t.z ++ leBytes 4 shape ++
    leBytes 8 (bitSet 64 (fun i => held.contains i)) ++ leBytes 2 (2 ^ t.accs.length - 1) ++ List.replicate 198 0 ++ bars ++ entries ++
    t.accs.flatMap (fun h => accBytes (accTile s t.core h).data) ++ t.scratch.readBytes 0 (t.launch.scratch * 1024) ++
    groups.flatMap groupRecord ++ work
  let rest := leBytes 8 (body.length + 16) ++ body
  leBytes 4 kind.code ++ leBytes 4 (crc32c rest) ++ rest

/-! ### Reading (R58, R59, R63) -/

/-- The little-endian value of `n` bytes at offset `o`. -/
def imgLe (b : Nat → Byte) (o n : Nat) : Nat := leValue ((List.range n).map (fun i => b (o + i)))

/-- The image's CRC agrees with its bytes, and its length is one that the place can hold. -/
def imageIntact (b : Nat → Byte) (room : Nat) : Bool :=
  let n := imgLe b 8 8
  decide (0x180 ≤ n) && decide (n ≤ room) && imgLe b 4 4 == crc32c ((List.range (n - 8)).map (fun i => b (8 + i)))

def readTile (b : Nat → Byte) (o sums : Nat) : Tile :=
  { st := match imgLe b o 1 with
      | 1 => .empty
      | 2 => .filling
      | 3 => .ready
      | 4 => .draining
      | _ => .free
    tag := imgLe b (o + 1) 1, rows := imgLe b (o + 2) 1, cols := imgLe b (o + 3) 1, data := imgLe b (o + 4) 4, scale := imgLe b (o + 8) 4
    pitch := imgLe b (o + 12) 4, chkValid := bitAt (imgLe b (o + 16) 1) 0
    rowSums := (List.range 64).map (fun i => BitVec.ofNat 32 (imgLe b (sums + 4 * i) 4))
    colSums := (List.range 64).map (fun i => BitVec.ofNat 32 (imgLe b (sums + 256 + 4 * i) 4)) }

/-- A command that stands for an unpopped record. -/
def restoredCmd (seq : Nat) (rec_ : Nat) : Command :=
  { seq := seq, pc := 0, node := 1, op := .nop, fields := {}, vd := 0, va := 0, vb := 0, tag := BitVec.ofNat 16 (bits rec_ 63 48), pages := []
    owed := false, region := false, waitCommit := false, popped := false, st := .done, status := bits rec_ 47 40, payload := bits rec_ 39 0, progress := 0
    holding := false, tilesAt := [], buf := [], bad := [], ops := [], before := [] }

/-- A sub-group from its entry. One that stands at its `fuse` has its REGION_PC there: in an OPEN group an eviction leaves no other so (R58, R109). -/
def readSub (b : Nat → Byte) (o : Nat) : Sub :=
  let fl := imgLe b (o + 37) 1
  let pc : VAddr := BitVec.ofNat 80 (imgLe b o 16)
  { node := imgLe b (o + 32) 2, pc := pc, em := BitVec.ofNat 64 (imgLe b (o + 16) 8), live := BitVec.ofNat 64 (imgLe b (o + 24) 8), regionPc := pc
    st := if bitAt fl 1 then .exited else if bitAt fl 0 then .atFuse 0 else .runnable, handler := none, barsPc := 0, walked := [], cutAtFuse := bitAt fl 0 && !bitAt fl 1 }

/-- The proper ancestors of a node. -/
def ancestors (n : Nat) : List Nat := ((List.range 9).map (fun k => n >>> (k + 1))).filter (· != 0)

/-- The split nodes of an image's sub-groups, with a LIVE for each: all ones for node 1 (R94); the image has no field for another node's, so that
its descendants' lanes stand there until `withMasks` gives the one that the node had (R58, R95; log 32). -/
def splitsOf (subs : List Sub) : Map Mask :=
  subs.foldl (fun m x => (ancestors x.node).foldl (fun m a =>
    m.insert a (if a == 1 then BitVec.allOnes 64 else (m.find a).getD 0 ||| x.live)) m) []

/-- The group of the record at offset `o`, for a team on a partition; every sub-group starts at its REGION_PC (R59),
with no deferred error, of which the record says nothing (log 83). -/
def readGroup (b : Nat → Byte) (o team part : Nat) : Group :=
  let v := imgLe b (o + 2) 1
  let n := imgLe b (o + 3) 1
  let pend := imgLe b (o + 8) 8
  let subs := (List.range (imgLe b (o + 7) 1)).map (fun i => readSub b (o + 0x350 + 48 * i))
  let so := o + 0x350 + 48 * imgLe b (o + 7) 1
  let vo := so + 8 * n
  let sig : W32 := BitVec.ofNat 32 (imgLe b (o + 16) 4)
  let fpm : BitVec 3 := BitVec.ofNat 3 (imgLe b (o + 20) 4)
  let tags := imgLe b (o + 0x78) 64
  let vfull := imgLe b (o + 0xB8) 16
  let sfull := imgLe b (o + 0xC8) 8
  { team := team, num := imgLe b o 1, part := part, consumer := bitAt (imgLe b (o + 1) 1) 0, v := v, s := n
    vregs := (List.range v).map (fun i =>
      { lanes := (List.range 64).map (fun l => BitVec.ofNat 32 (imgLe b (vo + 256 * i + 4 * l) 4)), tag := BitVec.ofNat 4 (bits tags (4 * i + 3) (4 * i))
        full := bitAt vfull i })
    sregs := (List.range n).map (fun i => { val := BitVec.ofNat 64 (imgLe b (so + 8 * i) 8), full := bitAt sfull i })
    preds := (List.range 7).map (fun i => BitVec.ofNat 64 (imgLe b (o + 0x18 + 8 * i) 8))
    fl := (List.range 5).map (fun i => BitVec.ofNat 64 (imgLe b (o + 0x50 + 8 * i) 8)), fpm := fpm, sig := sig
    region := { isOpen := bitAt pend 32, p := imgLe b (o + 4) 1, q := imgLe b (o + 5) 1, reentry := BitVec.ofNat 8 (imgLe b (o + 6) 1), fpmSnap := fpm
                sigSnap := sig, lines := [], tallocs := [], tfrees := [], reopen := none }
    storeQ := [], inflight := []
    queues := (List.range 5).map (fun q =>
      (List.range (min 16 (bits pend (5 * q + 4) (5 * q)))).map (fun i => restoredCmd (16 * q + i) (imgLe b (o + 0xD0 + 128 * q + 8 * i) 8)))
    fenceRel := none, lastRead := (0, []), rangeOps := [], deferred := [], splits := splitsOf subs, subs := subs, seq := 80 }

/-- The LIVE of every split node of a team's groups stays with the kernel while the team has no place (R58; log 32). -/
def kernelMasks (k : Kernel) (index : Nat) (gs : List (Nat × Group)) : Kernel :=
  { k with masks := k.masks.filter (fun m => m.1 != index) ++ gs.map (fun e => (index, e.2.num, e.2.splits)) }

/-- A group read back, its split nodes with the LIVE that they had: an eviction changes nothing of them (R58). -/
def withMasks (k : Kernel) (index : Nat) (g : Group) : Group :=
  match k.masks.find? (fun m => m.1 == index && m.2.1 == g.num) with
  | some m => { g with splits := g.splits.map (fun e => (e.1, (m.2.2.find e.1).getD e.2)) }
  | none => g

/-- The length of the group record at an offset. -/
def groupLen (b : Nat → Byte) (o : Nat) : Nat := 0x350 + 48 * imgLe b (o + 7) 1 + 8 * imgLe b (o + 3) 1 + 256 * imgLe b (o + 2) 1

/-- The offsets of `n` group records from `o`, and the end of the last. -/
def groupOffsets (b : Nat → Byte) : Nat → Nat → List Nat × Nat
  | 0, o => ([], o)
  | n + 1, o =>
    let (l, e) := groupOffsets b n (o + groupLen b o)
    (o :: l, e)

/-- The offsets of an image's areas: tile entries and checksums by tile, accumulator tiles, scratchpad, groups. -/
structure Layout where
  entry : Nat → Nat
  sums : Nat → Nat
  accs : Nat
  scratch : Nat
  groups : Nat

def layoutOf (b : Nat → Byte) (accs scratch : Nat) : Layout :=
  let drained := imgLe b 0 4 == 3
  let tiles := imgLe b 0x30 8
  let rank : Nat → Nat := fun i => ((List.range i).filter (fun j => bitAt tiles j)).length
  let n := if drained then rank 64 else 64
  let at_ : Nat → Nat := fun i => if drained then rank i else i
  let a := 0x180 + n * 544
  { entry := fun i => 0x180 + 32 * at_ i, sums := fun i => 0x180 + 32 * n + 512 * at_ i, accs := a, scratch := a + accs * 16384
    groups := a + accs * 16384 + scratch * 1024 }

/-- The tile table of a team from its image. -/
def imageTiles (b : Nat → Byte) (l : Layout) (n : Nat) : List Tile :=
  (List.range n).map (fun i => if bitAt (imgLe b 0x30 8) i then readTile b (l.entry i) (l.sums i) else Tile.freed)

def imageBarriers (b : Nat → Byte) (n : Nat) : List Barrier :=
  (List.range n).map (fun i =>
    let x := imgLe b (0x100 + 8 * i) 8
    { count := BitVec.ofNat 8 (bits x 7 0), arrived := BitVec.ofNat 8 (bits x 15 8), par := bitAt x 16 })

/-- An accumulator tile from an image. -/
def imageAcc (b : Nat → Byte) (o : Nat) : Map W32 :=
  (List.range 4096).foldl (fun a i => accWrite a (i / 64) (i % 64) (BitVec.ofNat 32 (imgLe b (o + 4 * i) 4))) []

/-! ### Where images lie (R57, R62, R64) -/

/-- The address of a team slot. -/
def slotAddr (d : CtxDesc) (k : Nat) : Nat := d.saveBase + k * d.teamSlot * 4096

/-- An image's bytes in a team slot, as their home slices hold them. -/
def slotByte (s : State) (d : CtxDesc) (k : Nat) : Nat → Byte := fun o => hubByte s (slotAddr d k + o)

/-- The slot's image is read without an uncorrectable error. -/
def slotGood (s : State) (d : CtxDesc) (k : Nat) : Bool :=
  let a := slotAddr d k
  imageIntact (slotByte s d k) (d.teamSlot * 4096) &&
  (List.range ((imgLe (slotByte s d k) 8 8 + 63) / 64)).all (fun i => !sectorBad s (hubSpace (a + 64 * i)) (physAddr (a + 64 * i) / 64))

/-- The slots that hold saved teams of the context. -/
def savedSlots (s : State) (ctx : Nat) : List Nat :=
  (s.kernels.filter (fun e => e.2.ctx == ctx)).flatMap (fun e => e.2.saved.filterMap (·.2))

/-- The hub cannot read the slot now: it lies in host memory, whose port trains, or behind a link that does (R240). -/
def slotHeld (s : State) (c : Context) (slot : Option Nat) : Bool := slot.any (fun k => hubHeld s (slotAddr c.desc k))

/-- What reading the slot does at its home slices (R155, R163, R237). -/
def slotFetch (s : State) (ctx : Nat) (c : Context) (slot : Option Nat) : State :=
  match slot with
  | some k => hubFetch s ctx (slotAddr c.desc k) (min (imgLe (slotByte s c.desc k) 8 8) (c.desc.teamSlot * 4096))
  | none => s

/-- The lowest-numbered free slot, as the hub keeps account of them: no saved team's, and none that a halt has kept or filled (R45, R52,
R399; log 31). -/
def freeSlot (s : State) (ctx : Nat) (c : Context) : Option Nat :=
  (List.range c.desc.slots).find? (fun k => !(savedSlots s ctx).contains k && !c.slotsKept.contains k)

/-- A core's drain stream runs through arrays 48 to 63, then 47 downward. -/
def streamArray (n : Nat) : Nat := if n < 16 then 48 + n else 63 - n
def streamIndex (arr : Nat) : Nat := if arr ≥ 48 then arr - 48 else 63 - arr

/-- Byte `p` of a core's drain stream, which fills each array row by row (log 16). -/
def streamByte (s : State) (core p : Nat) : Byte :=
  BitVec.ofNat 8 (bits (rowOf (arrayOf s (core * 64 + streamArray (p / 2 ^ 17))) (p % 2 ^ 17 / 128)) (8 * (p % 128) + 7) (8 * (p % 128)))

/-- Bytes written into a core's drain stream, with the check columns of their rows. -/
def writeStream (s : State) (core p : Nat) : List Byte → State
  | [] => s
  | x :: xs =>
    let k := core * 64 + streamArray (p / 2 ^ 17)
    let a := arrayOf s k
    let r := p % 2 ^ 17 / 128
    let a := setRow a r (putBits (rowOf a r) (8 * (p % 128)) 8 x.toNat)
    writeStream (setArray s k (setCheck a r (rowCrc a r))) core (p + 1) xs

/-- A drained image's bytes. -/
def drainedByte (s : State) (d : DrainedTeam) : Nat → Byte := fun o => streamByte s d.core (streamIndex d.arr * 2 ^ 17 + d.offset + o)

/-- Where a saved team's image is read from, when it reads without error. -/
def imageOf (s : State) (c : Context) (kernel index : Nat) (slot : Option Nat) : Option (Nat → Byte) :=
  match slot with
  | some k => if slotGood s c.desc k then some (slotByte s c.desc k) else none
  | none =>
    match c.drained.find? (fun d => d.kernel == kernel && d.index == index) with
    | some d => if !d.lost && imageIntact (drainedByte s d) d.length then some (drainedByte s d) else none
    | none => none

/-! ### Work records (R63) -/

/-- The internal word of an instruction (R275). -/
def internalWord (op : Op) (f : Fields) : Nat := ((encodeF op { f with form := .f13 }).getD 0) % 2 ^ 96

/-- A command to be issued again whole. -/
def workRecord (g : Group) (q pos : Nat) (c : Command) : List Byte :=
  leBytes 1 q ++ leBytes 1 0 ++ leBytes 1 g.num ++ leBytes 1 pos ++ List.replicate 4 0 ++ leBytes 12 (internalWord c.op c.fields) ++ List.replicate 4 0 ++
  (List.range 4).flatMap (fun i => leBytes 8 (c.ops.getD i 0).toNat) ++ List.replicate 8 0

/-- A schedule to be continued on its array. -/
def scheduleWork (g : Group) (pos : Nat) (c : Command) (arr : Nat) (r : Run) : List Byte :=
  leBytes 1 3 ++ leBytes 1 1 ++ leBytes 1 g.num ++ leBytes 1 pos ++ List.replicate 4 0 ++ leBytes 12 (internalWord c.op c.fields) ++
  List.replicate 4 0 ++ (List.range 4).flatMap (fun i => leBytes 8 (c.ops.getD i 0).toNat) ++
  leBytes 4 (r.gate % 2 ^ 11 + r.pass % 2 ^ 8 * 2 ^ 11 + min r.remaps 255 * 2 ^ 19) ++
  leBytes 4 (arr % 64 + arr / 64 % 128 * 2 ^ 6 + arr / 8192 * 2 ^ 13)

end Sys2Proof.Machine
end

