-- ==== Sys2Proof/Machine/Teams.lean ====
section
/-! DEFINITION. Kernels and teams: launch records, placement, eviction, retirement and continuations (spec/05_kernel.md R78 to R89,
spec/03_context.md R55, R56, R59, R63, spec/04_queue.md R74, spec/01_machine.md R16 to R21, spec/24_prog_region.md R396). -/

namespace Sys2Proof.Machine

/-! ### The hub's accesses by virtual address -/

/-- How the hub's translation of an address ends. -/
inductive HubX where
  | ok (l : Loc)
  | bad
  | beyond
deriving DecidableEq, Repr

/-- An address of a context, with the permission that an access needs; any failure is one result (R72, R79, R80, R89). -/
def hubXlat (s : State) (ctx : Nat) (va : VAddr) (kind : Access) : HubX :=
  match walk s ctx va.toNat with
  | .leaf t => if permitted s kind t va.toNat then .ok (t.loc va.toNat) else .bad
  | .beyond => .beyond
  | _ => .bad

/-- An event that the hub raises itself (R49, R50). -/
def hubEvent (cause : Nat) (addr : VAddr) : Event :=
  { cause := cause, gid := none, die := 0xFF, core := 0xFFFF, team := 0, group := 0xFF, flags := 1, reentry := 0, pc := 0, addr := addr, cycle := 0 }

/-- The context's halt line is to be raised for an event of the hub. -/
def hubRaise (s : State) (ctx cause : Nat) (addr : VAddr) : State :=
  match s.contexts.find ctx with
  | some c => setCtx s ctx { c with raised := c.raised ++ [hubEvent cause addr] }
  | none => s

/-! ### Launch records (R78, R80) -/

def readLaunch (b : Nat → Byte) : LaunchRec :=
  let n := imgLe b
  { code := BitVec.ofNat 80 (n 0 16), nx := n 0x10 4, ny := n 0x14 4, nz := n 0x18 4, pCount := n 0x1C 1, cCount := n 0x1D 1, pV := n 0x1E 1
    cV := n 0x1F 1, pS := n 0x20 1, cS := n 0x21 1, scratch := n 0x22 2, tiles := n 0x24 1, acc := n 0x25 1, barriers := n 0x26 1, prio := n 0x27 1
    reentryMax := n 0x28 1, sigEn := bitAt (n 0x29 1) 0, phase := n 0x2A 1, arg0 := BitVec.ofNat 64 (n 0x30 8), arg1 := BitVec.ofNat 64 (n 0x38 8)
    arg2 := BitVec.ofNat 64 (n 0x40 8), done := BitVec.ofNat 80 (n 0x48 16), doneValue := BitVec.ofNat 64 (n 0x58 8) }

def goodV (v : Nat) : Bool := decide (8 ≤ v) && decide (v ≤ 128) && v % 8 == 0
def goodS (v : Nat) : Bool := v == 16 || v == 32 || v == 48 || v == 64

/-- The record follows R78 in every field, or in the fields that a continuation uses and the reserved ones. -/
def launchGood (b : Nat → Byte) (cont : Bool) : Bool :=
  let r := readLaunch b
  imgLe b 10 6 == 0 && imgLe b 0x2B 5 == 0 && imgLe b 0x60 16 == 0 && imgLe b 0x70 16 == 0 && decide (imgLe b 0x29 1 < 2) && decide (r.phase < 8) &&
  decide (r.prio < 8) && decide (r.scratch ≤ 512) && decide (r.tiles ≤ 64) && decide (r.acc ≤ 16) && decide (r.barriers ≤ 16) &&
  (if cont then goodV r.pV && goodS r.pS
   else
     decide (1 ≤ r.nx) && decide (1 ≤ r.ny) && decide (1 ≤ r.nz) && decide (r.nx * r.ny * r.nz ≤ 2 ^ 32) && decide (r.pCount ≤ 16) &&
     decide (r.cCount ≤ 16) && decide (1 ≤ r.pCount + r.cCount) && decide (r.pCount + r.cCount ≤ 16) && (r.pCount == 0 || (goodV r.pV && goodS r.pS)) &&
     (r.cCount == 0 || (goodV r.cV && goodS r.cS)) && imgLe b 0x52 6 == 0 && r.done.toNat % 8 == 0)

/-- A launch record as the hub reads it: a record, a record or address that breaks a rule, each with the state after the read, an address that no die
holds, or a wait. -/
inductive LaunchRead where
  | ok (s : State) (r : LaunchRec)
  | bad (s : State)
  | beyond
  | wait (s : State)
deriving DecidableEq, Repr

/-- What keeps the hub's access to a place waiting, with the state after its request: a pin, a hold, a port that trains, or, where `reads` holds,
admission to the cells (R191, R201, R216, R240). -/
def hubWaits (s : State) (l : Loc) (reads : Bool) : Option State :=
  if linePinned s l.space (l.addr / 256) none || lineHeld s l.space (l.addr / 256) 0 || portHeld s hubDie l then some s
  else if reads && sectorWaits s l.space (locSector l) then some (askRead s l)
  else none

/-- The hub's read of a launch record; poison in it makes the record a bad one (R79, R80; log 34). -/
def fetchLaunch (s : State) (ctx : Nat) (va : VAddr) (cont : Bool) : LaunchRead :=
  match hubXlat s ctx va .read with
  | .beyond => .beyond
  | .bad => .bad (hubWalkCodes s ctx va.toNat)
  | .ok l =>
    let half : Loc := { l with addr := l.addr + 64 }
    match (hubWaits s l true).or (hubWaits s half true) with
    | some s => .wait s
    | none =>
    let s := fillCodes (partyCrossing (hubWalkCodes s ctx va.toNat) .hub [l, half]) ctx [l, half]
    let b : Nat → Byte := fun o => newestByte s l.space (l.addr + o)
    if va.toNat % 128 != 0 || badLoc s l || badLoc s half || !launchGood b cont then .bad s else .ok s (readLaunch b)

/-! ### Resources of a core (R9, R18, R85) -/

/-- The teams that hold resources on a core, but for `gone`. -/
def residentOn (s : State) (core : Nat) (gone : List Nat) : List (Nat × Team) :=
  s.teams.filter (fun e => e.2.core == core && !gone.contains e.1 && !teamExited s e.1)

/-- The vector budget, scalar budget and count of the groups on a partition. -/
def partLoad (s : State) (core p : Nat) (gone : List Nat) : Nat × Nat × Nat :=
  let gs := ((residentOn s core gone).flatMap (fun e => teamGroups s e.1)).filter (fun e => e.2.part == p)
  ((gs.map (fun e => e.2.v)).foldl (· + ·) 0, (gs.map (fun e => e.2.s)).foldl (· + ·) 0, gs.length)

/-- Budgets of a team's producers; a continuation has one (R80). -/
def producerBudgets (r : LaunchRec) (cont : Bool) : List (Nat × Nat) := List.replicate (if cont then 1 else r.pCount) (r.pV, r.pS)

/-- Budgets of a team's consumers. -/
def consumerBudgets (r : LaunchRec) (cont : Bool) : List (Nat × Nat) := List.replicate (if cont then 0 else r.cCount) (r.cV, r.cS)

/-- Budgets of a team's groups: producers, then consumers (R17). -/
def teamBudgets (r : LaunchRec) (cont : Bool) : List (Nat × Nat) := producerBudgets r cont ++ consumerBudgets r cont

/-- The load of a partition with `k` further groups of a budget. -/
def partTake (l : Nat × Nat × Nat) (b : Nat × Nat) (k : Nat) : Nat × Nat × Nat := (l.1 + k * b.1, l.2.1 + k * b.2, l.2.2 + k)

/-- How many groups of a budget a partition has room for (R18). -/
def partCap (l : Nat × Nat × Nat) (b : Nat × Nat) : Nat :=
  ((List.range 16).filter (fun k =>
    let x := partTake l b (k + 1)
    decide (x.1 ≤ 1024) && decide (x.2.1 ≤ 1024) && decide (x.2.2 ≤ 16))).length

/-- The ways to split `n` groups over `k` partitions. -/
def splitsOver : Nat → Nat → List (List Nat)
  | 0, 0 => [[]]
  | 0, _ + 1 => []
  | k + 1, n => (List.range (n + 1)).flatMap (fun a => (splitsOver k (n - a)).map (a :: ·))

/-- Partition numbers, each repeated as a list of counts says. -/
def partList (counts : List Nat) : List Nat := (counts.mapIdx (fun p k => List.replicate k p)).flatten

/-- Partitions for a team's producers and then its consumers, when some assignment fits (R18, R85); `pick` chooses among those that the
producers can take (log 17). -/
def fitParts (loads : List (Nat × Nat × Nat)) (pick : Nat) (producers consumers : List (Nat × Nat)) : Option (List Nat) :=
  let p := producers.headD (0, 0)
  let c := consumers.headD (0, 0)
  let caps : List Nat → List Nat := fun ks => loads.zipWith (fun l k => partCap (partTake l p k) c) ks
  let good := (splitsOver 4 producers.length).filter (fun ks =>
    (loads.zipWith (fun l k => decide (k ≤ partCap l p)) ks).all id && decide (consumers.length ≤ (caps ks).sum))
  (good[pick % good.length]?).map (fun ks => partList ks ++ (partList (caps ks)).take consumers.length)

/-- The accumulator tiles of a core that no resident team holds. -/
def freeAccs (s : State) (core : Nat) (gone : List Nat) : List Nat :=
  let used := (residentOn s core gone).flatMap (fun e => e.2.accs)
  (List.range 16).filter (fun h => !used.contains h)

/-- The partitions that a team's groups would take on a core, when all it needs is free there. -/
def roomOn (s : State) (core : Nat) (r : LaunchRec) (cont : Bool) (gone : List Nat) : Option (List Nat) :=
  let res := (residentOn s core gone).map (·.2)
  let sum : (Team → Nat) → Nat := fun fn => (res.map fn).foldl (· + ·) 0
  if core ≥ 4096 || (coreOf s core).logical.isNone || sum (fun t => t.launch.scratch) + r.scratch > 512 || sum (fun t => t.tiles.length) + r.tiles > 64 ||
      decide ((freeAccs s core gone).length < r.acc) || sum (fun t => t.barriers.length) + r.barriers > 64 then none
  else fitParts ((List.range 4).map (fun p => partLoad s core p gone)) (Config.freeNat s.free) (producerBudgets r cont) (consumerBudgets r cont)

/-! ### Which team is placed next (R84) -/

/-- The teams of a kernel's grid. -/
def kernelTeams (k : Kernel) : Nat := if k.cont.isSome then 1 else k.launch.nx * k.launch.ny * k.launch.nz

/-- The lowest number in a list. -/
def lowest (l : List Nat) : Option Nat :=
  match l with
  | [] => none
  | x :: t => some (t.foldl min x)

/-- The team of a kernel that is placed next: a saved team first, with where its image lies. -/
def headTeam (k : Kernel) : Option (Nat × Option (Option Nat)) :=
  match lowest (k.saved.map (·.1)) with
  | some i => (k.saved.find? (fun x => x.1 == i)).map (fun x => (i, some x.2))
  | none =>
    match lowest k.unplaced with
    | some i => some (i, none)
    | none => if k.next < kernelTeams k then some (k.next, none) else none

def ctxRunning (s : State) (c : Nat) : Bool := (s.contexts.find c).any (fun x => x.st == .running)

/-- The kernel has a team to place. -/
def placeable (s : State) (k : Kernel) : Bool :=
  ctxRunning s k.ctx && (k.st == .queued || k.st == .placing) && (headTeam k).isSome

/-- Kernel `a` is served before kernel `b`. -/
def servedBefore (a b : Kernel) : Bool :=
  decide (a.launch.prio > b.launch.prio) ||
  (a.launch.prio == b.launch.prio &&
    ((!a.saved.isEmpty && b.saved.isEmpty) || (a.saved.isEmpty == b.saved.isEmpty && decide (a.order < b.order))))

/-- The core may take a team of the kernel: an unplaced continuation stays on its home die (R74); a core under test takes none (R263). -/
def coreServes (s : State) (k : Kernel) (core : Nat) : Bool :=
  decide (core < 4096) && !(coreOf s core).scan && (!k.saved.isEmpty || k.home.all (fun d => d == core / 128))

/-- Some core has room for the kernel's next team. -/
def hasRoom (s : State) (k : Kernel) (gone : List Nat) : Bool :=
  (List.range 4096).any (fun c => coreServes s k c && (roomOn s c k.launch k.cont.isSome gone).isSome)

/-- A team of PRIO 7 that finds no other room aborts the test of the core (R88). -/
def abortsScan (s : State) (k : Kernel) (core : Nat) : Bool :=
  k.launch.prio == 7 && (coreOf s core).scan && !hasRoom s k [] && (!k.saved.isEmpty || k.home.all (fun d => d == core / 128))

/-- Some core can take the kernel's next team, one under test too, which counts as empty for a PRIO of 7 (R88). -/
def canPlace (s : State) (k : Kernel) : Bool :=
  hasRoom s k [] || (List.range 4096).any (fun c => abortsScan s k c && (roomOn s c k.launch k.cont.isSome []).isSome)

/-- Nothing goes before the kernel's next team: no kernel that is served first and has room, and no saved team of its PRIO or a higher one
before an unplaced team (R84). -/
def itsTurn (s : State) (k : Kernel) : Bool :=
  !s.kernels.any (fun e => placeable s e.2 &&
    ((servedBefore e.2 k && canPlace s e.2) ||
     (k.saved.isEmpty && !e.2.saved.isEmpty && decide (e.2.launch.prio ≥ k.launch.prio))))

/-! ### Placing a team (R81, R85, R86, R290) -/

/-- The core drops the context's words that were filled before the kernel's LAUNCH was consumed. -/
def dropCode (s : State) (core ctx order : Nat) : State :=
  let c := coreOf s core
  setCore s core { c with icache := c.icache.filter (fun w => !(w.ctx == ctx && decide (w.stamp ≤ order))) }

/-- The start delay of a team on a core, one clk more than R86 counts: the last is spent when the delay ends. -/
def startDelay (s : State) (core phase : Nat) : Nat :=
  1 + 16 * ((s.phase.getD phase []).getD ((dieOfCore core + logicalCore s core) % 8) 0)

/-- A team as it takes its resources. -/
def newTeam (s : State) (kid : Nat) (k : Kernel) (index core : Nat) : Team :=
  let r := k.launch
  { ctx := k.ctx, kernel := kid, index := index, x := index % r.nx, y := index / r.nx % r.ny, z := index / (r.nx * r.ny), core := core, launch := r
    hi := k.addr.toNat / 2 ^ 64, recAddr := k.addr, cont := k.cont.isSome, delay := startDelay s core r.phase, fresh := true, order := s.nextId
    evicting := false, scratch := [], tiles := List.replicate r.tiles Tile.freed
    barriers := List.replicate r.barriers { count := 0, arrived := 0, par := false }, accs := (freeAccs s core []).take r.acc
    freeing := [] }

/-- The kernel with a team placed. -/
def kernelPlaced (k : Kernel) (index core : Nat) (img : Option (Option Nat)) : Kernel :=
  let k := { k with cores := if k.cores.contains core then k.cores else k.cores ++ [core] }
  let k := if img.isSome then { k with saved := k.saved.filter (fun x => x.1 != index) }
    else if k.unplaced.contains index then { k with unplaced := k.unplaced.erase index }
    else { k with next := k.next + 1 }
  { k with st := if (headTeam k).isSome then .placing else .running }

/-- The groups of a team that starts (R81). -/
def freshGroups (id : Nat) (k : Kernel) (parts : List Nat) : List (Nat × Group) :=
  let r := k.launch
  let (a0, a1, a2) := match k.cont with
    | some t => (t.arg0, t.arg1, t.arg2)
    | none => (r.arg0, r.arg1, r.arg2)
  (teamBudgets r k.cont.isSome).mapIdx (fun i b =>
    (id * 16 + i, Group.start id i (parts.getD i 0) (k.cont.isNone && decide (i ≥ r.pCount)) b.1 b.2 r.code a0 a1 a2))

def addGroups (s : State) (l : List (Nat × Group)) : State := l.foldl (fun s e => setGroup s e.1 e.2) s

/-- A team takes its place with the groups it has: its core goes past what the hub has: what retired kernels and evicted teams had gone
past, and what a WAIT_VALUE acquired (R72, R180, R188; log 14); and shadows of earlier teams on
its accumulator tiles are gone. -/
def seatTeam (s : State) (kid : Nat) (k : Kernel) (index core : Nat) (img : Option (Option Nat)) (t : Team) (groups : List (Nat × Group)) : State :=
  let id := s.nextId
  let s := setKernel { s with nextId := id + 1, free := s.free + 1 } kid (kernelPlaced k index core img)
  let s := joinParty (addGroups (setTeam (dropCode s core k.ctx k.order) id t) groups) (.core core) .hub
  let c := coreOf s core
  let s := setCore s core { c with accTiles := c.accTiles.map (fun e => if t.accs.contains e.1 then (e.1, { e.2 with shadow := none }) else e) }
  countHub s 3 k.ctx 1

/-! ### Resuming a team (R59, R63) -/

/-- The operands of a kind 0 record. -/
def workOps (b : Nat → Byte) (o : Nat) : List W64 := (List.range 4).map (fun i => BitVec.ofNat 64 (imgLe b (o + 0x18 + 8 * i) 8))

/-- The instruction that a work record's word gives. -/
def workInstr (b : Nat → Byte) (o : Nat) : Op × Fields :=
  match decode13 (imgLe b (o + 8) 12) with
  | .ok i => (i.word?).getD (.nop, {})
  | .error _ => (.nop, {})

/-- A command built again from its word and operands. -/
def rebuildCmd (seq : Nat) (team : Team) (op : Op) (f : Fields) (ops : List W64) (arr : Nat) : Command :=
  let d := ops.getD 0 0
  let a := ops.getD 1 0
  let x := ops.getD 2 0
  let row := rowBytes (tileOf team (cmdTile f))
  let vb : W64 := match op with
    | .cpyIn | .cpyOut => if x == 0 then BitVec.ofNat 64 row else x
    | .cpyMm => if f.sb.isS then x else BitVec.ofNat 64 f.imm.toNat
    | .stash | .restore => if f.sb.isS then x else BitVec.ofNat 64 (bits f.imm.toNat 15 0)
    | _ => x
  { seq := seq, pc := 0, node := 1, op := op, fields := f, vd := if op == .xrun || op == .xgate then BitVec.ofNat 64 arr else d, va := a, vb := vb
    tag := (ops.getD 3 0).setWidth 16, pages := [], owed := true, region := false, waitCommit := false, popped := false, st := .queued, status := 0, payload := 0
    progress := 0, holding := false, tilesAt := [], buf := [], bad := [], ops := ops, before := [] }

/-- A work record of an image: queue, kind, group and position, with its offset. -/
structure Work where
  queue : Nat
  kind : Nat
  group : Nat
  pos : Nat
  off : Nat
deriving DecidableEq, Repr

/-- The work records of a drained image whose WORK area lies at `o`. -/
def worksOf (b : Nat → Byte) (o : Nat) : List Work :=
  (List.range (imgLe b o 4)).map (fun i =>
    let p := o + 16 + 64 * i
    { queue := imgLe b p 1, kind := imgLe b (p + 1) 1, group := imgLe b (p + 2) 1, pos := imgLe b (p + 3) 1, off := p })

/-- The array that a continued schedule's record names. -/
def workArray (b : Nat → Byte) (w : Work) : Nat :=
  let x := imgLe b (w.off + 0x3C) 4
  (bits x 17 13 * 128 + bits x 12 6) * 64 + bits x 5 0

/-- The command of a work record. A schedule that is continued needs no read; its window's page stays with it where it translates. Any other is
still to be issued again. -/
def workCmd (s : State) (b : Nat → Byte) (team : Team) (w : Work) : Command :=
  let (op, f) := workInstr b w.off
  let c := rebuildCmd (16 * w.queue + w.pos) team op f (workOps b w.off) (workArray b w)
  if w.kind == 1 then
    { c with st := .started, owed := false, pages := match workPages s team.ctx (workSegs team { c with op := .xgate }) with
      | .ok ts _ => ts
      | _ => [] }
  else c

/-- A group's queue with its work records in their places among the records that have arrived. -/
def workQueue (s : State) (b : Nat → Byte) (team : Team) (o q num : Nat) (ws : List Work) : List Command :=
  let total := min 16 (bits (imgLe b (o + 8) 8) (5 * q + 4) (5 * q))
  let mine := ws.filter (fun w => w.queue == q && w.group == num)
  (List.range total).map (fun i =>
    match mine.find? (fun w => w.pos == i) with
    | some w => workCmd s b team w
    | none =>
      let k := i - (mine.filter (fun w => decide (w.pos < i))).length
      restoredCmd (16 * q + i) (imgLe b (o + 0xD0 + 128 * q + 8 * k) 8))

/-- A group with its queues rebuilt. -/
def workGroup (s : State) (b : Nat → Byte) (team : Team) (o : Nat) (ws : List Work) (g : Group) : Group :=
  { g with queues := (List.range 5).map (fun q => workQueue s b team o q g.num ws) }

/-- The sequencers' part of a resumption: SUSPENDED schedules of the image wait for a slot (R15). -/
def resumeArrays (s : State) (b : Nat → Byte) (team : Team) (id : Nat) (ws : List Work) : State :=
  (ws.filter (fun w => w.queue == 3 && w.kind == 1)).foldl (fun s w =>
    let arr := workArray b w
    let a := arrayOf s arr
    match a.run with
    | some r =>
      setArray { s with nextId := s.nextId + 1 } arr { a with
        run := some { r with sched := { r.sched with gid := id * 16 + w.group, cmd := 16 * 3 + w.pos, ctx := team.ctx, arrival := s.nextId } } }
    | none => s) s

/-- The group of an image at an offset, with the masks that its splits had and the commands that its work records give. -/
def imageGroup (s : State) (k : Kernel) (b : Nat → Byte) (team : Team) (id o part : Nat) (ws : List Work) : Group :=
  let g := withMasks k team.index (readGroup b o id part)
  if ws.isEmpty then g else workGroup s b team o ws g

/-- A saved team on a core, from its image. Its recorded commands are issued again in their order (R63). -/
def resumeTeam (s : State) (kid : Nat) (k : Kernel) (index core : Nat) (img : Option Nat) (b : Nat → Byte) (parts : List Nat) : State :=
  let id := s.nextId
  let t0 := newTeam s kid k index core
  let l := layoutOf b t0.accs.length k.launch.scratch
  let t := { t0 with
    fresh := false, tiles := imageTiles b l t0.tiles.length, barriers := imageBarriers b t0.barriers.length
    scratch := Memory.writeBytes [] 0 ((List.range (k.launch.scratch * 1024)).map (fun i => b (l.scratch + i))) }
  let (offs, e) := groupOffsets b (teamBudgets k.launch k.cont.isSome).length l.groups
  let ws := if imgLe b 0 4 == 3 then worksOf b e else []
  let gs := offs.mapIdx (fun i o => imageGroup s k b t id o (parts.getD i 0) ws)
  let s := seatTeam s kid k index core (some img) t (gs.map (fun g => (id * 16 + g.num, g)))
  let s := (t.accs.mapIdx (fun i h => (i, h))).foldl (fun s x => setAcc s core x.2 { data := imageAcc b (l.accs + 16384 * x.1), shadow := none }) s
  let s := resumeArrays s b t id ws
  let s := ws.foldl (fun s w => reissue s (id * 16 + w.group) w.queue (16 * w.queue + w.pos)) s
  match s.contexts.find k.ctx, img with
  | some c, none => setCtx s k.ctx { c with drained := c.drained.filter (fun d => !(d.kernel == kid && d.index == index)) }
  | _, _ => s

/-- A command's completion: SEQ, STATUS and RESULT at DONE (R67). A DONE that is not 16-byte aligned, which R66 forbids without a response, is used
as it stands (log 84). -/
def completeAt (s : State) (done : Nat) (seq : W64) (status result : Nat) : State :=
  hubWrite s done (leBytes 8 seq.toNat ++ leBytes 4 status ++ leBytes 4 result)

/-- A scan test ends with a result (R263). -/
def endScan (s : State) (result : Nat) : State :=
  match s.scanning with
  | none => s
  | some (core, done, seq) =>
    let c := coreOf s core
    completeAt { setCore s core { c with scan := false } with scanning := none } done seq 0 result

/-- The distributor places the kernel's next team on a core. -/
def execTeamPlace (kernel core : Nat) (s : State) : Out :=
  match s.kernels.find kernel with
  | none => .next s
  | some k =>
    match headTeam k, s.contexts.find k.ctx with
    | some (index, img), some c =>
      if !placeable s k || !itsTurn s k || !(coreServes s k core || abortsScan s k core) then .next s
      else
        match roomOn s core k.launch k.cont.isSome [] with
        | none => .next s
        | some parts =>
          let s := if (coreOf s core).scan then endScan s 2 else s
          match img with
          | none => .next (seatTeam s kernel k index core none (newTeam s kernel k index core) (freshGroups s.nextId k parts))
          | some slot =>
            if slotHeld s c slot then .next s
            else
            let s := slotFetch s k.ctx c slot
            match imageOf s c kernel index slot with
            | none => .next (hubRaise s k.ctx 0x22 0)
            | some b => .next (resumeTeam s kernel k index core slot b parts)
    | _, _ => .next s

/-- The start delay has run out: the team's groups may issue. -/
def execTeamStartDelayExpire (team : Nat) (s : State) : Out :=
  match s.teams.find team with
  | some t => if t.delay == 1 then .next (setTeam s team { t with delay := 0, fresh := false }) else .next s
  | none => .next s

/-! ### Releasing teams and completing a SAVE (R45, R56) -/

/-- A team and its groups leave their core. -/
def dropTeam (s : State) (id : Nat) : State :=
  let s := (teamGroups s id).foldl (fun s e => freeMonitors s e.1 (fun _ => true)) (endPins s id)
  { s with groups := s.groups.filter (fun e => e.2.team != id), teams := s.teams.erase id }

/-- The team still holds its core, or commands or stores of its groups are not done. -/
def teamBusy (s : State) (id : Nat) : Bool :=
  !teamExited s id ||
  (teamGroups s id).any (fun e => !e.2.storeQ.isEmpty || !e.2.rangeOps.isEmpty || e.2.queues.any (fun q => q.any (fun c => c.st != .done)))

/-- An EVICTING context with no team left is SAVED, and its SAVE completes. A raising event whose halt line has not been asserted is kept
(log 36). -/
def checkSaved (s : State) (ctx : Nat) : State :=
  match s.contexts.find ctx with
  | none => s
  | some c =>
    if c.st == .evicting && s.teams.all (fun e => e.2.ctx != ctx || !teamBusy s e.1) then
      let s := setCtx s ctx { c with st := .saved, pendingCmd := none }
      match c.pendingCmd with
      | some (done, seq) => completeAt s done seq 0 0
      | none => s
    else s

/-! ### Eviction (R55, R56, R87, R129) -/

/-- A team in no start delay has the state of an image; one in the delay of its first placement has not. -/
def unissued (t : Team) : Bool := t.fresh && decide (t.delay > 0)

/-- The victims that make room for a kernel's next team on a core, fewest first: lowest PRIO, then most recently placed,
taken in that order until there is room (R56, R87; log 75). -/
def victimsOn (s : State) (k : Kernel) (core : Nat) (gone : List Nat) : Option (List Nat) :=
  let ts := (residentOn s core gone).filter (fun e =>
    e.2.launch.prio < k.launch.prio && e.2.ctx != k.ctx && (s.contexts.find e.2.ctx).any ctxIssues)
  let ts := (ts.mergeSort (fun a b => decide (a.2.launch.prio < b.2.launch.prio) || (a.2.launch.prio == b.2.launch.prio && decide (a.2.order ≥ b.2.order)))).map (·.1)
  ((List.range (ts.length + 1)).find? (fun n => (roomOn s core k.launch k.cont.isSome (gone ++ ts.take n)).isSome)).map (fun n => ts.take n)

/-- The victims of the core that needs the fewest, a lower die and then a lower logical core on a tie. -/
def victimsFor (s : State) (k : Kernel) (gone : List Nat) : List Nat :=
  let key : Nat → Nat := fun c => dieOfCore c * 2 ^ 16 + logicalCore s c
  let all := (List.range 4096).filterMap (fun c => if coreServes s k c then (victimsOn s k c gone).map (fun v => (c, v)) else none)
  match all with
  | [] => []
  | x :: rest =>
    (rest.foldl (fun b y => if decide (y.2.length < b.2.length) || (y.2.length == b.2.length && decide (key y.1 < key b.1)) then y else b) x).2

/-- A kernel that finds no room, counting every team under eviction as gone, takes this team as its next victim, in the order of R87 (R56). -/
def isVictim (s : State) (team : Nat) : Bool :=
  let gone := (s.teams.filter (fun e => e.2.evicting)).map (·.1)
  s.kernels.any (fun e => placeable s e.2 && !hasRoom s e.2 gone && !canPlace s e.2 && (victimsFor s e.2 gone).head? == some team)

/-- The length of a team's image. -/
def imageLen (s : State) (id : Nat) (t : Team) : Nat := (teamImage s id t .saved []).length

/-- A sub-group of a CLOSED group stops at its instruction; its waits are forgotten. -/
def haltSub (x : Sub) : Sub :=
  match x.st with
  | .exited => x
  | .atFuse _ => x
  | .waitBars _ => { x with st := .runnable, pc := x.barsPc }
  | .performing _ k => { x with st := .runnable, pc := x.pc + BitVec.ofNat 80 k }
  | _ => { x with st := .runnable }

/-- A `waitc` that waits. -/
def waiting (g : Group) (i : Inflight) : Bool := inMonitor g i.seq

/-- A CLOSED group stops issue: its waits at barriers and monitors end. -/
def stopClosed (s : State) (gid : Nat) : State :=
  match s.groups.find gid with
  | none => s
  | some g =>
    match s.teams.find g.team with
    | none => s
    | some team =>
      let ws := g.inflight.filter (waiting g)
      let s := freeMonitors s gid (fun p => ws.any (fun i => i.seq == p))
      let s := setTeam s g.team { team with barriers := withdrawArrivals g team.barriers }
      let g' := ws.foldl cancelProducer g
      setGroup s gid { g' with
        inflight := g.inflight.filter (fun i => !waiting g i), subs := g.subs.map haltSub, region := { g.region with reopen := none } }

/-- An evicted sub-group's fault is forgotten (R56, R102). -/
def forgetFault (x : Sub) : Sub :=
  match x.st with
  | .parked _ _ => { x with st := .runnable }
  | _ => x

/-- Step 1 and 2 of R56 for one group. -/
def stopGroup (s : State) (gid : Nat) : State :=
  match s.groups.find gid with
  | none => s
  | some g =>
    if g.region.isOpen then onGroup (rollback s gid true) gid (fun g => { g with subs := g.subs.map forgetFault }) else stopClosed s gid

/-- A sub-group of a context is parked on a page. -/
def parkedOn (s : State) (ctx page : Nat) : Bool :=
  s.groups.any (fun e => ctxOfTeam s e.2.team == ctx && e.2.subs.any (fun x =>
    match x.st with
    | .parked a _ => a.toNat / 2 ^ 16 == page
    | _ => false))

/-- The team's groups stop. A fault of its own that its core has only kept is forgotten with it (R56, R148). -/
def stopTeam (s : State) (team : Nat) : State :=
  let t := (teamGroups s team).foldl (fun s e => stopGroup s e.1) s
  { t with faultq := { t.faultq with kept := t.faultq.kept.filter (fun r =>
      !(parkedOn s r.ctx (r.addr.toNat / 2 ^ 16)) || parkedOn t r.ctx (r.addr.toNat / 2 ^ 16)) } }

/-- The kernel with a team unplaced again (R56, R82). -/
def kernelUnplaced (k : Kernel) (index : Nat) : Kernel := { k with unplaced := k.unplaced ++ [index], st := .placing }

/-- A sub-group of the team is in its handler (R55). -/
def inHandlers (s : State) (team : Nat) : Bool := (teamGroups s team).any (fun e => e.2.subs.any (fun x => x.handler.isSome))

def execTeamEvict (team : Nat) (s : State) : Out :=
  match s.teams.find team with
  | none => .next s
  | some t =>
    match s.contexts.find t.ctx, s.kernels.find t.kernel with
    | some c, some k =>
      if teamExited s team || t.evicting || !(c.st == .evicting || (c.st == .running && isVictim s team)) ||
          inHandlers s team then .next s
      else if unissued t then .next (checkSaved (setKernel (dropTeam s team) t.kernel (kernelUnplaced k t.index)) t.ctx)
      else if (freeSlot s t.ctx c).isNone || imageLen s team t > c.desc.teamSlot * 4096 then .next s
      else
        .next (stopTeam (setTeam s team { t with evicting := true }) team)
    | _, _ => .next s

/-- The group's PCs are recorded as its REGION_PCs, when its region is CLOSED; for a sub-group that a late fault has taken into its handler
that is the instruction at which the trap was taken (R55). -/
def recordPcs (g : Group) : Group :=
  if g.region.isOpen then g else { g with subs := g.subs.map (fun x => { x with regionPc := ((x.handler.map (·.trapPc)).getD x.pc), handler := none }) }

/-- The core's channel sets are clear: a probe has returned (R135). -/
def clearChannels (s : State) (core : Nat) : State :=
  let c := coreOf s core
  setCore s core { c with channels := c.channels.map (fun _ => []) }

/-- Every store that has left the queues of a core is delivered: its lines are written home, and its stores on their way land (R83, R396). -/
def deliverCore (s : State) (core : Nat) : State := landFlights (writeHomeAll s core) (fun f => f.ofCore core)

/-- A store of the core is still on its way, or a line of its L1 or die: a port or link trains. -/
def undelivered (s : State) (core : Nat) : Bool := s.flights.any (fun f => f.ofCore core) || dirtyHeld s core

/-- Steps 4 to 6 of R56, once the team's producers, stores and commands are done: the probe, the image and the release. A deferred error is
raised first (R365), a sub-group that a late fault has taken into its handler leaves it first (R55), and a team that finds no slot stays. -/
def execTeamImageWritten (team : Nat) (s : State) : Out :=
  match s.teams.find team with
  | none => .next s
  | some t =>
    match s.contexts.find t.ctx, s.kernels.find t.kernel with
    | some c, some k =>
      let gs := teamGroups s team
      if teamExited s team then .next (checkSaved s t.ctx)
      else if !t.evicting || !ctxIssues c || gs.any (fun e => !e.2.inflight.isEmpty || !e.2.storeQ.isEmpty || !e.2.rangeOps.isEmpty ||
          e.2.queues.any (fun q => q.any (fun x => x.st != .done))) then .next s
      else if gs.any (fun e => !e.2.deferred.isEmpty) || inHandlers s team then .next (setTeam s team { t with evicting := false })
      else
        match freeSlot s t.ctx c with
        | none => .next (setTeam s team { t with evicting := false })
        | some slot =>
          let s := deliverCore (endPins s team) t.core
          if undelivered s t.core then .next s
          else
          let s := clearChannels s t.core
          let s := gs.foldl (fun s e => onGroup s e.1 recordPcs) s
          let img := teamImage s team t .saved []
          if img.length > c.desc.teamSlot * 4096 then .next (setTeam s team { t with evicting := false })
          else
            let s := joinParty (hubWrite s (slotAddr c.desc slot) img) .hub (.core t.core)
            let s := setKernel (dropTeam s team) t.kernel { kernelMasks k t.index gs with saved := k.saved ++ [(t.index, some slot)], st := .placing }
            .next (checkSaved (countHub s 4 t.ctx 1) t.ctx)
    | _, _ => .next s

/-! ### Retirement (R82, R83, R89) -/

/-- The teams of a kernel that have a record. -/
def teamsOf (s : State) (kernel : Nat) : List (Nat × Team) := s.teams.filter (fun e => e.2.kernel == kernel)

/-- Every command of the kernel's groups has completed. -/
def commandsDone (s : State) (kernel : Nat) : Bool :=
  (teamsOf s kernel).all (fun e => (teamGroups s e.1).all (fun g => g.2.queues.all (fun q => q.all (fun c => c.st == .done))))

/-- Every committed store and range operation of the kernel's groups has left. -/
def storesDone (s : State) (kernel : Nat) : Bool :=
  (teamsOf s kernel).all (fun e => (teamGroups s e.1).all (fun g => g.2.storeQ.isEmpty && g.2.rangeOps.isEmpty))

def execKernelRetiring (kernel : Nat) (s : State) : Out :=
  match s.kernels.find kernel with
  | none => .next s
  | some k =>
    if (k.st == .placing || k.st == .running) && decide (k.exited ≥ kernelTeams k) && commandsDone s kernel &&
        (s.contexts.find k.ctx).any (fun c => c.st != .halting) then
      .next (setKernel s kernel { k with st := .retiring })
    else .next s

/-- No fence or signal waits for the kernel any more. -/
def forgetKernel (s : State) (kernel : Nat) : State :=
  let sig : Signal → Signal := fun x => { x with after := x.after.erase kernel }
  { s with
    wqs := s.wqs.map (fun e => (e.1, { e.2 with launched := e.2.launched.erase kernel, signals := e.2.signals.map sig }))
    orphans := s.orphans.map (fun e => (e.1, sig e.2)) }

/-- The kernel's entry and records go. -/
def dropKernel (s : State) (kernel : Nat) : State :=
  let s := (teamsOf s kernel).foldl (fun s e => dropTeam s e.1) s
  forgetKernel { s with kernels := s.kernels.erase kernel } kernel

/-- The probe has returned: the kernel's stores are delivered at system scope, the DONE write is made, and the entry is free. -/
def execKernelRetire (kernel : Nat) (s : State) : Out :=
  match s.kernels.find kernel with
  | none => .next s
  | some k =>
    if k.st != .retiring || !storesDone s kernel then .next s
    else
      let s := k.cores.foldl deliverCore s
      if k.cores.any (undelivered s) then .next s
      else
      let s := k.cores.foldl (fun s c => joinParty (clearChannels s c) .hub (.core c)) s
      if k.cont.isSome || k.launch.done == 0 then .next (checkSaved (dropKernel s kernel) k.ctx)
      else
        let s := hubWalkCodes s k.ctx k.launch.done.toNat
        match hubXlat s k.ctx k.launch.done .write with
        | .beyond => .fault .noSuchAddress
        | .bad => .next (checkSaved (hubRaise (dropKernel s kernel) k.ctx 0x08 k.launch.done) k.ctx)
        | .ok l =>
          match hubWaits s l (l.cache != 2) with
          | some s => .next s
          | none =>
          if peerFails s l then .next (checkSaved (linkLost (dropKernel s kernel) l) k.ctx)
          else
            let ws := (leBytes 8 k.launch.doneValue.toNat).mapIdx (fun i b => ({ l with addr := l.addr + i }, b))
            .next (checkSaved (dropKernel (writeOutside s .hub ws) kernel) k.ctx)

/-! ### Continuations (R74, R80) -/

/-- The first record of a die whose context is RUNNING. -/
def nextTask (s : State) (die : Nat) : Option (Nat × TaskRec) :=
  (((dieOf s die).tasks.mapIdx (fun i r => (i, r))).find? (fun x => ctxRunning s x.2.ctx))

/-- The die without its record at place `i`. -/
def takeTask (s : State) (die i : Nat) : State :=
  let d := dieOf s die
  setDie s die { d with tasks := d.tasks.eraseIdx i }

/-- The kernel of a started continuation. -/
def contKernel (s : State) (r : LaunchRec) (t : TaskRec) (die : Nat) : Kernel :=
  { ctx := t.ctx, addr := t.kid, launch := r, st := .queued, order := s.nextId, next := 0, unplaced := [], saved := [], masks := [], home := some die, exited := 0
    cores := [], cont := some t, queue := none }

/-- The oldest startable record of a die starts: a bad record raises the halt line; a good one is placed on a core of the die, or waits in the
kernel table when none has room or other teams go first (R84). -/
def execContinuationStart (die core : Nat) (s : State) : Out :=
  match nextTask s die with
  | none => .next s
  | some (i, t) =>
    match fetchLaunch s t.ctx t.kid true with
    | .beyond => .fault .noSuchAddress
    | .wait s => .next s
    | .bad s => .next (hubRaise (takeTask s die i) t.ctx 0x01 t.kid)
    | .ok s r =>
      let k := contKernel s r t die
      if s.kernels.length ≥ 4096 || die ≥ 32 then .next s
      else
        let id := s.nextId
        let s' := setKernel { takeTask s die i with nextId := id + 1 } id k
        if !hasRoom s k [] || !itsTurn s k then .next s'
        else if !coreServes s k core then .next s
        else
          match roomOn s core r true [] with
          | none => .next s
          | some parts => .next (seatTeam s' id k 0 core none (newTeam s' id k 0 core) (freshGroups s'.nextId k parts))

end Sys2Proof.Machine
end

