-- ==== Sys2Proof/Machine/Queues.lean ====
section
/-! DEFINITION. Host work queues: the doorbell, the four entries, pending signals and the consumer index (spec/04_queue.md R68 to R72,
spec/05_kernel.md R79). -/

namespace Sys2Proof.Machine

/-- The address of the entry at the queue's consumer index (R69). -/
def wqAddr (w : WorkQueue) : Nat := w.ring + 64 * (w.ci.toNat % 2 ^ w.logSize)

/-- Byte `o` of that entry. -/
def wqEntry (s : State) (w : WorkQueue) (o : Nat) : Byte := hubByte s (wqAddr w + o)

/-- The TYPE of the head entry. -/
def headType (s : State) (w : WorkQueue) : Nat := (wqEntry s w 0).toNat

/-- The little-endian value of `n` bytes of the head entry. -/
def entryLe (s : State) (w : WorkQueue) (o n : Nat) : Nat := imgLe (wqEntry s w) o n

/-- The entry's bytes 1 to 7 and those from `o` on are zero (R71). -/
def entryClean (s : State) (w : WorkQueue) (o : Nat) : Bool := entryLe s w 1 7 == 0 && entryLe s w o (64 - o) == 0

/-- The head entry can be taken now: the queue is SERVING, has an entry that the hub can read, and waits for nothing (R72, R79, R240). A FENCE that
breaks its form waits for no launch (R70). -/
def eligible (s : State) (w : WorkQueue) : Bool :=
  w.st == .serving && w.ci != w.pi && w.waiting.isNone && !hubHeld s w.ring &&
  (match headType s w with
   | 1 => decide (s.kernels.length < 4096)
   | 4 => w.launched.isEmpty || !entryClean s w 8
   | _ => true)

/-- How far round from the queue last served of a PRIO a queue stands. -/
def turnKey (s : State) (prio q : Nat) : Nat := (q + 16383 - s.wqTurn.getD prio 16383) % 16384

/-- The work-queue engine takes this queue's head next: higher PRIO first, round-robin within one PRIO (R72). -/
def served (s : State) (q : Nat) (w : WorkQueue) : Bool :=
  eligible s w && s.wqs.all (fun e => e.1 == q || !eligible s e.2 || decide (e.2.prio < w.prio) ||
    (e.2.prio == w.prio && decide (turnKey s w.prio q ≤ turnKey s w.prio e.1)))

/-- The queue's head is read and taken up: it was served last in its PRIO (R72). -/
def takeTurn (s : State) (q : Nat) (w : WorkQueue) : State := hubFetch { s with wqTurn := s.wqTurn.set w.prio q } w.ctx (wqAddr w) 64

/-- The queue enters ERROR with CI at the bad entry, and the message on its VECTOR (R70). -/
def wqError (s : State) (q : Nat) (w : WorkQueue) : State :=
  let s := setWq { s with monitors := s.monitors.filter (fun m => m.waiter != .queue q) } q { w with st := .error, waiting := none, satisfied := false }
  if w.vector == 0xFFFF then s else { s with msix := s.msix ++ [w.vector] }

/-- The head entry is consumed, and CI is written to CI_ADDR (R69). -/
def consume (s : State) (q : Nat) (w : WorkQueue) : State :=
  let w := { w with ci := w.ci + 1, waiting := none, satisfied := false }
  hubWrite (setWq s q w) w.ciAddr (leBytes 4 w.ci.toNat)

/-- The entry's address at offset 8. -/
def entryVa (s : State) (w : WorkQueue) : VAddr := BitVec.ofNat 80 (entryLe s w 8 16)

/-- The address is `n`-byte aligned and its upper bits are zero; an entry that breaks this, and a CMP or OP that R71 does not name, puts its
queue in ERROR, which R70 does not list (log 61). -/
def entryVaGood (s : State) (w : WorkQueue) (n : Nat) : Bool := entryLe s w 8 16 % n == 0 && entryLe s w 18 6 == 0

/-- The host writes a producer index: it is recorded, and one that overruns the ring puts the queue in ERROR (R69). -/
def execWorkQueueDoorbell (q : Nat) (pi : BitVec 32) (s : State) : Out :=
  match if takesWrites s then s.wqs.find q else none with
  | none => .next s
  | some w =>
    let w := { w with pi := pi }
    .next (if w.st != .error && decide ((w.pi - w.ci).toNat > 2 ^ w.logSize) then wqError s q w else setWq s q w)

/-- The kernel that a LAUNCH queues (R79). -/
def launchKernel (s : State) (q : Nat) (w : WorkQueue) (r : LaunchRec) : Kernel :=
  { ctx := w.ctx, addr := entryVa s w, launch := r, st := .queued, order := s.nextId, next := 0, unplaced := [], saved := [], masks := [], home := none, exited := 0
    cores := [], cont := none, queue := some q }

/-- LAUNCH; an entry of reserved TYPE puts its queue in ERROR here. -/
def execWqLaunch (q : Nat) (s : State) : Out :=
  match s.wqs.find q with
  | none => .next s
  | some w =>
    let ty := headType s w
    if !served s q w || ty == 2 || ty == 3 || ty == 4 then .next s
    else
      let s := takeTurn s q w
      if ty != 1 || !entryClean s w 0x18 || !entryVaGood s w 128 then .next (wqError s q w)
      else
        match fetchLaunch s w.ctx (entryVa s w) false with
        | .beyond => .fault .noSuchAddress
        | .wait s => .next s
        | .bad s => .next (wqError s q w)
        | .ok s r =>
          let id := s.nextId
          let s := setKernel { s with nextId := id + 1 } id (launchKernel s q w r)
          .next (consume (countHub s 2 w.ctx 1) q { w with launched := w.launched ++ [id] })

/-- The monitor comparison that a WAIT_VALUE's CMP names: EQ, NE, GE, LT. -/
def waitCmp (c : Nat) : BitVec 4 :=
  match c with
  | 0 => 0
  | 1 => 1
  | 2 => 3
  | _ => 2

/-- The condition of the WAIT_VALUE at the head, on the newest value of its location: the masked value against X (R71). -/
def waitHolds (s : State) (w : WorkQueue) (l : Loc) : Bool :=
  compareMem (waitCmp (entryLe s w 0x28 1)) 64 (newestLe s l.space l.addr 8 &&& entryLe s w 0x20 8) (entryLe s w 0x18 8)

/-- The hub's fresh read of a place for a context, at its home slice or behind it, with its messages and the code of its line (R72, R155, R237). -/
def hubFresh (s : State) (ctx : Nat) (l : Loc) : State :=
  let s := fillCode (partyCrossing s .hub [l]) ctx l
  if directStore l then dropHeld s l.space (locSector l) else recallCopies s l.space (locSector l)

/-- The eight bytes from a place. -/
def wordLocs (l : Loc) : List Loc := (List.range 8).map (fun i => { l with addr := l.addr + i })

/-- The WAIT_VALUE reads its location: its condition holds, or a monitor is armed, or it will read again (R72, R132). -/
def armWait (s : State) (q : Nat) (w : WorkQueue) (l : Loc) : State :=
  let s := hubFresh s w.ctx l
  if waitHolds s w l then setWq (acquireOutside s .hub (wordLocs l)) q { w with waiting := some (l, true), satisfied := true }
  else if canArm l.space && decide (sliceMonitors s l.space l.addr < 1024) then
    let m : Monitor :=
      { space := l.space, addr := l.addr, size := 8, cmp := waitCmp (entryLe s w 0x28 1), operand := BitVec.ofNat 64 (entryLe s w 0x18 8)
        mask := BitVec.ofNat 64 (entryLe s w 0x20 8), ctx := w.ctx, waiter := .queue q }
    setWq { s with monitors := s.monitors ++ [m] } q { w with waiting := some (l, true) }
  else setWq s q { w with waiting := some (l, false) }

def execWqWaitValue (q : Nat) (s : State) : Out :=
  match s.wqs.find q with
  | none => .next s
  | some w =>
    if !served s q w || headType s w != 2 then .next s
    else if !entryClean s w 0x29 || decide (entryLe s w 0x28 1 > 3) || !entryVaGood s w 8 then .next (wqError (takeTurn s q w) q w)
    else
      match hubXlat s w.ctx (entryVa s w) .read with
      | .beyond => .fault .noSuchAddress
      | .bad => .next (wqError (hubWalkCodes (takeTurn s q w) w.ctx (entryVa s w).toNat) q w)
      | .ok l =>
        match hubWaits s l true with
        | some s => .next s
        | none =>
          let s := hubWalkCodes (takeTurn s q w) w.ctx (entryVa s w).toNat
          .next (if badLoc s l then wqError s q w else armWait s q w l)

/-- The condition has held: the entry is consumed, also by a queue that has left SERVING since (R70, R72). -/
def execWaitValueSatisfied (q : Nat) (s : State) : Out :=
  match s.wqs.find q with
  | none => .next s
  | some w => if w.satisfied && w.st != .error then .next (consume s q w) else .next s

/-- An unarmed WAIT_VALUE reads again (R72). -/
def execWaitValueRecheck (q : Nat) (s : State) : Out :=
  match s.wqs.find q with
  | none => .next s
  | some w =>
    match w.waiting with
    | some (l, false) =>
      match hubWaits s l true with
      | some s => .next s
      | none =>
      if badLoc s l then .next (wqError s q w)
      else
        let s := hubFresh s w.ctx l
        .next (if waitHolds s w l then setWq (acquireOutside s .hub (wordLocs l)) q { w with satisfied := true } else s)
    | _ => .next s

/-- An ADD to a HOST page with CACHE 2 is denied, as every atomic there (R361). -/
def addDenied (add : Bool) (l : Loc) : Bool := add && l.space == .host && l.cache == 2

/-- SIGNAL: its address is translated, its fields are kept, and it is consumed (R72). -/
def execWqSignal (q : Nat) (s : State) : Out :=
  match s.wqs.find q with
  | none => .next s
  | some w =>
    if !served s q w || headType s w != 3 then .next s
    else
      let s := takeTurn s q w
      let add := entryLe s w 0x28 1 == 1
      if !entryClean s w 0x29 || entryLe s w 0x20 8 != 0 || decide (entryLe s w 0x28 1 > 1) || !entryVaGood s w 8 then .next (wqError s q w)
      else
        let s := hubWalkCodes s w.ctx (entryVa s w).toNat
        match hubXlat s w.ctx (entryVa s w) (if add then .atomic else .write) with
        | .beyond => .fault .noSuchAddress
        | .bad => .next (wqError s q w)
        | .ok l =>
          if addDenied add l then .next (wqError s q w)
          else
            let sig : Signal := { loc := l, value := BitVec.ofNat 64 (entryLe s w 0x18 8), add := add, after := w.launched }
            .next (consume s q { w with signals := w.signals ++ [sig] })

/-- A signal's write or addition at its home slice, behind what is on its way to its bytes, a release at `.sys` (R181, R203). An addition to what
cannot be read is lost, with an error record. -/
def performSignal (s : State) (ctx : Nat) (x : Signal) : State :=
  let l := x.loc
  let s := if x.add && !peerFails s l then hubFresh (landOnto s (wordLocs l)) ctx l else s
  if peerFails s l then linkLost s l
  else if x.add && sectorBad s l.space (locSector l) then poisonLine s l.space (l.addr / 256) 2
  else
    let v := if x.add then newestLe s l.space l.addr 8 + x.value.toNat else x.value.toNat
    writeOutside s .hub ((wordLocs l).zip (leBytes 8 v))

/-- What keeps the signal's access waiting: it reads where it adds, and where its slice merges the write into a sector (R216); and where it adds, a
write that stays on its way to its bytes (R181). -/
def signalWaits (s : State) (x : Signal) : Option State :=
  if x.add && flightStays s (wordLocs x.loc) then some s else hubWaits s x.loc (x.add || x.loc.cache != 2)

/-- The oldest pending signal of a queue is performed once the kernels before it have retired (R72). Signals of a queue that has been unbound
stand in the machine's own list, and are named from 16,384 on. -/
def execSignalExecute (q : Nat) (s : State) : Out :=
  if q ≥ 16384 then
    match s.orphans[q - 16384]? with
    | some (w, x) =>
      if !x.after.isEmpty || (s.orphans.take (q - 16384)).any (fun e => e.1 == w) then .next s
      else
        match signalWaits s x with
        | some s => .next s
        | none => .next (performSignal { s with orphans := s.orphans.eraseIdx (q - 16384) } 0xFFFF x)
    | none => .next s
  else
    match s.wqs.find q with
    | none => .next s
    | some w =>
      match w.signals with
      | [] => .next s
      | x :: rest =>
        if !x.after.isEmpty || s.orphans.any (fun e => e.1 == q) then .next s
        else
          match signalWaits s x with
          | some s => .next s
          | none => .next (performSignal (setWq s q { w with signals := rest }) w.ctx x)

/-- FENCE: consumed once every earlier LAUNCH has retired (R71). -/
def execWqFence (q : Nat) (s : State) : Out :=
  match s.wqs.find q with
  | none => .next s
  | some w =>
    if !served s q w || headType s w != 4 then .next s
    else
      let s := takeTurn s q w
      .next (if entryClean s w 8 then consume s q w else wqError s q w)

end Sys2Proof.Machine
end

