-- ==== Sys2Proof/Machine/Contexts.lean ====
section
/-! DEFINITION. The hub's command queue with the commands over contexts, work queues, pages and the management plane, and the stop sequence
(spec/03_context.md R43 to R52, R59, R65, spec/04_queue.md R66 to R68, spec/09_page.md R147 to R151, spec/15_power.md R259 to R264). A command is
carried out when it heads the ring; SAVE, RESTORE and DESTROY complete later, and the commands after them go on (log 18). -/

namespace Sys2Proof.Machine

/-! ### The command at the head of the ring (R66, R67) -/

/-- The address of the head command. -/
def cmdAddr (s : State) : Nat := s.cmdq.ring + 64 * (s.cmdq.ci.toNat % 2 ^ s.cmdq.logSize)

/-- Byte `o` of the head command. -/
def cmdByte (s : State) (o : Nat) : Byte := hubByte s (cmdAddr s + o)

def cmdLe (s : State) (o n : Nat) : Nat := imgLe (cmdByte s) o n
def cmdOpcode (s : State) : Nat := cmdLe s 0 1
def cmdCtx (s : State) : Nat := cmdLe s 2 2
def cmdQueueNo (s : State) : Nat := cmdLe s 4 4
def cmdArg (s : State) : Nat := cmdLe s 8 8
def cmdDone (s : State) : Nat := cmdLe s 0x10 8
def cmdSeq (s : State) : W64 := BitVec.ofNat 64 (cmdLe s 0x18 8)

/-- The hub may take a command: STATUS is READY, the ring holds one that the hub can read, no scan test runs, and the supply holds (R66, R240, R250,
R263, R61). -/
def cmdReady (s : State) : Bool :=
  s.status == .ready && !s.failing && s.cmdq.ci != s.cmdq.pi && s.scanning.isNone && !hubHeld s s.cmdq.ring

/-- The hub has read the head command (R155, R237). -/
def readCmd (s : State) : State := hubFetch s (cmdCtx s) (cmdAddr s) 64

/-- The head command is left behind. -/
def passCmd (s : State) : State := { s with cmdq := { s.cmdq with ci := s.cmdq.ci + 1, acted := false } }

/-- The head command completes with a status and a result. -/
def complete (s : State) (status result : Nat) : State :=
  let done := cmdDone s
  let seq := cmdSeq s
  completeAt (passCmd s) done seq status result

/-- Runs `body` when the head command has this opcode. -/
def command (s : State) (op : Nat) (body : State → Out) : Out := if cmdReady s && cmdOpcode s == op then body (readCmd s) else .next s

/-- The hub reads `n` bytes that the head command names, once nothing holds them (R155, R237, R240). -/
def withBlock (s : State) (pa n : Nat) (body : State → Out) : Out := if hubHeld s pa then .next s else body (hubFetch s (cmdCtx s) pa n)

/-- Ends the head command with a status and no result. -/
def statusOnly (s : State) (status : Nat) : Out := .next (complete s status 0)

/-- The opcodes that have a command. -/
def knownOpcode (n : Nat) : Bool := [1, 2, 3, 4, 5, 6, 8, 9, 0x10, 0x11, 0x12, 0x13].contains n || (decide (0x20 ≤ n) && decide (n ≤ 0x27))

/-- The host writes the producer index; a command written before READY waits for it (R250). An index more than a ring ahead gets no response, and the
slots are executed until CI equals it modulo 2^32 (log 84). -/
def execCommandDoorbell (pi : BitVec 32) (s : State) : Out := if takesWrites s then .next { s with cmdq := { s.cmdq with pi := pi } } else .next s

/-- A reserved opcode completes with BAD_STATE. -/
def execReservedCommand (s : State) : Out :=
  if cmdReady s && !knownOpcode (cmdOpcode s) then statusOnly (readCmd s) 1 else .next s

/-- The head command's context, unless its identifier is FREE. -/
def cmdContext (s : State) : Option Context := s.contexts.find (cmdCtx s)

/-! ### All cores and dies -/

/-- Applies `fn` to the cores that satisfy `p`. -/
def onCores (s : State) (p : Nat → Bool) (fn : Core → Core) : State :=
  { s with cores := (List.range 4096).filterMap (fun c => if p c then some (c, fn (coreOf s c)) else (s.cores.find c).map (fun x => (c, x))) }

/-- Applies `fn` to the dies that satisfy `p`. -/
def onDies (s : State) (p : Nat → Bool) (fn : Die → Die) : State :=
  { s with dies := (List.range 32).filterMap (fun d => if p d then some (d, fn (dieOf s d)) else (s.dies.find d).map (fun x => (d, x))) }

/-! ### Creating, starting, saving, restoring (R43 to R46, R59) -/

def readDesc (b : Nat → Byte) : CtxDesc :=
  let n := imgLe b
  { ptRoot := physAddr (n 0 8), saveBase := physAddr (n 8 8), teamSlot := n 0x10 4, slots := n 0x14 4, stopBase := physAddr (n 0x18 8), stopSlots := n 0x20 4
    haltDump := bitAt (n 0x24 4) 0, trapBase := BitVec.ofNat 80 (n 0x28 16), trapEnable := BitVec.ofNat 32 (n 0x38 4) }

/-- The descriptor follows R43 and R44. -/
def descGood (b : Nat → Byte) : Bool :=
  let n := imgLe b
  n 0 8 % 2 ^ 17 == 0 && n 8 8 % 4096 == 0 && decide (n 0x10 4 ≥ 1) && n 0x18 8 % 64 == 0 && decide (n 0x20 4 ≥ 2) && decide (n 0x24 4 < 2) &&
  n 0x28 16 % 4096 == 0 && n 0x32 6 == 0 && n 0x38 4 % 2 == 0 && decide (n 0x38 4 < 2 ^ 14) && n 0x3C 4 == 0 && n 0x40 64 == 0

/-- The lowest FREE identifier. -/
def freeCtx (s : State) : Option Nat := (List.range 1024).find? (fun i => (s.contexts.find i).isNone)

def execCmdCreate (s : State) : Out :=
  command s 1 fun s =>
    let a := cmdArg s
    withBlock s a 128 fun s =>
    let b : Nat → Byte := fun o => hubByte s (a + o)
    if !descGood b then statusOnly s 2
    else
      match freeCtx s with
      | none => statusOnly s 3
      | some i =>
        let c : Context := { st := .loaded, desc := readDesc b, raised := [], taken := [], held := [], pendingCmd := none, recreated := false, drained := [], slotsKept := [] }
        .next (complete (setCtx s i c) 0 i)

/-- The context's queues are served, from their heads on. -/
def serveQueues (s : State) (ctx : Nat) : State :=
  { s with wqs := s.wqs.map (fun e => if e.2.ctx == ctx && e.2.st == .bound then (e.1, { e.2 with st := .serving }) else e) }

/-- Nothing further is taken from the context's queues. -/
def idleQueues (s : State) (ctx : Nat) : State :=
  { s with wqs := s.wqs.map (fun e => if e.2.ctx == ctx && e.2.st == .serving then (e.1, { e.2 with st := .bound }) else e) }

/-- A command over a context in one of some states; in any other it completes with BAD_STATE (R44). -/
def onState (s : State) (op : Nat) (sts : List CtxState) (body : State → Context → Out) : Out :=
  command s op fun s =>
    match cmdContext s with
    | some c => if sts.contains c.st then body s c else statusOnly s 1
    | none => statusOnly s 1

def execCmdStart (s : State) : Out :=
  onState s 2 [.loaded] fun s c => statusOnly (serveQueues (setCtx s (cmdCtx s) { c with st := .running }) (cmdCtx s)) 0

/-- The head command stands with its context until it completes. -/
def postpone (s : State) (c : Context) (st : CtxState) : State :=
  passCmd (setCtx s (cmdCtx s) { c with st := st, pendingCmd := some (cmdDone s, cmdSeq s) })

def execCmdSave (s : State) : Out :=
  onState s 3 [.running] fun s c =>
    let i := cmdCtx s
    .next (checkSaved (idleQueues (postpone s c .evicting) i) i)

def execCtxRestore (s : State) : Out := onState s 4 [.saved] fun s c => .next (postpone s c .restoring)

def execCmdHalt (s : State) : Out :=
  onState s 5 [.running, .evicting, .restoring] fun s _ => statusOnly (hubRaise s (cmdCtx s) 0x20 0) 0

/-- The kernels of a context are ABANDONED: unplaced and saved teams are discarded (R82). -/
def abandonKernels (s : State) (ctx : Nat) : State :=
  { s with kernels := s.kernels.map (fun e => if e.2.ctx == ctx then (e.1, { e.2 with st := .abandoned, unplaced := [], saved := [] }) else e) }

/-- Pending signals behind a kernel that is ABANDONED are discarded (R72). -/
def discardSignals (s : State) : State :=
  let dead : Signal → Bool := fun x => x.after.any (fun k => (s.kernels.find k).any (fun k => k.st == .abandoned))
  { s with
    wqs := s.wqs.map (fun e => (e.1, { e.2 with signals := e.2.signals.filter (fun x => !dead x) }))
    orphans := s.orphans.filter (fun e => !dead e.2) }

def execCmdDestroy (s : State) : Out :=
  onState s 6 [.loaded, .stopped, .saved, .failed] fun s c =>
    let i := cmdCtx s
    .next (discardSignals (abandonKernels (postpone s c .destroyed) i))

/-! ### Stop records (R50) -/

/-- One stop record but for CTX. -/
structure StopRec where
  cause : Nat
  source : Nat
  flags : Nat
  die : Nat
  core : Nat
  team : Nat
  group : Nat
  reentry : Nat
  pc : VAddr
  addr : VAddr
  cycle : W64
  abandoned : Nat
  tag : Nat
deriving DecidableEq, Repr

def StopRec.bytes (r : StopRec) (ctx total : Nat) : List Byte :=
  leBytes 2 r.cause ++ leBytes 1 r.source ++ leBytes 1 r.flags ++ leBytes 1 r.die ++ leBytes 1 0 ++ leBytes 2 r.core ++ leBytes 4 r.team ++
  leBytes 1 r.group ++ leBytes 1 r.reentry ++ leBytes 2 ctx ++ leBytes 16 r.pc.toNat ++ leBytes 16 r.addr.toNat ++ leBytes 8 r.cycle.toNat ++
  leBytes 2 r.abandoned ++ leBytes 2 r.tag ++ leBytes 4 total

/-- The event has a record of its own: a unit's, or a hub event's that names an address. -/
def Event.recorded (e : Event) : Bool := e.gid.isSome || e.cause == 0x01 || e.cause == 0x08

/-- The record of an event. CYCLE of the hub's own record, for which the manual gives no count, is the 100 MHz reference count (R50, R80; log 85). -/
def eventRecord (s : State) (first : Bool) (e : Event) : StopRec :=
  { cause := e.cause, source := if e.gid.isSome then 0 else 4, flags := e.flags ||| 2 * first.toNat, die := e.die, core := e.core, team := e.team
    group := e.group, reentry := e.reentry.toNat, pc := e.pc, addr := e.addr, cycle := if e.gid.isSome then e.cycle else s.refclk, abandoned := 0, tag := 0 }

/-- The CYCLE at which a unit stopped. -/
def stopCycle (c : Context) (core source : Nat) : W64 :=
  ((c.held.find? (fun h => h.1 == core && h.2.1 == source)).map (fun h => h.2.2)).getD 0

/-- A record of a unit that the line stopped. -/
def lineRecord (s : State) (c : Context) (core source team : Nat) : StopRec :=
  { cause := 0x23, source := source, flags := 1, die := dieOfCore core, core := logicalCore s core, team := team, group := 0xFF, reentry := 0, pc := 0
    addr := 0, cycle := stopCycle c core source, abandoned := 0, tag := 0 }

/-- Writes records to slots 1 upward as far as there are slots, and the summary last. -/
def writeStop (s : State) (ctx : Nat) (d : CtxDesc) (cause : Nat) (first : Option Event) (recs : List StopRec) : State :=
  let s := ((recs.take (d.stopSlots - 1)).mapIdx (fun i r => (i, r))).foldl (fun s x => hubWrite s (d.stopBase + 64 * (x.1 + 1)) (x.2.bytes ctx 0)) s
  let own := first.bind (fun e => if e.recorded then some e else none)
  let base : StopRec :=
    { cause := cause, source := 4, flags := 1 + (decide (recs.length > d.stopSlots - 1)).toNat * 64, die := 0xFF, core := 0xFFFF, team := 0, group := 0xFF
      reentry := 0, pc := 0, addr := 0, cycle := s.refclk, abandoned := 0, tag := 0 }
  let sum := match own with
    | some e => { base with team := e.team, group := e.group, reentry := e.reentry.toNat, pc := e.pc, addr := e.addr }
    | none => base
  hubWrite s d.stopBase (sum.bytes ctx recs.length)

/-! ### The halt line (R47 to R49) -/

/-- The order of R49 among events that reach the hub together. -/
def eventRank (e : Event) : Nat :=
  if e.gid.isSome then ((e.die * 2 ^ 16 + e.core) * 2 ^ 32 + e.team) * 2 ^ 8 + e.group
  else 2 ^ 80 + (match e.cause with
    | 0x20 => 0
    | 0x21 => 1
    | 0x22 => 2
    | 0x01 => 3
    | _ => 4)

/-- The event taken first: the first by rank of those that reached the hub in the clk of the first raised (log 1). -/
def firstEvent (s : State) (l : List Event) : Option Event :=
  match l with
  | [] => none
  | e :: t => some ((t.take (Config.freeNat s.free % l.length)).foldl (fun a b => if eventRank b < eventRank a then b else a) e)

/-- A sub-group stops at its instruction; one that is parked, waits at a monitor or a barrier, or stands at a fuse stays so (R48). -/
def stopSub (x : Sub) : Sub :=
  match x.st with
  | .runnable | .committing | .sleeping _ | .arriving _ _ _ _ | .probing _ _ | .performing _ _ => { x with st := .stopped }
  | _ => x

/-- The groups of a context. -/
def ctxGroups (s : State) (ctx : Nat) : List (Nat × Group) := s.groups.filter (fun e => (s.teams.find e.2.team).any (fun t => t.ctx == ctx))

/-- Nothing of the context waits at an array any more. -/
def dropWaiting (ctx : Nat) (a : ArrayUnit) : ArrayUnit :=
  { a with waiting := a.waiting.filter (fun c =>
      match c with
      | .schedule x => x.ctx != ctx
      | _ => true) }

/-- The array runs a schedule of the context, RUNNING or PAUSED. -/
def runsFor (ctx : Nat) (a : ArrayUnit) : Bool := arrayBusy a && a.run.any (fun r => r.sched.ctx == ctx)

/-- An array stops its schedule at the gate boundary: what waits is admitted, the end update follows or goes on, and there is no record
(R48, R213, R223). -/
def haltArray (s : State) (ctx arr : Nat) : State :=
  let s := setArray s arr (dropWaiting ctx (arrayOf s arr))
  if !runsFor ctx (arrayOf s arr) then s
  else
    let s := admitAll s arr
    let a := arrayOf s arr
    setArray s arr { a with
      st := .running
      run := a.run.map (fun r => { r with
        stop := some haltedStatus, endLeft := if r.stop.isSome then r.endLeft else if r.wrote then 128 else 0 }) }

/-- The units that hold work of the context: core, SOURCE and CYCLE. The cores of its resident teams stand as SOURCE 0. -/
def heldUnits (s : State) (ctx : Nat) : List (Nat × Nat × W64) :=
  let open_ : List Command → Bool := fun q => q.any (fun c => c.st != .done)
  let own := (ctxGroups s ctx).flatMap (fun e =>
    let core := ((s.teams.find e.2.team).map (·.core)).getD 0
    (if open_ (e.2.queues.getD 0 []) then [(core, 1)] else []) ++
    (if open_ (e.2.queues.getD 1 []) || open_ (e.2.queues.getD 2 []) then [(core, 2)] else []) ++
    (if open_ (e.2.queues.getD 4 []) then [(core, 5)] else []))
  let arr := s.arrays.filterMap (fun e =>
    if e.2.run.any (fun r => r.sched.ctx == ctx) || e.2.waiting.any (fun c =>
        match c with
        | .schedule x => x.ctx == ctx
        | _ => false) then some (e.1 / 64, 3) else none)
  let cores := (s.teams.filter (fun e => e.2.ctx == ctx && !teamExited s e.1)).map (fun e => (e.2.core, 0))
  ((cores ++ own ++ arr).eraseDups).map (fun h => (h.1, h.2, (coreOf s h.1).cycle))

/-- The hub asserts the context's halt line: its units stop, its condition monitors for sub-groups are freed (R132), a SAVE or RESTORE under way
completes with BAD_STATE, images already written are kept, and its kernels are ABANDONED. -/
def execHaltLineAssert (ctx : Nat) (s : State) : Out :=
  match s.contexts.find ctx with
  | none => .next s
  | some c =>
    if !(c.st == .running || c.st == .evicting || c.st == .restoring) then .next s
    else
      match firstEvent s c.raised with
      | none => .next s
      | some e =>
        let c' : Context := { c with
          st := .halting, raised := [], taken := e :: c.raised.erase e, held := heldUnits s ctx, pendingCmd := none, slotsKept := savedSlots s ctx }
        let s := idleQueues (setCtx (fresh s) ctx c') ctx
        let s := (s.teams.filter (fun t => t.2.ctx == ctx && t.2.delay > 0)).foldl (fun s t => dropTeam s t.1) s
        let s := (ctxGroups s ctx).foldl (fun s e => onGroup s e.1 (fun g => { g with subs := g.subs.map stopSub })) s
        let s : State := { s with
          teams := s.teams.map (fun t => if t.2.ctx == ctx then (t.1, { t.2 with evicting := false }) else t)
          monitors := s.monitors.filter (fun m => m.ctx != ctx || (waiterTeam s m).isNone) }
        let s := (s.arrays.map (·.1)).foldl (fun s a => haltArray s ctx a) s
        let s := discardSignals (abandonKernels s ctx)
        .next (match c.pendingCmd with
          | some (done, seq) => completeAt s done seq 1 0
          | none => s)

/-! ### The end of the stop sequence (R45, R48, R50, R52) -/

/-- A unit of the context still works: an `mdrain.add` in execution, or a schedule that has not reached its boundary. -/
def unitsWork (s : State) (ctx : Nat) : Bool :=
  (ctxGroups s ctx).any (fun e => (e.2.queues.getD 0 []).any (fun c => c.op == .mdrainAdd && c.st == .started)) ||
  s.arrays.any (fun e => arrayBusy e.2 && e.2.run.any (fun r => r.sched.ctx == ctx))

/-- The commands of the context that an engine abandons, those in execution first. -/
def abandonedBy (s : State) (ctx core source : Nat) : List Command :=
  let qs := match source with
    | 1 => [0]
    | 2 => [1, 2]
    | 3 => [3]
    | _ => [4]
  let cs := (ctxGroups s ctx).flatMap (fun e =>
    let home := ((s.teams.find e.2.team).map (·.core)).getD 0
    (qs.flatMap (fun q => e.2.queues.getD q [])).filter (fun c => c.st != .done && (if source == 3 then decide (c.vd.toNat / 64 = core) else home == core)))
  cs.filter (fun c => c.st == .started) ++ cs.filter (fun c => c.st != .started)

/-- An engine's record. In a drained stop the commands that the image records for re-execution count as abandoned too (R50, R61; log 73). -/
def engineRecord (s : State) (ctx : Nat) (c : Context) (core source : Nat) : StopRec :=
  let cs := abandonedBy s ctx core source
  { lineRecord s c core source 0 with
    abandoned := cs.length, tag := ((cs.head?).map (·.tag.toNat)).getD 0, pc := ((cs.head?).map (·.pc)).getD 0 }

/-- The teams of the context that were resident at the halt. -/
def stoppedTeams (s : State) (ctx : Nat) : List (Nat × Team) := s.teams.filter (fun e => e.2.ctx == ctx && !teamExited s e.1)

/-- A dump of each team where HALT_DUMP asks for it, with the teams that found no slot. -/
def dumpTeams (s : State) (ctx : Nat) (c : Context) : State × List Nat :=
  if !c.desc.haltDump then (s, [])
  else
    let r := (stoppedTeams s ctx).foldl (fun (r : State × Context × List Nat) t =>
      let (s, c, undumped) := r
      let img := teamImage s t.1 t.2 .dump []
      match freeSlot s ctx c with
      | none => (s, c, undumped ++ [t.1])
      | some k =>
        if img.length > c.desc.teamSlot * 4096 then (s, c, undumped ++ [t.1])
        else (hubWrite s (slotAddr c.desc k) img, { c with slotsKept := c.slotsKept ++ [k] }, undumped)) (s, c, [])
    (r.1, r.2.2)

/-- A sub-group of the team is parked. -/
def teamParked (s : State) (team : Nat) : Bool :=
  (teamGroups s team).any (fun e => e.2.subs.any (fun x =>
    match x.st with
    | .parked _ _ | .monitor _ _ _ _ => true
    | _ => false))

/-- A resident team's record. -/
def teamRecord (s : State) (c : Context) (undumped : List Nat) (t : Nat × Team) : StopRec :=
  { lineRecord s c t.2.core 0 t.2.index with
    flags := 1 + 32 * (teamParked s t.1).toNat, abandoned := if undumped.contains t.1 then 0xFFFF else 0 }

/-- Abandoned commands leave their queues: they deliver no record. -/
def dropCommands (s : State) (ctx : Nat) : State :=
  (ctxGroups s ctx).foldl (fun s e => onGroup s e.1 (fun g => { g with queues := g.queues.map (fun q => q.filter (fun c => c.st == .done)) })) s

/-- The context is being drained after a power failure: its records wait for the drain (R61). -/
def draining (s : State) (c : Context) : Bool := s.failing && s.drain.enable && c.st == .halting && c.taken.any (fun e => e.cause == 0x21)

/-- The records of a stop: of its events, its resident teams and its engines. -/
def stopRecords (s : State) (ctx : Nat) (c : Context) (undumped : List Nat) : List StopRec :=
  (((c.taken ++ c.raised).mapIdx (fun i e => (i, e))).filterMap (fun x => if x.2.recorded then some (eventRecord s (x.1 == 0) x.2) else none)) ++
  (stoppedTeams s ctx).map (teamRecord s c undumped) ++
  (c.held.filter (fun h => h.2.1 != 0 && (h.2.1 != 5 || !(abandonedBy s ctx h.1 5).isEmpty))).map (fun h => engineRecord s ctx c h.1 h.2.1)

/-- All units have stopped: the dumps and the records are written, the summary last, and the context is STOPPED or FAILED. -/
def execContextStopComplete (ctx : Nat) (s : State) : Out :=
  match s.contexts.find ctx with
  | none => .next s
  | some c =>
    if c.st != .halting || draining s c || unitsWork s ctx then .next s
    else
      let (s, undumped) := dumpTeams s ctx c
      let first := (c.taken ++ c.raised).head?
      let cause := (first.map (·.cause)).getD 0
      let s := dropCommands (writeStop s ctx c.desc cause first (stopRecords s ctx c undumped)) ctx
      let s := setCtx s ctx { c with st := if cause == 0x22 then .failed else .stopped, raised := [], taken := [], held := [] }
      .next { s with msix := s.msix ++ [0] }

/-- All images of a RESTORE have been read: the context runs, or it fails and no team is placed (R45, R59). The status with which a RESTORE that
fails completes is free (log 2). -/
def execRestoreImagesChecked (ctx : Nat) (s : State) : Out :=
  match s.contexts.find ctx with
  | none => .next s
  | some c =>
    let slots := ((s.kernels.filter (fun e => e.2.ctx == ctx)).flatMap (fun e => e.2.saved.map (·.2)))
    if c.st != .restoring || !c.raised.isEmpty || slots.any (slotHeld s c) then .next s
    else
      let s := slots.foldl (fun s k => slotFetch s ctx c k) s
      let ks := s.kernels.filter (fun e => e.2.ctx == ctx)
      let good := ks.all (fun e => e.2.saved.all (fun x => (imageOf s c e.1 x.1 x.2).isSome))
      let finish : State → Nat → State := fun s status => match c.pendingCmd with
        | some (done, seq) => completeAt s done seq status 0
        | none => s
      if good then .next (finish (serveQueues (setCtx s ctx { c with st := .running, recreated := false, pendingCmd := none }) ctx) 0)
      else
        let status := (Config.freeBool s.free).toNat
        let s := discardSignals (abandonKernels (fresh s) ctx)
        let s := writeStop (setCtx s ctx { c with st := .failed, pendingCmd := none }) ctx c.desc 0x22 none []
        .next (finish { s with msix := s.msix ++ [0] } status)

/-- A context's translations leave a TLB; a G entry stays for the other contexts that it stands for. -/
def dropCtx (ctx : Nat) (l : List Trans) : List Trans :=
  l.filterMap (fun t =>
    match t.ctx == ctx, t.also.filter (· != ctx) with
    | false, also => some { t with also := also }
    | true, c :: also => some { t with ctx := c, also := also }
    | true, [] => none)

/-- Signals whose kernels have all retired outlive their queue (R72). -/
def orphanSignals (s : State) (q : Nat) (w : WorkQueue) : State := { s with orphans := s.orphans ++ w.signals.map (fun x => (q, x)) }

/-- A queue is UNBOUND. -/
def unbindQueue (s : State) (q : Nat) (w : WorkQueue) : State :=
  let s := orphanSignals s q w
  { s with wqs := s.wqs.erase q, monitors := s.monitors.filter (fun m => m.waiter != .queue q) }

/-- The teardown of a DESTROYED context completes, once its committed stores have left: the identifier is FREE (R45). Its ABANDONED kernels leave the
kernel table only here (R82; log 86). -/
def execContextTeardownComplete (ctx : Nat) (s : State) : Out :=
  match s.contexts.find ctx with
  | none => .next s
  | some c =>
    if c.st != .destroyed || (ctxGroups s ctx).any (fun e => committedStores e.2) || unitsWork s ctx then .next s
    else
      let s := (s.wqs.filter (fun e => e.2.ctx == ctx)).foldl (fun s e => unbindQueue s e.1 e.2) s
      let s := (s.teams.filter (fun e => e.2.ctx == ctx)).foldl (fun s e => dropTeam s e.1) s
      let s := (s.kernels.filter (fun e => e.2.ctx == ctx)).foldl (fun s e => dropKernel s e.1) s
      let s := (s.arrays.filter (fun e => e.2.run.any (fun r => r.sched.ctx == ctx))).foldl (fun s e => endRun s e.1) s
      let s := { s with
        monitors := s.monitors.filter (fun m => m.ctx != ctx)
        cores := s.cores.map (fun e => (e.1, { e.2 with tlb := dropCtx ctx e.2.tlb }))
        dies := s.dies.map (fun e => (e.1, { e.2 with
          tlb := dropCtx ctx e.2.tlb, walks := e.2.walks.filter (fun w => w.ctx != ctx), pointers := e.2.pointers.filter (fun p => p.ctx != ctx)
          tasks := e.2.tasks.filter (fun t => t.ctx != ctx) }))
        faultq := { s.faultq with
          entered := s.faultq.entered.filter (fun e => e.1 != ctx), kept := s.faultq.kept.filter (fun r => r.ctx != ctx) }
        contexts := s.contexts.erase ctx }
      .next (match c.pendingCmd with
        | some (done, seq) => completeAt s done seq 0 0
        | none => s)

/-! ### BIND and UNBIND (R68, R70) -/

/-- The BIND descriptor follows R68. -/
def queueGood (b : Nat → Byte) : Bool :=
  let n := imgLe b
  n 0 8 % 64 == 0 && n 8 8 % 8 == 0 && decide (4 ≤ n 0x10 1) && decide (n 0x10 1 ≤ 16) && decide (n 0x11 1 ≤ 7) &&
  (decide (n 0x12 2 < 2048) || n 0x12 2 == 0xFFFF) && n 0x14 12 == 0

/-- BIND. A QUEUE that does not exist, for which R68 gives no status, completes with BAD_QUEUE (log 61). -/
def execCmdBind (s : State) : Out :=
  onState s 8 [.loaded, .running, .evicting, .saved, .restoring] fun s c =>
    let q := cmdQueueNo s
    let a := cmdArg s
    withBlock s a 32 fun s =>
    let b : Nat → Byte := fun o => hubByte s (a + o)
    if decide (q ≥ 16384) || (s.wqs.find q).isSome || !queueGood b then statusOnly s 4
    else
      let w : WorkQueue :=
        { ctx := cmdCtx s, st := if c.st == .running then .serving else .bound, ring := imgLe b 0 8, ciAddr := imgLe b 8 8, logSize := imgLe b 0x10 1
          prio := imgLe b 0x11 1, vector := imgLe b 0x12 2, pi := 0, ci := 0, launched := [], signals := [], waiting := none, satisfied := false }
      statusOnly (setWq s q w) 0

/-- UNBIND waits for the entry that its queue is working on: a WAIT_VALUE that has read its location. A FENCE that its launches hold back is not
begun, and UNBIND does not wait for it (log 61). -/
def execCmdUnbind (s : State) : Out :=
  command s 9 fun s =>
    let q := cmdQueueNo s
    match s.wqs.find q with
    | some w =>
      if w.ctx != cmdCtx s then statusOnly s 4
      else if w.st == .serving && w.waiting.isSome then .next s
      else statusOnly (unbindQueue s q w) 0
    | none => statusOnly s 4

/-! ### The fault queue (R147 to R150) -/

/-- Kept faults are entered, oldest first, while there is room. -/
def enterKept (s : State) : State := s.faultq.kept.foldl enterFault { s with faultq := { s.faultq with kept := [] } }

/-- FAULTQ. A ring or PI_ADDR that breaks its alignment completes it with BAD_DESCRIPTOR, and nothing is declared (R149; log 78). -/
def execCmdFaultq (s : State) : Out :=
  command s 0x10 fun s =>
    let ring := cmdArg s
    let pi := cmdLe s 0x20 8
    let v := cmdLe s 0x28 2
    if ring % 4096 != 0 || pi % 8 != 0 || decide (v ≥ 2048) then statusOnly s 2
    else statusOnly (enterKept { s with faultq := { s.faultq with declared := true, ring := ring, piAddr := pi, vector := v, seq := 0, ci := 0 } }) 0

/-- FQ_CONSUME. Without a fault queue, or with a CI that no entry has, nothing changes. -/
def execCmdFqConsume (s : State) : Out :=
  command s 0x11 fun s =>
    let ci := cmdLe s 0x20 8
    if !s.faultq.declared then statusOnly s 1
    else if ci > s.faultq.seq then statusOnly s 2
    else statusOnly (enterKept { s with faultq := { s.faultq with ci := max s.faultq.ci ci } }) 0

/-- The sub-groups of a context that are parked on a page: group, node, address, STRADDLE. -/
def parkedThere (s : State) (ctx page : Nat) : List (Nat × Nat × VAddr × Bool) :=
  (ctxGroups s ctx).flatMap (fun e => e.2.subs.filterMap (fun x =>
    match x.st with
    | .parked a st => if a.toNat / 2 ^ 16 == page then some (e.1, x.node, a, st) else none
    | _ => none))

/-- A parked sub-group is RUNNABLE, or has PROTECTION raised in it. -/
def unpark (s : State) (fail : Bool) (x : Nat × Nat × VAddr × Bool) : State :=
  let s := onGroup s x.1 (fun g => onSub g x.2.1 (fun y => { y with st := .runnable }))
  if fail then
    let s := failOwed s x.1 (x.2.2.1.toNat / 2 ^ 16)
    match (s.groups.find x.1).bind (fun g => subOf g x.2.1) with
    | some y => raise s x.1 x.2.1 0x08 y.pc x.2.2.1 x.2.2.2
    | none => s
  else reissueGroup s x.1

/-- RESOLVE: the entry ends and the sub-groups parked there go on. A fault of the page that a core keeps stays kept, and is entered later with nobody
parked on it (R148; log 35). -/
def execCmdResolve (s : State) : Out :=
  command s 0x12 fun s =>
    let ctx := cmdCtx s
    let page := cmdLe s 0x20 10 / 2 ^ 16
    match s.contexts.find ctx with
    | none => statusOnly s 1
    | some c =>
      if c.st == .destroyed then statusOnly s 1
      else
        let fail := bitAt (cmdLe s 0x30 1) 0
        let s := { s with faultq := { s.faultq with entered := s.faultq.entered.filter (fun e => e != (ctx, page)) } }
        statusOnly (if c.st == .running then (parkedThere s ctx page).foldl (fun s x => unpark s fail x) s else s) 0

/-! ### SHOOTDOWN (R151) -/

/-- What a SHOOTDOWN names. -/
structure Shoot where
  ctx : Nat
  first : Nat
  pages : Nat
  global : Bool
  all : Bool
deriving DecidableEq, Repr

def cmdShoot (s : State) : Shoot :=
  { ctx := cmdCtx s, first := cmdLe s 0x20 10 / 2 ^ 16, pages := cmdLe s 0x30 8, global := bitAt (cmdLe s 0x38 1) 0, all := bitAt (cmdLe s 0x38 1) 1 }

/-- The SHOOTDOWN takes the entry away, for every context that it stands for. -/
def Shoot.hits (x : Shoot) (t : Trans) : Bool :=
  (x.all || t.ctx == x.ctx || t.also.contains x.ctx) && (x.pages == 0 || (decide (t.vpn < x.first + x.pages) && decide (x.first < t.vpn + t.span))) && (x.global || !t.g)

/-- A cached pointer on the way to a page that a SHOOTDOWN names. -/
def Shoot.hitsPointer (x : Shoot) (p : Pointer) : Bool :=
  let span := 2 ^ (pointerLow p.level - 16)
  (x.all || p.ctx == x.ctx) && (x.pages == 0 || (decide (p.part * span < x.first + x.pages) && decide (x.first < (p.part + 1) * span)))

/-- The entries that a SHOOTDOWN removes. -/
def shotEntries (s : State) (x : Shoot) : List Trans :=
  (s.cores.flatMap (fun e => e.2.tlb.filter x.hits) ++ s.dies.flatMap (fun e => e.2.tlb.filter x.hits)).eraseDups

/-- The place lies on a page of the entry. -/
def Trans.holds (t : Trans) (sp : Space) (a : Nat) : Bool := (t.loc (t.vpn * 2 ^ 16)).space == sp && decide (t.pa ≤ a) && decide (a < t.pa + t.span * 2 ^ 16)

/-- The group's open region uses a removed entry: a held store, a recorded line, or an engine command. -/
def regionUses (x : Shoot) (gone : List Trans) (g : Group) : Bool :=
  g.region.isOpen &&
  (g.storeQ.any (fun e => e.held && e.locs.any (fun l => gone.any (fun t => t.holds l.space l.addr))) ||
   g.region.lines.any (fun l =>
     match l with
     | .mem sp n => gone.any (fun t => t.holds sp (n * 64))
     | .scratch _ => false) ||
   g.queues.any (fun q => q.any (fun c => c.region && c.st != .done && c.pages.any x.hits)))

/-- What walks delivered to an instruction in flight no longer counts: it is translated anew. -/
def forgetWalked (x : Shoot) (ctx : Nat) (g : Group) : Group :=
  if !(x.all || ctx == x.ctx) then g
  else
    { g with subs := g.subs.map (fun y => { y with walked := y.walked.filter (fun w =>
        match w.found with
        | .leaf t => !x.hits t
        | _ => false) }) }

/-- The write on its way comes from a core that holds an affected team. -/
def shotFlight (s : State) (x : Shoot) (f : Flight) : Bool := s.teams.any (fun t => f.ofCore t.2.core && (x.all || t.2.ctx == x.ctx))

/-- An earlier command, or a committed store of an affected group, is still under way. -/
def shootWaits (s : State) (x : Shoot) : Bool :=
  s.flights.any (shotFlight s x) || s.groups.any (fun e =>
    e.2.queues.any (fun q => q.any (fun c => !c.region && c.st != .done && c.pages.any x.hits)) ||
    ((s.teams.find e.2.team).any (fun t => x.all || t.ctx == x.ctx) && committedStores e.2))

/-- Steps 1 and 2: the entries are removed, and the regions that used them are rolled back as an eviction rolls them back, without escalation. -/
def shoot (s : State) (x : Shoot) : State :=
  let gone := shotEntries s x
  let keep : List Trans → List Trans := fun l => l.filter (fun t => !x.hits t)
  let s : State := { s with
    cores := s.cores.map (fun e => (e.1, { e.2 with tlb := keep e.2.tlb }))
    dies := s.dies.map (fun e => (e.1, { e.2 with tlb := keep e.2.tlb, pointers := e.2.pointers.filter (fun p => !x.hitsPointer p) }))
    groups := s.groups.map (fun e => (e.1, forgetWalked x (ctxOfTeam s e.2.team) e.2))
    cmdq := { s.cmdq with acted := true } }
  let victims := s.groups.filter (fun e => ((s.teams.find e.2.team).bind (fun t => s.contexts.find t.ctx)).any ctxIssues && regionUses x gone e.2)
  victims.foldl (fun s e => rollback s e.1 true) s

/-- SHOOTDOWN: its removal and rollbacks at once, its completion once the earlier commands and stores are done. -/
def execCmdShootdown (s : State) : Out :=
  command s 0x13 fun s =>
    let x := cmdShoot s
    let s := if s.cmdq.acted then s else shoot s x
    let s := landFlights s (shotFlight s x)
    if shootWaits s x then .next s else statusOnly s 0

/-! ### The management plane (R259, R261 to R264) -/

/-- RATIO: the new ratio of each partition named takes effect at its next clock boundary (R13, R259). -/
def execCmdRatio (s : State) : Out :=
  command s 0x20 fun s =>
    let die := cmdLe s 0x20 1
    let m := cmdLe s 0x21 1
    let r := cmdLe s 0x22 1
    if !(decide (die < 32) || die == 0xFF) || decide (m ≥ 16) || decide (r < 2) || decide (r > 8) then statusOnly s 2
    else
      statusOnly (onCores s (fun c => die == 0xFF || dieOfCore c == die)
        (fun c => { c with ratiosSet := c.ratiosSet.mapIdx (fun i x => if bitAt m i then r else x) })) 0

def execCmdPhase (s : State) : Out :=
  command s 0x21 fun s =>
    let e := cmdLe s 0x20 1
    if e ≥ 8 then statusOnly s 2
    else statusOnly { s with phase := s.phase.set e ((List.range 8).map (fun i => cmdLe s (0x28 + i) 1)) } 0

/-- The preservation list as the command names it (R261). -/
def readList (s : State) (pa count : Nat) : List Preserve :=
  (List.range count).map (fun i => { va := BitVec.ofNat 80 (hubReadLe s (pa + 32 * i) 10), ctx := hubReadLe s (pa + 32 * i + 16) 2 })

def execCmdDrain (s : State) : Out :=
  command s 0x22 fun s =>
    let w := cmdLe s 0x20 8
    let en := bitAt w 0
    let n := bits w 13 8
    let count := cmdLe s 0x30 8
    if decide (n > 48) || decide (count > 2 ^ 20) then statusOnly s 2
    else if en && s.arrays.any (fun e => arrayBusy e.2 && decide (e.1 % 64 ≥ 48 - n)) then statusOnly s 1
    else
      withBlock s (cmdLe s 0x28 8) (32 * count) fun s =>
      statusOnly { s with drain := { enable := en, n := n, list := readList s (cmdLe s 0x28 8) count } } 0

/-- Units, counters and source codes of a class (R262). -/
def counterShape (cls : Nat) : Nat × Nat × Nat :=
  match cls with
  | 0 => (128, 8, 13)
  | 1 => (16, 4, 9)
  | _ => (1, 16, 9)

def execCmdCntCfg (s : State) : Out :=
  command s 0x23 fun s =>
    let cls := cmdLe s 0x20 1
    let die := cmdLe s 0x21 1
    let unit := cmdLe s 0x22 2
    let k := cmdLe s 0x24 1
    let src := cmdLe s 0x25 1
    let filter := cmdLe s 0x28 2
    let (units, counters, sources) := counterShape cls
    if decide (cls > 2) || (decide (cls < 2) && (decide (die ≥ 32) || decide (unit ≥ units))) || decide (k ≥ counters) || decide (src > sources) ||
        !(decide (filter < 1024) || filter == 0xFFFF) then statusOnly s 2
    else
      let x : Counter := { source := src, filter := BitVec.ofNat 16 filter, value := 0 }
      statusOnly (match cls with
        | 0 =>
          let c := coreOf s (die * 128 + unit)
          setCore s (die * 128 + unit) { c with counters := c.counters.set k x }
        | 1 =>
          let d := dieOf s die
          setDie s die { d with sliceCounters := d.sliceCounters.modify unit (fun l => l.set k x) }
        | _ => { s with hubCounters := s.hubCounters.set k x }) 0

def execCmdCntDump (s : State) : Out :=
  command s 0x24 fun s =>
    let cls := cmdLe s 0x20 1
    let a := cmdArg s
    if a % 64 != 0 || decide (cls > 2) then statusOnly s 2
    else
      let l : List Counter := match cls with
        | 0 => (List.range 4096).flatMap (fun c => (coreOf s c).counters)
        | 1 => (List.range 32).flatMap (fun d => (dieOf s d).sliceCounters.flatten)
        | _ => s.hubCounters
      statusOnly (hubWrite s a (l.flatMap (fun x => leBytes 8 x.value.toNat))) 0

/-- The physical core with a logical number on a die. -/
def physicalCore (s : State) (die n : Nat) : Option Nat :=
  (List.range 128).find? (fun c => (coreOf s (die * 128 + c)).logical == some n) |>.map (fun c => die * 128 + c)

def execInfieldScan (s : State) : Out :=
  command s 0x25 fun s =>
    let die := cmdLe s 0x20 1
    if die ≥ 32 then statusOnly s 2
    else
      match physicalCore s die (cmdLe s 0x22 2) with
      | none => statusOnly s 2
      | some c =>
        if !(residentOn s c []).isEmpty then .next (complete s 0 3)
        else
          let x := coreOf s c
          .next (passCmd { setCore s c { x with scan := true } with scanning := some (c, cmdDone s, cmdSeq s) })

/-- A scan test ends: PASS or FAIL, only while the core's ALLOW_LEVEL is 0. A failing core takes no further work, and its die's map is to be
rebuilt (R65, R263). -/
def execScanTestComplete (result : BitVec 16) (s : State) : Out :=
  match s.scanning with
  | none => .next s
  | some (core, _, _) =>
    if decide (result.toNat > 1) || allowLevel s core != 0 then .next s
    else
      let s := endScan s result.toNat
      if result.toNat == 1 then
        let c := coreOf s core
        let d := dieOf s (dieOfCore core)
        .next (setDie (setCore s core { c with logical := none }) (dieOfCore core) { d with stale := true })
      else .next s

/-- A sample of a core's CYCLE, within 4 clk of the event; a removed core gives zero. -/
def sampleCycle (s : State) (c : Nat) : Nat :=
  let x := coreOf s c
  if x.logical.isNone then 0 else (x.cycle.toNat + 2 ^ 64 + Config.freeNat (s.free + c) % 9 - 4) % 2 ^ 64

def execCmdClksample (s : State) : Out :=
  command s 0x26 fun s =>
    let a := cmdArg s
    if a % 64 != 0 then statusOnly s 2
    else
      let l := s.refclk.toNat :: (List.range 4096).map (sampleCycle s)
      statusOnly { hubWrite s a (l.flatMap (leBytes 8)) with free := s.free + 4096 } 0

/-- Measured package power, in W (R251). -/
def measuredPkg (s : State) : Nat := bits s.power.measured.toNat 15 0

/-- Package power is below 90% of the set point. -/
def underSet (s : State) : Bool := decide (measuredPkg s * 10 < s.power.setNow * 9)

/-- A die may stand at a boost step: the conditions of R258, no HOLD, and no power failure (R253, R261). -/
def boostAllowed (s : State) (d : Die) : Bool :=
  decide (s.power.freqCap ≥ 20) && decide (s.power.boostLeft > 0) && decide (d.band ≤ 4) && underSet s && !holding s && !s.failing

/-- The highest step that HOLD, bands, FREQ_CAP and the conditions of boost leave a die; a power failure sets HOLD aside (R261). -/
def stepCap (s : State) (d : Die) : Nat :=
  if holding s && !s.failing then 0
  else
    match d.band with
    | 7 => 0
    | 6 => min 15 s.power.freqCap
    | _ => if boostAllowed s d then s.power.freqCap else min 19 s.power.freqCap

/-- A die within its cap: a step above it, or one on its way above it, is lowered to it (R253, R258 to R260). -/
def limitDie (s : State) (d : Die) : Die :=
  { d with stepTarget := match d.stepTarget with
      | some k => some (min k (stepCap s d))
      | none => if d.step > stepCap s d then some (stepCap s d) else none }

/-- Every die within its cap. -/
def limitDies (s : State) : State := onDies s (fun _ => true) (limitDie s)

def execCmdFreqCap (s : State) : Out :=
  command s 0x27 fun s =>
    let k := cmdLe s 0x20 1
    if k > 23 then statusOnly s 2
    else statusOnly (limitDies { s with power := { s.power with freqCap := k } }) 0

/-! ### Removing a failed core (R65) -/

/-- The cores of a die that remain, in the order of the rebuilt map (log 10). -/
def mapOrder (s : State) (die gen : Nat) : List Nat :=
  let l := ((List.range 128).map (fun c => die * 128 + c)).filter (fun c => (coreOf s c).logical.isSome)
  l.mergeSort (fun a b => decide (Config.newMap (die * 2 ^ 32 + gen) a ≤ Config.newMap (die * 2 ^ 32 + gen) b))

/-- The map of a die with a failed core is rebuilt when no group is resident on it. -/
def execCoreMapRebuild (die : Nat) (s : State) : Out :=
  let d := dieOf s die
  if !d.stale || (List.range 128).any (fun c => !(residentOn s (die * 128 + c) []).isEmpty) then .next s
  else
    let s := ((mapOrder s die (d.mapGen + 1)).mapIdx (fun i c => (i, c))).foldl (fun s x => setCore s x.2 { coreOf s x.2 with logical := some x.1 }) s
    .next { setDie s die { d with stale := false, mapGen := d.mapGen + 1 } with msix := s.msix ++ [0] }

end Sys2Proof.Machine
end

