-- ==== Sys2Proof/Machine/Float.lean ====
section
/-! DEFINITION. The floating-point instructions (spec/19_ref_compute.md R327 to R332) and the conversions (R334 to R339). -/

namespace Sys2Proof.Machine

/-! ### FPM (R35) -/

def fpmMode (g : Group) : Nat := g.fpm.toNat % 4
def fpmFlush (g : Group) : Bool := g.fpm.getLsbD 2

/-! ### The shape of a floating instruction (R316, R327) -/

/-- A lane made of elements, with the flags of all of them on the lane (R327). -/
def elements (n cnt : Nat) (fn : Nat → Nat × FpFlags) : Nat × FpFlags :=
  (packElems n cnt (fun e => (fn e).1), (List.range cnt).foldl (fun a e => FpFlags.or a (fn e).2) {})

/-- The data of a lane's three operands at element `e`. -/
structure FpArgs where
  rm : Nat
  flush : Bool
  a : FpNum
  b : FpNum
  c : FpNum

/-- Per lane, the value and flags of an instruction of a floating type that treats its elements independently. -/
def fpLane (t : Ty) (fn : Fmt → FpArgs → Nat × FpFlags) (f : Fields) (g : Group) (i : Nat) : Nat × FpFlags :=
  let ft := fmtOf t
  let rd : Sel → Nat → FpNum := fun x e => ft.read (fpmFlush g) (elemAt ft.width (readLane g f x i).toNat e)
  elements ft.width (elemCount t) (fun e =>
    fn ft { rm := fpmMode g, flush := fpmFlush g, a := rd f.sa e, b := rd f.sb e, c := rd f.sc e })

/-- The active lanes take their values, and FL their flags (R38). -/
def writeFp (g : Group) (d : Sel) (wide : Bool) (m : Mask) (tag : BitVec 4) (fn : Nat → Nat × FpFlags) : Group :=
  let g' := writeV g d wide m tag (fun i => BitVec.ofNat 64 (fn i).1)
  { g' with fl := raiseFlags g.fl (flagSets (fun i => if m.getLsbD i then (fn i).2 else {})) }

/-- A floating instruction of fixed latency. -/
def fpOp (op : Op) (f : Fields) (s : State) (fn : Fmt → FpArgs → Nat × FpFlags) : Out :=
  issuePlain op f s fun e => finish e op f s (writeFp e.g f.dst false (e.active f) (tagOf f.ty) (fpLane f.ty fn f e.g))

def execFadd (f : Fields) (s : State) : Out := fpOp .fadd f s (fun t x => t.sum x.rm x.flush [] [x.a, x.b])
def execFsub (f : Fields) (s : State) : Out := fpOp .fsub f s (fun t x => t.sum x.rm x.flush [] [x.a, x.b.negate])
def execFmul (f : Fields) (s : State) : Out := fpOp .fmul f s (fun t x => t.sum x.rm x.flush [(x.a, x.b)] [])
def execFfma (f : Fields) (s : State) : Out := fpOp .ffma f s (fun t x => t.sum x.rm x.flush [(x.a, x.b)] [x.c])
def execFmin (f : Fields) (s : State) : Out := fpOp .fmin f s (fun t x => t.pick false x.a x.b)
def execFmax (f : Fields) (s : State) : Out := fpOp .fmax f s (fun t x => t.pick true x.a x.b)

/-- `fabs` and `fneg`: the sign alone changes, no flag is raised, and a NaN gives the canonical one (R328). -/
def signed (x : FpNum) (neg : Bool) : FpNum :=
  match x with
  | .nan s => .nan s
  | .inf _ => .inf neg
  | .fin _ m e => .fin neg m e

def execFabs (f : Fields) (s : State) : Out := fpOp .fabs f s (fun t x => (t.write (signed x.a false), {}))
def execFneg (f : Fields) (s : State) : Out := fpOp .fneg f s (fun t x => (t.write (signed x.a (!x.a.neg)), {}))

/-- `fdot2`: two products and an addend enter one exact sum. -/
def execFdot2 (f : Fields) (s : State) : Out :=
  issuePlain .fdot2 f s fun e =>
    let rd : W32 → FpNum := fun x => fmtF32.read (fpmFlush e.g) x.toNat
    let fn : Nat → Nat × FpFlags := fun i =>
      let a := readPair e.g f f.sa i
      let b := readPair e.g f f.sb i
      fmtF32.sum (fpmMode e.g) (fpmFlush e.g)
        [(rd (a.setWidth 32), rd (b.setWidth 32)), (rd ((a >>> 32).setWidth 32), rd ((b >>> 32).setWidth 32))] [rd (readLane e.g f f.sc i)]
    finish e .fdot2 f s (writeFp e.g f.dst false (e.active f) (tagOf f.ty) fn)

/-! ### Compare, classify, round (R329 to R331) -/

/-- The truth of a comparison and whether it raises NV. -/
def fcmpBit (cc : BitVec 4) (a b : FpNum) : Bool × Bool :=
  let un := a.isNan || b.isNan
  let sn := a.isSnan || b.isSnan
  match cc.toNat with
  | 0 => (FpNum.eq a b, sn)
  | 1 => (!FpNum.eq a b, sn)
  | 2 => (!un && FpNum.lt a b, un)
  | 3 => (!un && !FpNum.lt b a, un)
  | 4 => (!un && FpNum.lt b a, un)
  | 5 => (!un && !FpNum.lt a b, un)
  | 6 => (un, sn)
  | _ => (!un, sn)

def execFcmp (f : Fields) (s : State) : Out :=
  issuePlain .fcmp f s fun e =>
    let m := e.active f
    let r : Nat → Bool × Bool := fun i =>
      fcmpBit f.mod (fmtF32.read (fpmFlush e.g) (readLane e.g f f.sa i).toNat) (fmtF32.read (fpmFlush e.g) (readLane e.g f f.sb i).toNat)
    let old := maskRead e.g e.sub.em f.dst
    let g := writePred e.g f.dst (maskOf (fun i => if m.getLsbD i then (r i).1 else old.getLsbD i))
    finish e .fcmp f s { g with fl := raiseFlags e.g.fl (flagSets (fun i => if m.getLsbD i then { nv := (r i).2 } else {})) }

def execFclass (f : Fields) (s : State) : Out :=
  issuePlain .fclass f s fun e =>
    let t := fmtOf f.ty
    let fn : Nat → W64 := fun i =>
      BitVec.ofNat 64 ((List.range (elemCount f.ty)).foldl (fun a k => a + 2 ^ (16 * k + t.classBit (elemAt t.width (readLane e.g f f.sa i).toNat k))) 0)
    finish e .fclass f s (writeV e.g f.dst false (e.active f) tagN32 fn)

def execFrnd (f : Fields) (s : State) : Out :=
  fpOp .frnd f s (fun t x => t.integral (if f.mod == 0 then x.rm else f.mod.toNat - 1) x.a)

/-! ### The special functions (R332) -/

/-- A special function on one element of a type: the 16-bit forms go through F32 and round RNE; OF, UF and NX are then those of the final
result too. -/
def specialElem (op : Op) (t : Ty) (rm : Nat) (flush : Bool) (bitsIn : Nat) : Nat × FpFlags :=
  let ft := fmtOf t
  let x := ft.read flush bitsIn
  if op == .fsqrt then ft.sqrt rm flush x
  else
    let r := specialF32 op (Config.approx op (match x with
      | .fin s m e => (fmtF32.round 0 false s m e false).1
      | _ => 0)) flush x
    if t == .f32 then r
    else
      let y := ft.convert 0 flush (fmtF32.read flush r.1)
      (y.1, FpFlags.or r.2 y.2)

/-- A special function: a long-latency producer of values and flags computed under the FPM of its issue. -/
def specialOp (op : Op) (f : Fields) (s : State) : Out :=
  issuePlain op f s fun e =>
    let ft := fmtOf f.ty
    let fn : Nat → Nat × FpFlags := fun i =>
      elements ft.width (elemCount f.ty) (fun k =>
        specialElem op f.ty (fpmMode e.g) (fpmFlush e.g) (elemAt ft.width (readLane e.g f f.sa i).toNat k))
    let m := e.active f
    let vals := activeLanes m (fun i => BitVec.ofNat 64 (fn i).1)
    finish e op f s (launch e f e.g (tagOf f.ty) 0 (.values vals (flagSets (fun i => if m.getLsbD i then (fn i).2 else {}))))

def execFrcp (f : Fields) (s : State) : Out := specialOp .frcp f s
def execFrsq (f : Fields) (s : State) : Out := specialOp .frsq f s
def execFsqrt (f : Fields) (s : State) : Out := specialOp .fsqrt f s
def execFexp2 (f : Fields) (s : State) : Out := specialOp .fexp2 f s
def execFlog2 (f : Fields) (s : State) : Out := specialOp .flog2 f s
def execFsin (f : Fields) (s : State) : Out := specialOp .fsin f s
def execFcos (f : Fields) (s : State) : Out := specialOp .fcos f s
def execFtanh (f : Fields) (s : State) : Out := specialOp .ftanh f s

/-! ### Conversion (R334 to R336) -/

/-- The least and greatest value of an integer type. -/
def intRange (t : Ty) : Int × Int :=
  let n := elemBits t
  if Ty.signed t then (-((2 : Int) ^ (n - 1)), (2 : Int) ^ (n - 1) - 1) else (0, (2 : Int) ^ n - 1)

/-- Saturation to an integer type. -/
def saturate (t : Ty) (x : Int) : Int := max (intRange t).1 (min x (intRange t).2)

/-- One element converted from a source type to a destination type. -/
def convertElem (d t : Ty) (rm : Nat) (flush : Bool) (x : Nat) : Nat × FpFlags :=
  if d.isFT then
    if t.isFT then (fmtOf d).convert rm flush ((fmtOf t).read flush x)
    else (fmtOf d).roundInt rm flush false (elemVal t x 0) 0
  else if t.isFT then
    let (v, fl) := toInteger rm (intRange d).1 (intRange d).2 ((fmtOf t).read flush x)
    (wrapInt (elemBits d) v, fl)
  else (wrapInt (elemBits d) (saturate d (elemVal t x 0)), {})

def execCvt (f : Fields) (s : State) : Out :=
  issuePlain .cvt f s fun e =>
    let t := f.srcTy
    let fn : Nat → Nat × FpFlags := fun i =>
      let x := (readWide t.w64 e.g f f.sa i).toNat
      elements (elemBits f.ty) (elemCount f.ty) (fun k => convertElem f.ty t (fpmMode e.g) (fpmFlush e.g) (elemAt (elemBits t) x k))
    finish e .cvt f s (writeFp e.g f.dst f.ty.w64 (e.active f) (tagOf f.ty) fn)

def execPack (f : Fields) (s : State) : Out :=
  issuePlain .pack f s fun e =>
    let t := f.srcTy
    let n := elemCount t
    let fn : Nat → Nat × FpFlags := fun i =>
      elements (elemBits f.ty) (elemCount f.ty) (fun k =>
        let x := (readLane e.g f (if k < n then f.sa else f.sb) i).toNat
        convertElem f.ty t (fpmMode e.g) (fpmFlush e.g) (elemAt (elemBits t) x (k % n)))
    finish e .pack f s (writeFp e.g f.dst false (e.active f) (tagOf f.ty) fn)

def execUnpack (f : Fields) (s : State) : Out :=
  issuePlain .unpack f s fun e =>
    let t := f.srcTy
    let n := elemCount f.ty
    let fn : Nat → Nat × FpFlags := fun i =>
      elements (elemBits f.ty) n (fun k =>
        convertElem f.ty t (fpmMode e.g) (fpmFlush e.g) (elemAt (elemBits t) (readLane e.g f f.sa i).toNat (n * f.imm.toNat + k)))
    finish e .unpack f s (writeFp e.g f.dst false (e.active f) (tagOf f.ty) fn)

/-! ### SX blocks in registers (R337, R338) -/

/-- The register at a distance from a vector selector. -/
def selPlus (x : Sel) (n : Nat) : Nat :=
  match x with
  | .v k => k.val + n
  | _ => 0

/-- Value `n` of the sources of `sxq`, as a datum. -/
def sxSource (g : Group) (f : Fields) (n : Nat) : FpNum :=
  let t := f.srcTy
  if t == .f32 then fmtF32.read false (laneOf (vreg g (selPlus f.sa (n / 64))) (n % 64)).toNat
  else (fmtOf t).read false (elemAt 16 (laneOf (vreg g (selPlus f.sa (n / 128))) (n % 128 / 2)).toNat (n % 2))

/-- The lane that holds value `n` of the sources. -/
def sxSourceLane (t : Ty) (n : Nat) : Nat := if t == .f32 then n % 64 else n % 128 / 2

/-- The flags of every value whose source lane is active are raised, whether or not its block is written (R337). -/
def execSxq (f : Fields) (s : State) : Out :=
  issuePlain .sxq f s fun e =>
    let m := e.active f
    let blocks := (List.range 16).map (fun k => sxQuantise (sxBits f.ty) ((List.range 16).map (fun j => sxSource e.g f (16 * k + j))))
    let block : Nat → SxBlock := fun k => blocks.getD k { e := 0, shift := 0, bytes := [], flags := [] }
    let on : Nat → Bool := fun i => m.getLsbD (i / 4 * 4)
    let ms := maskOf on
    let data : Nat → W64 := fun i =>
      let b := block (i / 4)
      BitVec.ofNat 64 (packElems 8 4 (fun j => b.bytes.getD (i % 4 * 4 + j) 0))
    let scale : Nat → W64 := fun i => if i % 4 == 0 then BitVec.ofNat 64 ((block (i / 4)).e + 256 * (block (i / 4)).shift) else 0
    let fl : Nat → FpFlags := fun i =>
      if m.getLsbD i then
        (List.range 256).foldl (fun a n =>
          if sxSourceLane f.srcTy n == i then FpFlags.or a ((block (n / 16)).flags.getD (n % 16) {}) else a) {}
      else {}
    let g := writeV e.g f.dst false ms (tagOf f.ty) data
    let g := writeV g f.sb false ms tagRaw scale
    finish e .sxq f s { g with fl := raiseFlags e.g.fl (flagSets fl) }

def execSxd (f : Fields) (s : State) : Out :=
  issuePlain .sxd f s fun e =>
    let m := e.active f
    let a := vreg e.g (selPlus f.sa 0)
    let sc := vreg e.g (selPlus f.sb 0)
    let value : Nat → W64 := fun n =>
      let k := n / 16
      let x := (laneOf sc (4 * k)).toNat
      BitVec.ofNat 64 (fmtF32.write (sxElem (sxBits f.srcTy) (bits x 7 0) (bits x 15 8) (n % 16) (elemAt 8 (laneOf a (n / 4)).toNat (n % 4))))
    let put : Group → Nat → Group := fun g r => setV g (selPlus f.dst r)
      (vput (vreg g (selPlus f.dst r)) m (tagOf f.ty) (fun i => (value (64 * r + i)).setWidth 32))
    finish e .sxd f s ([0, 1, 2, 3].foldl put e.g)

/-! ### Tags (R339) -/

def execTag (f : Fields) (s : State) : Out :=
  issuePlain .tag f s fun e =>
    finish e .tag f s (writeV e.g f.dst false (e.active f) (f.imm.setWidth 4) (fun i => (readLane e.g f f.sa i).setWidth 64))

def execTagof (f : Fields) (s : State) : Out :=
  issuePlain .tagof f s fun e =>
    let t : W64 := (vreg e.g (selPlus f.sa 0)).tag.setWidth 64
    if f.dst.isV then finish e .tagof f s (writeV e.g f.dst false (e.active f) tagN32 (fun _ => t))
    else if e.guard f then finish e .tagof f s (writeS e.g f.dst t)
    else finish e .tagof f s e.g

end Sys2Proof.Machine
end

