-- ==== Sys2Proof/Machine/Cross.lean ====
section
/-! DEFINITION. The cross-lane and predicate instructions (spec/19_ref_compute.md R341 to R346). -/

namespace Sys2Proof.Machine

/-! ### Moving values between lanes (R341) -/

/-- The source lane of `shfl` for lane `i` at distance `d`. -/
def shflLane (kind : BitVec 4) (i d : Nat) : Nat :=
  match kind.toNat with
  | 0 => if d ≤ i then i - d else i
  | 1 => if i + d < 64 then i + d else i
  | 2 => i ^^^ (d % 64)
  | _ => d % 64

def execShfl (f : Fields) (s : State) : Out :=
  issuePlain .shfl f s fun e =>
    let w := f.ty.w64
    let src : Nat → W64 := fun i => readWide w e.g f f.sa (shflLane f.mod i (readLane e.g f f.sb i).toNat)
    finish e .shfl f s (writeV e.g f.dst w (e.active f) (copiedTag e.g f.sa) src)

def execBcast (f : Fields) (s : State) : Out :=
  issuePlain .bcast f s fun e =>
    let w := f.ty.w64
    let x := readWide w e.g f f.sa ((readS e.g f f.sb).toNat % 64)
    finish e .bcast f s (writeV e.g f.dst w (e.active f) (copiedTag e.g f.sa) (fun _ => x))

/-! ### Votes (R342) -/

def execBallot (f : Fields) (s : State) : Out :=
  issue .ballot f s (fun _ => f.imm != 0) never never fun e =>
    finish e .ballot f s (writeS e.g f.dst (e.active f &&& maskRead e.g e.sub.em f.sa))

/-- The lowest lane of a mask, or W. -/
def lowestLane (m : Mask) : Nat := ((List.range 64).find? (fun i => m.getLsbD i)).getD 64

def execFirstLane (f : Fields) (s : State) : Out :=
  issuePlain .firstLane f s fun e =>
    finish e .firstLane f s (writeS e.g f.dst (BitVec.ofNat 64 (lowestLane (e.active f &&& maskRead e.g e.sub.em f.sa))))

/-- The result of a vote over the active lanes `a`, of which `t` have the predicate. -/
def voteBit (kind : BitVec 4) (a t : Mask) : Bool :=
  match kind.toNat with
  | 0 => t != 0
  | 1 => t == a
  | _ => t == 0 || t == a

def execVote (f : Fields) (s : State) : Out :=
  issuePlain .vote f s fun e =>
    let a := e.active f
    let r := voteBit f.mod a (a &&& maskRead e.g e.sub.em f.sa)
    finish e .vote f s (writePred e.g f.dst (if r then BitVec.allOnes 64 else 0))

/-! ### Reductions and scans (R343, R344) -/

/-- Comb of two values of a type, with its flags. -/
def combine (op : BitVec 4) (t : Ty) (rm : Nat) (flush : Bool) (x y : W64) : W64 × FpFlags :=
  let n := elemBits t
  if t == .f32 then
    let a := fmtF32.read flush x.toNat
    let b := fmtF32.read flush y.toNat
    let r := match op.toNat with
      | 0 => fmtF32.sum rm flush [] [a, b]
      | 1 => fmtF32.pick false a b
      | _ => fmtF32.pick true a b
    (BitVec.ofNat 64 r.1, r.2)
  else
    let a := elemVal t x.toNat 0
    let b := elemVal t y.toNat 0
    let u := x.toNat % 2 ^ n
    let v := y.toNat % 2 ^ n
    let r : Nat := match op.toNat with
      | 0 => wrapInt n (a + b)
      | 1 => wrapInt n (min a b)
      | 2 => wrapInt n (max a b)
      | 3 => u &&& v
      | 4 => u ||| v
      | _ => u ^^^ v
    (BitVec.ofNat 64 r, {})

/-- The identity of a combination. -/
def combineIdentity (op : BitVec 4) (t : Ty) : W64 :=
  let n := elemBits t
  if t == .f32 then
    (match op.toNat with
     | 0 => 0
     | 1 => 0x7F800000
     | _ => 0xFF800000)
  else
    (match op.toNat with
     | 1 => BitVec.ofNat 64 (wrapInt n (intRange t).2)
     | 2 => BitVec.ofNat 64 (wrapInt n (intRange t).1)
     | 3 => BitVec.ofNat 64 (2 ^ n - 1)
     | _ => 0)

/-- Comb with ABSENT: the other value as it is, its bits unchanged also where it is a NaN or subnormal (log 64). -/
def combAbsent (fn : W64 → W64 → W64 × FpFlags) (x y : Option W64) : Option W64 × FpFlags :=
  match x, y with
  | none, y => (y, {})
  | x, none => (x, {})
  | some a, some b => (some (fn a b).1, (fn a b).2)

/-- One level of the tree: neighbours combine. -/
def treeLevel (fn : W64 → W64 → W64 × FpFlags) : List (Option W64) → List (Option W64) × FpFlags
  | a :: b :: t =>
    let (x, fl) := combAbsent fn a b
    let (r, fs) := treeLevel fn t
    (x :: r, FpFlags.or fl fs)
  | l => (l, {})

/-- The whole tree over `n` levels, with the flags of every combination. -/
def treeReduce (fn : W64 → W64 → W64 × FpFlags) : Nat → List (Option W64) → Option W64 × FpFlags
  | 0, l => (l.headD none, {})
  | n + 1, l =>
    let (l, fl) := treeLevel fn l
    let (x, fs) := treeReduce fn n l
    (x, FpFlags.or fl fs)

/-- The value of lane `i` of a reduction's source: a lane of a vector, or a bit of a predicate or FL set. -/
def reduceArg (e : Env) (f : Fields) (i : Nat) : W64 :=
  if f.sa.isV then readWide f.ty.w64 e.g f f.sa i else if (maskRead e.g e.sub.em f.sa).getLsbD i then 1 else 0

def execLred (f : Fields) (s : State) : Out :=
  issuePlain .lred f s fun e =>
    let m := e.active f
    let xs : List (Option W64) := (List.range 64).map (fun i => if m.getLsbD i then some (reduceArg e f i) else none)
    let (r, fl) := treeReduce (combine f.mod f.ty (fpmMode e.g) (fpmFlush e.g)) 6 xs
    let x := r.getD (combineIdentity f.mod f.ty)
    let g := writeS e.g f.dst (if f.ty.w64 then x else extend32 f.ty (x.setWidth 32))
    finish e .lred f s { g with fl := raiseFlags e.g.fl (flagSets (fun i => if i == lowestLane m then fl else {})) }

/-- The running combination up to each lane in turn: the lane, what it receives, its flags. -/
def scanLanes (fn : W64 → W64 → W64 × FpFlags) (excl : Bool) (ident : W64) : Option W64 → List (Nat × W64) → List (Nat × W64 × FpFlags)
  | _, [] => []
  | acc, (i, x) :: t =>
    let (n, fl) := combAbsent fn acc (some x)
    (i, if excl then acc.getD ident else n.getD ident, fl) :: scanLanes fn excl ident n t

def execScan (f : Fields) (s : State) : Out :=
  issuePlain .scan f s fun e =>
    let m := e.active f
    let xs := activeLanes m (fun i => readWide f.ty.w64 e.g f f.sa i)
    let rs := scanLanes (combine f.mod f.ty (fpmMode e.g) (fpmFlush e.g)) (f.aux == 1) (combineIdentity f.mod f.ty) none xs
    let at_ : Nat → W64 × FpFlags := fun i => ((rs.find? (fun r => r.1 == i)).map (·.2)).getD (0, {})
    let g := writeV e.g f.dst f.ty.w64 m (tagOf f.ty) (fun i => (at_ i).1)
    finish e .scan f s { g with fl := raiseFlags e.g.fl (flagSets (fun i => (at_ i).2)) }

/-! ### Match (R345) -/

/-- Two keys are equal: as bits, or as numbers. -/
def sameKey (asFloat flush : Bool) (x y : W64) : Bool :=
  if asFloat then FpNum.eq (fmtF32.read flush x.toNat) (fmtF32.read flush y.toNat) else x == y

def execMatchKeys (f : Fields) (s : State) : Out :=
  issuePlain .matchKeys f s fun e =>
    let m := e.active f
    let key : Nat → W64 := fun i => readWide f.ty.w64 e.g f f.sa i
    let firstOf : Nat → Bool := fun i => !(List.range i).any (fun j => m.getLsbD j && sameKey (f.aux == 1) (fpmFlush e.g) (key j) (key i))
    let old := maskRead e.g e.sub.em f.dst
    finish e .matchKeys f s (writePred e.g f.dst (maskOf (fun i => if m.getLsbD i then firstOf i else old.getLsbD i)))

/-! ### Predicates (R346) -/

/-- A predicate instruction under the scalar guard. -/
def predOp (op : Op) (f : Fields) (s : State) (fn : Env → Mask) : Out :=
  issuePlain op f s fun e => finish e op f s (if e.guard f then writePred e.g f.dst (fn e) else e.g)

def execPand (f : Fields) (s : State) : Out := predOp .pand f s (fun e => maskRead e.g e.sub.em f.sa &&& maskRead e.g e.sub.em f.sb)
def execPor (f : Fields) (s : State) : Out := predOp .por f s (fun e => maskRead e.g e.sub.em f.sa ||| maskRead e.g e.sub.em f.sb)
def execPxor (f : Fields) (s : State) : Out := predOp .pxor f s (fun e => maskRead e.g e.sub.em f.sa ^^^ maskRead e.g e.sub.em f.sb)
def execPnot (f : Fields) (s : State) : Out := predOp .pnot f s (fun e => ~~~(maskRead e.g e.sub.em f.sa))
def execPmov (f : Fields) (s : State) : Out := predOp .pmov f s (fun e => maskValue e.g e.sub.em f f.sa)

def execPcnt (f : Fields) (s : State) : Out :=
  issuePlain .pcnt f s fun e =>
    finish e .pcnt f s (if e.guard f then writeS e.g f.dst (BitVec.ofNat 64 (oneBits 64 (maskRead e.g e.sub.em f.sa).toNat)) else e.g)

end Sys2Proof.Machine
end

