-- ==== Sys2Proof/Machine/Crypto.lean ====
section
/-! DEFINITION. SHA-256, and RSASSA-PSS with SHA-256, a 32-byte salt and RSA-3072 keys, as firmware images and attestation reports use them
(spec/00_scope.md R1, spec/14_link.md R247 to R249). The algorithms are those of FIPS 180-4 and PKCS #1 v2.2, which the manual names
(log 9). -/

namespace Sys2Proof.Machine

/-! ### SHA-256 -/

def rotr32 (x n : Nat) : Nat := (x >>> n ||| x <<< (32 - n)) % 2 ^ 32

/-- The round constants. -/
def shaK : List Nat :=
  [0x428A2F98, 0x71374491, 0xB5C0FBCF, 0xE9B5DBA5, 0x3956C25B, 0x59F111F1, 0x923F82A4, 0xAB1C5ED5,
   0xD807AA98, 0x12835B01, 0x243185BE, 0x550C7DC3, 0x72BE5D74, 0x80DEB1FE, 0x9BDC06A7, 0xC19BF174] ++
  [0xE49B69C1, 0xEFBE4786, 0x0FC19DC6, 0x240CA1CC, 0x2DE92C6F, 0x4A7484AA, 0x5CB0A9DC, 0x76F988DA,
   0x983E5152, 0xA831C66D, 0xB00327C8, 0xBF597FC7, 0xC6E00BF3, 0xD5A79147, 0x06CA6351, 0x14292967] ++
  [0x27B70A85, 0x2E1B2138, 0x4D2C6DFC, 0x53380D13, 0x650A7354, 0x766A0ABB, 0x81C2C92E, 0x92722C85,
   0xA2BFE8A1, 0xA81A664B, 0xC24B8B70, 0xC76C51A3, 0xD192E819, 0xD6990624, 0xF40E3585, 0x106AA070] ++
  [0x19A4C116, 0x1E376C08, 0x2748774C, 0x34B0BCB5, 0x391C0CB3, 0x4ED8AA4A, 0x5B9CCA4F, 0x682E6FF3,
   0x748F82EE, 0x78A5636F, 0x84C87814, 0x8CC70208, 0x90BEFFFA, 0xA4506CEB, 0xBEF9A3F7, 0xC67178F2]

/-- The eight working words. -/
structure Sha where
  a : Nat
  b : Nat
  c : Nat
  d : Nat
  e : Nat
  f : Nat
  g : Nat
  h : Nat
deriving DecidableEq, Repr

def Sha.words (x : Sha) : List Nat := [x.a, x.b, x.c, x.d, x.e, x.f, x.g, x.h]

def Sha.ofWords (l : List Nat) : Sha :=
  { a := l.getD 0 0, b := l.getD 1 0, c := l.getD 2 0, d := l.getD 3 0, e := l.getD 4 0, f := l.getD 5 0, g := l.getD 6 0, h := l.getD 7 0 }

/-- The initial hash value. -/
def shaInit : Sha := .ofWords [0x6A09E667, 0xBB67AE85, 0x3C6EF372, 0xA54FF53A, 0x510E527F, 0x9B05688C, 0x1F83D9AB, 0x5BE0CD19]

/-- One round, with its constant and message word. -/
def shaRound (x : Sha) (k w : Nat) : Sha :=
  let s1 := rotr32 x.e 6 ^^^ rotr32 x.e 11 ^^^ rotr32 x.e 25
  let ch := (x.e &&& x.f) ^^^ ((2 ^ 32 - 1 - x.e) &&& x.g)
  let t1 := x.h + s1 + ch + k + w
  let s0 := rotr32 x.a 2 ^^^ rotr32 x.a 13 ^^^ rotr32 x.a 22
  let maj := (x.a &&& x.b) ^^^ (x.a &&& x.c) ^^^ (x.b &&& x.c)
  { a := (t1 + s0 + maj) % 2 ^ 32, b := x.a, c := x.b, d := x.c, e := (x.d + t1) % 2 ^ 32, f := x.e, g := x.f, h := x.g }

/-- `n` further words of the message schedule, the newest word standing first. -/
def shaExtend : Nat → List Nat → List Nat
  | 0, w => w
  | n + 1, w =>
    let at_ : Nat → Nat := fun i => w.getD i 0
    let s0 := rotr32 (at_ 14) 7 ^^^ rotr32 (at_ 14) 18 ^^^ at_ 14 >>> 3
    let s1 := rotr32 (at_ 1) 17 ^^^ rotr32 (at_ 1) 19 ^^^ at_ 1 >>> 10
    shaExtend n ((s1 + at_ 6 + s0 + at_ 15) % 2 ^ 32 :: w)

/-- The hash value after a block of 64 bytes. -/
def shaBlock (x : Sha) (block : List Byte) : Sha :=
  let w := (shaExtend 48 ((List.range 16).map (fun i => beValue ((block.drop (4 * i)).take 4))).reverse).reverse
  let y := (shaK.zip w).foldl (fun y p => shaRound y p.1 p.2) x
  .ofWords ((x.words.zip y.words).map (fun p => (p.1 + p.2) % 2 ^ 32))

/-- The message with its padding: a 1 bit, zeros, and the length in bits as a 64-bit integer. -/
def shaPad (m : List Byte) : List Byte :=
  m ++ [0x80] ++ List.replicate ((119 - m.length % 64) % 64) 0 ++ beBytes 8 (8 * m.length)

/-- The SHA-256 digest of a byte string. -/
def sha256 (m : List Byte) : List Byte :=
  let p := shaPad m
  let x := (List.range (p.length / 64)).foldl (fun x i => shaBlock x ((p.drop (64 * i)).take 64)) shaInit
  x.words.flatMap (beBytes 4)

/-! ### RSASSA-PSS -/

/-- x^e mod n, with `k` bits of the exponent still to be used. -/
def modPow (x n : Nat) : Nat → Nat → Nat
  | 0, _ => 1 % n
  | k + 1, e =>
    let y := modPow (x * x % n) n k (e / 2)
    if bitAt e 0 then x * y % n else y

/-- The mask of `n` bytes that MGF1 makes from a seed. -/
def mgf1 (seed : List Byte) (n : Nat) : List Byte := ((List.range ((n + 31) / 32)).flatMap (fun i => sha256 (seed ++ beBytes 4 i))).take n

/-- The hash H of an encoded message, from the message's digest and the salt. -/
def pssHash (digest salt : List Byte) : List Byte := sha256 (List.replicate 8 0 ++ digest ++ salt)

/-- A data block under the mask of H, with its topmost bit cleared: 3,071 bits are encoded. -/
def pssMask (h db : List Byte) : List Byte :=
  match (db.zip (mgf1 h 351)).map (fun p => p.1 ^^^ p.2) with
  | [] => []
  | b :: rest => (b &&& 0x7F) :: rest

/-- EMSA-PSS encoding of a message, 384 bytes. -/
def pssEncode (m salt : List Byte) : List Byte :=
  let h := pssHash (sha256 m) salt
  pssMask h (List.replicate 318 0 ++ [1] ++ salt) ++ h ++ [0xBC]

/-- EMSA-PSS verification. -/
def pssGood (m em : List Byte) : Bool :=
  let masked := em.take 351
  let h := (em.drop 351).take 32
  let db := pssMask h masked
  em.length == 384 && em.drop 383 == [0xBC] && (masked.headD 0).toNat < 0x80 && db.take 319 == List.replicate 318 0 ++ [1] &&
  pssHash (sha256 m) (db.drop 319) == h

/-- An RSA-3072 public key carried in an image: the 384 bytes of its modulus, highest first, and those of its exponent (log 9). -/
def keyModulus (key : List Byte) : Nat := beValue (key.take 384)
def keyExponent (key : List Byte) : Nat := beValue (key.drop 384)

/-- A signature of a message verifies under a public key. -/
def rsaGood (key m signature : List Byte) : Bool :=
  let s := beValue signature
  let n := keyModulus key
  signature.length == 384 && n.log2 == 3071 && decide (s < n) &&
  (let x := modPow s n 3072 (keyExponent key)
   decide (x.log2 < 3071) && pssGood m (beBytes 384 x))

/-- The signature of a message by a private key, its modulus and exponent, with a salt. -/
def rsaSign (n d : Nat) (m salt : List Byte) : List Byte := beBytes 384 (modPow (beValue (pssEncode m salt)) n 3072 d)

end Sys2Proof.Machine
end

