-- ==== Sys2Proof/Machine/Power.lean ====
section
/-! DEFINITION. The Plosozon controller: the allowance counters, set point, frequency steps, boost and temperature bands, power failure with its
drain, and power-up (spec/15_power.md R251 to R262, spec/03_context.md R55, R60 to R64, spec/14_link.md R247 to R250). -/

namespace Sys2Proof.Machine

/-! ### The allowance counter (R255 to R257) -/

def setPower (s : State) (fn : Power → Power) : State := { s with power := fn s.power }

/-- The power that is not the cores', in W (R251, R255). -/
def measuredRest (s : State) : Nat := bits s.power.measured.toNat 47 32 + bits s.power.measured.toNat 63 48

/-- F of a die's cores: min(1023, max(0, floor(B g 1023 20 / (8000 (k + 1))))). -/
def refill (s : State) (die : Nat) : Nat :=
  min 1023 ((s.power.setNow - measuredRest s) * s.power.gNum * 1023 * 20 / (s.power.gDen * 8000 * ((dieOf s die).step + 1)))

/-- Commands in execution in some queues on a core. -/
def startedOn (s : State) (core : Nat) (qs : List Nat) : List Command :=
  (s.groups.filter (fun e => (s.teams.find e.2.team).any (fun t => t.core == core))).flatMap (fun e =>
    (qs.flatMap (fun q => e.2.queues.getD q [])).filter (fun c => c.st == .started))

/-- What a matrix command costs in a clk. -/
def matrixQuanta (c : Command) : Nat := if c.op == .mma && c.fields.ty != .f32 then 420 else 200

/-- What the busy engines of a core cost in a clk. -/
def engineQuanta (s : State) (core : Nat) : Nat :=
  (((startedOn s core [0]).head?).map matrixQuanta).getD 0 + (if (startedOn s core [1, 2]).isEmpty then 0 else 64)

/-- Threshold T(i + 1). -/
def threshold (i : Nat) : Int := 49152 - 8192 * (i : Int)

/-- The level after a clk: it rises as ACC crosses a threshold, and falls past one only 1,024 above it (R257). -/
def nextLevel (acc : Int) (level : Nat) : Nat :=
  max ((List.range 6).filter (fun i => decide (acc < threshold i))).length ((List.range level).filter (fun i => decide (acc < threshold i + 1024))).length

/-- A saturated ACC. -/
def saturateAcc (x : Int) : Int := max (-65536) (min 65535 x)

/-- A counter counts one clk of its source, for the contexts that the source then works for (R262). -/
def tickCounter (work : Nat → List Nat) (x : Counter) : Counter :=
  if !(work x.source).isEmpty && (x.filter == 0xFFFF || (work x.source).contains x.filter.toNat) then { x with value := x.value + 1 } else x

/-- The contexts of the commands in execution in some queues on a core. -/
def busyFor (s : State) (core : Nat) (qs : List Nat) : List Nat :=
  (s.groups.filter (fun e => qs.any (fun q => (e.2.queues.getD q []).any (fun c => c.st == .started)))).filterMap (fun e =>
    (s.teams.find e.2.team).bind (fun t => if t.core == core then some t.ctx else none))

/-- A clk counter counts for every context, with 0xFFFF standing for a clk in which none is resident (R262; log 19). -/
def clkFor (ctxs : List Nat) : List Nat := 0xFFFF :: ctxs

/-- The clk of a die's slices: it goes on with the furthest of the die's cores (R262; log 56). -/
def tickSlices (s : State) (core : Nat) (cycle : W64) : State :=
  let die := dieOfCore core
  if cycle.toNat ≤ (sliceClock s die).toNat then s
  else
    let d := dieOf s die
    let ctxs := (s.teams.filter (fun e => dieOfCore e.2.core == die)).map (fun e => e.2.ctx)
    setDie s die { d with sliceCounters := d.sliceCounters.map (fun l => l.map (tickCounter (fun x => if x == 1 then clkFor ctxs else []))) }

/-- The clk of the hub's counters: it goes on with the furthest of the cores (R262; log 56). -/
def tickHub (s : State) (cycle : W64) : State :=
  if s.cores.any (fun e => decide (cycle.toNat ≤ e.2.cycle.toNat)) then s
  else { s with hubCounters := s.hubCounters.map (tickCounter (fun x => if x == 1 then clkFor (s.teams.map (fun e => e.2.ctx)) else [])) }

/-- One clk of a core: ACC, level, CYCLE, its counters, and the delays that run on it. -/
def execAllowanceTick (core : Nat) (s : State) : Out :=
  if core ≥ 4096 then .next s
  else
    let c := coreOf s core
    let ctxs := (residentOn s core []).map (fun e => e.2.ctx)
    let work : Nat → List Nat := fun x =>
      match x with
      | 1 => clkFor ctxs
      | 9 => busyFor s core [0]
      | 10 => busyFor s core [1, 2]
      | _ => []
    let s := tickHub (tickSlices s core (c.cycle + 1)) (c.cycle + 1)
    let acc := saturateAcc (c.acc + (refill s (dieOfCore core) : Int) - (c.charge : Int) - (engineQuanta s core : Int))
    let c := { c with
      acc := acc, level := nextLevel acc c.level, charge := 0, cycle := c.cycle + 1
      counters := c.counters.map (tickCounter work) }
    let s := setCore s core c.tickParts
    let here : Nat → Bool := fun t => (s.teams.find t).any (fun x => x.core == core)
    let doze : Sub → Sub := fun x =>
      match x.st with
      | .sleeping n => { x with st := .sleeping (n - 1) }
      | _ => x
    .next { s with
      teams := s.teams.map (fun e => if e.2.core == core && e.2.delay > 1 then (e.1, { e.2 with delay := e.2.delay - 1 }) else e)
      groups := s.groups.map (fun e => if here e.2.team then (e.1, { e.2 with subs := e.2.subs.map doze }) else e) }

/-! ### The set point (R252 to R254) -/

/-- The set point that a SET_W stands for. -/
def clampSet (w : Nat) : Nat := max 1500 (min 10000 w)

/-- The set point that POWER_STEP asks for. -/
def target (s : State) : Nat := clampSet (bits s.power.powerStep.toNat 15 0)

/-- RAMP of POWER_STEP. -/
def rampOf (s : State) : Nat := bits s.power.powerStep.toNat 47 32

/-- The writable bits of POWER_STEP. -/
def stepMask (v : W64) : W64 := BitVec.ofNat 64 (bits v.toNat 15 0 + bits v.toNat 48 32 * 2 ^ 32)

/-- A write of POWER_STEP arrives: a lower set point, or any when RAMP is 0, is in force at once. -/
def writeStep (s : State) (v : W64) : State :=
  let w := bits v.toNat 15 0
  let t := clampSet w
  let s := setPower s (fun p => { p with
    powerStep := stepMask v, written := true, clamped := w != t, met := false, micros := 0, sinceWrite := 200, lowTime := 0, rampTime := 0
    setNow := if decide (t ≤ p.setNow) || bits v.toNat 47 32 == 0 then t else p.setNow })
  countHub s 8 0xFFFFF 1

def execPowerStepSet (value : W64) (s : State) : Out :=
  if value.getLsbD 48 || !takesWrites s then .next s else .next (writeStep s value)

/-- The set point in force rises at RAMP W per ms. -/
def execSetPointRamp (s : State) : Out :=
  let p := s.power
  let r := rampOf s
  let rise := p.rampTime / 1000
  if s.failing || r == 0 || rise == 0 || decide (p.setNow ≥ target s) then .next s
  else .next (setPower s (fun p => { p with setNow := min (target s) (p.setNow + rise), rampTime := p.rampTime % 1000 }))

/-- Package power exceeds the set point by more than 2%; under HOLD, P_FLOOR (R252, R253). -/
def overSet (s : State) : Bool := decide (measuredPkg s * 100 > (if holding s then 1500 else s.power.setNow) * 102)

/-- A 20 µs window ends: the figures are taken, the rate is trimmed, and MET follows. -/
def execMeasurementWindow (pkg rails dramW other : BitVec 16) (s : State) : Out :=
  let s := setPower s (fun p =>
    let n := p.gNum * p.setNow
    let d := p.gDen * pkg.toNat
    let g : Nat × Nat := if 2 * n < d then (1, 2) else if n > 2 * d then (2, 1) else (n, d)
    { p with measured := BitVec.ofNat 64 (pkg.toNat + rails.toNat * 2 ^ 16 + dramW.toNat * 2 ^ 32 + other.toNat * 2 ^ 48), gNum := g.1, gDen := g.2 })
  .next (setPower s (fun p => { p with met := !overSet s }))

/-! ### Frequency steps, boost and bands (R254, R258 to R260) -/

/-- HOLD: every die goes to step 0 and boost stops; ALLOW_LEVEL reads 6 (R253). Written after PWRFAIL it is recorded, and the drain ignores it (R261,
R265). -/
def execPowerHold (value : W64) (s : State) : Out :=
  if !value.getLsbD 48 || !takesWrites s then .next s
  else if s.failing then .next (writeStep s value)
  else .next (onDies (writeStep s value) (fun _ => true) (fun d => { d with stepTarget := some 0 }))

/-- At 200 µs and every 100 µs after, while power exceeds the set point by more than 2%, the steps are lowered. -/
def execFreqStepAdjust (s : State) : Out :=
  if s.power.sinceWrite != 0 || s.failing then .next s
  else
    let s := setPower s (fun p => { p with sinceWrite := 100 })
    if !overSet s then .next s
    else .next (onDies s (fun _ => true) (fun d => { d with stepTarget := some (min (stepCap s d) ((d.step + 1) * s.power.setNow / measuredPkg s - 1)) }))

/-- After 1 ms below 90% of the set point each die rises one step. -/
def execFreqStepRaise (s : State) : Out :=
  if s.power.lowTime < 1000 || holding s || s.failing then .next s
  else
    .next (onDies (setPower s (fun p => { p with lowTime := 0 })) (fun _ => true) (fun d =>
      if d.stepTarget.isNone && decide (d.step < stepCap s d) then { d with stepTarget := some (d.step + 1) } else d))

/-- A step change ends, at a step that the die may still stand at (R258 to R260). -/
def execStepChangeComplete (die : Nat) (s : State) : Out :=
  let d := dieOf s die
  match d.stepTarget with
  | some k => .next (setDie s die { d with step := min k (stepCap s d), stepTarget := none })
  | none => .next s

/-- One µs of a die: boost is spent or refilled, and a boost step that may not stand ends. -/
def boostDie (s : State) (die : Nat) : State :=
  let d := dieOf s die
  let d' := if d.step ≥ 20 then d else { d with boostTime := (d.boostTime + 1) % 4 }
  let left := if d.step ≥ 20 then s.power.boostLeft - (d.step - 19)
    else if d.boostTime == 3 then min 4000000 (s.power.boostLeft + 1) else s.power.boostLeft
  let s := setPower s (fun p => { p with boostLeft := left })
  setDie s die (limitDie s d')

/-- One µs of a die; die 0's stands for the hub's clocks too (log 19). -/
def execBoostTick (die : Nat) (s : State) : Out :=
  if die ≥ 32 then .next s
  else
    let s := boostDie s die
    if die != 0 then .next s
    else
      let s := setPower { s with refclk := s.refclk + 100 } (fun p => { p with
        micros := min 65535 (p.micros + 1), sinceWrite := p.sinceWrite - 1, lowTime := if underSet s then min 1000 (p.lowTime + 1) else 0
        rampTime := p.rampTime + rampOf s })
      .next (if s.power.met then s else countHub s 9 0xFFFFF 1)

/-- A die's band changes: band 6 caps its step at 15, band 7 sets it to 0 and signals the host. -/
def execTempBandChange (die : Nat) (band : BitVec 3) (s : State) : Out :=
  if die ≥ 32 then .next s
  else
    let s' := setDie s die (limitDie s { dieOf s die with band := band.toNat })
    .next (if band.toNat == 7 && (dieOf s die).band != 7 then { s' with msix := s'.msix ++ [0] } else s')

/-! ### Power failure: the stop (R55, R61) -/

/-- A sub-group in its handler in a CLOSED group stands at its trap again. SIG stays as the handler left it (log 41). -/
def leaveTrap (x : Sub) : Sub :=
  match x.handler with
  | some h => { x with pc := h.trapPc, handler := none, st := .runnable }
  | none => x

/-- A group stops for the drain. -/
def stopForDrain (s : State) (gid : Nat) : State :=
  let s := onGroup s gid (fun g => if g.region.isOpen then g else { g with subs := g.subs.map leaveTrap })
  stopGroup s gid

/-- Every check column of an array is computed again. -/
def updateChecks (a : ArrayUnit) : ArrayUnit := (List.range 1024).foldl (fun a r => setCheck a r (rowCrc a r)) a

/-- An array's schedule of the context is SUSPENDED at its gate boundary: what waits for admission is admitted, and the end update is made where
a gate has written. A schedule that had ended but for its end update keeps its status (R213, R220). -/
def suspendArray (s : State) (ctx arr : Nat) : State :=
  if !runsFor ctx (arrayOf s arr) then s
  else
    let s := admitAll s arr
    let a := arrayOf s arr
    let a := if a.run.any (·.wrote) then updateChecks a else a
    setArray s arr { a with st := .suspended, run := a.run.map (fun r => { r with endLeft := 0 }), admits := 0, owed := 0 }

/-- PWRFAIL reaches a context whose teams are to be drained. -/
def failContext (s : State) (ctx : Nat) : State :=
  match s.contexts.find ctx with
  | none => s
  | some c =>
    let evs := c.raised ++ [hubEvent 0x21 0]
    let taken := match firstEvent s evs with
      | some e => e :: evs.erase e
      | none => evs
    let s := idleQueues (setCtx (fresh s) ctx { c with st := .halting, raised := [], taken := taken, held := heldUnits s ctx, pendingCmd := none }) ctx
    let s := (ctxGroups s ctx).foldl (fun s e => stopForDrain s e.1) s
    let s : State := { s with teams := s.teams.map (fun t => if t.2.ctx == ctx then (t.1, { t.2 with evicting := false }) else t) }
    let s := (s.arrays.map (·.1)).foldl (fun s a => suspendArray s ctx a) s
    match c.pendingCmd with
    | some (done, seq) => completeAt s done seq 1 0
    | none => s

/-- The contexts whose halt line PWRFAIL raises. -/
def lineContexts (s : State) : List Nat :=
  (s.contexts.filter (fun e => e.2.st == .running || e.2.st == .evicting || e.2.st == .restoring)).map (·.1)

/-- The supply fails: set point and HOLD move no die any more, boost stops, and the halt lines rise (R61, R261). -/
def beginFailure (s : State) : State :=
  let s := limitDies (onDies { s with failing := true } (fun _ => true) (fun d => { d with stepTarget := none }))
  (lineContexts s).foldl (fun s c => if s.drain.enable then failContext s c else hubRaise s c 0x21 0) s

/-! ### Power failure: the drain (R61 to R64) -/

/-- A tile state from its code. -/
def tileStateOf (n : Nat) : TileState :=
  match n with
  | 1 => .empty
  | 2 => .filling
  | 3 => .ready
  | 4 => .draining
  | _ => .free

/-- What a command in execution found at its start comes back, for it is recorded whole. -/
def undoCommand (s : State) (team : Nat) (t : Team) (q : Nat) (c : Command) : State :=
  if c.st != .started then s
  else
    match q, c.op with
    | 0, .mma | 0, .mload | 0, .mzero => setAcc s t.core (t.accs.getD (accField c.fields) 0) { data := c.before, shadow := none }
    | 1, .cpyIn | 1, .cpyOut => onTile s team (cmdTile c.fields) (fun x => { x with st := tileStateOf c.payload })
    | 2, _ => onTile s team (tileS c.fields) (fun x => { x with st := tileStateOf c.payload })
    | _, _ => s

/-- The producer waits for the record of a command that has not completed. -/
def popsWaiting (g : Group) (i : Inflight) : Bool :=
  match i.what with
  | .pop q n => (g.queues.getD q []).any (fun c => c.seq == n && c.st != .done)
  | _ => false

/-- The pops of a group whose commands are recorded instead of completing: the entries stay occupied and unpopped, the destinations keep their bits and
are full, and each sub-group stands at its first such pop again (R58, R61; log 80). -/
def undoPops (g : Group) : Group :=
  let ps := g.inflight.filter (popsWaiting g)
  let h := ps.foldl cancelProducer g
  ps.foldr (fun i h => onSub h (resolveNode h i.node) (fun x => if x.st == .exited then x else { x with pc := i.pc }))
    { h with
      inflight := h.inflight.filter (fun i => !ps.any (fun j => j.seq == i.seq))
      queues := h.queues.map (fun q => q.map (fun c => { c with popped := c.popped && c.st == .done })) }

/-- A team as its image records it. -/
def settleTeam (s : State) (id : Nat) (t : Team) : State :=
  (teamGroups s id).foldl (fun s e =>
    let s := (e.2.queues.mapIdx (fun q l => (q, l))).foldl (fun s x => x.2.foldl (fun s c => undoCommand s id t x.1 c) s) s
    onGroup s e.1 (fun g => recordPcs (undoPops g))) s

/-- A command that is recorded: its queue, the identity of its group with the group, its place in the queue. -/
structure WorkItem where
  q : Nat
  gid : Nat
  g : Group
  pos : Nat
  c : Command
deriving DecidableEq, Repr

/-- The commands of a group's queue that have not completed; a `post` has no record (R63). -/
def queueWork (gid : Nat) (g : Group) (q : Nat) : List WorkItem :=
  ((g.queues.getD q []).mapIdx (fun i c => (i, c))).filterMap (fun y =>
    if y.2.st == .done || y.2.op == .post then none else some { q := q, gid := gid, g := g, pos := y.1, c := y.2 })

/-- The schedule of a command, running, suspended or waiting. -/
def scheduleOf (s : State) (w : WorkItem) : Option Schedule :=
  let mine : Schedule → Bool := fun x => x.gid == w.gid && x.cmd == w.c.seq
  s.arrays.findSome? (fun e =>
    ((e.2.run.map (·.sched)).toList ++ e.2.waiting.filterMap (fun c =>
      match c with
      | .schedule x => some x
      | _ => none)).find? mine)

/-- The recorded commands of a team's queues of one engine in the order in which the engine would start them: one in execution first, then each
group's in their order, and the schedules as they arrived at the sequencers (R63, R213). One copy engine serves q1 and q2, whose commands have no
order between them (R235; log 71). -/
def engineOrder (s : State) (id : Nat) (qs : List Nat) : List WorkItem :=
  let key : WorkItem → Nat := fun w => if w.q == 3 then ((scheduleOf s w).map (·.arrival)).getD 0 else 0
  let before : WorkItem → WorkItem → Bool := fun a b =>
    if (a.c.st == .started) == (b.c.st == .started) then decide (key a ≤ key b) else a.c.st == .started
  ((teamGroups s id).flatMap (fun e => qs.flatMap (queueWork e.1 e.2))).mergeSort before

/-- The record of a command: to be continued where its schedule has started, else to be issued again whole. -/
def recordWork (s : State) (w : WorkItem) : List Byte :=
  match s.arrays.find? (fun a => w.q == 3 && a.2.run.any (fun r => r.sched.gid == w.gid && r.sched.cmd == w.c.seq)) with
  | some (k, a) => ((a.run.map (fun r => scheduleWork w.g w.pos w.c k r))).getD []
  | none => workRecord w.g w.q w.pos w.c

/-- The WORK area of a team. -/
def workArea (s : State) (id : Nat) : List Byte :=
  let ws := ([[0], [1, 2], [3], [4]].flatMap (engineOrder s id)).map (recordWork s)
  leBytes 4 ws.length ++ List.replicate 12 0 ++ ws.flatten

/-- Where a core's drain stream is free: behind the images of contexts that still hold the band. -/
def streamStart (s : State) (core : Nat) : Nat :=
  ((s.contexts.filter (fun e => e.2.recreated)).flatMap (fun e => e.2.drained.filter (fun d => d.core == core))).foldl
    (fun p d => max p (streamIndex d.arr * 2 ^ 17 + d.offset + d.length)) 0

/-- The drain's progress: the state, each core's stream, and the images with their contexts. -/
structure DrainRun where
  s : State
  used : Map Nat
  images : List (Nat × DrainedTeam)
deriving DecidableEq, Repr

/-- One team is drained, or lost where its core's stream has no room. An error that a CLOSED group has not yet taken is no part of its image
(log 83). -/
def drainTeam (r : DrainRun) (x : Nat × Team) : DrainRun :=
  let (id, t) := x
  let s := settleTeam r.s id t
  let p := (r.used.find t.core).getD (streamStart s t.core)
  let img := teamImage s id t .drained (workArea s id)
  let fits := decide (p + img.length ≤ (16 + s.drain.n) * 2 ^ 17)
  let d : DrainedTeam :=
    { kernel := t.kernel, index := t.index, core := t.core, arr := streamArray (p / 2 ^ 17), offset := p % 2 ^ 17, length := img.length, lost := !fits }
  let s := match s.kernels.find t.kernel with
    | some k => setKernel s t.kernel (kernelMasks k t.index (teamGroups s id))
    | none => s
  if fits then { s := writeStream s t.core p img, used := r.used.insert t.core (p + img.length), images := r.images ++ [(t.ctx, d)] }
  else { r with s := s, images := r.images ++ [(t.ctx, d)] }

/-- The contexts being drained. -/
def drainedContexts (s : State) : List Nat := (s.contexts.filter (fun e => draining s e.2)).map (·.1)

/-- Step 1: every core's teams, in ascending order of placement. A team in its start delay is resident and drained like the others; R89's release of
such a team is read as that of a halt without drain (log 87). -/
def drainTeams (s : State) : DrainRun :=
  let ts := s.teams.filter (fun e => (drainedContexts s).contains e.2.ctx && !teamExited s e.1)
  (ts.mergeSort (fun a b => decide (a.2.core < b.2.core) || (a.2.core == b.2.core && decide (a.2.order ≤ b.2.order)))).foldl drainTeam
    { s := s, used := [], images := [] }

/-- The leaf entry of an address, as the tables hold it. -/
def leafWord (s : State) (va table : Nat) : List (Nat × Nat × Nat) → Nat
  | [] => 0
  | (_, lo, n) :: rest =>
    let e := entryAt s (table + 16 * bits va (lo + n - 1) lo)
    if !bitAt e 0 || bitAt e 1 then e else leafWord s va (bits e 83 32) rest

/-- The physical page of a listed page that may be preserved (R153). -/
def preservable (s : State) (p : Preserve) : Option Nat :=
  match s.contexts.find p.ctx, walk s p.ctx p.va.toNat with
  | some c, .leaf t =>
    if bitAt (leafWord s p.va.toNat c.desc.ptRoot walkLevels) 6 && (t.kind == .normal || t.kind == .comp || t.kind == .stash) then
      some ((t.loc p.va.toNat).addr / 2 ^ 16)
    else none
  | _, _ => none

/-- Where a core's preservation area is free: behind its spilled images, at a whole line. -/
def areaStart (r : DrainRun) (core : Nat) : Nat := (max (16 * 2 ^ 17) ((r.used.find core).getD 0) + 255) / 256 * 256

/-- The lines that a core's preservation area still takes (R60, R64). -/
def lineRoom (r : DrainRun) (core : Nat) : Nat := ((16 + r.s.drain.n) * 2 ^ 17 - areaStart r core) / 256

/-- The lines that each core of a die takes. -/
def dieRoom (r : DrainRun) (die : Nat) : List Nat := (List.range 128).map (fun c => lineRoom r (die * 128 + c))

/-- The pages that the quota holds: a page takes 8 lines on each die, for its lines lie on all of them (R8). -/
def pageQuota (r : DrainRun) : Nat := ((List.range 32).map (fun d => (dieRoom r d).sum / 8)).foldl min (2 ^ 40)

/-- The core of a die and the line of its area that take line `m` of the die, the cores' areas being filled in turn (log 16). -/
def linePlace (c : Nat) : List Nat → Nat → Nat × Nat
  | [], m => (c, m)
  | n :: rest, m => if m < n then (c, m) else linePlace (c + 1) rest (m - n)

/-- Step 2: the listed pages in list order: preserved ones with their physical pages, and lost ones. -/
def preservePages (r : DrainRun) : List (Preserve × Nat) × List Preserve :=
  r.s.drain.list.foldl (fun a p =>
    match preservable r.s p with
    | some pg => if a.1.length < pageQuota r then (a.1 ++ [(p, pg)], a.2) else (a.1, a.2 ++ [p])
    | none => (a.1, a.2 ++ [p])) ([], [])

/-- One line of the `j`th preserved page is copied into the preservation area of its home die's cores (R61). -/
def copyLine (r : DrainRun) (j page : Nat) (s : State) (i : Nat) : State :=
  let line := page * 256 + i
  let die := homeDie .dram (line * 256)
  let nth := ((List.range i).filter (fun k => homeDie .dram ((page * 256 + k) * 256) == die)).length
  let (c, m) := linePlace 0 (dieRoom r die) (8 * j + nth)
  let core := die * 128 + c
  writeStream s core (areaStart r core + 256 * m) ((List.range 256).map (fun b => newestByte s .dram (line * 256 + b)))

/-- Step 2's copies. -/
def copyPages (r : DrainRun) (pages : List Nat) : State :=
  (pages.mapIdx (fun j p => (j, p))).foldl (fun s x => (List.range 256).foldl (copyLine r x.1 x.2) s) r.s

/-- An earlier drain's image still stands in the drain band after this drain's writes, of which `t` has them (R61, R64). -/
def bandKept (s t : State) (d : DrainedTeam) : Bool :=
  (List.range d.length).all (fun i =>
    let p := streamIndex d.arr * 2 ^ 17 + d.offset + i
    streamByte t d.core p == streamByte s d.core p)

/-- A saved image outlives the failure: it lies in preserved pages, or stands in the drain band already (R61, R62). `t` has the drain's writes. -/
def imageKept (s t : State) (c : Context) (pages : List Nat) (kernel : Nat) (x : Nat × Option Nat) : Bool :=
  match x.2 with
  | none => (c.drained.filter (fun d => d.kernel == kernel && d.index == x.1)).all (bandKept s t)
  | some k =>
    let a := slotAddr c.desc k
    let n := imgLe (slotByte s c.desc k) 8 8
    hubSpace a == .dram && (List.range (n / 2 ^ 16 + 2)).all (fun i => decide ((a / 2 ^ 16 + i) * 2 ^ 16 ≥ a + n) || pages.contains (a / 2 ^ 16 + i))

/-- A kernel as the index records it: its drained teams wait for placement. -/
def drainKernel (images : List (Nat × DrainedTeam)) (e : Nat × Kernel) : Nat × Kernel :=
  let mine := images.filter (fun x => x.2.kernel == e.1 && !x.2.lost)
  let k : Kernel := { e.2 with saved := e.2.saved ++ mine.map (fun x => (x.2.index, none)) }
  (e.1, { k with st := if (k.st == .running || k.st == .placing) && (headTeam k).isSome then .placing else k.st })

/-- The context's entry in the drain index; `s` is the machine as the drain found it, and `t` with what step 1 and step 2 wrote. -/
def indexEntry (s t : State) (r : DrainRun) (kept : List (Preserve × Nat)) (lost : List Preserve) (e : Nat × Context) : DrainedCtx :=
  let (i, c) := e
  let images := r.images.filter (fun x => x.1 == i)
  let ks := r.s.kernels.filter (fun k => k.2.ctx == i)
  let resumable := draining r.s c || c.st == .saved || c.st == .loaded
  let all := images.all (fun x => !x.2.lost) && ks.all (fun k => k.2.saved.all (imageKept s t c (kept.map (·.2)) k.1)) &&
    r.s.teams.all (fun t => t.2.ctx != i || !teamExited r.s t.1 || !teamBusy r.s t.1)
  { ctx := i, desc := c.desc, complete := resumable && all, kernels := ks.map (drainKernel r.images), teams := c.drained ++ images.map (·.2)
    tasks := r.s.dies.flatMap (fun d => (d.2.tasks.filter (fun t => t.ctx == i)).map (fun t => (d.1, t)))
    preserved := (kept.filter (fun p => p.1.ctx == i)).map (fun p => p.1.va), lost := (lost.filter (fun p => p.ctx == i)).map (·.va) }

/-- What the drain still waits for: producers, but for a pop of a command that is recorded, stores, an `mdrain.add` in execution, posts whose die has
room, arrays. -/
def drainWaits (s : State) : Bool :=
  s.contexts.any (fun e => e.2.st == .halting && !draining s e.2) ||
  (drainedContexts s).any (fun c => unitsWork s c || (ctxGroups s c).any (fun e =>
    e.2.inflight.any (fun i => !popsWaiting e.2 i) || !e.2.storeQ.isEmpty || !e.2.rangeOps.isEmpty ||
    (e.2.queues.getD 4 []).any (fun x => x.st != .done && decide ((dieOf s x.payload).tasks.length < 65536))))

/-- An array without supply: only a SUSPENDED schedule stays with it. -/
def arrayOff (a : ArrayUnit) : ArrayUnit :=
  let a := { a with waiting := [], asked := [], reads := [], admits := 0, owed := 0 }
  if a.st == .suspended then a else { a with st := .idle, run := none, heldWrites := [] }

/-- The machine without supply, with what it keeps: array cells, flash and fuses, and the memories of other devices. The model's own counters
and the messages already sent stand. A removed core and the map generations come back as at reset (R65; log 74). -/
def powerLoss (s : State) (index : Option DrainIndex) : State :=
  { State.reset with
    picks := s.picks, free := s.free, nextId := s.nextId, hostMem := s.hostMem, peerMem := s.peerMem, arrays := s.arrays.map (fun e => (e.1, arrayOff e.2))
    drainIndex := index, firmware := s.firmware, minVersion := s.minVersion, vendorKey := s.vendorKey, msix := s.msix }

/-- The stop records of the drained contexts. -/
def drainRecords (s : State) : State :=
  (drainedContexts s).foldl (fun s i =>
    match s.contexts.find i with
    | some c => writeStop s i c.desc (((c.taken.head?).map (·.cause)).getD 0) c.taken.head? (stopRecords s i c [])
    | none => s) s

/-- Steps 1 to 3 of R61, then the loss of supply. -/
def drain (s : State) : State :=
  let s := drainRecords s
  let r := drainTeams s
  let (kept, lost) := preservePages r
  let t := copyPages r (kept.map (·.2))
  powerLoss t (some { contexts := r.s.contexts.map (indexEntry s t r kept lost), crcOk := true })

/-- Without drain protection only the entries of contexts that a power-up recreated, and that stand as it left them, stay in the index. -/
def oldIndex (s : State) : Option DrainIndex :=
  let keep : DrainedCtx → Bool := fun d => (s.contexts.find d.ctx).any (fun c => c.recreated && c.st == .saved)
  match s.drainIndex with
  | some i => if i.contexts.any keep then some { i with contexts := i.contexts.filter keep } else none
  | none => none

/-- PWRFAIL: the halt lines rise; when every unit has stopped, the drain proceeds, and supply is gone. -/
def execPwrfail (s : State) : Out :=
  if !s.failing then .next (beginFailure s)
  else if s.drain.enable then (if drainWaits s then .next s else .next (drain s))
  else if !(lineContexts s).isEmpty || s.contexts.any (fun e => e.2.st == .halting) then .next s
  else .next (powerLoss s (oldIndex s))

/-! ### Power-up (R62, R247, R250) -/

/-- What the signature of a firmware image covers: its header's security version and its digest (log 9). -/
def signedPart (f : Firmware) : List Byte := leBytes 4 f.version ++ f.digest

/-- A firmware image is valid: its digest and signature check, its key is the vendor's, and its security version is not below the fused
minimum (R247). -/
def firmwareValid (s : State) (f : Firmware) : Bool :=
  decide (f.version ≥ s.minVersion) && sha256 f.image == f.digest && sha256 f.key == s.vendorKey && rsaGood f.key (signedPart f) f.signature

/-- The firmware slot that boots: the valid one with the higher version, slot A when they are equal. -/
def bootSlot (s : State) : Option Nat :=
  let good : Nat → Bool := fun i => (s.firmware[i]?).any (firmwareValid s)
  let version : Nat → Nat := fun i => ((s.firmware[i]?).map (·.version)).getD 0
  if good 0 && good 1 then (if version 1 > version 0 then some 1 else some 0)
  else if good 0 then some 0
  else if good 1 then some 1
  else none

/-- The die-to-die links. -/
def dieLinkList : List Nat := (List.range Config.dieLinks).map (· + 17)

/-- A COMPLETE context is recreated in SAVED. -/
def recreate (s : State) (d : DrainedCtx) : State :=
  if !d.complete then s
  else
    let c : Context :=
      { st := .saved, desc := d.desc, raised := [], taken := [], held := [], pendingCmd := none, recreated := true, drained := d.teams.filter (fun t => !t.lost)
        slotsKept := [] }
    let s := d.kernels.foldl (fun s k => setKernel s k.1 k.2) (setCtx s d.ctx c)
    if Config.freeBool s.free then
      d.tasks.foldl (fun s t => setDie s t.1 { dieOf s t.1 with tasks := (dieOf s t.1).tasks ++ [t.2] }) (fresh s)
    else fresh s

/-- Arrays whose suspended schedule has no recreated context are IDLE. -/
def releaseSuspended (s : State) : State :=
  (s.arrays.filter (fun e => e.2.st == .suspended && !(e.2.run.any (fun r => (s.contexts.find r.sched.ctx).isSome)))).foldl (fun s e => endRun s e.1) s

/-- Step 1 of R250: the firmware is verified and starts. Without a valid image the device stays in RECOVERY, reached through the host port
alone. Step 2 begins: the die-to-die links and the peer ports train, and every size code is 3. -/
def bootStart (s : State) : State :=
  match bootSlot s with
  | none => trainLink { s with status := .recovery } 16
  | some i => (List.range 16 ++ dieLinkList).foldl trainLink { s with booted := some i, codes := [] }

/-- Step 3 and the start of step 4: the contexts of the drain index are recreated, and the host port trains. -/
def bootContexts (s : State) : State :=
  let s := match s.drainIndex with
    | some x => if x.crcOk then x.contexts.foldl recreate s else s
    | none => s
  trainLink (releaseSuspended s) 16

/-- The boot order of R250, a step at a time: firmware; once the die-to-die links have trained, the contexts; once the host port has, READY. -/
def execPowerUp (s : State) : Out :=
  if s.status != .booting then .next s
  else if s.booted.isNone then .next (bootStart s)
  else if dieLinkList.any (fun l => (linkOf s l).st == .training) then .next s
  else
    match (linkOf s 16).st with
    | .down => .next (bootContexts s)
    | .up | .degraded => .next { s with status := .ready, msix := s.msix ++ [0] }
    | _ => .next s

/-! ### Attestation (R249) -/

/-- Software rings the doorbell with a nonce; one rung while a report is in progress is ignored. -/
def execAttestationDoorbell (nonce : List Byte) (s : State) : Out :=
  if s.attest.busy || s.status != .ready || nonce.length != 32 then .next s
  else .next { s with attest := { s.attest with busy := true, nonce := nonce } }

/-- The fields of a report: nonce, digest and security version of the booted image, the fused minimum, each die's map generation. -/
def reportBody (s : State) : List Byte :=
  let f := (s.booted.bind (fun i => s.firmware[i]?)).getD .empty
  s.attest.nonce ++ f.digest ++ leBytes 4 f.version ++ leBytes 4 s.minVersion ++ (List.range 32).flatMap (fun d => leBytes 4 (dieOf s d).mapGen)

/-- The report's signature by the identity key, with a salt of free bytes (R248, R249). -/
def reportSignature (s : State) : List Byte :=
  rsaSign Config.identityKey.1 Config.identityKey.2 (reportBody s) (leBytes 32 (Config.freeNat s.free))

/-- The signed report is written, and the doorbell clears. -/
def execAttestationReportComplete (s : State) : Out :=
  if !s.attest.busy then .next s
  else .next { fresh s with attest := { s.attest with busy := false, report := reportBody s ++ reportSignature s } }

end Sys2Proof.Machine
end

