-- ==== Sys2Proof/Machine/Discovery.lean ====
section
/-! DEFINITION. Discovery: BAR0 with the capability list, what its registers read, and the writes of registers that have no step of their own
(spec/14_link.md R243, R245, R246, spec/15_power.md R251). -/

namespace Sys2Proof.Machine

/-! ### The layout of BAR0 (R243, R245, R246) -/

/-- What lies at an offset of BAR0: the header of a capability, a register at an offset from its header, the doorbell of a work queue, or nothing. -/
inductive BarPlace where
  | header (cap : Nat)
  | register (cap offset : Nat)
  | queueDoorbell (q : Nat)
  | nothing
deriving DecidableEq, Repr

/-- The capabilities of the CX-4096 in the order of the list. -/
def capabilities : List Nat := [1, 2, 3, 4, 5, 6, 7, 8]

/-- Each capability takes 64 KiB of the lower 1 MiB, in the order of the identifiers (log 20). -/
def capBase (cap : Nat) : Nat := (cap - 1) * 0x10000

/-- The offset of the doorbell region, in the upper 1 MiB (R243, R246). -/
def doorbellRegion : Nat := 0x10_0000

/-- What an offset of BAR0 names. -/
def barPlace (o : Nat) : BarPlace :=
  if doorbellRegion ≤ o && o < 2 * doorbellRegion then
    (if (o - doorbellRegion) % 64 == 0 then .queueDoorbell ((o - doorbellRegion) / 64) else .nothing)
  else
    let cap := o / 0x10000 + 1
    if o % 8 != 0 || !capabilities.contains cap then .nothing
    else if o % 0x10000 == 0 then .header cap
    else .register cap (o % 0x10000)

/-- The header of a capability: NEXT, VER, ID. -/
def capHeader (cap : Nat) : W64 :=
  let next := if capabilities.contains (cap + 1) then capBase (cap + 1) else 0
  BitVec.ofNat 64 (cap + Config.capVersion cap % 16 * 2 ^ 16 + next * 2 ^ 32)

/-! ### What the registers read -/

/-- The codes of STATUS (R246). -/
def Status.code : Status → Nat
  | .booting => 0 | .ready => 1 | .recovery => 2 | .fatal => 3

/-- The logical core count of a die. -/
def coreCount (s : State) (die : Nat) : Nat := ((List.range 128).filter (fun c => (coreOf s (die * 128 + c)).logical.isSome)).length

/-- The identity capability: part number, stepping, STATUS, WIDTH; the core count and map generation of each die. -/
def identityRegister (s : State) (o : Nat) : Option Nat :=
  match o with
  | 0x08 => some Config.partNumber
  | 0x10 => some Config.stepping
  | 0x18 => some s.status.code
  | 0x20 => some 64
  | o =>
    let d := (o - 0x100) / 16
    if o < 0x100 || d ≥ 32 then none else some (if o % 16 == 0 then coreCount s d else (dieOf s d).mapGen)

/-- The codes of a link's state (log 20). -/
def LinkState.code : LinkState → Nat
  | .down => 0 | .training => 1 | .up => 2 | .degraded => 3 | .replay => 4 | .failed => 5

/-- A link's word: state, lost rail (7 for none), width (R240, R243, R246). -/
def linkWord (s : State) (l : Nat) : Nat :=
  let x := linkOf s l
  let width := if l == 16 then s.hostWidth else Config.railWidth (5 - x.lost.toList.length)
  x.st.code + (x.lost.getD 7) * 2 ^ 8 + width % 2 ^ 16 * 2 ^ 16

/-- The link capability: the inbound windows of the peer ports, and a word of each link. -/
def linkRegister (s : State) (o : Nat) : Option Nat :=
  if 0x100 ≤ o && o < 0x900 then
    let w := (linkOf s ((o - 0x100) / 0x80)).windows.getD ((o - 0x100) % 0x80 / 16) (1, 0)
    some (if o % 16 == 0 then w.1 else w.2)
  else if 0x1000 ≤ o && linkExists ((o - 0x1000) / 8) then some (linkWord s ((o - 0x1000) / 8))
  else none

/-- STEP_STATUS: all zero until a POWER_STEP write has arrived (R251, R252). -/
def stepStatus (s : State) : Nat :=
  let p := s.power
  if p.written then p.setNow + p.clamped.toNat * 2 ^ 16 + p.met.toNat * 2 ^ 17 + p.micros * 2 ^ 32 else 0

/-- Eight dies' bytes of a register, from die `8 i` on. -/
def dieBytes (s : State) (i : Nat) (fn : Die → Nat) : Nat := leValue ((List.range 8).map (fun d => BitVec.ofNat 8 (fn (dieOf s (8 * i + d)))))

/-- The power capability (R251). -/
def powerRegister (s : State) (o : Nat) : Option Nat :=
  match o with
  | 0x08 => some s.power.powerStep.toNat
  | 0x10 => some (stepStatus s)
  | 0x18 => some s.power.measured.toNat
  | 0x20 => some (1500 + 10000 * 2 ^ 16 + 4000000 * 2 ^ 32)
  | 0x28 => some s.power.boostLeft
  | o =>
    if 0x40 ≤ o && o < 0x60 then some (dieBytes s ((o - 0x40) / 8) (·.step))
    else if 0x60 ≤ o && o < 0x80 then some (dieBytes s ((o - 0x60) / 8) (·.band))
    else none

/-- The attestation capability: the doorbell, the nonce, the report, and the certificate chain of the identity key (R248, R249). -/
def attestRegister (s : State) (o : Nat) : Option Nat :=
  let word : List Byte → Nat → Nat := fun l i => leValue ((l.drop i).take 8)
  if o == 0x08 then some s.attest.busy.toNat
  else if 0x10 ≤ o && o < 0x30 then some (word s.attest.nonce (o - 0x10))
  else if 0x100 ≤ o && o < 0x1000 then some (word s.attest.report (o - 0x100))
  else if 0x1000 ≤ o then some (word Config.certificates (o - 0x1000))
  else none

/-- A register of a capability. Capability 0x0007, whose register map the manual does not give, is its header alone (R246; log 90). -/
def capRegister (s : State) (cap o : Nat) : Option Nat :=
  match cap with
  | 1 => identityRegister s o
  | 2 =>
    match o with
    | 0x08 => some s.cmdq.ring
    | 0x10 => some s.cmdq.logSize
    | 0x18 => some s.cmdq.pi.toNat
    | _ => none
  | 3 => if o == 0x08 then some doorbellRegion else none
  | 4 =>
    match o with
    | 0x08 => some s.errlog.ring
    | 0x10 => some s.errlog.size
    | 0x18 => some s.errlog.ci
    | 0x20 => some s.errlog.dropped.toNat
    | _ => none
  | 5 => linkRegister s o
  | 6 => powerRegister s o
  | 8 => attestRegister s o
  | _ => none

/-- The host port is up. -/
def hostLinkUp (s : State) : Bool := (linkOf s 16).st == .up || (linkOf s 16).st == .degraded

/-- A place of BAR0 responds: the header at offset 0, and STATUS, from link-up; the rest once STATUS reads READY, and from then on; in RECOVERY the identity
capability only (R245, R247). -/
def responds (s : State) (p : BarPlace) : Bool :=
  hostLinkUp s &&
  (match p with
   | .header 1 => true
   | .register 1 o => s.status != .booting || o == 0x18
   | .header _ | .register _ _ => s.status == .ready || s.status == .fatal
   | .queueDoorbell _ | .nothing => false)

/-- What a read of the 64 bits at an offset of BAR0 gives; nothing where no register responds. -/
def bar0Read (s : State) (o : Nat) : Option W64 :=
  if !responds s (barPlace o) then none
  else
    match barPlace o with
    | .header cap => some (capHeader cap)
    | .register cap r => (capRegister s cap r).map (BitVec.ofNat 64)
    | _ => none

/-- The capabilities that a walk of the list from an offset visits, by the NEXT fields it reads (R245). -/
def walkList (s : State) : Nat → Nat → List Nat
  | 0, _ => []
  | n + 1, o =>
    match bar0Read s o with
    | none => []
    | some h =>
      let next := bits h.toNat 63 32
      bits h.toNat 15 0 :: (if next == 0 then [] else walkList s n next)

/-! ### Writes (R242, R246, R247) -/

/-- A write to a capability register: the command queue's ring and size (0x0002), the error log's ring, size and consumer index (0x0004), and the
inbound windows of the peer ports (0x0005). The offsets are the model's (log 20). -/
def writeRegister (s : State) (cap offset v : Nat) : State :=
  match cap, offset with
  | 2, 0x08 => { s with cmdq := { s.cmdq with ring := v } }
  | 2, 0x10 => { s with cmdq := { s.cmdq with logSize := v % 32 } }
  | 4, 0x08 => { s with errlog := { s.errlog with ring := v } }
  | 4, 0x10 => { s with errlog := { s.errlog with size := v } }
  | 4, 0x18 => { s with errlog := { s.errlog with ci := v } }
  | 5, o =>
    let port := (o - 0x100) / 0x80
    let w := (o - 0x100) % 0x80 / 16
    if decide (o < 0x100) || decide (port ≥ 16) || o % 8 != 0 then s
    else
      let x := linkOf s port
      setLink s port { x with windows := x.windows.modify w (fun p => if o % 16 == 0 then (v, p.2) else (p.1, v)) }
  | _, _ => s

/-- A register write. In RECOVERY only the recovery mailbox takes one, named as capability 0: the manual gives it no registers, so what is
written is kept as it came (R247; log 62). -/
def execRegisterWrite (cap offset : Nat) (value : W64) (s : State) : Out :=
  if takesWrites s then .next (writeRegister s cap offset value.toNat)
  else if cap == 0 then .next { s with mailbox := s.mailbox ++ [(offset, value)] }
  else .next s

end Sys2Proof.Machine
end

