-- ==== Sys2Proof/Machine/Links.lean ====
section
/-! DEFINITION. Links and the host attachment: flits, rebuilding and replay, training, inbound peer requests, host accesses (spec/14_link.md R237
to R244, spec/11_ordering.md R194, R195). -/

namespace Sys2Proof.Machine

/-! ### Rails and training (R240) -/

def execRailLockLoss (link rail : Nat) (s : State) : Out := if flitLink link && decide (rail < 5) then .next (loseRail s link rail) else .next s

/-- RETRAIN, through the link capability, which responds once STATUS reads READY (R245). -/
def execRetrain (link : Nat) (s : State) : Out :=
  if !linkExists link || !takesWrites s || s.status == .booting then .next s
  else
    match (linkOf s link).st with
    | .down | .up | .degraded | .failed => .next (trainLink s link)
    | _ => .next s

/-- The rails of five that have not locked. -/
def unlocked (rails : BitVec 5) : List Nat := (List.range 5).filter (fun i => !rails.getLsbD i)

/-- What has been held for want of the link goes on: the writes of the hub, the host and peer devices land (R240). -/
def landHeld (s : State) : State := landFlights s (fun f => f.die == hubDie)

/-- The host port has trained with 16, 8 or 4 lanes, as the implementation finds (R243). -/
def hostUp (s : State) : State := moveLink { fresh s with hostWidth := 16 / 2 ^ (Config.freeNat s.free % 3) } 16 (linkUp (linkOf s 16))

/-- Training ends with five rails locked, or with four and the lost one recorded. The host port's lanes are no rails. -/
def execLinkTrainComplete (link : Nat) (rails : BitVec 5) (s : State) : Out :=
  let x := linkOf s link
  if !linkExists link || x.st != .training then .next s
  else if link == 16 then .next (landHeld (hostUp s))
  else
    match unlocked rails with
    | [] => .next (landHeld (moveLink s link (linkUp x)))
    | [r] => .next (landHeld (moveLink s link { linkUp x with st := .degraded, lost := some r, before := .degraded }))
    | _ => .next s

/-- Fewer than four rails have locked, or 100 ms have elapsed. -/
def execLinkTrainTimeout (link : Nat) (_rails : BitVec 5) (s : State) : Out :=
  if linkExists link && (linkOf s link).st == .training then .next (failLink s link) else .next s

/-! ### The receiver (R237 to R239) -/

/-- The link is in REPLAY, and will go back to what it was. -/
def replayState (x : Link) : Link := { x with st := .replay, before := if x.st == .replay then x.before else x.st }

/-- The receiver asks for replay of the flit it expects, or asks again when a replay has failed; when the eighth has, the link fails. What comes
before a replay it discards. -/
def askReplay (s : State) (l : Nat) : State :=
  let x := linkOf s l
  if x.replays != 0 && !x.resent then s
  else if x.replays ≥ 8 then failLink s l
  else moveLink s l { replayState x with replays := x.replays + 1, resent := false }

/-- A flit is accepted, with its virtual channel; a replay that it ends leaves the link as it was before. The sender of a die-to-die link's direction
stands in the same entry: the flit that it has resent has been accepted (R239). -/
def acceptFlit (s : State) (l : Nat) (f : List Byte) : State :=
  let x := linkOf s l
  moveLink s l { (if l < 17 then x else x.notAsked) with
    st := if x.st == .replay then x.before else x.st, expect := x.expect + 1, replays := 0, resent := false
    received := x.received ++ [(flitChannel f, (f.drop 4).take 64)] }

/-- The checks that a flit's beats have failed are counted: 32 on one rail within 1,024 flits lose the rail. -/
def countBeats (s : State) (l : Nat) (bs : List (Option (BitVec 144))) : State :=
  let x := linkOf s l
  let n := x.flits + 1
  let bad := x.badBeats.mapIdx (fun i h =>
    let h := h.filter (fun k => decide (k + 1024 > n))
    if (bs.getD i none).isNone && x.lost != some i then h ++ [n] else h)
  let s := setLink s l { x with flits := n, badBeats := bad }
  (List.range 5).foldl (fun s i => if decide ((bad.getD i []).length ≥ 32) then loseRail s l i else s) s

/-- A receiver takes a flit of five beats, of which a missing one is none. -/
def execLinkFlitReceive (link : Nat) (beats : List (Option (BitVec 144))) (s : State) : Out :=
  let x := linkOf s link
  if !flitLink link || !linkRuns x then .next s
  else
    let bs := (List.range 5).map (fun i => if x.lost == some i then none else beats.getD i none)
    let s := countBeats s link bs
    if (linkOf s link).st == .failed then .next s
    else
      match dataBeats bs with
      | none => .next (askReplay s link)
      | some (d, n) =>
        let s := if n == 0 then s else countHub (setLink s link { linkOf s link with rebuilt := (linkOf s link).rebuilt + n }) 7 0xFFFFF n
        let f := flitBytes d
        if !flitGood f then .next (askReplay s link)
        else if flitSeq f != (linkOf s link).expect then .next (if (linkOf s link).replays != 0 then s else askReplay s link)
        else .next (acceptFlit s link f)

/-- This end's sender resends from its store, from the sequence number that the other end asks for; a ninth request for one flit, of which eight
replays have failed, fails the link. -/
def resendFrom (s : State) (l : Nat) (seq : BitVec 12) : State :=
  let x := linkOf s l
  let n := if x.asked == some seq then x.tries + 1 else 1
  if n > 8 then failLink s l
  else countHub (moveLink s l { replayState x with
    asked := some seq, tries := n, resend := replayFrom x seq, rails := x.rails ++ (replayFrom x seq).map flitBeats }) 6 0xFFFFF 1

/-- A sender resends from the bad flit's sequence number: the other end's, which this end's receiver has asked, or this end's, asked for a number. -/
def execReplayRequest (req : ReplayReq) (s : State) : Out :=
  let link := req.link
  let x := linkOf s link
  if !flitLink link || !linkRuns x then .next s
  else
    match req.number with
    | none => if x.replays != 0 && !x.resent then .next (countHub (setLink s link { x with resent := true }) 6 0xFFFFF 1) else .next s
    | some seq => .next (resendFrom s link seq)

/-! ### Requests from outside (R194, R195, R242) -/

/-- The places of `n` bytes from a physical address. -/
def outsideLocs (addr n : Nat) : List Loc := (List.range n).map (fun i => hubLoc (addr + i))

/-- The request waits: a pin or a hold on one of its lines, or the host port trains. -/
def outsideWaits (s : State) (ls : List Loc) : Bool := (byLine ls).any (fun l => (hubWaits s l false).isSome)

/-- What a read finds at the home slices, with its messages and the codes of its lines (R155, R237). A host line's dirty data goes back to the host
first (R243). -/
def outsideRead (s : State) (who : Party) (ls : List Loc) : State :=
  ((ls.map (fun l => (l.space, locSector l))).eraseDups).foldl (fun s k =>
    let s := recallCopies s k.1 k.2
    if k.1 == .host then writeBackFree s .host (k.2 / 4) [k.2] else s) (fillCodes (partyCrossing s who ls) 0xFFFF ls)

/-- A read or write is performed at the home slices: an acquire, or a release, at `.sys` (R195; log 14). -/
def outsideAccess (s : State) (who : Party) (write : Bool) (ls : List Loc) (data : List Byte) : State :=
  if write then writeOutside s who (ls.zip data) else acquireOutside (outsideRead s who ls) who ls

/-- A peer's atomic is performed at the home slice of this device, behind what is on its way to its bytes (R181, R199); its location must be readable
(R361). -/
def outsideAtomic (s : State) (who : Party) (mod : BitVec 4) (ty : Ty) (b c : W64) (addr : Nat) (ls : List Loc) : State :=
  let o : AtomOp := { acc := { lane := 0, off := 0, va := 0, locs := ls }, mod := mod, ty := ty, b := b, c := c }
  let s := fillCodes (landOnto s ls) 0xFFFF ls
  let s := ((ls.map (fun l => (l.space, locSector l))).eraseDups).foldl (fun s k => homeLine s k.1 k.2) s
  if ls.any (badLoc s) then poisonLine s (hubSpace addr) (physAddr addr / 256) 2
  else
    let before := s.releases
    let s := acquireOutside s who ls
    let s := writeOutside s who (ls.zip (leBytes ls.length (atomNew o (leValue (ls.map (fun l => newestByte s l.space l.addr))))))
    { s with releases := before ++ s.releases }

/-- The request lies in one of its port's inbound windows, which end at their limits. -/
def inWindow (x : Link) (addr n : Nat) : Bool := x.windows.any (fun w => decide (w.1 ≤ addr) && decide (addr + n ≤ w.2 + 1))

/-- The response to a request of a peer device leaves its port as a flit (R135, R237). -/
def answer (port : Nat) (s : State) : State := sendFlits s [port] 1

/-- A peer device's request: admitted through a window of its port, else refused. An atomic carries as many bytes as its location has. -/
def execPeerInboundRequest (port : Nat) (req : PeerReq) (addr : Nat) (data : List Byte) (s : State) : Out :=
  let x := linkOf s port
  let ls := outsideLocs addr data.length
  if decide (port ≥ 16) || !(x.st == .up || x.st == .degraded) || s.status != .ready || !inWindow x addr data.length then .next s
  else if addr + data.length > dramEnd then .fault .noSuchAddress
  else if outsideWaits s ls || ((match req with
    | .atomic _ _ _ _ => true
    | _ => false) && flightStays s ls) then .next s
  else .next (answer port <| match req with
    | .read => outsideAccess s (.peer port) false ls data
    | .write => outsideAccess s (.peer port) true ls data
    | .atomic mod ty b c => outsideAtomic s (.peer port) mod ty b c addr ls)

/-- The host reaches a place: through its port, or its own memory where no slice holds the line (R240, R243). -/
def hostReaches (s : State) (l : Loc) : Bool :=
  hostLinkUp s || (l.space == .host && !s.copies.any (fun c => c.space == .host && c.sector / 4 == l.addr / 256))

/-- A host read or write: of device DRAM through CXL.mem, where the metadata area is not exposed, and of its own memory, whose lines the home
slices give up first (R243). -/
def execHostMemAccess (write : Bool) (addr : Nat) (data : List Byte) (s : State) : Out :=
  let ls := outsideLocs addr data.length
  if s.status == .recovery || s.status == .fatal || ls.any (fun l => inMeta l.addr) || !ls.all (hostReaches s) || outsideWaits s ls then .next s
  else .next (outsideAccess s .host write ls data)

/-- The host snoops a host line that a home slice may hold: what is dirty goes back, and an invalidation takes every copy. The snoop is held while a
link on its way trains (R240). -/
def execCxlCacheSnoop (line : Nat) (invalidate : Bool) (s : State) : Out :=
  let l : Loc := { space := .host, addr := line * 64, cache := 2, comp := false }
  if !hostLinkUp s || portHeld s hubDie l || pinnedAway s .host line none || lineHeld s .host (line / 4) 0 then .next s
  else
    let s := writeBackFree (recallCopies (partyCrossing s .host [l]) .host line) .host (line / 4) [line]
    .next (if invalidate then dropCopies s .host line (fun _ => true) else s)

end Sys2Proof.Machine
end

