-- ==== Sys2Proof/Machine/Short.lean ====
section
/-! DEFINITION. The meanings of the two-byte and four-byte forms: each is that of its instruction on the fields it expands to
(spec/17_encoding.md R284 to R286). -/

namespace Sys2Proof.Machine

def execMov2B (d b : Fin 32) (s : State) : Out := execMov (twoFields true .none d b) s
def execNot2B (d b : Fin 32) (s : State) : Out := execNot (twoFields true .none d b) s
def execAnd2B (d b : Fin 32) (s : State) : Out := execAnd (twoFields false .none d b) s
def execOr2B (d b : Fin 32) (s : State) : Out := execOr (twoFields false .none d b) s
def execXor2B (d b : Fin 32) (s : State) : Out := execXor (twoFields false .none d b) s
def execAndn2B (d b : Fin 32) (s : State) : Out := execAndn (twoFields false .none d b) s
def execShl2B (d b : Fin 32) (s : State) : Out := execShl (twoFields false .none d b) s
def execShr2B (d b : Fin 32) (s : State) : Out := execShr (twoFields false .none d b) s
def execAddI322B (d b : Fin 32) (s : State) : Out := execAdd (twoFields false .i32 d b) s
def execAddN322B (d b : Fin 32) (s : State) : Out := execAdd (twoFields false .n32 d b) s
def execSubI322B (d b : Fin 32) (s : State) : Out := execSub (twoFields false .i32 d b) s
def execSubN322B (d b : Fin 32) (s : State) : Out := execSub (twoFields false .n32 d b) s
def execMulI322B (d b : Fin 32) (s : State) : Out := execMul (twoFields false .i32 d b) s
def execMulN322B (d b : Fin 32) (s : State) : Out := execMul (twoFields false .n32 d b) s
def execMinI322B (d b : Fin 32) (s : State) : Out := execMin (twoFields false .i32 d b) s
def execMaxI322B (d b : Fin 32) (s : State) : Out := execMax (twoFields false .i32 d b) s
def execMinN322B (d b : Fin 32) (s : State) : Out := execMin (twoFields false .n32 d b) s
def execMaxN322B (d b : Fin 32) (s : State) : Out := execMax (twoFields false .n32 d b) s
def execSarI322B (d b : Fin 32) (s : State) : Out := execSar (twoFields false .i32 d b) s
def execNegI322B (d b : Fin 32) (s : State) : Out := execNeg (twoFields true .i32 d b) s
def execAddI162B (d b : Fin 32) (s : State) : Out := execAdd (twoFields false .i16 d b) s
def execAddI82B (d b : Fin 32) (s : State) : Out := execAdd (twoFields false .i8 d b) s
def execAbsI322B (d b : Fin 32) (s : State) : Out := execAbs (twoFields true .i32 d b) s
def execFnegF322B (d b : Fin 32) (s : State) : Out := execFneg (twoFields true .f32 d b) s
def execFaddF322B (d b : Fin 32) (s : State) : Out := execFadd (twoFields false .f32 d b) s
def execFsubF322B (d b : Fin 32) (s : State) : Out := execFsub (twoFields false .f32 d b) s
def execFmulF322B (d b : Fin 32) (s : State) : Out := execFmul (twoFields false .f32 d b) s
def execFminF322B (d b : Fin 32) (s : State) : Out := execFmin (twoFields false .f32 d b) s
def execFmaxF322B (d b : Fin 32) (s : State) : Out := execFmax (twoFields false .f32 d b) s
def execFaddBf162B (d b : Fin 32) (s : State) : Out := execFadd (twoFields false .bf16 d b) s
def execFmulBf162B (d b : Fin 32) (s : State) : Out := execFmul (twoFields false .bf16 d b) s
def execFabsF322B (d b : Fin 32) (s : State) : Out := execFabs (twoFields true .f32 d b) s

/-- `mov` of a queue register is a pop (R76). -/
def execMov4B (r : Four) (s : State) : Out :=
  let f := Four.fields r 0 .none
  if f.sa.isQ then execMovFromQueue f s else execMov f s
def execMovi4B (r : Four) (s : State) : Out := execMovi (Four.fields r 0 .none) s
def execAnd4B (r : Four) (s : State) : Out := execAnd (Four.fields r 0 .none) s
def execOr4B (r : Four) (s : State) : Out := execOr (Four.fields r 0 .none) s
def execXor4B (r : Four) (s : State) : Out := execXor (Four.fields r 0 .none) s
def execAndn4B (r : Four) (s : State) : Out := execAndn (Four.fields r 0 .none) s
def execShl4B (r : Four) (s : State) : Out := execShl (Four.fields r 0 .none) s
def execShr4B (r : Four) (s : State) : Out := execShr (Four.fields r 0 .none) s
def execAddI324B (r : Four) (s : State) : Out := execAdd (Four.fields r 0 .i32) s
def execAddN324B (r : Four) (s : State) : Out := execAdd (Four.fields r 0 .n32) s
def execAddI644B (r : Four) (s : State) : Out := execAdd (Four.fields r 0 .i64) s
def execAddN644B (r : Four) (s : State) : Out := execAdd (Four.fields r 0 .n64) s
def execSubI324B (r : Four) (s : State) : Out := execSub (Four.fields r 0 .i32) s
def execSubN324B (r : Four) (s : State) : Out := execSub (Four.fields r 0 .n32) s
def execSubI644B (r : Four) (s : State) : Out := execSub (Four.fields r 0 .i64) s
def execSubN644B (r : Four) (s : State) : Out := execSub (Four.fields r 0 .n64) s
def execMulI324B (r : Four) (s : State) : Out := execMul (Four.fields r 0 .i32) s
def execMulN324B (r : Four) (s : State) : Out := execMul (Four.fields r 0 .n32) s
def execMulN644B (r : Four) (s : State) : Out := execMul (Four.fields r 0 .n64) s
def execMulhN324B (r : Four) (s : State) : Out := execMulh (Four.fields r 0 .n32) s
def execMinI324B (r : Four) (s : State) : Out := execMin (Four.fields r 0 .i32) s
def execMaxI324B (r : Four) (s : State) : Out := execMax (Four.fields r 0 .i32) s
def execMinN324B (r : Four) (s : State) : Out := execMin (Four.fields r 0 .n32) s
def execMaxN324B (r : Four) (s : State) : Out := execMax (Four.fields r 0 .n32) s
def execSarI324B (r : Four) (s : State) : Out := execSar (Four.fields r 0 .i32) s
def execSarI644B (r : Four) (s : State) : Out := execSar (Four.fields r 0 .i64) s
def execRot4B (r : Four) (s : State) : Out := execRot (Four.fields r 0 .none) s
def execNot4B (r : Four) (s : State) : Out := execNot (Four.fields r 0 .none) s
def execPopc4B (r : Four) (s : State) : Out := execPopc (Four.fields r 0 .none) s
def execClz4B (r : Four) (s : State) : Out := execClz (Four.fields r 0 .none) s
def execNegI324B (r : Four) (s : State) : Out := execNeg (Four.fields r 0 .i32) s
def execDivN324B (r : Four) (s : State) : Out := execDiv (Four.fields r 0 .n32) s
def execCmpEqI324B (r : Four) (s : State) : Out := execCmp (Four.fields r 0 .i32) s
def execCmpNeI324B (r : Four) (s : State) : Out := execCmp (Four.fields r 1 .i32) s
def execCmpLtI324B (r : Four) (s : State) : Out := execCmp (Four.fields r 2 .i32) s
def execCmpGeI324B (r : Four) (s : State) : Out := execCmp (Four.fields r 5 .i32) s
def execCmpEqN324B (r : Four) (s : State) : Out := execCmp (Four.fields r 0 .n32) s
def execCmpNeN324B (r : Four) (s : State) : Out := execCmp (Four.fields r 1 .n32) s
def execCmpLtN324B (r : Four) (s : State) : Out := execCmp (Four.fields r 2 .n32) s
def execCmpGeN324B (r : Four) (s : State) : Out := execCmp (Four.fields r 5 .n32) s
def execCmpEqI644B (r : Four) (s : State) : Out := execCmp (Four.fields r 0 .i64) s
def execCmpNeI644B (r : Four) (s : State) : Out := execCmp (Four.fields r 1 .i64) s
def execCmpLtI644B (r : Four) (s : State) : Out := execCmp (Four.fields r 2 .i64) s
def execCmpGtI644B (r : Four) (s : State) : Out := execCmp (Four.fields r 4 .i64) s
def execCmpLtN644B (r : Four) (s : State) : Out := execCmp (Four.fields r 2 .n64) s
def execCmpGeN644B (r : Four) (s : State) : Out := execCmp (Four.fields r 5 .n64) s
def execFcmpLtF324B (r : Four) (s : State) : Out := execFcmp (Four.fields r 2 .f32) s
def execFcmpGeF324B (r : Four) (s : State) : Out := execFcmp (Four.fields r 5 .f32) s
def execFaddF324B (r : Four) (s : State) : Out := execFadd (Four.fields r 0 .f32) s
def execFsubF324B (r : Four) (s : State) : Out := execFsub (Four.fields r 0 .f32) s
def execFmulF324B (r : Four) (s : State) : Out := execFmul (Four.fields r 0 .f32) s
def execFminF324B (r : Four) (s : State) : Out := execFmin (Four.fields r 0 .f32) s
def execFmaxF324B (r : Four) (s : State) : Out := execFmax (Four.fields r 0 .f32) s
def execFaddBf164B (r : Four) (s : State) : Out := execFadd (Four.fields r 0 .bf16) s
def execFmulBf164B (r : Four) (s : State) : Out := execFmul (Four.fields r 0 .bf16) s
def execFrcpF324B (r : Four) (s : State) : Out := execFrcp (Four.fields r 0 .f32) s
def execShflUp4B (r : Four) (s : State) : Out := execShfl (Four.fields r 0 .none) s
def execShflDn4B (r : Four) (s : State) : Out := execShfl (Four.fields r 1 .none) s
def execShflXor4B (r : Four) (s : State) : Out := execShfl (Four.fields r 2 .none) s
def execShflIdx4B (r : Four) (s : State) : Out := execShfl (Four.fields r 3 .none) s
def execBallot4B (r : Four) (s : State) : Out := execBallot (Four.fields r 0 .none) s
def execVoteAny4B (r : Four) (s : State) : Out := execVote (Four.fields r 0 .none) s
def execVoteAll4B (r : Four) (s : State) : Out := execVote (Four.fields r 1 .none) s
def execLredAddF324B (r : Four) (s : State) : Out := execLred (Four.fields r 0 .f32) s

end Sys2Proof.Machine
end

