-- ==== Sys2Proof/Machine/Dispatch.lean ====
section
/-! DEFINITION. The meaning of every instruction: one arm per constructor, in the opcode table's order. -/

namespace Sys2Proof.Machine

open Host

def exec (i : Instr) (s : State) : Host.Outcome State Fault Refusal :=
  match i with
  | .nop f => Sys2Proof.Machine.execNop f s
  | .bra f => Sys2Proof.Machine.execBra f s
  | .brc f => Sys2Proof.Machine.execBrc f s
  | .brd f => Sys2Proof.Machine.execBrd f s
  | .fuse f => Sys2Proof.Machine.execFuse f s
  | .jmpi f => Sys2Proof.Machine.execJmpi f s
  | .call f => Sys2Proof.Machine.execCall f s
  | .ret f => Sys2Proof.Machine.execRet f s
  | .exit f => Sys2Proof.Machine.execExit f s
  | .yield f => Sys2Proof.Machine.execYield f s
  | .sleepClk f => Sys2Proof.Machine.execSleepClk f s
  | .movem f => Sys2Proof.Machine.execMovem f s
  | .brk f => Sys2Proof.Machine.execBrk f s
  | .region f => Sys2Proof.Machine.execRegion f s
  | .commit f => Sys2Proof.Machine.execCommit f s
  | .sigchk f => Sys2Proof.Machine.execSigchk f s
  | .sigrst f => Sys2Proof.Machine.execSigrst f s
  | .trap f => Sys2Proof.Machine.execTrap f s
  | .eret f => Sys2Proof.Machine.execEret f s
  | .rdspec f => Sys2Proof.Machine.execRdspec f s
  | .wrspec f => Sys2Proof.Machine.execWrspec f s
  | .laneget f => Sys2Proof.Machine.execLaneget f s
  | .laneset f => Sys2Proof.Machine.execLaneset f s
  | .fmode f => Sys2Proof.Machine.execFmode f s
  | .flclr f => Sys2Proof.Machine.execFlclr f s
  | .mov f => Sys2Proof.Machine.execMov f s
  | .movFromQueue f => Sys2Proof.Machine.execMovFromQueue f s
  | .movi f => Sys2Proof.Machine.execMovi f s
  | .add f => Sys2Proof.Machine.execAdd f s
  | .sub f => Sys2Proof.Machine.execSub f s
  | .addc f => Sys2Proof.Machine.execAddc f s
  | .mul f => Sys2Proof.Machine.execMul f s
  | .mulh f => Sys2Proof.Machine.execMulh f s
  | .mad f => Sys2Proof.Machine.execMad f s
  | .neg f => Sys2Proof.Machine.execNeg f s
  | .abs f => Sys2Proof.Machine.execAbs f s
  | .min f => Sys2Proof.Machine.execMin f s
  | .max f => Sys2Proof.Machine.execMax f s
  | .and f => Sys2Proof.Machine.execAnd f s
  | .or f => Sys2Proof.Machine.execOr f s
  | .xor f => Sys2Proof.Machine.execXor f s
  | .not f => Sys2Proof.Machine.execNot f s
  | .andn f => Sys2Proof.Machine.execAndn f s
  | .shl f => Sys2Proof.Machine.execShl f s
  | .shr f => Sys2Proof.Machine.execShr f s
  | .sar f => Sys2Proof.Machine.execSar f s
  | .rot f => Sys2Proof.Machine.execRot f s
  | .clz f => Sys2Proof.Machine.execClz f s
  | .popc f => Sys2Proof.Machine.execPopc f s
  | .brev f => Sys2Proof.Machine.execBrev f s
  | .bfe f => Sys2Proof.Machine.execBfe f s
  | .bfi f => Sys2Proof.Machine.execBfi f s
  | .sel f => Sys2Proof.Machine.execSel f s
  | .cmp f => Sys2Proof.Machine.execCmp f s
  | .lea f => Sys2Proof.Machine.execLea f s
  | .div f => Sys2Proof.Machine.execDiv f s
  | .rem f => Sys2Proof.Machine.execRem f s
  | .fadd f => Sys2Proof.Machine.execFadd f s
  | .fsub f => Sys2Proof.Machine.execFsub f s
  | .fmul f => Sys2Proof.Machine.execFmul f s
  | .ffma f => Sys2Proof.Machine.execFfma f s
  | .fmin f => Sys2Proof.Machine.execFmin f s
  | .fmax f => Sys2Proof.Machine.execFmax f s
  | .fabs f => Sys2Proof.Machine.execFabs f s
  | .fneg f => Sys2Proof.Machine.execFneg f s
  | .fcmp f => Sys2Proof.Machine.execFcmp f s
  | .fclass f => Sys2Proof.Machine.execFclass f s
  | .frnd f => Sys2Proof.Machine.execFrnd f s
  | .frcp f => Sys2Proof.Machine.execFrcp f s
  | .frsq f => Sys2Proof.Machine.execFrsq f s
  | .fsqrt f => Sys2Proof.Machine.execFsqrt f s
  | .fexp2 f => Sys2Proof.Machine.execFexp2 f s
  | .flog2 f => Sys2Proof.Machine.execFlog2 f s
  | .fsin f => Sys2Proof.Machine.execFsin f s
  | .fcos f => Sys2Proof.Machine.execFcos f s
  | .ftanh f => Sys2Proof.Machine.execFtanh f s
  | .fdot2 f => Sys2Proof.Machine.execFdot2 f s
  | .cvt f => Sys2Proof.Machine.execCvt f s
  | .pack f => Sys2Proof.Machine.execPack f s
  | .unpack f => Sys2Proof.Machine.execUnpack f s
  | .sxq f => Sys2Proof.Machine.execSxq f s
  | .sxd f => Sys2Proof.Machine.execSxd f s
  | .tag f => Sys2Proof.Machine.execTag f s
  | .tagof f => Sys2Proof.Machine.execTagof f s
  | .shfl f => Sys2Proof.Machine.execShfl f s
  | .ballot f => Sys2Proof.Machine.execBallot f s
  | .vote f => Sys2Proof.Machine.execVote f s
  | .lred f => Sys2Proof.Machine.execLred f s
  | .scan f => Sys2Proof.Machine.execScan f s
  | .matchKeys f => Sys2Proof.Machine.execMatchKeys f s
  | .bcast f => Sys2Proof.Machine.execBcast f s
  | .firstLane f => Sys2Proof.Machine.execFirstLane f s
  | .pand f => Sys2Proof.Machine.execPand f s
  | .por f => Sys2Proof.Machine.execPor f s
  | .pxor f => Sys2Proof.Machine.execPxor f s
  | .pnot f => Sys2Proof.Machine.execPnot f s
  | .pmov f => Sys2Proof.Machine.execPmov f s
  | .pcnt f => Sys2Proof.Machine.execPcnt f s
  | .ld f => Sys2Proof.Machine.execLd f s
  | .st f => Sys2Proof.Machine.execSt f s
  | .lds f => Sys2Proof.Machine.execLds f s
  | .sts f => Sys2Proof.Machine.execSts f s
  | .pref f => Sys2Proof.Machine.execPref f s
  | .clean f => Sys2Proof.Machine.execClean f s
  | .inval f => Sys2Proof.Machine.execInval f s
  | .clinv f => Sys2Proof.Machine.execClinv f s
  | .fence f => Sys2Proof.Machine.execFence f s
  | .fprobe f => Sys2Proof.Machine.execFprobe f s
  | .atom f => Sys2Proof.Machine.execAtom f s
  | .mred f => Sys2Proof.Machine.execMred f s
  | .waitc f => Sys2Proof.Machine.execWaitc f s
  | .bara f => Sys2Proof.Machine.execBara f s
  | .bars f => Sys2Proof.Machine.execBars f s
  | .barq f => Sys2Proof.Machine.execBarq f s
  | .talloc f => Sys2Proof.Machine.execTalloc f s
  | .tfree f => Sys2Proof.Machine.execTfree f s
  | .tstat f => Sys2Proof.Machine.execTstat f s
  | .tset f => Sys2Proof.Machine.execTset f s
  | .cpyIn f => Sys2Proof.Machine.execCpyIn f s
  | .cpyOut f => Sys2Proof.Machine.execCpyOut f s
  | .cpyMm f => Sys2Proof.Machine.execCpyMm f s
  | .mma f => Sys2Proof.Machine.execMma f s
  | .mzero f => Sys2Proof.Machine.execMzero f s
  | .mload f => Sys2Proof.Machine.execMload f s
  | .mdrain f => Sys2Proof.Machine.execMdrain f s
  | .mdrainAdd f => Sys2Proof.Machine.execMdrainAdd f s
  | .stash f => Sys2Proof.Machine.execStash f s
  | .restore f => Sys2Proof.Machine.execRestore f s
  | .xcfg f => Sys2Proof.Machine.execXcfg f s
  | .xpool f => Sys2Proof.Machine.execXpool f s
  | .xration f => Sys2Proof.Machine.execXration f s
  | .xrun f => Sys2Proof.Machine.execXrun f s
  | .xgate f => Sys2Proof.Machine.execXgate f s
  | .xstat f => Sys2Proof.Machine.execXstat f s
  | .post f => Sys2Proof.Machine.execPost f s
  | .mov2B d b => Sys2Proof.Machine.execMov2B d b s
  | .not2B d b => Sys2Proof.Machine.execNot2B d b s
  | .and2B d b => Sys2Proof.Machine.execAnd2B d b s
  | .or2B d b => Sys2Proof.Machine.execOr2B d b s
  | .xor2B d b => Sys2Proof.Machine.execXor2B d b s
  | .andn2B d b => Sys2Proof.Machine.execAndn2B d b s
  | .shl2B d b => Sys2Proof.Machine.execShl2B d b s
  | .shr2B d b => Sys2Proof.Machine.execShr2B d b s
  | .addI322B d b => Sys2Proof.Machine.execAddI322B d b s
  | .addN322B d b => Sys2Proof.Machine.execAddN322B d b s
  | .subI322B d b => Sys2Proof.Machine.execSubI322B d b s
  | .subN322B d b => Sys2Proof.Machine.execSubN322B d b s
  | .mulI322B d b => Sys2Proof.Machine.execMulI322B d b s
  | .mulN322B d b => Sys2Proof.Machine.execMulN322B d b s
  | .minI322B d b => Sys2Proof.Machine.execMinI322B d b s
  | .maxI322B d b => Sys2Proof.Machine.execMaxI322B d b s
  | .minN322B d b => Sys2Proof.Machine.execMinN322B d b s
  | .maxN322B d b => Sys2Proof.Machine.execMaxN322B d b s
  | .sarI322B d b => Sys2Proof.Machine.execSarI322B d b s
  | .negI322B d b => Sys2Proof.Machine.execNegI322B d b s
  | .addI162B d b => Sys2Proof.Machine.execAddI162B d b s
  | .addI82B d b => Sys2Proof.Machine.execAddI82B d b s
  | .absI322B d b => Sys2Proof.Machine.execAbsI322B d b s
  | .fnegF322B d b => Sys2Proof.Machine.execFnegF322B d b s
  | .faddF322B d b => Sys2Proof.Machine.execFaddF322B d b s
  | .fsubF322B d b => Sys2Proof.Machine.execFsubF322B d b s
  | .fmulF322B d b => Sys2Proof.Machine.execFmulF322B d b s
  | .fminF322B d b => Sys2Proof.Machine.execFminF322B d b s
  | .fmaxF322B d b => Sys2Proof.Machine.execFmaxF322B d b s
  | .faddBf162B d b => Sys2Proof.Machine.execFaddBf162B d b s
  | .fmulBf162B d b => Sys2Proof.Machine.execFmulBf162B d b s
  | .fabsF322B d b => Sys2Proof.Machine.execFabsF322B d b s
  | .mov4B r => Sys2Proof.Machine.execMov4B r s
  | .movi4B r => Sys2Proof.Machine.execMovi4B r s
  | .and4B r => Sys2Proof.Machine.execAnd4B r s
  | .or4B r => Sys2Proof.Machine.execOr4B r s
  | .xor4B r => Sys2Proof.Machine.execXor4B r s
  | .andn4B r => Sys2Proof.Machine.execAndn4B r s
  | .shl4B r => Sys2Proof.Machine.execShl4B r s
  | .shr4B r => Sys2Proof.Machine.execShr4B r s
  | .addI324B r => Sys2Proof.Machine.execAddI324B r s
  | .addN324B r => Sys2Proof.Machine.execAddN324B r s
  | .addI644B r => Sys2Proof.Machine.execAddI644B r s
  | .addN644B r => Sys2Proof.Machine.execAddN644B r s
  | .subI324B r => Sys2Proof.Machine.execSubI324B r s
  | .subN324B r => Sys2Proof.Machine.execSubN324B r s
  | .subI644B r => Sys2Proof.Machine.execSubI644B r s
  | .subN644B r => Sys2Proof.Machine.execSubN644B r s
  | .mulI324B r => Sys2Proof.Machine.execMulI324B r s
  | .mulN324B r => Sys2Proof.Machine.execMulN324B r s
  | .mulN644B r => Sys2Proof.Machine.execMulN644B r s
  | .mulhN324B r => Sys2Proof.Machine.execMulhN324B r s
  | .minI324B r => Sys2Proof.Machine.execMinI324B r s
  | .maxI324B r => Sys2Proof.Machine.execMaxI324B r s
  | .minN324B r => Sys2Proof.Machine.execMinN324B r s
  | .maxN324B r => Sys2Proof.Machine.execMaxN324B r s
  | .sarI324B r => Sys2Proof.Machine.execSarI324B r s
  | .sarI644B r => Sys2Proof.Machine.execSarI644B r s
  | .rot4B r => Sys2Proof.Machine.execRot4B r s
  | .not4B r => Sys2Proof.Machine.execNot4B r s
  | .popc4B r => Sys2Proof.Machine.execPopc4B r s
  | .clz4B r => Sys2Proof.Machine.execClz4B r s
  | .negI324B r => Sys2Proof.Machine.execNegI324B r s
  | .divN324B r => Sys2Proof.Machine.execDivN324B r s
  | .cmpEqI324B r => Sys2Proof.Machine.execCmpEqI324B r s
  | .cmpNeI324B r => Sys2Proof.Machine.execCmpNeI324B r s
  | .cmpLtI324B r => Sys2Proof.Machine.execCmpLtI324B r s
  | .cmpGeI324B r => Sys2Proof.Machine.execCmpGeI324B r s
  | .cmpEqN324B r => Sys2Proof.Machine.execCmpEqN324B r s
  | .cmpNeN324B r => Sys2Proof.Machine.execCmpNeN324B r s
  | .cmpLtN324B r => Sys2Proof.Machine.execCmpLtN324B r s
  | .cmpGeN324B r => Sys2Proof.Machine.execCmpGeN324B r s
  | .cmpEqI644B r => Sys2Proof.Machine.execCmpEqI644B r s
  | .cmpNeI644B r => Sys2Proof.Machine.execCmpNeI644B r s
  | .cmpLtI644B r => Sys2Proof.Machine.execCmpLtI644B r s
  | .cmpGtI644B r => Sys2Proof.Machine.execCmpGtI644B r s
  | .cmpLtN644B r => Sys2Proof.Machine.execCmpLtN644B r s
  | .cmpGeN644B r => Sys2Proof.Machine.execCmpGeN644B r s
  | .fcmpLtF324B r => Sys2Proof.Machine.execFcmpLtF324B r s
  | .fcmpGeF324B r => Sys2Proof.Machine.execFcmpGeF324B r s
  | .faddF324B r => Sys2Proof.Machine.execFaddF324B r s
  | .fsubF324B r => Sys2Proof.Machine.execFsubF324B r s
  | .fmulF324B r => Sys2Proof.Machine.execFmulF324B r s
  | .fminF324B r => Sys2Proof.Machine.execFminF324B r s
  | .fmaxF324B r => Sys2Proof.Machine.execFmaxF324B r s
  | .faddBf164B r => Sys2Proof.Machine.execFaddBf164B r s
  | .fmulBf164B r => Sys2Proof.Machine.execFmulBf164B r s
  | .frcpF324B r => Sys2Proof.Machine.execFrcpF324B r s
  | .shflUp4B r => Sys2Proof.Machine.execShflUp4B r s
  | .shflDn4B r => Sys2Proof.Machine.execShflDn4B r s
  | .shflXor4B r => Sys2Proof.Machine.execShflXor4B r s
  | .shflIdx4B r => Sys2Proof.Machine.execShflIdx4B r s
  | .ballot4B r => Sys2Proof.Machine.execBallot4B r s
  | .voteAny4B r => Sys2Proof.Machine.execVoteAny4B r s
  | .voteAll4B r => Sys2Proof.Machine.execVoteAll4B r s
  | .lredAddF324B r => Sys2Proof.Machine.execLredAddF324B r s
  | .illegalWordIssue len => Sys2Proof.Machine.execIllegalWordIssue len s
  | .fetchFaultIssue len => Sys2Proof.Machine.execFetchFaultIssue len s
  | .icacheFill core ctx pc => Sys2Proof.Machine.execIcacheFill core ctx pc s
  | .longLatencyWriteback gid id => Sys2Proof.Machine.execLongLatencyWriteback gid id s
  | .commitProceed gid node => Sys2Proof.Machine.execCommitProceed gid node s
  | .storeQueueRetire gid => Sys2Proof.Machine.execStoreQueueRetire gid s
  | .monitorWake gid node => Sys2Proof.Machine.execMonitorWake gid node s
  | .monitorRecheck gid node => Sys2Proof.Machine.execMonitorRecheck gid node s
  | .barrierArrive gid node => Sys2Proof.Machine.execBarrierArrive gid node s
  | .probeComplete gid node => Sys2Proof.Machine.execProbeComplete gid node s
  | .sleepExpire gid node => Sys2Proof.Machine.execSleepExpire gid node s
  | .rangeOpComplete gid id => Sys2Proof.Machine.execRangeOpComplete gid id s
  | .retryResend gid id => Sys2Proof.Machine.execRetryResend gid id s
  | .pageWalkComplete die idx => Sys2Proof.Machine.execPageWalkComplete die idx s
  | .l2Eviction line guest drop code bad => Sys2Proof.Machine.execL2Eviction line guest drop code bad s
  | .matrixCmdStart gid => Sys2Proof.Machine.execMatrixCmdStart gid s
  | .mdrainHoldGrant gid => Sys2Proof.Machine.execMdrainHoldGrant gid s
  | .matrixCmdComplete gid => Sys2Proof.Machine.execMatrixCmdComplete gid s
  | .copyCmdStart gid => Sys2Proof.Machine.execCopyCmdStart gid s
  | .copyCmdComplete gid => Sys2Proof.Machine.execCopyCmdComplete gid s
  | .cicadaCmdStart gid => Sys2Proof.Machine.execCicadaCmdStart gid s
  | .cicadaCmdComplete gid => Sys2Proof.Machine.execCicadaCmdComplete gid s
  | .taskRecordStore gid => Sys2Proof.Machine.execTaskRecordStore gid s
  | .continuationStart die core => Sys2Proof.Machine.execContinuationStart die core s
  | .scheduleStart arr => Sys2Proof.Machine.execScheduleStart arr s
  | .gateStep arr => Sys2Proof.Machine.execGateStep arr s
  | .scheduleResume arr => Sys2Proof.Machine.execScheduleResume arr s
  | .scheduleEnd arr => Sys2Proof.Machine.execScheduleEnd arr s
  | .arrayReadAdmit arr idx => Sys2Proof.Machine.execArrayReadAdmit arr idx s
  | .arrayConfigApply arr => Sys2Proof.Machine.execArrayConfigApply arr s
  | .teamPlace kernel core => Sys2Proof.Machine.execTeamPlace kernel core s
  | .teamStartDelayExpire team => Sys2Proof.Machine.execTeamStartDelayExpire team s
  | .teamEvict team => Sys2Proof.Machine.execTeamEvict team s
  | .teamImageWritten team => Sys2Proof.Machine.execTeamImageWritten team s
  | .kernelRetiring kernel => Sys2Proof.Machine.execKernelRetiring kernel s
  | .kernelRetire kernel => Sys2Proof.Machine.execKernelRetire kernel s
  | .commandDoorbell pi => Sys2Proof.Machine.execCommandDoorbell pi s
  | .cmdCreate => Sys2Proof.Machine.execCmdCreate s
  | .cmdStart => Sys2Proof.Machine.execCmdStart s
  | .cmdSave => Sys2Proof.Machine.execCmdSave s
  | .ctxRestore => Sys2Proof.Machine.execCtxRestore s
  | .cmdHalt => Sys2Proof.Machine.execCmdHalt s
  | .cmdDestroy => Sys2Proof.Machine.execCmdDestroy s
  | .cmdBind => Sys2Proof.Machine.execCmdBind s
  | .cmdUnbind => Sys2Proof.Machine.execCmdUnbind s
  | .cmdFaultq => Sys2Proof.Machine.execCmdFaultq s
  | .cmdFqConsume => Sys2Proof.Machine.execCmdFqConsume s
  | .cmdResolve => Sys2Proof.Machine.execCmdResolve s
  | .cmdShootdown => Sys2Proof.Machine.execCmdShootdown s
  | .cmdRatio => Sys2Proof.Machine.execCmdRatio s
  | .cmdPhase => Sys2Proof.Machine.execCmdPhase s
  | .cmdDrain => Sys2Proof.Machine.execCmdDrain s
  | .cmdCntCfg => Sys2Proof.Machine.execCmdCntCfg s
  | .cmdCntDump => Sys2Proof.Machine.execCmdCntDump s
  | .infieldScan => Sys2Proof.Machine.execInfieldScan s
  | .scanTestComplete result => Sys2Proof.Machine.execScanTestComplete result s
  | .cmdClksample => Sys2Proof.Machine.execCmdClksample s
  | .cmdFreqCap => Sys2Proof.Machine.execCmdFreqCap s
  | .reservedCommand => Sys2Proof.Machine.execReservedCommand s
  | .haltLineAssert ctx => Sys2Proof.Machine.execHaltLineAssert ctx s
  | .contextStopComplete ctx => Sys2Proof.Machine.execContextStopComplete ctx s
  | .restoreImagesChecked ctx => Sys2Proof.Machine.execRestoreImagesChecked ctx s
  | .contextTeardownComplete ctx => Sys2Proof.Machine.execContextTeardownComplete ctx s
  | .coreMapRebuild die => Sys2Proof.Machine.execCoreMapRebuild die s
  | .workQueueDoorbell q pi => Sys2Proof.Machine.execWorkQueueDoorbell q pi s
  | .wqLaunch q => Sys2Proof.Machine.execWqLaunch q s
  | .wqWaitValue q => Sys2Proof.Machine.execWqWaitValue q s
  | .waitValueSatisfied q => Sys2Proof.Machine.execWaitValueSatisfied q s
  | .waitValueRecheck q => Sys2Proof.Machine.execWaitValueRecheck q s
  | .wqSignal q => Sys2Proof.Machine.execWqSignal q s
  | .signalExecute q => Sys2Proof.Machine.execSignalExecute q s
  | .wqFence q => Sys2Proof.Machine.execWqFence q s
  | .allowanceTick core => Sys2Proof.Machine.execAllowanceTick core s
  | .measurementWindow pkg rails dramW other => Sys2Proof.Machine.execMeasurementWindow pkg rails dramW other s
  | .freqStepAdjust => Sys2Proof.Machine.execFreqStepAdjust s
  | .freqStepRaise => Sys2Proof.Machine.execFreqStepRaise s
  | .boostTick die => Sys2Proof.Machine.execBoostTick die s
  | .tempBandChange die band => Sys2Proof.Machine.execTempBandChange die band s
  | .powerStepSet value => Sys2Proof.Machine.execPowerStepSet value s
  | .powerHold value => Sys2Proof.Machine.execPowerHold value s
  | .pwrfail => Sys2Proof.Machine.execPwrfail s
  | .powerUp => Sys2Proof.Machine.execPowerUp s
  | .attestationDoorbell nonce => Sys2Proof.Machine.execAttestationDoorbell nonce s
  | .attestationReportComplete => Sys2Proof.Machine.execAttestationReportComplete s
  | .retrain link => Sys2Proof.Machine.execRetrain link s
  | .linkFlitReceive link beats => Sys2Proof.Machine.execLinkFlitReceive link beats s
  | .replayRequest req => Sys2Proof.Machine.execReplayRequest req s
  | .railLockLoss link rail => Sys2Proof.Machine.execRailLockLoss link rail s
  | .linkTrainComplete link rails => Sys2Proof.Machine.execLinkTrainComplete link rails s
  | .linkTrainTimeout link rails => Sys2Proof.Machine.execLinkTrainTimeout link rails s
  | .peerInboundRequest port req addr data => Sys2Proof.Machine.execPeerInboundRequest port req addr data s
  | .hostMemAccess write addr data => Sys2Proof.Machine.execHostMemAccess write addr data s
  | .registerWrite cap offset value => Sys2Proof.Machine.execRegisterWrite cap offset value s
  | .cxlCacheSnoop line invalidate => Sys2Proof.Machine.execCxlCacheSnoop line invalidate s
  | .setPointRamp => Sys2Proof.Machine.execSetPointRamp s
  | .stepChangeComplete die => Sys2Proof.Machine.execStepChangeComplete die s

end Sys2Proof.Machine
end

