-- ==== Sys2Proof/Machine/Turns.lean ====
section
/-! DEFINITION. The order of issue: at each partition clock each slot of a partition issues one ready sub-group, of the group that has waited
longest, the group's sub-groups by turns, and no group twice (spec/06_group.md R103 to R105, spec/01_machine.md R12, R13). -/

namespace Sys2Proof.Machine

/-! ### Readiness (R104, R105) -/

/-- How a sub-group stands, but for the translations that it has been given. -/
def standing (s : State) (gid node : Nat) : Option Sub :=
  (s.groups.find gid).bind (fun g => (subOf g node).map (fun x => { x with walked := [] }))

/-- An attempt at `s` has issued in `t`: the issue has been charged, or its sub-group does not stand as before. -/
def issued (s t : State) (core gid node : Nat) : Bool :=
  (coreOf t core).charge != (coreOf s core).charge || standing t gid node != standing s gid node

/-- The state in which a sub-group attempts its instruction. -/
def atTurn (s : State) (gid node : Nat) : State := { s with turn := none, cur := (gid, node) }

/-- The slot of a sub-group that is ready: its word stands in the I-cache, and an attempt now would issue it. -/
def readySlot (s : State) (gid node : Nat) : Option Nat :=
  let s := atTurn s gid node
  match envOf s with
  | none => none
  | some e =>
    if (cachedWord s e.core e.team.ctx e.pc).isNone then none
    else
      match takeIssue s with
      | .stay _ => none
      | .run i s =>
        match exec i s with
        | .next t => if issued s t e.core gid node then some (instrSlot i) else none
        | _ => none

/-- The group lies on the partition of the core. -/
def onPart (s : State) (core part gid : Nat) : Bool :=
  (s.groups.find gid).any (fun g => g.part == part && (s.teams.find g.team).any (fun t => t.core == core))

/-- The ready sub-groups of a partition, but for one. -/
def readyOthers (s : State) (core part gid node : Nat) : List (Nat × Nat × Nat) :=
  (s.groups.filter (fun e => onPart s core part e.1)).flatMap (fun e =>
    (e.2.subs.filter (fun x => !(e.1 == gid && x.node == node))).filterMap (fun x => (readySlot s e.1 x.node).map (fun k => (e.1, x.node, k))))

/-- The list of a machine's waiting sub-groups, with a partition's brought up to date: those that stay ready keep their places, and those that have
become ready follow, in an order that is the model's choice (log 72). -/
def waitingNow (s : State) (core part : Nat) (now : List (Nat × Nat × Nat)) : List (Nat × Nat × Nat) :=
  let kept := s.turns.ready.filter (fun r => now.contains r || !onPart s core part r.1)
  kept ++ now.filter (fun r => !kept.contains r)

/-- The sub-group of a group whose turn it is at a partition clock: the next in ascending node number, among those that wait for any slot that has
not issued at this clock (log 72). -/
def turnOf (s : State) (l : List (Nat × Nat × Nat)) (core part clock gid : Nat) : Option Nat :=
  let nodes := (l.filter (fun q => q.1 == gid && s.turns.slots.find (slotKey core part q.2.2) != some clock)).map (·.2.1)
  let last := ((s.turns.groups.find gid).map (·.2)).getD 0
  (lowest (nodes.filter (fun n => decide (last < n)))).or (lowest nodes)

/-- The sub-group that a slot of a partition issues at a partition clock: of the group that has waited longest and has not issued at this clock, the
next by turns, where it waits for this slot. -/
def candidate (s : State) (l : List (Nat × Nat × Nat)) (core part slot clock : Nat) : Option (Nat × Nat) :=
  if s.turns.slots.find (slotKey core part slot) == some clock then none
  else
    l.findSome? (fun r =>
      if r.2.2 == slot && onPart s core part r.1 && (s.turns.groups.find r.1).map (·.1) != some clock then
        (turnOf s l core part clock r.1).bind (fun n => if l.contains (r.1, n, slot) then some (r.1, n) else none)
      else none)

/-! ### An attempt at issue, and a clock -/

/-- What stands after a sub-group has issued: its wait begins anew, and the group and the slot have had their clock. -/
def takenTurn (x : Turns) (l : List (Nat × Nat × Nat)) (gid node key clock : Nat) : Turns :=
  { ready := l.filter (fun r => !(r.1 == gid && r.2.1 == node)), groups := x.groups.insert gid (clock, node), slots := x.slots.insert key clock }

/-- An attempt of the sub-group `e` at `s`, once its word has been fetched, with its outcome `t` for the instruction `i`: an attempt that does not
issue stands; one that issues stands when the sub-group is its slot's candidate, and else the sub-group waits in the list. -/
def issueTurn (s : State) (e : Env) (i : Instr) (t : State) : State :=
  let slot := instrSlot i
  let l := waitingNow s e.core e.g.part (readyOthers s e.core e.g.part e.gid e.node ++ [(e.gid, e.node, slot)])
  let clock := partClock (coreOf s e.core) e.g.part
  if !issued s t e.core e.gid e.node then t
  else if candidate s l e.core e.g.part slot clock == some (e.gid, e.node) then
    { t with turns := takenTurn s.turns l e.gid e.node (slotKey e.core e.g.part slot) clock }
  else { s with turns := { s.turns with ready := l } }

/-- A sleep on the core must end before its next clk (R301). -/
def overslept (s : State) (core : Nat) : Bool :=
  s.groups.any (fun e => (s.teams.find e.2.team).any (fun t => t.core == core) && e.2.subs.any (fun x => x.st == .sleeping 0))

/-- The lists of a core's partitions, brought up to date, when a clk of the core may end: no sleep has to end before it, and no partition whose clock
ends with it has a slot that still issues (R105, R301). -/
def clockEnds (s : State) (core : Nat) : Option Turns :=
  let c := coreOf s core
  if overslept s core then none
  else
  ((List.range 4).foldl (fun r part =>
    match r with
    | none => none
    | some s =>
      let clock := partClock c part
      let l := waitingNow s core part (readyOthers s core part 0 0)
      if clockTurns c part && (List.range 4).any (fun k => (candidate s l core part k clock).isSome) then none
      else some { s with turns := { s.turns with ready := l } }) (some s)).map (·.turns)

/-- The machine as it would stand, did no power level withhold anything on the core. -/
def unwithheld (s : State) (core : Nat) : State :=
  setCore { s with failing := false, power := { s.power with powerStep := s.power.powerStep &&& ~~~((1 : W64) <<< 48) } } core { coreOf s core with level := 0 }

/-- The contexts that a slot of a core's partition withholds for power: their sub-groups would issue there, were their instructions not withheld, and the
slot has issued nothing in the partition's clock (R104, R106, R262; log 19). -/
def withheldIn (s : State) (core part slot : Nat) : List Nat :=
  if s.turns.slots.find (slotKey core part slot) == some (partClock (coreOf s core) part) then []
  else
    ((readyOthers (unwithheld s core) core part 0 0).filter (fun r => r.2.2 == slot && readySlot s r.1 r.2.1 == none)).filterMap (fun r =>
      (s.groups.find r.1).bind (fun g => (s.teams.find g.team).map (·.ctx)))

/-- A core's counters of slot-clks withheld for power, after a clk that began at `s` (R262). -/
def countWithheld (s t : State) (core : Nat) : State :=
  let c := coreOf t core
  if c.counters.all (fun x => x.source != 3) then t
  else
    let slots := (List.range 4).flatMap (fun p => (List.range 4).map (withheldIn s core p))
    setCore t core { c with counters := c.counters.map (fun x =>
      if x.source != 3 then x
      else { x with value := x.value + BitVec.ofNat 48 (slots.filter (fun l => l.any (fun k => x.filter == 0xFFFF || x.filter.toNat == k))).length }) }

/-- The core whose clk has ended between two states: its CYCLE has gone on. -/
def ticked (s t : State) : Option Nat := (t.cores.find? (fun e => e.2.cycle != (coreOf s e.1).cycle)).map (·.1)

/-- A device step from `s` with its outcome `t`: where a core's clk would end before its slots have issued, it does not take place yet. -/
def deviceTurn (s t : State) : State :=
  match ticked s t with
  | none => t
  | some core =>
    match clockEnds s core with
    | some x => { countWithheld s t core with turns := x }
    | none => s

/-- What is taken at `t` from `s`: the issue of a sub-group, when its turn has come, or a device step. -/
def runTaken (s t : State) (i : Instr) : Out :=
  match exec i t with
  | .next u =>
    match s.turn with
    | some (.issue gid node) =>
      match envOf (atTurn s gid node) with
      | some e => .next (issueTurn t e i u)
      | none => .next u
    | _ => .next (deviceTurn t u)
  | o => o

end Sys2Proof.Machine
end

