-- ==== Sys2Proof/Machine/Step.lean ====
section
/-! DEFINITION. The step: it takes what happens next and runs it. -/

namespace Sys2Proof.Machine

/-- One step of the machine: an attempt at issue counts when its sub-group's turn has come, and a core's clk ends when every slot has issued what it
must (R105). -/
def step (s : State) : Host.Outcome State Fault Refusal :=
  match takeNext s with
  | .stay s => .next s
  | .run i t => runTaken s t i

/-- The state with an instruction, given by its bits in the opcode table's numbering, placed where the next step fetches it (log 11). -/
def State.withFetchWord (s : State) (nbits w : Nat) : State := placeProgram s (beBytes (nbits / 8) w ++ List.replicate 13 0)

end Sys2Proof.Machine
end

