-- ==== Sys2Proof/Safety.lean ====
section
/-! DEFINITION. The words that claims are stated in: safe runs, a sub-group that is ready to issue (spec/18_ref_control.md R295), what the end of an
instruction does and what it leaves alone, and the well-formedness of groups and memories. -/

namespace Sys2Proof.Machine

/-! ### Safe runs -/

/-- The states that steps reach from `s`. -/
inductive Reaches (s : State) : State → Prop where
  | refl : Reaches s s
  | step {t u : State} : Reaches s t → step t = .next u → Reaches s u

/-- No step from any state that `s` reaches faults or is refused. -/
def Safe (s : State) : Prop := ∀ t, Reaches s t → ∃ u, step t = .next u

/-! ### Ready to issue (R295) -/

/-- The sub-group `e` of `s` issues `op f` with no check of R295 against it before the instruction's own: it may issue, no deferred error is due,
the word is legal for the group, nothing waits, no source is empty under TRAP, the tags fit, no protected register is written. -/
structure Ready (s : State) (e : Env) (op : Op) (f : Fields) : Prop where
  env : envOf s = some e
  clear : takeDeferred s e = none
  word : wfWord op f = true
  budget : overBudget e op f = false
  allowed : e.inHandler = true → handlerAllows op f = true
  copies : setsTag15 e.g op f = false
  go : mustWait s e op f false = false
  full : emptySource e op f = false
  tags : badTag e op f = false
  free : writesProtected e op f = false

/-- The sub-group `e` of `s` may issue `op f` as far as steps 1 and 2 of R295 go: no deferred error is due, and the word is legal for the group. -/
structure Legal (s : State) (e : Env) (op : Op) (f : Fields) : Prop where
  env : envOf s = some e
  clear : takeDeferred s e = none
  word : wfWord op f = true
  budget : overBudget e op f = false
  allowed : e.inHandler = true → handlerAllows op f = true
  copies : setsTag15 e.g op f = false

/-! ### Well-formed groups and memories -/

/-- A group's register files have the sizes of its budgets, a vector register 64 lanes; there are seven writable predicates, five flag sets, five
queues (R9, R17, R38, R75, R93). -/
structure Group.sized (g : Group) : Prop where
  v : g.vregs.length = g.v
  lanes : ∀ r ∈ g.vregs, r.lanes.length = 64
  s : g.sregs.length = g.s
  preds : g.preds.length = 7
  fl : g.fl.length = 5
  queues : g.queues.length = 5

/-- Every group is sized. -/
def State.sized (s : State) : Prop := ∀ e ∈ s.groups, e.2.sized

/-- Every byte memory is in its canonical form. -/
def State.canonical (s : State) : Prop :=
  Memory.wf s.dram = true ∧ Memory.wf s.hostMem = true ∧ ∀ e ∈ s.peerMem, Memory.wf e.2 = true

/-- Every team's scratchpad is in its canonical form. -/
def State.scratchCanonical (s : State) : Prop := ∀ e ∈ s.teams, Memory.wf e.2.scratch = true

/-- A read or a write of the sector of `l` by the core finds no copy, no superseded bytes, no write on its way and no compressed line in its way,
and displaces nothing: what it reads and writes is the storage itself. -/
structure Plain (s : State) (core : Nat) (l : Loc) : Prop where
  copies : ∀ c ∈ s.copies, ¬(c.space = l.space ∧ c.sector = locSector l)
  room : s.copies.length < 15
  past : ∀ p ∈ s.past, p.space = l.space → p.sector = locSector l → Party.core core ∈ p.seen
  flights : ∀ x ∈ s.flights, x.ofCore core = false ∧ ∀ w ∈ x.bytes, ¬(w.1.space = l.space ∧ locSector w.1 = locSector l)
  stored : l.space = .dram → codeOf s (l.addr / 256) = 3
  watched : ∀ m ∈ s.monitors, ¬(m.space = l.space ∧ m.addr / 64 = locSector l)

/-- No copy of the line of `l` is on the device. -/
def LineClear (s : State) (l : Loc) : Prop := ∀ c ∈ s.copies, ¬(c.space = l.space ∧ c.sector / 4 = l.addr / 256)

/-- An atomic operation on the `n` bytes from `l` of one sector outside the array windows that nothing is in the way of: no copy of the line, no
port, hold or earlier store of the core, no error. -/
structure AtomFree (s : State) (core : Nat) (o : AtomOp) (l : Loc) (n : Nat) : Prop where
  stored : s.canonical
  locs : o.acc.locs = (List.range n).map (fun k => { l with addr := l.addr + k })
  bytes : 0 < n ∧ l.addr % 64 + n ≤ 64
  space : l.space ≠ .array
  clear : LineClear s l
  plain : Plain s core l
  goes : atomWaits s core o = false
  good : badLoc s l = false

/-- The operation has been performed on the newest value of its bytes: they hold what it makes of it, every other byte what it held. -/
structure AtomDone (s t : State) (o : AtomOp) (l : Loc) (n : Nat) : Prop where
  wrote : ∀ k, k < n → newestByte t l.space (l.addr + k) = (leBytes n (atomNew o (newestLe s l.space l.addr n))).getD k 0
  others : ∀ sp a, ¬(sp = l.space ∧ l.addr ≤ a ∧ a < l.addr + n) → newestByte t sp a = newestByte s sp a

/-! ### An attempt at issue (R105) -/

/-- What becomes of the attempt of the sub-group `e` at `i` from `s`, in which its word has been fetched, where the meaning answers `o`: a stop stands; a next state in which nothing has
issued stands; one in which the instruction has issued stands, with the turn taken, when the sub-group is its slot's candidate among those that
wait, and else the sub-group waits with them. -/
structure Attempted (s : State) (e : Env) (i : Instr) (o r : Out) : Prop where
  fault : ∀ x, o = .fault x → r = .fault x
  refused : ∀ x, o = .refused x → r = .refused x
  tried : ∀ t, o = .next t → issued s t e.core e.gid e.node = false → r = .next t
  turn : ∀ t, o = .next t → issued s t e.core e.gid e.node = true →
    let slot := instrSlot i
    let l := waitingNow s e.core e.g.part (readyOthers s e.core e.g.part e.gid e.node ++ [(e.gid, e.node, slot)])
    let clock := partClock (coreOf s e.core) e.g.part
    (candidate s l e.core e.g.part slot clock = some (e.gid, e.node) →
      r = .next { t with turns := takenTurn s.turns l e.gid e.node (slotKey e.core e.g.part slot) clock }) ∧
    (candidate s l e.core e.g.part slot clock ≠ some (e.gid, e.node) → r = .next { s with turns := { s.turns with ready := l } })

/-! ### The end of an instruction, and its frame -/

/-- `t` is `s` but for the group `gid` and for what an issue charges and counts on cores; every byte of memory reads as before. -/
structure OnlyGroup (s t : State) (gid : Nat) : Prop where
  rest : t = { s with groups := t.groups, cores := t.cores }
  others : ∀ k, k ≠ gid → t.groups.find k = s.groups.find k
  cores : ∀ c, coreOf t c = { coreOf s c with charge := (coreOf t c).charge, counters := (coreOf t c).counters }
  memory : ∀ sp a, newestByte t sp a = newestByte s sp a

/-- The instruction `op f` ended in the group `g`, and left the issuing sub-group as `x`: only that sub-group moved, and the issue was charged
(R256). -/
structure EndedAs (s t : State) (e : Env) (op : Op) (f : Fields) (x : Sub) (g : Group) : Prop extends OnlyGroup s t e.gid where
  group : t.groups.find e.gid = some g
  sub : subOf g e.node = some x
  subs : ∀ n, n ≠ e.node → subOf g n = subOf e.g n
  charge : (coreOf t e.core).charge = (coreOf s e.core).charge + issueCharge op f

/-- SIG after an issue: it counts what node 1 issues (R122). -/
def sigCounted (e : Env) (op : Op) (f : Fields) : W32 :=
  if e.node = 1 ∧ updatesSig op = true then sigIssue e.g.sig op.opc f.mod.toNat else e.g.sig

/-- The instruction ended, goes on at `pc` with no walk of its own left, and SIG counted it. -/
structure Ended (s t : State) (e : Env) (op : Op) (f : Fields) (pc : VAddr) (g : Group) : Prop
    extends EndedAs s t e op f { e.sub with pc := pc, walked := [] } g where
  sig : g.sig = sigCounted e op f

/-- Registers outside `ds` are as they were; only registers, predicates, flags, sub-groups and SIG may differ. -/
structure OnlyRegs (g g' : Group) (ds : List Reg) : Prop where
  rest : g' = { g with vregs := g'.vregs, sregs := g'.sregs, preds := g'.preds, fl := g'.fl, subs := g'.subs, sig := g'.sig }
  v : ∀ n, Reg.v n ∉ ds → vreg g' n = vreg g n
  s : ∀ n, Reg.s n ∉ ds → sreg g' n = sreg g n

/-- Predicates and flag sets are as they were. -/
def SameMasks (g g' : Group) : Prop := g'.preds = g.preds ∧ g'.fl = g.fl

/-! ### Exit (R98) -/

/-- The first `k` nodes on the way up from node `n` have EXITED siblings among `subs`. -/
def ExitedUp (subs : List Sub) (n k : Nat) : Prop :=
  k ≤ 8 ∧ ∀ j, j < k → 1 < n / 2 ^ j ∧ ∃ b, subs.find? (fun x => x.node == (n / 2 ^ j) ^^^ 1) = some b ∧ b.st = .exited

/-- Those nodes and their siblings, which give way to their parents. -/
def goneUp (n k : Nat) : List Nat := (List.range k).flatMap (fun j => [n / 2 ^ j, (n / 2 ^ j) ^^^ 1])

/-- What is left of the EXITED sub-group `x` at the node that it has reached: no lane enabled, its LIVE and those of the EXITED siblings together
(log 76). -/
def leftUp (subs : List Sub) (x : Sub) (k : Nat) : Sub :=
  { x with
    node := x.node / 2 ^ k, em := 0, st := .exited, handler := none
    live := (List.range k).foldl (fun m j => m ||| ((subs.find? (fun y => y.node == (x.node / 2 ^ j) ^^^ 1)).map (·.live)).getD 0) x.live }

/-- The parents' own lanes are kept no more. -/
def splitsUp (m : Map Mask) (n k : Nat) : Map Mask := (List.range k).foldl (fun m j => m.erase (n / 2 ^ (j + 1))) m

/-! ### Regions (R113, R114) -/

/-- A sub-group other than the one that performs Commit() or opens a region: a live one's REGION_PC is the instruction that it would issue next, or
the trapped one while it is in its handler, with its at-fuse flag kept (R114). -/
def cutOf (x : Sub) : Sub :=
  if x.st = .exited then x
  else { x with
    regionPc := match x.handler, x.st with
      | some h, _ => h.trapPc
      | none, .arriving _ _ _ k => x.pc + BitVec.ofNat 80 k
      | none, .performing _ k => x.pc + BitVec.ofNat 80 k
      | none, _ => x.pc
    cutAtFuse := x.standsAtFuse }

/-- `t`, with the group as `g`, is what steps 2 to 5 of Commit() leave (R113): the held stores and drains are released in their order, with places in
group order from now on, the commands are no longer the region's, the popped entries are freed, the deferred `tfree`s apply where no command uses
the tile, and the region's shadows are dropped with the accumulators as they stand; no register and no byte of memory changes. -/
structure Committed (s t : State) (e : Env) (g : Group) : Prop where
  storeQ : g.storeQ = e.g.storeQ.mapIdx (fun i x => if x.held then { x with held := false, seq := e.g.seq + i, commit := e.g.seq } else x)
  queues : g.queues = e.g.queues.map (fun l => (l.filter (fun c => !c.popped || popAwaits e.g c)).mapIdx (fun i c =>
    { c with region := false, waitCommit := false, seq := if c.waitCommit then e.g.seq + e.g.storeQ.length + i else c.seq }))
  vregs : g.vregs = e.g.vregs
  sregs : g.sregs = e.g.sregs
  masks : g.preds = e.g.preds ∧ g.fl = e.g.fl
  freed : ∀ team, t.teams.find e.g.team = some team → ∀ n ∈ e.g.region.tfrees, if tileUsed t e.g.team n then n ∈ team.freeing else tileOf team n = Tile.freed
  tiles : ∀ team, t.teams.find e.g.team = some team → ∀ n, n ∉ e.g.region.tfrees → n ∉ e.team.freeing → tileOf team n = tileOf e.team n
  shadows : ∀ k a, (coreOf s e.core).accTiles.find k = some a → (coreOf t e.core).accTiles.find k =
    some { a with shadow := a.shadow.filter (fun h => h.owner != e.gid) }
  memory : ∀ sp a, newestByte t sp a = newestByte s sp a

/-! ### What an instruction leaves behind -/

/-- `i` runs as `op f` from `e`, answers a next state, goes on at `pc`, and leaves a group that satisfies `P`. -/
def CompletesAt (i : Instr) (s : State) (e : Env) (op : Op) (f : Fields) (pc : VAddr) (P : Group → Prop) : Prop :=
  ∃ t g, exec i s = .next t ∧ Ended s t e op f pc g ∧ P g

/-- The same, going on at the next instruction. -/
def Completes (i : Instr) (s : State) (e : Env) (op : Op) (f : Fields) (P : Group → Prop) : Prop :=
  CompletesAt i s e op f (e.next f.form.length) P

/-- The same, from the state `s0` that the instruction has made of `s` before it ends. -/
def CompletesFrom (i : Instr) (s s0 : State) (e : Env) (op : Op) (f : Fields) (P : Group → Prop) : Prop :=
  ∃ t g, exec i s = .next t ∧ Ended s0 t e op f (e.next f.form.length) g ∧ P g

/-- The group is as it was, but for the sub-group that moved and SIG. -/
def Unmoved (e : Env) (g : Group) : Prop := g = { e.g with subs := g.subs, sig := g.sig }

/-- A command of `op f` took the last place of queue `q`, with the tag of sC, the operands `vd`, `va` and `vb`, and the registers that it named as
they were (R63, R75, R76); nothing else. -/
def Queued (e : Env) (g : Group) (op : Op) (f : Fields) (q : Nat) (vd va vb : W64) (pages : List Trans) (waits : Bool)
    (payload : Nat) : Prop :=
  ∃ c : Command, g = { e.g with subs := g.subs, sig := g.sig, queues := e.g.queues.modify q (fun l => l ++ [c]), seq := e.g.seq + 1 } ∧
    c.op = op ∧ c.fields = f ∧ c.seq = e.g.seq ∧ c.pc = e.sub.pc ∧ c.node = e.node ∧ c.tag = (readS e.g f f.sc).setWidth 16 ∧
    c.vd = vd ∧ c.va = va ∧ c.vb = vb ∧ c.st = .queued ∧ c.status = 0 ∧ c.popped = false ∧ c.region = e.g.region.isOpen ∧
    c.waitCommit = waits ∧ c.pages = pages.eraseDups ∧ c.payload = payload

/-- The lanes of `m` of a vector destination hold what `holds` says, the others what they held; its registers are full, under `tag` (R33, R316). -/
structure VectorResult (g g' : Group) (f : Fields) (m : Mask) (tag : BitVec 4) (holds : Nat → W64 → Prop) : Prop where
  active : ∀ i, i < 64 → m.getLsbD i = true → holds i (readWide f.ty.w64 g' f f.dst i)
  others : ∀ i, i < 64 → m.getLsbD i = false → readWide f.ty.w64 g' f f.dst i = readWide f.ty.w64 g f f.dst i
  mark : ∀ n, Reg.v n ∈ regsFrom (tyRegs f.ty) f.dst → (vreg g' n).tag = tag ∧ (vreg g' n).full = true

/-- A scalar destination holds what `holds` says, full, when `on`; else what it held. -/
def ScalarResult (g g' : Group) (f : Fields) (on : Bool) (holds : W64 → Prop) : Prop :=
  if on then holds (readS g' f f.dst) ∧ ∀ r ∈ regsFrom 1 f.dst, r.full g' = true else ∀ n, sreg g' n = sreg g n

/-- The effect of a value instruction (R316): in the active lanes of a vector destination, or once under the scalar guard; nothing else. -/
structure ValueEffect (e : Env) (g : Group) (op : Op) (f : Fields) (tag : BitVec 4) (lane : Nat → W64 → Prop) (scal : W64 → Prop) : Prop where
  regs : OnlyRegs e.g g (dests e.g.s op f)
  masks : SameMasks e.g g
  vector : f.dst.isV = true → VectorResult e.g g f (e.active f) tag lane
  scalar : f.dst.isS = true → ScalarResult e.g g f (e.guard f) scal

/-- The values of a result that is still to come: one for each lane of `m`, and what `holds` says of it. -/
structure Values (vals : List (Nat × W64)) (m : Mask) (holds : Nat → W64 → Prop) : Prop where
  sound : ∀ i x, (i, x) ∈ vals → i < 64 ∧ m.getLsbD i = true ∧ holds i x
  complete : ∀ i, i < 64 → m.getLsbD i = true → ∃ x, (i, x) ∈ vals

/-- A long-latency producer took its place in group order (R100): its destination is empty, its lanes as they were, under its tag; nothing else. -/
structure Launched (e : Env) (g : Group) (op : Op) (f : Fields) (tag : BitVec 4) (size : Nat) (what : Pending) : Prop where
  rest : g = { e.g with vregs := g.vregs, sregs := g.sregs, subs := g.subs, sig := g.sig, inflight := g.inflight, seq := g.seq }
  v : ∀ n, Reg.v n ∉ dests e.g.s op f → vreg g n = vreg e.g n
  s : ∀ n, Reg.s n ∉ dests e.g.s op f → sreg g n = sreg e.g n
  vd : ∀ n, Reg.v n ∈ dests e.g.s op f → vreg g n = { vreg e.g n with tag := tag, full := false }
  sd : ∀ n, Reg.s n ∈ dests e.g.s op f → sreg g n = { sreg e.g n with full := false }
  inflight : g.inflight = e.g.inflight ++ [{ seq := e.g.seq, node := e.node, pc := e.pc, dst := f.dst, ty := f.ty, size := size, region := e.g.region.isOpen
                                             retrying := false, what := what }]
  seq : g.seq = e.g.seq + 1

/-- The predicate that a selector names receives `x`, unless it is p0 (R93); the others and FL stay; no register changes. -/
structure PredEffect (g g' : Group) (d : Sel) (x : Mask) : Prop where
  regs : OnlyRegs g g' []
  fl : g'.fl = g.fl
  preds : ∀ n, n < 8 → predOf g' n = if .p (Fin.ofNat 8 n) = d ∧ n ≠ 0 then x else predOf g n

/-- FL has gained the flags that the lanes raised (R38). -/
def Raised (g g' : Group) (fl : Nat → FpFlags) : Prop := g'.fl = raiseFlags g.fl (flagSets fl)

/-! ### What the arithmetic and bitwise instructions compute (R320, R322, R323) -/

/-- The exact result that an integer instruction reduces modulo 2^n (R320). -/
def intRule : Op → Option (Nat → Int → Int → Int → Int)
  | .add => some fun _ a b _ => a + b
  | .sub => some fun _ a b _ => a - b
  | .mul => some fun _ a b _ => a * b
  | .mad => some fun _ a b c => a * b + c
  | .mulh => some fun n a b _ => (a * b) / 2 ^ n
  | .neg => some fun _ a _ _ => -a
  | .abs => some fun _ a _ _ => if a < 0 then -a else a
  | .min => some fun _ a b _ => if a < b then a else b
  | .max => some fun _ a b _ => if a > b then a else b
  | _ => none

/-- What a bitwise, shift, count or field instruction on `n` bits makes of its destination's old value `d` and its operands (R322, R323). -/
def bitRule (op : Op) (n d a b c r : Nat) : Prop :=
  match op with
  | .and => r = a &&& b
  | .or => r = a ||| b
  | .xor => r = a ^^^ b
  | .andn => ∀ i, i < n → r.testBit i = (a.testBit i && !b.testBit i)
  | .not => r = 2 ^ n - 1 - a
  | .shl => r = if b ≥ n then 0 else a * 2 ^ b % 2 ^ n
  | .shr => r = if b ≥ n then 0 else a / 2 ^ b
  | .rot => ∀ i, i < n → r.testBit ((i + b) % n) = a.testBit i
  | .clz => r = if a = 0 then n else n - 1 - Nat.log2 a
  | .popc => r = ((List.range n).filter (fun i => a.testBit i)).length
  | .brev => ∀ i, i < n → r.testBit i = a.testBit (n - 1 - i)
  | .bfe => r = if b ≥ n ∨ c = 0 then 0 else (a / 2 ^ b) % 2 ^ min c (n - b)
  | .bfi => ∀ i, i < n → r.testBit i = if b < n ∧ b ≤ i ∧ i < b + c then a.testBit (i - b) else d.testBit i
  | _ => False

/-- The tag of a bitwise, count or field instruction's result (R322, R323). -/
def bitTag : Op → BitVec 4
  | .clz | .popc | .bfe => tagN32
  | _ => tagRaw

/-! ### What the floating-point instructions compute (R327, R328, R331, R332) -/

/-- The datum and the flags of a special function's special operand, as the last column of R332's table and its last sentence give them. -/
def specialRule (op : Op) (x : FpNum) : Option (FpNum × FpFlags) :=
  let invalid : FpNum × FpFlags := (.nan false, { nv := true })
  match op, x with
  | _, .nan signalling => some (.nan false, { nv := signalling })
  | .frcp, .fin s 0 _ => some (.inf s, { dz := true })
  | .frcp, .inf s => some (.fin s 0 0, {})
  | .frsq, .fin s 0 _ => some (.inf s, { dz := true })
  | .frsq, .fin true _ _ | .frsq, .inf true => some invalid
  | .frsq, .inf false => some (.fin false 0 0, {})
  | .fsqrt, .fin s 0 _ => some (.fin s 0 0, {})
  | .fsqrt, .fin true _ _ | .fsqrt, .inf true => some invalid
  | .fsqrt, .inf false => some (.inf false, {})
  | .fexp2, .inf s => some (if s then .fin false 0 0 else .inf false, {})
  | .fexp2, .fin false m e => if m * 2 ^ e.toNat ≥ 128 * 2 ^ (-e).toNat then some (.inf false, { of := true, nx := true }) else none
  | .flog2, .fin _ 0 _ => some (.inf true, { dz := true })
  | .flog2, .fin true _ _ | .flog2, .inf true => some invalid
  | .flog2, .inf false => some (.inf false, {})
  | .fsin, .inf _ | .fcos, .inf _ => some invalid
  | .fsin, .fin s 0 _ => some (.fin s 0 0, {})
  | .fcos, .fin _ 0 _ => some (.fin false 1 0, {})
  | .ftanh, .inf s => some (.fin s 1 0, {})
  | .ftanh, .fin s 0 _ => some (.fin s 0 0, {})
  | _, _ => none


/-- The element that a floating instruction makes of its operands' data, with the flags it raises: RoundFP of the exact result (R327), the smaller
or greater (R328), a change of sign (R328), rounding to an integral value (R331). -/
def fpRule (md : BitVec 4) : Op → Option (Fmt → FpArgs → Nat × FpFlags)
  | .fadd => some fun t x => t.sum x.rm x.flush [] [x.a, x.b]
  | .fsub => some fun t x => t.sum x.rm x.flush [] [x.a, x.b.negate]
  | .fmul => some fun t x => t.sum x.rm x.flush [(x.a, x.b)] []
  | .ffma => some fun t x => t.sum x.rm x.flush [(x.a, x.b)] [x.c]
  | .fmin => some fun t x => t.pick false x.a x.b
  | .fmax => some fun t x => t.pick true x.a x.b
  | .fabs => some fun t x => (t.write (signed x.a false), {})
  | .fneg => some fun t x => (t.write (signed x.a (!x.a.neg)), {})
  | .frnd => some fun t x => t.integral (if md.toNat = 0 then x.rm else md.toNat - 1) x.a
  | _ => none

/-- The flags of all elements of a lane fall on the lane (R38). -/
def laneFlags (n : Nat) (fl : Nat → FpFlags) : FpFlags := (List.range n).foldl (fun a k => FpFlags.or a (fl k)) {}

/-- The effect of a floating or conversion instruction on a vector destination: each element `k` of an active lane `l` is `(fn l k).1`, and the lane
raises the flags of its elements; nothing else. -/
structure FloatEffect (e : Env) (g : Group) (op : Op) (f : Fields) (fn : Nat → Nat → Nat × FpFlags) : Prop where
  regs : OnlyRegs e.g g (dests e.g.s op f)
  preds : g.preds = e.g.preds
  result : VectorResult e.g g f (e.active f) (tagOf f.ty)
    (fun l x => ∀ k, k < elemCount f.ty → elemAt (elemBits f.ty) x.toNat k = (fn l k).1 % 2 ^ elemBits f.ty)
  flags : Raised e.g g (fun l => if (e.active f).getLsbD l then laneFlags (elemCount f.ty) (fun k => (fn l k).2) else {})

end Sys2Proof.Machine
end

