-- ==== Sys2Proof/Certificates/Slice0/Obligations.lean ====
section
/-! DEFINITION. The statements for the provers. Each names the rules of spec/ that it formalises; OBLIGATIONS.json lists them. -/

open Sys2Proof Sys2Proof.Machine

/-! ### Integer, bitwise and move instructions (spec/19_ref_compute.md) -/

/-- R320: `add`, `sub`, `mul`, `mulh`, `mad`, `neg`, `abs`, `min`, `max` (each form, 2-byte and 4-byte ones too) complete with each element of the
destination the exact result modulo 2^n, in the active lanes or once under the scalar guard; `addc` adds its predicate's bit and writes the carry
there. Nothing else changes. -/
def Obligations.IntegerArithmetic : Prop :=
  (∀ (i : Instr) (op : Op) (f : Fields) rule (s : State) (e : Env), Instr.expand i = some (op, f) → intRule op = some rule → Ready s e op f → e.g.sized →
    Completes i s e op f fun g =>
      ValueEffect e g op f (tagOf f.ty)
        (fun l x => ∀ k, k < elemCount f.ty → elemAt (elemBits f.ty) x.toNat k =
          wrapInt (elemBits f.ty) (rule (elemBits f.ty) (elemVal f.ty (readWide f.ty.w64 e.g f f.sa l).toNat k)
            (elemVal f.ty (readWide f.ty.w64 e.g f f.sb l).toNat k) (elemVal f.ty (readWide f.ty.w64 e.g f f.sc l).toNat k)))
        (fun x => x = scalarResult f.ty (BitVec.ofNat 64 (wrapInt (elemBits f.ty) (rule (elemBits f.ty) (elemVal f.ty (readS e.g f f.sa).toNat 0)
            (elemVal f.ty (readS e.g f f.sb).toNat 0) (elemVal f.ty (readS e.g f f.sc).toNat 0)))))) ∧
  (∀ (f : Fields) (s : State) (e : Env), Ready s e .addc f → e.g.sized →
    let n := elemBits f.ty
    let sum : Nat → Nat := fun l => (readWide f.ty.w64 e.g f f.sa l).toNat % 2 ^ n + (readWide f.ty.w64 e.g f f.sb l).toNat % 2 ^ n +
      ((maskRead e.g e.sub.em f.sc).getLsbD l).toNat
    let one := (readS e.g f f.sa).toNat % 2 ^ n + (readS e.g f f.sb).toNat % 2 ^ n + ((maskRead e.g e.sub.em f.sc).getLsbD 0).toNat
    Completes (.addc f) s e .addc f fun g =>
      OnlyRegs e.g g (dests e.g.s .addc f) ∧ g.fl = e.g.fl ∧ (∀ k, k < 8 → Sel.p (Fin.ofNat 8 k) ≠ f.sc → predOf g k = predOf e.g k) ∧
      (f.dst.isV = true → VectorResult e.g g f (e.active f) (tagOf f.ty) (fun l x => x.toNat = sum l % 2 ^ n) ∧
        ∀ l, l < 64 → (maskRead g e.sub.em f.sc).getLsbD l =
          if (e.active f).getLsbD l then decide (sum l ≥ 2 ^ n) else (maskRead e.g e.sub.em f.sc).getLsbD l) ∧
      (f.dst.isS = true → ScalarResult e.g g f (e.guard f) (fun x => x = scalarResult f.ty (BitVec.ofNat 64 (one % 2 ^ n))) ∧
        maskRead g e.sub.em f.sc = if e.guard f then (if one ≥ 2 ^ n then BitVec.allOnes 64 else 0) else maskRead e.g e.sub.em f.sc))

/-- R321, at issue: `div` and `rem` empty their destination and become producers of the quotient truncated toward zero and the remainder; a zero
divisor gives all ones, or −1, and the dividend; the most negative number by −1 gives itself and 0.

R332: a special function empties its destination and becomes a producer of one value and its flags for each active lane; a NaN operand gives the
canonical NaN, and every special operand of R332's table its value and its flags. `fsqrt` is correctly rounded; which values the others give is log 7,
and this says no more of them.
The model's readings in it: log 7. -/
def Obligations.SlowArithmeticIssue : Prop :=
  (∀ (i : Instr) (op : Op) (f : Fields) (s : State) (e : Env), Instr.expand i = some (op, f) → op = .div ∨ op = .rem → Ready s e op f → e.g.sized →
      let n := elemBits f.ty
      let q : Int → Int → Int := fun a b => if b = 0 then -1 else if Ty.signed f.ty = true ∧ a = -(2 ^ (n - 1)) ∧ b = -1 then a else Int.tdiv a b
      let r : Int → Int → Int := fun a b => if b = 0 then a else if Ty.signed f.ty = true ∧ a = -(2 ^ (n - 1)) ∧ b = -1 then 0 else a - q a b * b
      let res : W64 → W64 → W64 := fun a b =>
        BitVec.ofNat 64 (wrapInt n ((if op = .div then q else r) (elemVal f.ty a.toNat 0) (elemVal f.ty b.toNat 0)))
      (f.dst.isV = true → Completes i s e op f fun g => ∃ vals, Launched e g op f (tagOf f.ty) 0 (.values vals []) ∧
        Values vals (e.active f) (fun l x => x = res (readWide f.ty.w64 e.g f f.sa l) (readWide f.ty.w64 e.g f f.sb l))) ∧
      (f.dst.isS = true → e.guard f = true → Completes i s e op f fun g =>
        Launched e g op f (tagOf f.ty) 0 (.values [(0, scalarResult f.ty (res (readS e.g f f.sa) (readS e.g f f.sb)))] [])) ∧
      (f.dst.isS = true → e.guard f = false → Completes i s e op f fun g => OnlyRegs e.g g [] ∧ SameMasks e.g g)) ∧
  (∀ (i : Instr) (op : Op) (f : Fields) (s : State) (e : Env), Instr.expand i = some (op, f) → op ∈ [Op.frcp, .frsq, .fsqrt, .fexp2, .flog2, .fsin, .fcos, .ftanh] → Ready s e op f → e.g.sized →
      let t := fmtOf f.ty
      let el : Nat → Nat → FpNum := fun l k => t.read (e.g.fpm.getLsbD 2) (elemAt (elemBits f.ty) (readLane e.g f f.sa l).toNat k)
      Completes i s e op f fun g => ∃ vals fl, Launched e g op f (tagOf f.ty) 0 (.values vals fl) ∧ fl.length = 5 ∧
        Values vals (e.active f) (fun l x => ∀ k, k < elemCount f.ty →
          ((el l k).isNan = true → elemAt (elemBits f.ty) x.toNat k = t.nan) ∧
          (∀ r, specialRule op (el l k) = some r → elemAt (elemBits f.ty) x.toNat k = t.write r.1 % 2 ^ elemBits f.ty) ∧
          (op = .fsqrt → elemAt (elemBits f.ty) x.toNat k = (t.sqrt (e.g.fpm.toNat % 4) (e.g.fpm.getLsbD 2) (el l k)).1 % 2 ^ elemBits f.ty)) ∧
        ∀ l j, l < 64 → j < 5 →
          ((e.active f).getLsbD l = false → (fl.getD j 0).getLsbD l = false) ∧
          ((e.active f).getLsbD l = true → (∀ k, k < elemCount f.ty → (specialRule op (el l k)).isSome = true) →
            (fl.getD j 0).getLsbD l = ((flagSets (fun l => laneFlags (elemCount f.ty) (fun k =>
              ((specialRule op (el l k)).map (·.2)).getD {}))).getD j 0).getLsbD l))

/-- R322 and R323: `and`, `or`, `xor`, `andn`, `not`, `shl`, `shr`, `rot`, `clz`, `popc`, `brev`, `bfe` and `bfi` complete with their result in each
active 32-bit lane, or in all 64 bits of a scalar under the scalar guard; a shift by the width or more gives 0. -/
def Obligations.BitwiseAndFields : Prop :=
  ∀ (i : Instr) (op : Op) (f : Fields) (s : State) (e : Env), Instr.expand i = some (op, f) →
    op ∈ [Op.and, .or, .xor, .andn, .not, .shl, .shr, .rot, .clz, .popc, .brev, .bfe, .bfi] → Ready s e op f → e.g.sized →
    Completes i s e op f fun g =>
      ValueEffect e g op f (bitTag op)
        (fun l x => bitRule op 32 (readLane e.g f f.dst l).toNat (readLane e.g f f.sa l).toNat (readLane e.g f f.sb l).toNat
          (readLane e.g f f.sc l).toNat x.toNat)
        (fun x => bitRule op 64 (readS e.g f f.dst).toNat (readS e.g f f.sa).toNat (readS e.g f f.sb).toNat (readS e.g f f.sc).toNat x.toNat)

/-- R324 and the shift `sar` of R322: moves copy the value, and of a vector its tag; `movi` writes IMM; `sel` chooses by the predicate's bit;
`lea` adds b shifted left by k modulo 2^n; `sar` shifts with copies of the sign bit, by at most the width less one.
The model's readings in it: log 29. -/
def Obligations.MovesAndSelection : Prop :=
  ∀ (i : Instr) (op : Op) (f : Fields) (s : State) (e : Env), Instr.expand i = some (op, f) → Ready s e op f → e.g.sized →
    let n := elemBits f.ty
    (op = .mov → Completes i s e op f fun g =>
      ValueEffect e g op f (match f.sa with | .v k => (vreg e.g k.val).tag | _ => tagRaw)
        (fun l x => x = readWide f.ty.w64 e.g f f.sa l) (fun x => x = readS e.g f f.sa)) ∧
    (op = .movi →
      let v : W64 := if f.ty = .n32 ∨ f.ty = .n64 then f.imm.setWidth 64 else f.imm.signExtend 64
      Completes i s e op f fun g =>
        ValueEffect e g op f (tagOf f.ty) (fun _ x => x = if f.ty.w64 then v else f.imm.setWidth 64) (fun x => x = v)) ∧
    (op = .sel → Completes i s e op f fun g =>
      ValueEffect e g op f
        (match f.sb, f.sc with
         | .v a, .v b => if (vreg e.g a.val).tag = (vreg e.g b.val).tag then (vreg e.g a.val).tag else tagRaw
         | .v a, _ => (vreg e.g a.val).tag
         | _, .v b => (vreg e.g b.val).tag
         | _, _ => tagRaw)
        (fun l x => x = readWide f.ty.w64 e.g f (if (maskRead e.g e.sub.em f.sa).getLsbD l then f.sb else f.sc) l)
        (fun x => x = readS e.g f (if (maskRead e.g e.sub.em f.sa).getLsbD 0 then f.sb else f.sc))) ∧
    (op = .lea → Completes i s e op f fun g =>
      ValueEffect e g op f (tagOf f.ty)
        (fun l x => x.toNat = ((readWide f.ty.w64 e.g f f.sa l).toNat + (readWide f.ty.w64 e.g f f.sb l).toNat * 2 ^ bits f.imm.toNat 2 0) % 2 ^ n)
        (fun x => x = scalarResult f.ty (BitVec.ofNat 64 (((readS e.g f f.sa).toNat + (readS e.g f f.sb).toNat * 2 ^ bits f.imm.toNat 2 0) % 2 ^ n)))) ∧
    (op = .sar → Completes i s e op f fun g =>
      ValueEffect e g op f (tagOf f.ty)
        (fun l x => x.toNat = wrapInt n (signedOf n (readWide f.ty.w64 e.g f f.sa l).toNat /
          2 ^ min ((readWide f.ty.w64 e.g f f.sb l).toNat % 2 ^ n) (n - 1)))
        (fun x => x = scalarResult f.ty (BitVec.ofNat 64 (wrapInt n (signedOf n (readS e.g f f.sa).toNat /
          2 ^ min ((readS e.g f f.sb).toNat % 2 ^ n) (n - 1))))))

/-- R325: `cmp` with a vector source gives each active lane of its predicate the result and keeps every other bit; the scalar form gives every bit
the one result, under the scalar guard. A write of p0 is discarded.

R329 and R330: `fcmp` gives each active lane of its predicate the comparison and raises NV where a NaN asks for it; `fclass` writes one class
bit per element, tagged N32, and raises nothing. -/
def Obligations.Compares : Prop :=
  (∀ (i : Instr) (f : Fields) (s : State) (e : Env), Instr.expand i = some (.cmp, f) → Ready s e .cmp f → e.g.sized →
      let cc : Int → Int → Bool := fun a b =>
        match f.mod.toNat with
        | 0 => a == b
        | 1 => a != b
        | 2 => decide (a < b)
        | 3 => decide (a ≤ b)
        | 4 => decide (a > b)
        | _ => decide (a ≥ b)
      (f.sa.isV = true ∨ f.sb.isV = true → Completes i s e .cmp f fun g => ∃ x, PredEffect e.g g f.dst x ∧
        ∀ l, l < 64 → x.getLsbD l = if (e.active f).getLsbD l then
            cc (elemVal f.ty (readWide f.ty.w64 e.g f f.sa l).toNat 0) (elemVal f.ty (readWide f.ty.w64 e.g f f.sb l).toNat 0)
          else (maskRead e.g e.sub.em f.dst).getLsbD l) ∧
      (f.sa.isV = false → f.sb.isV = false → e.guard f = true → Completes i s e .cmp f fun g =>
        PredEffect e.g g f.dst (if cc (elemVal f.ty (readS e.g f f.sa).toNat 0) (elemVal f.ty (readS e.g f f.sb).toNat 0)
          then BitVec.allOnes 64 else 0)) ∧
      (f.sa.isV = false → f.sb.isV = false → e.guard f = false → Completes i s e .cmp f fun g => OnlyRegs e.g g [] ∧ SameMasks e.g g)) ∧
  ((∀ (i : Instr) (f : Fields) (s : State) (e : Env), Instr.expand i = some (.fcmp, f) → Ready s e .fcmp f → e.g.sized →
      let rd : Sel → Nat → FpNum := fun x l => fmtF32.read (e.g.fpm.getLsbD 2) (readLane e.g f x l).toNat
      Completes i s e .fcmp f fun g =>
        OnlyRegs e.g g [] ∧ (∀ k, k < 8 → Sel.p (Fin.ofNat 8 k) ≠ f.dst → predOf g k = predOf e.g k) ∧ predOf g 0 = BitVec.allOnes 64 ∧
        (∀ k : Fin 8, f.dst = .p k → k ≠ 0 → ∀ l, l < 64 → (predOf g k.val).getLsbD l =
          if (e.active f).getLsbD l then (fcmpBit f.mod (rd f.sa l) (rd f.sb l)).1 else (predOf e.g k.val).getLsbD l) ∧
        Raised e.g g (fun l => if (e.active f).getLsbD l then { nv := (fcmpBit f.mod (rd f.sa l) (rd f.sb l)).2 } else {})) ∧
    (∀ (f : Fields) (s : State) (e : Env), Ready s e .fclass f → e.g.sized →
      let t := fmtOf f.ty
      Completes (.fclass f) s e .fclass f fun g =>
        OnlyRegs e.g g (dests e.g.s .fclass f) ∧ SameMasks e.g g ∧
        VectorResult e.g g f (e.active f) tagN32 (fun l x => ∀ b, x.toNat.testBit b =
          decide (∃ k, k < elemCount f.ty ∧ b = 16 * k + t.classBit (elemAt t.width (readLane e.g f f.sa l).toNat k)))))

/-! ### Floating point, conversion and tags -/

/-- R327, R328, R331: `fadd`, `fsub`, `fmul`, `ffma`, `fmin`, `fmax`, `fabs`, `fneg`, `frnd` and, on pairs of F32 sources, `fdot2` complete with
each element the exact result rounded once under FPM, and FL gains each active lane's flags. -/
def Obligations.FloatArithmetic : Prop :=
  (∀ (i : Instr) (op : Op) (f : Fields) rule (s : State) (e : Env), Instr.expand i = some (op, f) → fpRule f.mod op = some rule → Ready s e op f → e.g.sized →
    let t := fmtOf f.ty
    let rd : Sel → Nat → Nat → FpNum := fun x l k => t.read (e.g.fpm.getLsbD 2) (elemAt t.width (readLane e.g f x l).toNat k)
    Completes i s e op f fun g =>
      FloatEffect e g op f (fun l k =>
        rule t { rm := e.g.fpm.toNat % 4, flush := e.g.fpm.getLsbD 2, a := rd f.sa l k, b := rd f.sb l k, c := rd f.sc l k })) ∧
  (∀ (f : Fields) (s : State) (e : Env), Ready s e .fdot2 f → e.g.sized →
    let rd : W32 → FpNum := fun x => fmtF32.read (e.g.fpm.getLsbD 2) x.toNat
    let reg : Sel → Nat → Nat → W32 := fun x n l => match x with
      | .v k => laneOf (vreg e.g (k.val + n)) l
      | _ => 0
    Completes (.fdot2 f) s e .fdot2 f fun g =>
      FloatEffect e g .fdot2 f (fun l _ => fmtF32.sum (e.g.fpm.toNat % 4) (e.g.fpm.getLsbD 2)
        [(rd (reg f.sa 0 l), rd (reg f.sb 0 l)), (rd (reg f.sa 1 l), rd (reg f.sb 1 l))] [rd (readLane e.g f f.sc l)]))

/-- R334 to R336: `cvt`, `pack` and `unpack` complete with each element converted from its source element, and FL gains the flags.

R337 and R338: `sxq` quantises the blocks whose lane 4k is active into elements and scales, reading every source first, and raises every value's flags in its
active source lane; `sxd` writes the
value of each element into the active lanes of its four registers and raises no flag.
The model's readings in it: logs 29, 64. -/
def Obligations.ConversionsAll : Prop :=
  (∀ (op : Op) (f : Fields) (s : State) (e : Env), Ready s e op f → e.g.sized →
      let conv : Nat → Nat × FpFlags := fun x => convertElem f.ty f.srcTy (e.g.fpm.toNat % 4) (e.g.fpm.getLsbD 2) x
      let src : Sel → Nat → Nat → Nat := fun x l k => elemAt (elemBits f.srcTy) (readLane e.g f x l).toNat k
      (op = .cvt → Completes (.cvt f) s e op f fun g =>
        FloatEffect e g op f (fun l k => conv (elemAt (elemBits f.srcTy) (readWide f.srcTy.w64 e.g f f.sa l).toNat k))) ∧
      (op = .pack → Completes (.pack f) s e op f fun g =>
        FloatEffect e g op f (fun l k => conv (if k < elemCount f.srcTy then src f.sa l k else src f.sb l (k - elemCount f.srcTy)))) ∧
      (op = .unpack → Completes (.unpack f) s e op f fun g =>
        FloatEffect e g op f (fun l k => conv (src f.sa l (elemCount f.ty * f.imm.toNat + k))))) ∧
  ((∀ (f : Fields) (s : State) (e : Env) (a b c : Fin 128), Ready s e .sxq f → e.g.sized → f.dst = .v a → f.sa = .v b → f.sb = .v c →
      let src : Nat → FpNum := fun n =>
        if f.srcTy = .f32 then fmtF32.read false (laneOf (vreg e.g (b.val + n / 64)) (n % 64)).toNat
        else (fmtOf f.srcTy).read false (elemAt 16 (laneOf (vreg e.g (b.val + n / 128)) (n % 128 / 2)).toNat (n % 2))
      let block : Nat → SxBlock := fun k => sxQuantise (sxBits f.ty) ((List.range 16).map (fun j => src (16 * k + j)))
      Completes (.sxq f) s e .sxq f fun g =>
        OnlyRegs e.g g (dests e.g.s .sxq f) ∧ g.preds = e.g.preds ∧
        (vreg g a.val).tag = tagOf f.ty ∧ (vreg g a.val).full = true ∧ (vreg g c.val).tag = tagRaw ∧ (vreg g c.val).full = true ∧
        (∀ l, l < 64 → (e.active f).getLsbD (l / 4 * 4) = true →
          (∀ j, j < 4 → elemAt 8 (laneOf (vreg g a.val) l).toNat j = (block (l / 4)).bytes.getD (l % 4 * 4 + j) 0 % 256) ∧
          laneOf (vreg g c.val) l = if l % 4 = 0 then BitVec.ofNat 32 ((block (l / 4)).e + 256 * (block (l / 4)).shift) else 0) ∧
        (∀ l, l < 64 → (e.active f).getLsbD (l / 4 * 4) = false →
          laneOf (vreg g a.val) l = laneOf (vreg e.g a.val) l ∧ laneOf (vreg g c.val) l = laneOf (vreg e.g c.val) l) ∧
        Raised e.g g (fun l => if (e.active f).getLsbD l then
            ((List.range 256).filter (fun n => sxSourceLane f.srcTy n == l)).foldl
              (fun a n => FpFlags.or a ((block (n / 16)).flags.getD (n % 16) {})) {}
          else {})) ∧
    (∀ (f : Fields) (s : State) (e : Env) (a b c : Fin 128), Ready s e .sxd f → e.g.sized → f.dst = .v a → f.sa = .v b → f.sb = .v c →
      Completes (.sxd f) s e .sxd f fun g =>
        OnlyRegs e.g g (dests e.g.s .sxd f) ∧ SameMasks e.g g ∧
        ∀ r, r < 4 → (vreg g (a.val + r)).tag = tagOf .f32 ∧ (vreg g (a.val + r)).full = true ∧
          ∀ l, l < 64 → laneOf (vreg g (a.val + r)) l =
            if (e.active f).getLsbD l then
              let n := 64 * r + l
              let sc := (laneOf (vreg e.g c.val) (4 * (n / 16))).toNat
              BitVec.ofNat 32 (fmtF32.write (sxElem (sxBits f.srcTy) (bits sc 7 0) (bits sc 15 8) (n % 16)
                (elemAt 8 (laneOf (vreg e.g b.val) (n / 4)).toNat (n % 4))))
            else laneOf (vreg e.g (a.val + r)) l))

/-- R339: `tag` copies the active lanes under the tag in IMM; `tagof` writes its source's tag into the active lanes, tagged N32, or into a scalar
register under the scalar guard.

R308 to R311: `rdspec` writes the special register's value, as R309's table gives each, into a scalar register under the scalar guard or into the
active lanes, tagged N32;
LANE is vector-only, CYCLE and REGION_PC scalar-only; `wrspec` writes REENTRY, at most 255, and no other register. -/
def Obligations.TagsAndSpecialRegisters : Prop :=
  (∀ (op : Op) (f : Fields) (s : State) (e : Env) (a : Fin 128), Ready s e op f → e.g.sized → f.sa = .v a →
      (op = .tag → Completes (.tag f) s e op f fun g =>
        ValueEffect e g op f (f.imm.setWidth 4) (fun l x => x = (laneOf (vreg e.g a.val) l).setWidth 64) (fun _ => False)) ∧
      (op = .tagof → Completes (.tagof f) s e op f fun g =>
        ValueEffect e g op f tagN32 (fun _ x => x = (vreg e.g a.val).tag.setWidth 64) (fun x => x = (vreg e.g a.val).tag.setWidth 64))) ∧
  (∀ (f : Fields) (s : State) (e : Env), e.g.sized →
      let n := bits f.imm.toNat 7 0
      (Ready s e .rdspec f →
        (f.dst.isS = true → e.guard f = true → n = 0x01 → exec (.rdspec f) s = trap0 s e .rdspec f 0x01) ∧
        (f.dst.isV = true → n = 0x0B ∨ n = 0x10 → exec (.rdspec f) s = trap0 s e .rdspec f 0x01) ∧
        ((f.dst.isS = true → e.guard f = true → n ≠ 0x01) → (f.dst.isV = true → n ≠ 0x0B ∧ n ≠ 0x10) →
          Completes (.rdspec f) s e .rdspec f fun g =>
            ValueEffect e g .rdspec f tagN32
              (fun l x => x = if n = 0x01 then BitVec.ofNat 64 l else ((specValue s e n).setWidth 32).setWidth 64) (fun x => x = specValue s e n))) ∧
      (Ready s e .wrspec f → n ≠ 0x11 → exec (.wrspec f) s = trap0 s e .wrspec f 0x01) ∧
      (Ready s e .wrspec f → n = 0x11 →
        let x := if f.sa = .none then bits f.imm.toNat 31 8 else (readS e.g f f.sa).toNat
        Completes (.wrspec f) s e .wrspec f fun g =>
          g = { e.g with subs := g.subs, sig := g.sig, region := { e.g.region with
            reentry := if e.guard f then BitVec.ofNat 8 (min x 255) else e.g.region.reentry } }) ∧
      specValue s e 0x00 = 64 ∧ specValue s e 0x0B = (coreOf s e.core).cycle ∧ specValue s e 0x10 = e.sub.regionPc.setWidth 64 ∧
      specValue s e 0x11 = e.g.region.reentry.setWidth 64 ∧
      specValue s e 0x12 = 0x00081F16 ∧ specValue s e 0x02 = BitVec.ofNat 64 e.g.num ∧
      specValue s e 0x07 = (if e.g.consumer then 1 else 0) ∧
      (∀ k, (coreOf s e.core).logical = some k → specValue s e 0x09 = BitVec.ofNat 64 k) ∧
      specValue s e 0x0A = BitVec.ofNat 64 (e.core / 128) ∧ specValue s e 0x0C = BitVec.ofNat 64 (dieOf s (e.core / 128)).step ∧
      specValue s e 0x0D = BitVec.ofNat 64 (dieOf s (e.core / 128)).band ∧ specValue s e 0x0E = BitVec.ofNat 64 s.power.boostLeft ∧
      (s.failing = false → specValue s e 0x0F = if holding s then 6 else BitVec.ofNat 64 (coreOf s e.core).level) ∧
      (e.team.cont = false →
        specValue s e 0x03 = BitVec.ofNat 64 (e.team.x + e.team.launch.nx * (e.team.y + e.team.launch.ny * e.team.z)) ∧
        specValue s e 0x04 = BitVec.ofNat 64 e.team.x ∧ specValue s e 0x05 = BitVec.ofNat 64 e.team.y ∧ specValue s e 0x06 = BitVec.ofNat 64 e.team.z ∧
        specValue s e 0x08 = BitVec.ofNat 64 (e.team.launch.pCount + e.team.launch.cCount) ∧
        specValue s e 0x13 = BitVec.ofNat 64 e.team.launch.nx ∧ specValue s e 0x14 = BitVec.ofNat 64 e.team.launch.ny ∧
        specValue s e 0x15 = BitVec.ofNat 64 e.team.launch.nz) ∧
      (e.team.cont = true → (∀ k, 3 ≤ k → k ≤ 6 → specValue s e k = 0) ∧ specValue s e 0x08 = 1 ∧
        ∀ k, 0x13 ≤ k → k ≤ 0x15 → specValue s e k = 1))

/-! ### Cross-lane and predicate instructions -/

/-- R341: `shfl` gives each active lane the value of the lane its kind and distance name, or its own where that lies outside the group; `bcast`
gives every active lane one lane's value. Both copy the tag, and read the source lane whether or not it is active. -/
def Obligations.LaneMoves : Prop :=
  ∀ (i : Instr) (op : Op) (f : Fields) (s : State) (e : Env) (a : Fin 128), Instr.expand i = some (op, f) → Ready s e op f → e.g.sized → f.sa = .v a →
    let from_ : Nat → Nat → Nat := fun l d =>
      match f.mod.toNat with
      | 0 => if l < d then l else l - d
      | 1 => if l + d ≥ 64 then l else l + d
      | 2 => l ^^^ (d % 64)
      | _ => d % 64
    (op = .shfl → Completes i s e op f fun g =>
      ValueEffect e g op f (vreg e.g a.val).tag
        (fun l x => x = readWide f.ty.w64 e.g f f.sa (from_ l (readLane e.g f f.sb l).toNat)) (fun _ => False)) ∧
    (op = .bcast → Completes i s e op f fun g =>
      ValueEffect e g op f (vreg e.g a.val).tag
        (fun _ x => x = readWide f.ty.w64 e.g f f.sa ((readS e.g f f.sb).toNat % 64)) (fun _ => False))

/-- R342: `ballot` writes the active lanes with the predicate, `first` the lowest of them or 64, `vote` one result into every bit of its
predicate.

R345: `match` marks, among the active lanes, the first of each distinct key; the other lanes of its predicate keep their bits, and no flag is
raised. -/
def Obligations.VotesAndMatch : Prop :=
  (∀ (i : Instr) (op : Op) (f : Fields) (s : State) (e : Env), Instr.expand i = some (op, f) → Ready s e op f → e.g.sized →
      let a := e.active f
      let t := a &&& maskRead e.g e.sub.em f.sa
      (op = .ballot → Completes i s e op f fun g =>
        OnlyRegs e.g g (dests e.g.s op f) ∧ SameMasks e.g g ∧ ∀ k, f.dst = .s k → sreg g k.val = { val := t, full := true }) ∧
      (op = .firstLane → Completes i s e op f fun g =>
        OnlyRegs e.g g (dests e.g.s op f) ∧ SameMasks e.g g ∧ ∀ k, f.dst = .s k → (sreg g k.val).full = true ∧ ∃ n,
          (sreg g k.val).val = BitVec.ofNat 64 n ∧ (∀ l, l < n → t.getLsbD l = false) ∧ (n = 64 ∨ n < 64 ∧ t.getLsbD n = true)) ∧
      (op = .vote → Completes i s e op f fun g =>
        PredEffect e.g g f.dst
          (if (match f.mod.toNat with | 0 => decide (t ≠ 0) | 1 => decide (t = a) | _ => decide (t = 0 ∨ t = a)) then BitVec.allOnes 64 else 0))) ∧
  (∀ (f : Fields) (s : State) (e : Env), Ready s e .matchKeys f → e.g.sized →
      let key : Nat → W64 := fun l => readWide f.ty.w64 e.g f f.sa l
      let same : Nat → Nat → Bool := fun j l =>
        if f.aux = 1 then FpNum.eq (fmtF32.read (e.g.fpm.getLsbD 2) (key j).toNat) (fmtF32.read (e.g.fpm.getLsbD 2) (key l).toNat) else key j == key l
      Completes (.matchKeys f) s e .matchKeys f fun g => ∃ x, PredEffect e.g g f.dst x ∧
        ∀ l, l < 64 → x.getLsbD l =
          if (e.active f).getLsbD l then decide (∀ j, j < l → (e.active f).getLsbD j = true → same j l = false)
          else (maskRead e.g e.sub.em f.dst).getLsbD l)

/-- R343 and R344: `lred` writes the tree's result over the active lanes, or the identity when there is none; `scan` writes the running combination
before or after each active lane, in ascending order. FL gains their flags, for `lred` in the lowest active lane.
The model's reading in it: log 64 (a value that meets only ABSENT passes bit for bit). -/
def Obligations.ReductionsAndScans : Prop :=
  (∀ (i : Instr) (f : Fields) (s : State) (e : Env), Instr.expand i = some (.lred, f) → Ready s e .lred f → e.g.sized →
    let comb := combine f.mod f.ty (e.g.fpm.toNat % 4) (e.g.fpm.getLsbD 2)
    let arg : Nat → Option W64 := fun l =>
      if (e.active f).getLsbD l then
        some (if f.sa.isV then readWide f.ty.w64 e.g f f.sa l else if (maskRead e.g e.sub.em f.sa).getLsbD l then 1 else 0)
      else none
    Completes i s e .lred f fun g =>
      OnlyRegs e.g g (dests e.g.s .lred f) ∧ g.preds = e.g.preds ∧
      ∃ x fl, treeReduce comb 6 ((List.range 64).map arg) = (x, fl) ∧
        (∀ k, f.dst = .s k → sreg g k.val =
          { val := if f.ty.w64 then x.getD (combineIdentity f.mod f.ty) else extend32 f.ty ((x.getD (combineIdentity f.mod f.ty)).setWidth 32)
            full := true }) ∧
        (e.active f = 0 → x = none ∧ g.fl = e.g.fl) ∧
        Raised e.g g (fun l => if (e.active f).getLsbD l ∧ ∀ j, j < l → (e.active f).getLsbD j = false then fl else {})) ∧
  (∀ (f : Fields) (s : State) (e : Env), Ready s e .scan f → e.g.sized →
    let comb := combine f.mod f.ty (e.g.fpm.toNat % 4) (e.g.fpm.getLsbD 2)
    let upTo : Nat → Option W64 := fun n => (List.range n).foldl (fun acc l =>
      if (e.active f).getLsbD l then (combAbsent comb acc (some (readWide f.ty.w64 e.g f f.sa l))).1 else acc) none
    Completes (.scan f) s e .scan f fun g =>
      OnlyRegs e.g g (dests e.g.s .scan f) ∧ g.preds = e.g.preds ∧
      VectorResult e.g g f (e.active f) (tagOf f.ty) (fun l x =>
        let r := (if f.aux = 1 then upTo l else upTo (l + 1)).getD (combineIdentity f.mod f.ty)
        x = if f.ty.w64 then r else (r.setWidth 32).setWidth 64) ∧
      Raised e.g g (fun l => if (e.active f).getLsbD l then (combAbsent comb (upTo l) (some (readWide f.ty.w64 e.g f f.sa l))).2 else {}))

/-- R346: under the scalar guard `pand`, `por`, `pxor`, `pnot` and `pmov` write all 64 bits of their predicate, whatever EM holds, and `pcnt` counts
the bits of its source; under a false guard nothing changes. -/
def Obligations.PredicateInstructions : Prop :=
  ∀ (i : Instr) (op : Op) (f : Fields) (s : State) (e : Env), Instr.expand i = some (op, f) → Ready s e op f → e.g.sized →
    let a := maskRead e.g e.sub.em f.sa
    let b := maskRead e.g e.sub.em f.sb
    (e.guard f = true →
      (op = .pand → Completes i s e op f fun g => PredEffect e.g g f.dst (a &&& b)) ∧
      (op = .por → Completes i s e op f fun g => PredEffect e.g g f.dst (a ||| b)) ∧
      (op = .pxor → Completes i s e op f fun g => PredEffect e.g g f.dst (a ^^^ b)) ∧
      (op = .pnot → Completes i s e op f fun g => PredEffect e.g g f.dst (~~~a)) ∧
      (op = .pmov → Completes i s e op f fun g => PredEffect e.g g f.dst
        (match f.sa with
         | .imm => f.imm.setWidth 64
         | .s k => (sreg e.g k.val).val
         | _ => a)) ∧
      (op = .pcnt → Completes i s e op f fun g =>
        OnlyRegs e.g g (dests e.g.s op f) ∧ SameMasks e.g g ∧ ∀ k, f.dst = .s k → sreg g k.val =
          { val := BitVec.ofNat 64 ((List.range 64).filter (fun l => a.getLsbD l)).length, full := true })) ∧
    (e.guard f = false → op ∈ [Op.pand, .por, .pxor, .pnot, .pmov, .pcnt] →
      Completes i s e op f fun g => OnlyRegs e.g g [] ∧ SameMasks e.g g)

/-! ### Control (spec/18_ref_control.md) -/

/-- R300: `nop` and `yield` have no effect beyond the SIG update of R122.

R301 and R302: under the scalar guard `sleep` puts the sub-group to sleep for its count of clk (none for 0), to end within 256 more, with its PC at
Next, and `movem`
outside a region sets EM to its value within LIVE; inside one `movem` raises REGION_LEGALITY. -/
def Obligations.NoEffectAndSleep : Prop :=
  (∀ (f : Fields) (s : State) (e : Env),
      (Ready s e .nop f → Completes (.nop f) s e .nop f fun g => g = { e.g with subs := g.subs, sig := g.sig }) ∧
      (Ready s e .yield f → Completes (.yield f) s e .yield f fun g => g = { e.g with subs := g.subs, sig := g.sig })) ∧
  (∀ (f : Fields) (s : State) (e : Env),
      (Ready s e .sleepClk f →
        let n := if f.sa = .none then f.imm.toNat else (readS e.g f f.sa).toNat % 2 ^ 32
        (e.guard f = false ∨ n = 0 → Completes (.sleepClk f) s e .sleepClk f fun g => g = { e.g with subs := g.subs, sig := g.sig }) ∧
        (e.guard f = true → n ≠ 0 → ∃ t g, exec (.sleepClk f) s = .next t ∧
          EndedAs s t e .sleepClk f { e.sub with pc := e.next f.form.length, st := .sleeping (n + 256), walked := [] } g ∧
          g = { e.g with subs := g.subs, sig := sigCounted e .sleepClk f })) ∧
      (Ready s e .movem f →
        let x : Mask := match f.sa with
          | .imm => f.imm.setWidth 64
          | .s k => (sreg e.g k.val).val
          | y => maskRead e.g e.sub.em y
        (e.guard f = false → Completes (.movem f) s e .movem f fun g => g = { e.g with subs := g.subs, sig := g.sig }) ∧
        (e.guard f = true → e.g.region.isOpen = true → exec (.movem f) s = trap0 s e .movem f 0x03) ∧
        (e.guard f = true → e.g.region.isOpen = false → ∃ t g, exec (.movem f) s = .next t ∧
          EndedAs s t e .movem f { e.sub with pc := e.next f.form.length, em := x &&& e.sub.live, walked := [] } g ∧
          g = { e.g with subs := g.subs, sig := sigCounted e .movem f })))

/-- R297: under the scalar guard `bra` goes to Target, `brc` when any lane of EM has the predicate, `jmpi` and `ret` to their register in the
span of the PC, and `call` to Target with Next in its link register; else each goes on at Next. Nothing else changes. -/
def Obligations.Branches : Prop :=
  ∀ (f : Fields) (s : State) (e : Env), e.g.sized →
    let next := e.next f.form.length
    let target : VAddr := e.sub.pc + f.imm.signExtend 80
    let far : W64 → VAddr := fun x => (e.sub.pc >>> 64) <<< 64 ||| x.setWidth 80
    let same : Group → Prop := fun g => g = { e.g with subs := g.subs, sig := g.sig }
    let link : Sel → Nat := fun x => match x with
      | .s k => k.val
      | _ => e.g.s - 4
    (Ready s e .bra f → CompletesAt (.bra f) s e .bra f (if e.guard f then target else next) same) ∧
    (Ready s e .brc f → CompletesAt (.brc f) s e .brc f
      (if e.guard f && (List.range 64).any (fun l => e.sub.em.getLsbD l && (maskRead e.g e.sub.em f.sa).getLsbD l) then target else next) same) ∧
    (Ready s e .jmpi f → CompletesAt (.jmpi f) s e .jmpi f (if e.guard f then far (readS e.g f f.sa) else next) same) ∧
    (Ready s e .ret f → CompletesAt (.ret f) s e .ret f (if e.guard f then far (sreg e.g (link f.sa)).val else next) same) ∧
    (Ready s e .call f → CompletesAt (.call f) s e .call f (if e.guard f then target else next) fun g =>
      OnlyRegs e.g g [.s (link f.dst)] ∧ SameMasks e.g g ∧
      if e.guard f then sreg g (link f.dst) = { val := next.setWidth 64, full := true } else same g)

/-- R95 and R298: `brd` with no lane taken goes on at Next, with every lane taken at Target; else, within the limits of depth and count, the node
gives way to its two children with the taken and the other lanes, and SIG takes the split of node 1; beyond them it raises SPLIT_DEPTH.
The model's readings in it: log 22. -/
def Obligations.Split : Prop :=
  ∀ (f : Fields) (s : State) (e : Env), Ready s e .brd f →
    let p := maskRead e.g e.sub.em f.sa
    let yes := e.sub.em &&& p
    let no := e.sub.em &&& ~~~p
    let target : VAddr := e.sub.pc + f.imm.signExtend 80
    let same : Group → Prop := fun g => g = { e.g with subs := g.subs, sig := g.sig }
    (yes = 0 → CompletesAt (.brd f) s e .brd f (e.next f.form.length) same) ∧
    (yes ≠ 0 → no = 0 → CompletesAt (.brd f) s e .brd f target same) ∧
    (yes ≠ 0 → no ≠ 0 → Nat.log2 e.node ≥ 8 ∨ e.g.subs.length ≥ 16 → exec (.brd f) s = trap0 s e .brd f 0x07) ∧
    (yes ≠ 0 → no ≠ 0 → Nat.log2 e.node < 8 → e.g.subs.length < 16 →
      ∃ t g, exec (.brd f) s = .next t ∧ OnlyGroup s t e.gid ∧ t.groups.find e.gid = some g ∧
        g = { e.g with subs := g.subs, sig := g.sig, splits := e.g.splits.insert e.node e.sub.live } ∧
        g.sig = (if e.node = 1 then sigEvent (sigCounted e .brd f) 1 else e.g.sig) ∧
        List.Perm g.subs
          ({ e.sub with node := 2 * e.node, em := yes, live := yes, pc := target } ::
           { e.sub with node := 2 * e.node + 1, em := no, live := no, pc := e.next f.form.length } ::
           e.g.subs.filter (fun x => x.node != e.node)))

/-- R96 to R98 and R298: `fuse` at node 1 does nothing; elsewhere the sub-group stands at its `fuse` while its sibling is neither EXITED nor at
the same `fuse`, and merges with it into their parent when the fuse check passes; SIG takes the merge into node 1. A sibling at another
`fuse`, lanes that overlap, or lanes that are not together the parent's LIVE are a CHECK_MISMATCH. -/
def Obligations.Fuse : Prop :=
  ∀ (f : Fields) (s : State) (e : Env), Ready s e .fuse f →
    (e.node = 1 → Completes (.fuse f) s e .fuse f fun g => g = { e.g with subs := g.subs, sig := g.sig }) ∧
    (e.node ≠ 1 → (∀ b, subOf e.g (e.node ^^^ 1) = some b → b.st ≠ .exited ∧ ∀ k, b.st ≠ .atFuse k) →
      ∃ t g, exec (.fuse f) s = .next t ∧ EndedAs s t e .fuse f { e.sub with st := .atFuse f.form.length } g ∧
        g = { e.g with subs := g.subs }) ∧
    (e.node ≠ 1 → ∀ b, subOf e.g (e.node ^^^ 1) = some b → b.st = .exited ∨ (∃ k, b.st = .atFuse k) ∧ b.pc = e.sub.pc →
      e.sub.live &&& b.live = 0 → e.g.splits.find (e.node / 2) = some (e.sub.live ||| b.live) →
      ∃ t g, exec (.fuse f) s = .next t ∧ OnlyGroup s t e.gid ∧ t.groups.find e.gid = some g ∧
        g = { e.g with subs := g.subs, sig := g.sig, splits := e.g.splits.erase (e.node / 2) } ∧
        g.sig = (if e.node / 2 = 1 then sigEvent e.g.sig 2 else e.g.sig) ∧
        List.Perm g.subs
          ({ e.sub with node := e.node / 2, em := e.sub.em ||| (if b.st = .exited then 0 else b.em), live := e.sub.live ||| b.live
                        pc := e.next f.form.length, st := .runnable } ::
           e.g.subs.filter (fun x => x.node != e.node && x.node != b.node && x.node != e.node / 2))) ∧
    (e.node ≠ 1 → ∀ b, subOf e.g (e.node ^^^ 1) = some b →
      (∃ k, b.st = .atFuse k) ∧ b.pc ≠ e.sub.pc ∨
      (b.st = .exited ∨ (∃ k, b.st = .atFuse k) ∧ b.pc = e.sub.pc) ∧
        (e.sub.live &&& b.live ≠ 0 ∨ e.g.splits.find (e.node / 2) ≠ some (e.sub.live ||| b.live)) →
      exec (.fuse f) s = .next (consumeError (account s e .fuse f) e.gid e.node 0x0C 0))

/-- R98, R111 and R299: `exit` under a false guard goes on at Next; else, after Commit() in an open region, the sub-group is EXITED with no lane
enabled. EXITED siblings give way to their EXITED parent, as far as that reaches; where the last one's sibling stands at its `fuse`, the two merge
there, or the fuse check fails at that `fuse`. When node 1 of every group of the team is EXITED, the kernel counts the team. Commit() that must wait
makes the `exit` wait.
The model's readings in it: logs 32, 67, 76, 88. -/
def Obligations.Exit : Prop :=
  ∀ (f : Fields) (s : State) (e : Env), Ready s e .exit f →
    (e.guard f = false → Completes (.exit f) s e .exit f fun g => g = { e.g with subs := g.subs, sig := g.sig }) ∧
    (e.guard f = true → e.g.region.isOpen = false → owedRegion e.g e.node = true → closedAtoms e.g = true → exec (.exit f) s = .next s) ∧
    (e.guard f = true → e.g.region.isOpen = true → commitWaits e.g = true →
      ∃ t g, exec (.exit f) s = .next t ∧ t = { s with groups := t.groups } ∧ t.groups.find e.gid = some g ∧
        (∀ k, k ≠ e.gid → t.groups.find k = s.groups.find k) ∧ g = { e.g with subs := g.subs } ∧
        subOf g e.node = some { e.sub with st := .committing } ∧ ∀ n, n ≠ e.node → subOf g n = subOf e.g n) ∧
    (e.guard f = true → (if e.g.region.isOpen then commitWaits e.g = false else (owedRegion e.g e.node && closedAtoms e.g) = false) →
      let subs := if e.g.region.isOpen then e.g.subs.map (fun x => if x.node == e.node then x else cutOf x) else e.g.subs
      ∀ k, ExitedUp subs e.node k →
      let top := e.node / 2 ^ k
      let left := leftUp subs e.sub k
      let sig := sigCounted e .exit f
      let others : Nat → Option Sub := fun n => if (goneUp e.node k).contains n then none else subs.find? (fun x => x.node == n)
      let kept : Group → Prop := fun g => g.vregs = e.g.vregs ∧ g.sregs = e.g.sregs ∧ SameMasks e.g g ∧ g.region.isOpen = false ∧
        (e.g.region.isOpen = false → g.storeQ = e.g.storeQ ∧ g.queues = e.g.queues)
      (top = 1 ∨ (∀ b, others (top ^^^ 1) = some b → b.st ≠ .exited ∧ ∀ n, b.st ≠ .atFuse n) →
        ∃ t g, exec (.exit f) s = .next t ∧ t.groups.find e.gid = some g ∧ kept g ∧ g.sig = sig ∧ g.splits = splitsUp e.g.splits e.node k ∧
          (∀ n, subOf g n = if n = top then some left else others n) ∧ (e.g.region.isOpen = true → Committed s t e g) ∧
          (∀ sp a, newestByte t sp a = newestByte s sp a) ∧ (∀ n, n ≠ e.gid → (t.groups.find n).map (·.subs) = (s.groups.find n).map (·.subs)) ∧
          ∀ x, s.kernels.find e.team.kernel = some x → t.kernels.find e.team.kernel =
            some { x with exited := if (∀ p ∈ t.groups, p.2.team = e.g.team → ∀ y ∈ p.2.subs, y.node = 1 ∧ y.st = .exited)
                                    then x.exited + 1 else x.exited }) ∧
      (∀ b n, top ≠ 1 → others (top ^^^ 1) = some b → b.st = .atFuse n →
        let good := decide (b.live &&& left.live = 0) && (splitsUp e.g.splits e.node k).find (top / 2) == some (b.live ||| left.live)
        (n = 0 → ∃ t g, exec (.exit f) s = .next t ∧ t.groups.find e.gid = some g ∧ kept g ∧ g.sig = sig ∧
          ∀ m, subOf g m = if m = top then some left else if m = b.node then some { b with st := .runnable } else others m) ∧
        (n ≠ 0 → good = true → ∃ t g, exec (.exit f) s = .next t ∧ t.groups.find e.gid = some g ∧ kept g ∧
          g.sig = (if top / 2 = 1 then sigEvent sig 2 else sig) ∧
          ∀ m, subOf g m =
            if m = top / 2 then some { b with node := top / 2, live := b.live ||| left.live, pc := b.pc + BitVec.ofNat 80 n, st := .runnable }
            else if m = top ∨ m = b.node then none else others m) ∧
        (n ≠ 0 → good = false → ∃ u g, u.groups.find e.gid = some g ∧ kept g ∧ g.sig = sig ∧
          (∀ m, subOf g m = if m = top then some left else if m = b.node then some { b with st := .runnable } else others m) ∧
          exec (.exit f) s = .next (consumeError u e.gid b.node 0x0C 0))))

/-! ### Regions and signatures (spec/07_region.md) -/

/-- R111 to R114: `region` opens a region with its P and Q, the FPM and SIG of now, REENTRY 0 and no recorded line, in an open region after Commit(),
for which it waits with its PC at the instruction; the issuing sub-group's REGION_PC is Next, every other live one's its cut point: the instruction
that it would issue next, with its at-fuse flag kept. A P above V or a Q above S is ILLEGAL. While a committing atomic of the group is still to be
performed outside any region, the `region` waits (log 67).
The model's readings in it: logs 23, 67, 88. -/
def Obligations.RegionOpens : Prop :=
  ∀ (f : Fields) (s : State) (e : Env), Ready s e .region f →
    let p := bits f.imm.toNat 7 0
    let q := bits f.imm.toNat 14 8
    let opened : Group → Prop := fun g =>
      g.region = { isOpen := true, p := p, q := q, reentry := 0, fpmSnap := e.g.fpm, sigSnap := sigCounted e .region f, lines := []
                   tallocs := [], tfrees := [], reopen := none } ∧ g.sig = sigCounted e .region f ∧
      g.subs = e.g.subs.map (fun x =>
        if x.node == e.node then { x with pc := e.next f.form.length, walked := [], regionPc := e.next f.form.length, cutAtFuse := false } else cutOf x)
    (p > e.g.v ∨ q > e.g.s → exec (.region f) s = trap0 s e .region f 0x01) ∧
    (p ≤ e.g.v → q ≤ e.g.s → betweenRegions e.g = true → exec (.region f) s = .next s) ∧
    (p ≤ e.g.v → q ≤ e.g.s → betweenRegions e.g = false → e.g.region.isOpen = false →
      ∃ t g, exec (.region f) s = .next t ∧ OnlyGroup s t e.gid ∧ t.groups.find e.gid = some g ∧
        g = { e.g with subs := g.subs, sig := g.sig, region := g.region } ∧ opened g) ∧
    (p ≤ e.g.v → q ≤ e.g.s → betweenRegions e.g = false → e.g.region.isOpen = true → commitWaits e.g = true →
      ∃ t g, exec (.region f) s = .next t ∧ t = { s with groups := t.groups } ∧ t.groups.find e.gid = some g ∧
        (∀ k, k ≠ e.gid → t.groups.find k = s.groups.find k) ∧ g = { e.g with subs := g.subs } ∧
        subOf g e.node = some { e.sub with st := .committing } ∧ ∀ n, n ≠ e.node → subOf g n = subOf e.g n) ∧
    (p ≤ e.g.v → q ≤ e.g.s → betweenRegions e.g = false → e.g.region.isOpen = true → commitWaits e.g = false →
      ∃ t g, exec (.region f) s = .next t ∧ t.groups.find e.gid = some g ∧ (∀ k, k ≠ e.gid → t.groups.find k = s.groups.find k) ∧
        opened g ∧ Committed s t e g)

/-- R113: Commit() of `commit` waits, with the PC at the instruction, while a producer or a fill of the region has not completed; else the region is
CLOSED, its held stores and drains are released in their order, with places in group order from now on, its commands are no longer the
region's, its popped entries are freed, its deferred `tfree`s apply where no command uses the tile, its shadows are dropped, REENTRY is cleared, the
REGION_PC of every other live sub-group becomes its cut point (R114), and no register or byte of memory changes. `commit` outside a region does
nothing, but that no region opens behind it. Between the Commit() of an atomic and the region that is to open behind it, `commit` waits while an
atomic of the group stands before that region (log 67).
The model's readings in it: logs 23, 67, 88. -/
def Obligations.CommitCloses : Prop :=
  ∀ (f : Fields) (s : State) (e : Env), Ready s e .commit f →
    (e.g.region.isOpen = false → owedRegion e.g e.node = true → closedAtoms e.g = true → exec (.commit f) s = .next s) ∧
    (e.g.region.isOpen = false → (owedRegion e.g e.node && closedAtoms e.g) = false → Completes (.commit f) s e .commit f fun g =>
      g = { e.g with subs := g.subs, sig := g.sig, region := { e.g.region with reopen := e.g.region.reopen.filter (fun r => r.1 != e.node) } }) ∧
    (e.g.region.isOpen = true → commitWaits e.g = true →
      ∃ t g, exec (.commit f) s = .next t ∧ t = { s with groups := t.groups } ∧ t.groups.find e.gid = some g ∧
        (∀ k, k ≠ e.gid → t.groups.find k = s.groups.find k) ∧ g = { e.g with subs := g.subs } ∧
        subOf g e.node = some { e.sub with st := .committing } ∧ ∀ n, n ≠ e.node → subOf g n = subOf e.g n) ∧
    (e.g.region.isOpen = true → commitWaits e.g = false →
      ∃ t g, exec (.commit f) s = .next t ∧ t.groups.find e.gid = some g ∧ (∀ k, k ≠ e.gid → t.groups.find k = s.groups.find k) ∧
        g.region = { e.g.region with isOpen := false, reentry := 0, lines := [], tallocs := [], tfrees := [], reopen := none } ∧
        g.sig = sigCounted e .commit f ∧ Committed s t e g ∧
        g.subs = e.g.subs.map (fun x => if x.node == e.node then { x with pc := e.next f.form.length, walked := [] } else cutOf x))

/-- R122, R123 and R304: neither `sigchk` nor `sigrst` counts in SIG; `sigrst` clears it; `sigchk` in node 1 clears it when it agrees with IMM or
the launch does not check it, and in another node does nothing; a mismatch outside a region clears it too and raises CHECK_MISMATCH at the
`sigchk`, whose issue is charged. -/
def Obligations.Signatures : Prop :=
  ∀ (f : Fields) (s : State) (e : Env),
    (Ready s e .sigrst f → ∃ t g, exec (.sigrst f) s = .next t ∧ EndedAs s t e .sigrst f { e.sub with pc := e.next f.form.length, walked := [] } g ∧
      g = { e.g with subs := g.subs, sig := 0 }) ∧
    (Ready s e .sigchk f →
      (e.node ≠ 1 → Completes (.sigchk f) s e .sigchk f fun g => g = { e.g with subs := g.subs, sig := g.sig }) ∧
      (e.node = 1 → e.g.sig = f.imm ∨ e.team.launch.sigEn = false →
        ∃ t g, exec (.sigchk f) s = .next t ∧ EndedAs s t e .sigchk f { e.sub with pc := e.next f.form.length, walked := [] } g ∧
          g = { e.g with subs := g.subs, sig := 0 }) ∧
      (e.node = 1 → e.g.sig ≠ f.imm → e.team.launch.sigEn = true →
        let s0 := account (setGroup s e.gid { e.g with sig := 0 }) e .sigchk f
        exec (.sigchk f) s = .next (consumeError s0 e.gid e.node 0x0C 0) ∧
        (e.g.subs = [e.sub] → e.g.region.isOpen = false → exec (.sigchk f) s = .next (raise s0 e.gid 1 0x0C e.sub.pc 0 false))))

/-! ### Traps, handlers and special registers (spec/03_context.md, spec/18_ref_control.md) -/

/-- R53, R305: `trap` and `brk` whose cause 0x0A is enabled, outside a handler and under the scalar guard, enter the handler: s(S-3) is Next, s(S-2)
the cause with IN_REGION, s(S-1) the code with bit 63 for `brk`, all full, and the PC is TRAP_BASE + 256 x 0x0A; SIG and every other register
stay, and SIG at entry and the trapped PC are kept; of what Commit() owes the group, only the trapping sub-group's own region is dropped (log 23). With the cause disabled, or in a handler, the sub-group stops with its PC at the instruction
and the hub has the event. Under a false guard neither has an effect.
The model's readings in it: log 23. -/
def Obligations.SoftwareTraps : Prop :=
  ∀ (op : Op) (f : Fields) (s : State) (e : Env), op = .trap ∨ op = .brk → Ready s e op f → e.g.sized → 4 ≤ e.g.s →
    let i := op.instr f
    let v : W64 := if op = .brk then f.imm.setWidth 64 ||| 0x8000000000000000 else f.imm.setWidth 64
    (e.guard f = false → Completes i s e op f fun g => g = { e.g with subs := g.subs, sig := g.sig }) ∧
    (e.guard f = true → e.sub.handler = none → e.ctx.desc.trapEnable.getLsbD 0x0A = true →
      ∃ t g, exec i s = .next t ∧
        EndedAs s t e op f { e.sub with pc := e.ctx.desc.trapBase + 0xA00, handler := some { sigAtEntry := e.g.sig, trapPc := e.sub.pc } } g ∧
        OnlyRegs e.g { g with region := e.g.region } [.s (e.g.s - 3), .s (e.g.s - 2), .s (e.g.s - 1)] ∧ SameMasks e.g g ∧ g.sig = e.g.sig ∧
        g.region = { e.g.region with reopen := e.g.region.reopen.filter (fun r => r.1 != e.node) } ∧
        sreg g (e.g.s - 3) = { val := (e.next f.form.length).setWidth 64, full := true } ∧
        sreg g (e.g.s - 2) = { val := if e.g.region.isOpen then 0x1000A else 0x0000A, full := true } ∧
        sreg g (e.g.s - 1) = { val := v, full := true }) ∧
    (e.guard f = true → e.sub.handler.isSome = true ∨ e.ctx.desc.trapEnable.getLsbD 0x0A = false →
      ∃ t g c ev, exec i s = .next t ∧ t.groups.find e.gid = some g ∧ g = { e.g with subs := g.subs } ∧
        subOf g e.node = some { e.sub with st := .stopped } ∧ (∀ n, n ≠ e.node → subOf g n = subOf e.g n) ∧
        t.contexts.find e.team.ctx = some c ∧ c = { e.ctx with raised := e.ctx.raised ++ [ev] } ∧
        ev.cause = 0x0A ∧ ev.pc = e.sub.pc ∧ ev.addr = v.setWidth 80 ∧ (∀ sp a, newestByte t sp a = newestByte s sp a))

/-- R53, R295: the checks at issue, in their order, for every instruction that adds none of its own: an ill-formed word, a register at or above
the budget, an instruction that a handler may not issue, or one that would copy tag 15, is ILLEGAL; then it waits; then an empty source under TRAP raises EMPTY_SOURCE, a
wrong tag FORMAT, a write of a protected register REGION_LEGALITY. -/
def Obligations.ChecksAtIssue : Prop :=
  ∀ (i : Instr) (op : Op) (f : Fields) (s : State) (e : Env), Instr.expand i = some (op, f) →
    op ∉ [Op.region, .wrspec, .eret, .ballot, .movFromQueue, .lds, .sts, .barq] → guardFirst op = false →
    ¬(i.four?.isSome = true ∧ op = .mov ∧ f.sa.isQ = true) → envOf s = some e → takeDeferred s e = none →
    (wfWord op f = false → exec i s = trap0 s e op f 0x01) ∧
    (overBudget e op f = true → exec i s = trap0 s e op f 0x01) ∧
    (e.inHandler = true → handlerAllows op f = false → exec i s = trap0 s e op f 0x01) ∧
    (setsTag15 e.g op f = true → exec i s = trap0 s e op f 0x01) ∧
    (wfWord op f = true → overBudget e op f = false → (e.inHandler = true → handlerAllows op f = true) → setsTag15 e.g op f = false →
      (mustWait s e op f false = true → exec i s = .next s) ∧
      (mustWait s e op f false = false →
        (emptySource e op f = true → exec i s = trap0 s e op f 0x09) ∧
        (emptySource e op f = false → badTag e op f = true → exec i s = trap0 s e op f 0x02) ∧
        (emptySource e op f = false → badTag e op f = false → writesProtected e op f = true → exec i s = trap0 s e op f 0x03)))

/-- R306: `eret` in a handler restores the SIG of its entry, leaves the handler, and goes to s(S-3) in the span of the trapped PC; outside one it is
ILLEGAL, before it would wait for s(S-3). -/
def Obligations.ReturnFromTrap : Prop :=
  ∀ (f : Fields) (s : State) (e : Env),
    (envOf s = some e → takeDeferred s e = none → wfWord .eret f = false ∨ overBudget e .eret f = true ∨ e.sub.handler = none →
      exec (.eret f) s = trap0 s e .eret f 0x01) ∧
    (Legal s e .eret f → e.sub.handler.isSome = true → mustWait s e .eret f false = true → exec (.eret f) s = .next s) ∧
    (Ready s e .eret f → ∀ h, e.sub.handler = some h → ∃ t g, exec (.eret f) s = .next t ∧
      EndedAs s t e .eret f { e.sub with handler := none, pc := (h.trapPc >>> 64) <<< 64 ||| (sreg e.g (e.g.s - 3)).val.setWidth 80 } g ∧
      g = { e.g with subs := g.subs, sig := h.sigAtEntry })

/-- R312: `laneget` becomes a producer of one lane's value, `laneset` replaces one lane and keeps the tag; a lane number of 64 or more is ILLEGAL, and
`laneset` of a protected register in a region outside a handler raises REGION_LEGALITY.

R313 and R314: under the scalar guard `fmode` sets FPM and gives its destination the old one, and a value of 8 or more is ILLEGAL; `flclr` clears
the active lanes' bits of the sets that IMM names. -/
def Obligations.LanesModeAndFlags : Prop :=
  (∀ (f : Fields) (s : State) (e : Env), e.g.sized →
      let l := if f.sb = .none then bits f.imm.toNat 6 0 else (readS e.g f f.sb).toNat % 64
      (Ready s e .laneget f →
        (e.guard f = false → Completes (.laneget f) s e .laneget f fun g => g = { e.g with subs := g.subs, sig := g.sig }) ∧
        (e.guard f = true → l ≥ 64 → exec (.laneget f) s = trap0 s e .laneget f 0x01) ∧
        (e.guard f = true → l < 64 → ∃ t g, exec (.laneget f) s = .next t ∧ Ended s t e .laneget f (e.next f.form.length) g ∧
          (g.inflight = e.g.inflight ++ [{ seq := e.g.seq, node := e.node, pc := e.pc, dst := f.dst, ty := f.ty, size := 0, region := e.g.region.isOpen
                                           retrying := false
                                           what := .values [(0, if f.ty.w64 then readPair e.g f f.sa l else extend32 f.ty (readLane e.g f f.sa l))] [] }]) ∧
          (∀ n, vreg g n = vreg e.g n) ∧ (∀ n, f.dst ≠ .s n → sreg g n.val = sreg e.g n.val) ∧
          ∀ n, f.dst = .s n → sreg g n.val = { sreg e.g n.val with full := false })) ∧
      (Ready s e .laneset f →
        let protectedDst := e.g.region.isOpen && !e.inHandler && (dests e.g.s .laneset f).any (fun r => r.protectedBy e.g.region.p e.g.region.q)
        (e.guard f = false → Completes (.laneset f) s e .laneset f fun g => g = { e.g with subs := g.subs, sig := g.sig }) ∧
        (e.guard f = true → l ≥ 64 → exec (.laneset f) s = trap0 s e .laneset f 0x01) ∧
        (e.guard f = true → l < 64 → protectedDst = true → exec (.laneset f) s = trap0 s e .laneset f 0x03) ∧
        (e.guard f = true → l < 64 → protectedDst = false → Completes (.laneset f) s e .laneset f fun g =>
          OnlyRegs e.g g (dests e.g.s .laneset f) ∧ SameMasks e.g g ∧
          (∀ n, (vreg g n).tag = (vreg e.g n).tag ∧ (vreg g n).full = (vreg e.g n).full) ∧
          (∀ n, Reg.v n ∈ dests e.g.s .laneset f → ∀ k, k ≠ l → laneOf (vreg g n) k = laneOf (vreg e.g n) k) ∧
          readWide f.ty.w64 g f f.dst l = if f.ty.w64 then readS e.g f f.sa else ((readS e.g f f.sa).setWidth 32).setWidth 64))) ∧
  (∀ (f : Fields) (s : State) (e : Env), e.g.sized →
      (Ready s e .fmode f →
        let x : W64 := if f.sa = .none then BitVec.ofNat 64 (bits f.imm.toNat 2 0) else readS e.g f f.sa
        (e.guard f = false → Completes (.fmode f) s e .fmode f fun g => g = { e.g with subs := g.subs, sig := g.sig }) ∧
        (e.guard f = true → x.toNat ≥ 8 → exec (.fmode f) s = trap0 s e .fmode f 0x01) ∧
        (e.guard f = true → x.toNat < 8 → Completes (.fmode f) s e .fmode f fun g =>
          g.fpm.toNat = x.toNat ∧ OnlyRegs e.g { g with fpm := e.g.fpm } (dests e.g.s .fmode f) ∧ SameMasks e.g g ∧
          ∀ n, f.dst = .s n → sreg g n.val = { val := e.g.fpm.setWidth 64, full := true })) ∧
      (Ready s e .flclr f → Completes (.flclr f) s e .flclr f fun g =>
        g = { e.g with subs := g.subs, sig := g.sig, fl := g.fl } ∧
        ∀ k l, k < 5 → l < 64 → (g.fl.getD k 0).getLsbD l =
          ((e.g.fl.getD k 0).getLsbD l && !(f.imm.getLsbD k && (e.active f).getLsbD l))))

/-! ### Memory (spec/20_ref_memory.md, spec/11_ordering.md) -/

/-- R350, R351, R354: the accesses of a load or store: one in lane 0 for a scalar form under its guard, else one for each active lane in ascending
order, at the pair's value plus IMM, or at the scalar address plus IMM plus the lane number times the lane size; none of another lane.

R351 and R354, at issue: `ld` under a false scalar guard has no effect; while a range operation of its group covers its bytes it waits; a denied
translation is the next state, its issue charged; while a translation waits it waits, in a region with its destination's tag set (log 66); else its
destination is empty and it becomes a producer of the units of its translated accesses, acquiring when
it says so, and in a region the lines it reads are recorded.
The model's readings in it: logs 15, 66. -/
def Obligations.AddressesAndLoadIssue : Prop :=
  (∀ (e : Env) (f : Fields),
      (f.sa.isS = true → accesses e f true false = if e.guard f then
        [{ lane := 0, va := BitVec.ofNat 80 (e.team.hi * 2 ^ 64 + (readS e.g f f.sa + f.imm.signExtend 64).toNat), size := scalarBytes f.ty }] else []) ∧
      (f.sa.isV = true → ∀ a, a ∈ accesses e f false false ↔ a.lane < 64 ∧ (e.active f).getLsbD a.lane = true ∧ a.size = laneBytes f.ty ∧
        a.va = BitVec.ofNat 80 (e.team.hi * 2 ^ 64 + (readPair e.g f f.sa a.lane + f.imm.signExtend 64).toNat)) ∧
      (f.sa.isS = true → e.team.hi < 2 ^ 16 → ∀ a, a ∈ accesses e f false false ↔ a.lane < 64 ∧ (e.active f).getLsbD a.lane = true ∧
        a.size = laneBytes f.ty ∧ a.va = BitVec.ofNat 80 (e.team.hi * 2 ^ 64 +
          (readS e.g f f.sa + f.imm.signExtend 64 + BitVec.ofNat 64 (a.lane * laneBytes f.ty)).toNat)) ∧
      ((accesses e f false false).map (·.lane)).Pairwise (· < ·)) ∧
  (∀ (f : Fields) (s : State) (e : Env), Ready s e .ld f → e.g.sized →
      let scalar := f.dst.isS
      (scalar = true → e.guard f = false → Completes (.ld f) s e .ld f fun g => g = { e.g with subs := g.subs, sig := g.sig }) ∧
      ((scalar = true → e.guard f = true) →
        (∀ t, xlat s e .read (accesses e f scalar false) = .stop t → exec (.ld f) s = .next (account t e .ld f)) ∧
        (∀ t, xlat s e .read (accesses e f scalar false) = .wait t → exec (.ld f) s =
          .next (if e.g.region.isOpen then onGroup t e.gid (fun g => setTags g f.ty f.dst (tagOf f.ty)) else t)) ∧
        (∀ accs, xlat s e .read (accesses e f scalar false) = .ok s accs → rangeCovers e.g (accLocs accs) = true → exec (.ld f) s = .next s) ∧
        (∀ accs, xlat s e .read (accesses e f scalar false) = .ok s accs → rangeCovers e.g (accLocs accs) = false →
          Completes (.ld f) s e .ld f fun g =>
            Launched { e with g := recordLines e.g ((accLocs accs).map (fun l => LineId.mem l.space (l.addr / 64))) } g .ld f (tagOf f.ty)
              (if scalar then scalarBytes f.ty else laneBytes f.ty)
              (.load (accs.flatMap unitsOf) [] (if f.aux = 1 ∧ accs ≠ [] then scopeEff f.scope else .none)))))

/-- R180 and R351: a load with one unit left in one sector that no cache holds, which nothing earlier of its group and no pinned or held line holds
back, ends: its destination is full, each lane has its value, and the unit's bytes are those of the group's own earlier stores, or those behind
the caches. No byte of memory changes.

R356: `lds` ends with the bytes of the team's scratchpad, and those of the group's own earlier `sts` before them. R360: an `atom` with a result of
one operation that nothing is in the way of writes what the operation makes of the old value, and its destination receives the old value.
The model's readings in it: logs 15, 27. -/
def Obligations.LoadPerforms : Prop :=
  (∀ (s : State) (gid id : Nat) (g : Group) (i : Inflight) (team : Team) (a : Acc) (l0 : Loc),
    s.groups.find gid = some g → g.inflight.find? (fun j => j.seq == id) = some i → s.teams.find g.team = some team →
    i.retrying = false → inMonitor g id = false → i.what = .load [a] [] .none → i.size = a.locs.length → a.off = 0 → i.size ≤ 8 →
    earlierFirst g i a.locs = false → atomBefore g i.seq false a.locs = false → Plain s team.core l0 →
    (∀ l ∈ a.locs, l.space = l0.space ∧ locSector l = locSector l0 ∧ lineHeld s l.space (l.addr / 256) 0 = false ∧ accessHeld s team.core l = false ∧
      sectorWaits s l.space (locSector l) = false ∧ badLoc s l = false) →
    let byte : Loc → Byte := fun l => (forwarded g i.seq l).getD (backing s l.space l.addr)
    let v := leValue (a.locs.map byte)
    let x : W64 := if i.dst.isS && Ty.signed i.ty then BitVec.ofNat 64 (wrapInt 64 (signedOf (8 * i.size) v)) else BitVec.ofNat 64 v
    ∃ t g', exec (.longLatencyWriteback gid id) s = .next t ∧ t.groups.find gid = some g' ∧
      g' = { completeProducer g i (if i.size = 0 then [] else [(a.lane, x)]) [] with lastRead := g'.lastRead } ∧
      (∀ sp b, newestByte t sp b = newestByte s sp b)) ∧
  (∀ (s : State) (gid id : Nat) (g : Group) (i : Inflight) (team : Team) (as : List (Nat × Nat)) (h : Option Nat),
    s.groups.find gid = some g → g.inflight.find? (fun j => j.seq == id) = some i → s.teams.find g.team = some team →
    i.retrying = false → inMonitor g id = false → i.what = .lds as h → earlierFirst g i [] = false → atomBefore g i.seq false [] = false → Memory.wf team.scratch = true →
    let own := (g.storeQ.filter (fun x => decide (x.seq < i.seq))).flatMap (fun x => match x.kind with
      | .scratch ws => ws
      | _ => [])
    let byte : Nat → Byte := fun a => ((own.reverse.find? (fun w => w.1 == a)).map (·.2)).getD (team.scratch.read a)
    let v : Nat → Nat := fun a => leValue ((List.range i.size).map (fun j => byte (a + j)))
    let x : Nat → W64 := fun a =>
      if i.dst.isS && Ty.signed i.ty then BitVec.ofNat 64 (wrapInt 64 (signedOf (8 * i.size) (v a))) else BitVec.ofNat 64 (v a)
    ∃ t, exec (.longLatencyWriteback gid id) s = .next t ∧
      t.groups.find gid = some (completeProducer g i (as.map (fun a => (a.1, x a.2))) []) ∧
      (∀ sp b, newestByte t sp b = newestByte s sp b)) ∧
  (∀ (s : State) (gid id n : Nat) (g : Group) (i : Inflight) (team : Team) (o : AtomOp) (l : Loc),
    s.groups.find gid = some g → g.inflight.find? (fun j => j.seq == id) = some i → s.teams.find g.team = some team →
    i.retrying = false → inMonitor g id = false → i.what = .atomic [o] [] .none none → AtomFree s team.core o l n →
    earlierFirst g i o.acc.locs = false → atomBefore g i.seq true o.acc.locs = false →
    (∀ x ∈ g.storeQ, x.held = true ∨ i.seq ≤ x.seq ∨ overlap x.locs o.acc.locs = false) → (∀ y ∈ g.subs, ∀ p k, y.st ≠ .performing p k) →
    let old : W64 := BitVec.ofNat 64 (newestLe s l.space l.addr n)
    let x := if i.dst.isS && i.ty.w32 then extend32 i.ty (old.setWidth 32) else old
    ∃ t g', exec (.longLatencyWriteback gid id) s = .next t ∧ t.groups.find gid = some g' ∧
      g' = { completeProducer g i [(o.acc.lane, x)] [] with lastRead := g'.lastRead } ∧ AtomDone s t o l n)

/-- R100: a producer whose values have come writes them into the lanes they name, keeps the other lanes and the tag of its issue, raises its flags,
makes its destination full, and is no longer in flight; nothing else of the machine changes. -/
def Obligations.ProducerWriteback : Prop :=
  ∀ (s : State) (gid id : Nat) (g : Group) (i : Inflight) (team : Team) (vals : List (Nat × W64)) (flags : List Mask),
    s.groups.find gid = some g → g.inflight.find? (fun j => j.seq == id) = some i → s.teams.find g.team = some team →
    i.retrying = false → inMonitor g id = false → i.what = .values vals flags → g.sized →
    (∀ r ∈ regsFrom (tyRegs i.ty) i.dst, r.inBudget g = true) → (vals.map (·.1)).Nodup → (∀ p ∈ vals, p.1 < 64) →
    (∀ n, i.dst = .s n → vals.length = 1) → (flags = [] ∨ flags.length = 5) →
    ∃ g', exec (.longLatencyWriteback gid id) s = .next (setGroup s gid g') ∧
      g' = { g with vregs := g'.vregs, sregs := g'.sregs, inflight := g.inflight.filter (fun j => j.seq != id)
                    fl := if flags = [] then g.fl else raiseFlags g.fl flags } ∧
      (∀ r ∈ regsFrom (tyRegs i.ty) i.dst, r.full g' = true) ∧
      (∀ n, Reg.v n ∉ regsFrom (tyRegs i.ty) i.dst → vreg g' n = vreg g n) ∧
      (∀ n, Reg.s n ∉ regsFrom (tyRegs i.ty) i.dst → sreg g' n = sreg g n) ∧
      (∀ n, i.dst = .s n → ∀ p ∈ vals, (sreg g' n.val).val = p.2) ∧
      (∀ n, i.dst = .v n → (vreg g' n.val).tag = (vreg g n.val).tag ∧
        (∀ p ∈ vals, laneOf (vreg g' n.val) p.1 = p.2.setWidth 32 ∧
          (i.ty.w64 = true → laneOf (vreg g' (n.val + 1)) p.1 = (p.2 >>> 32).setWidth 32)) ∧
        ∀ l, l < 64 → (∀ p ∈ vals, p.1 ≠ l) → laneOf (vreg g' n.val) l = laneOf (vreg g n.val) l)

/-- R115, R116, R351, R354, R360, at issue: `st`, `mred`, and `atom` without a result that release nothing put one entry with their writes or operations
at the end of the store queue, held in an open region; an entry on a line that the region has read raises REGION_LEGALITY, the 49th held entry
REGION_OVERFLOW. Registers, flags and every byte of memory stay.
The model's readings in it: log 52. -/
def Obligations.StoreIssue : Prop :=
  ∀ (op : Op) (f : Fields) (s : State) (e : Env) (accs : List Acc), op = .st ∨ op = .mred ∨ op = .atom → Ready s e op f →
    (op = .mred ∨ releaseScope e.g (f.aux == 2 || (op == .atom && f.aux == 3)) f.scope = none) → f.dst = .none →
    let scalar := if op = .atom then atomScalar f else f.sa.isS && !f.sb.isV
    (scalar = true → e.guard f = true) →
    xlat s e (if op = .st then .write else .atomic) (accesses e f scalar (op != .st)) = .ok s accs →
    (op ≠ .st → hostUncached accs = none) → accs ≠ [] →
    let kind : StoreKind := if op = .st then .bytes (storeWrites e f scalar accs) else .atomics (atomOps e f scalar accs)
    let entry : StoreEntry := { seq := e.g.seq, node := e.node, held := e.g.region.isOpen, kind := kind, pin := false, rel := none, commit := 0,
                                acq := if op = .atom then some (if f.aux = 1 then scopeEff f.scope else .none) else none }
    let heldCount := (e.g.storeQ.filter (·.held)).length
    let clash := entry.lines.any (fun l => e.g.region.lines.contains l)
    (e.g.region.isOpen = true → clash = true → exec (op.instr f) s = trap0 s e op f 0x03) ∧
    (e.g.region.isOpen = true → clash = false → heldCount ≥ 48 → exec (op.instr f) s = trap0 s e op f 0x04) ∧
    (e.g.region.isOpen = false ∨ clash = false ∧ heldCount < 48 →
      Completes (op.instr f) s e op f fun g =>
        g = { e.g with subs := g.subs, sig := g.sig, storeQ := e.g.storeQ ++ [entry], seq := e.g.seq + 1 })

/-- R182 and R183: the oldest entry of a store queue, committed, whose one unit lies in one sector outside the array windows, on a line that no cache
holds, and which nothing holds back, leaves the queue: a store of CACHE 0 writes its bytes, and every address of the unit reads as the byte stored,
every other as before; another does so at once or is on its way to its home slice, one to a PEER page, or to a HOST page with CACHE 2, on its way to
its destination (R194). Memory stays until a store on its way lands there; then the addresses read as the bytes stored. R356: an `sts` entry writes
the team's scratchpad. R360: the one operation of an `mred` or of an `atom` without a result is performed. Nothing else of the group changes.
The model's readings in it: log 15. -/
def Obligations.StorePerforms : Prop :=
  ∀ (s : State) (gid : Nat) (g : Group) (team : Team) (x : StoreEntry) (rest : List StoreEntry),
    s.canonical → s.groups.find gid = some g → s.teams.find g.team = some team → g.storeQ = x :: rest → x.held = false → x.pin = false →
    storeWaits g x = false → (∀ y ∈ rest, y.seq ≠ x.seq) → (∀ y ∈ s.flights, y.ofCore team.core = false ∧ y.die ≠ hubDie) →
    (∀ (u : List (Loc × Byte)) (l0 : Loc), x.kind = .bytes [u] → u ≠ [] → (u.map (fun w => w.1.addr)).Nodup →
      (∀ w ∈ u, w.1.space = l0.space ∧ locSector w.1 = locSector l0 ∧ w.1.cache = l0.cache) → l0.space ≠ .array → LineClear s l0 →
      Plain s team.core l0 → (∀ w ∈ u, storeHeld s team.core w.1 = false) →
      let stored : State → Prop := fun t => (∀ w ∈ u, newestByte t w.1.space w.1.addr = w.2) ∧
        ∀ sp a, (∀ w ∈ u, ¬(w.1.space = sp ∧ w.1.addr = a)) → newestByte t sp a = newestByte s sp a
      let way : Flight := { who := .core team.core, team := some g.team, bytes := u, rel := x.rel }
      ∃ t, exec (.storeQueueRetire gid) s = .next t ∧ t.groups.find gid = some { g with storeQ := rest } ∧
        (directStore l0 = false ∧ t.flights = s.flights ∧ stored t ∨
         throughL1 l0 = false ∧ t.flights = s.flights ++ [way] ∧ (∀ sp a, newestByte t sp a = newestByte s sp a) ∧
          ∀ t0, t0 = landFlight t way → (∀ w ∈ u, peerFails t w.1 = false) → stored t0)) ∧
    (∀ ws, x.kind = .scratch ws → Memory.wf team.scratch = true →
      ∃ t m, exec (.storeQueueRetire gid) s = .next t ∧ t.groups.find gid = some { g with storeQ := rest } ∧
        t.teams.find g.team = some { team with scratch := m } ∧
        (∀ a, m.read a = ((ws.reverse.find? (fun w => w.1 == a)).map (·.2)).getD (team.scratch.read a)) ∧
        ∀ sp a, newestByte t sp a = newestByte s sp a) ∧
    (∀ (o : AtomOp) (l : Loc) (n : Nat), x.kind = .atomics [o] → x.rel = none → x.acq = none ∨ x.acq = some .none → AtomFree s team.core o l n →
      (∀ y ∈ g.subs, ∀ p k, y.st ≠ .performing p k) →
      ∃ t g', exec (.storeQueueRetire gid) s = .next t ∧ t.groups.find gid = some g' ∧
        g' = { g with storeQ := rest, lastRead := g'.lastRead } ∧ (x.acq = none → g'.lastRead = g.lastRead) ∧ AtomDone s t o l n)

/-- R356: `lds` and `sts` outside the team's allocation raise PROTECTION at the first bad access; inside it `lds` becomes a producer of its accesses, with
its lines recorded in a region, and `sts` puts one entry with its bytes, highest lane last, at the end of the store queue. A handle at or above the
tile limit is ILLEGAL, `lds` waits for a READY tile, and `sts` needs an EMPTY one.
The model's readings in it: logs 15, 22, 52. -/
def Obligations.ScratchpadIssue : Prop :=
  ∀ (f : Fields) (s : State) (e : Env), e.g.sized →
    let h := scratchHandle f
    (Ready s e .lds f →
      let scalar := f.dst.isS
      let n := if scalar then scalarBytes f.ty else laneBytes f.ty
      let as := scratchAccs e f scalar
      (badHandle e h = true → exec (.lds f) s = trap0 s e .lds f 0x01) ∧
      (badHandle e h = false → tileNot e .ready h = true → exec (.lds f) s = .next s) ∧
      (badHandle e h = false → tileNot e .ready h = false →
        (scalar = true → e.guard f = false → Completes (.lds f) s e .lds f fun g => g = { e.g with subs := g.subs, sig := g.sig }) ∧
        ((scalar = true → e.guard f = true) → scratchOk e f n as = false →
          exec (.lds f) s = trapAt s e .lds f 0x08 (scratchFault e f n as) false) ∧
        ((scalar = true → e.guard f = true) → scratchOk e f n as = true → Completes (.lds f) s e .lds f fun g =>
          Launched { e with g := recordLines e.g (as.map (fun a => LineId.scratch (a.2 / 64))) } g .lds f (tagOf f.ty) n (.lds as h)))) ∧
    (Ready s e .sts f →
      let scalar := f.sa.isS && !f.sb.isV
      let n := if scalar then scalarBytes f.ty else laneBytes f.ty
      let as := scratchAccs e f scalar
      let entry : StoreEntry :=
        { seq := e.g.seq, node := e.node, held := e.g.region.isOpen, kind := .scratch (scratchWrites e f scalar n as), pin := false, rel := none, commit := 0,
          acq := none }
      (badHandle e h = true → exec (.sts f) s = trap0 s e .sts f 0x01) ∧
      (badHandle e h = false → as = [] → Completes (.sts f) s e .sts f fun g => g = { e.g with subs := g.subs, sig := g.sig }) ∧
      (badHandle e h = false → as ≠ [] → tileNot e .empty h = true → exec (.sts f) s = trap0 s e .sts f 0x01) ∧
      (badHandle e h = false → as ≠ [] → tileNot e .empty h = false → scratchOk e f n as = false →
        exec (.sts f) s = trapAt s e .sts f 0x08 (scratchFault e f n as) false) ∧
      (badHandle e h = false → as ≠ [] → tileNot e .empty h = false → scratchOk e f n as = true →
        e.g.region.isOpen = false ∨ entry.lines.any (fun l => e.g.region.lines.contains l) = false ∧ (e.g.storeQ.filter (·.held)).length < 48 →
        Completes (.sts f) s e .sts f fun g =>
          g = { e.g with subs := g.subs, sig := g.sig, storeQ := e.g.storeQ ++ [entry], seq := e.g.seq + 1 }))

/-- R360: what an atomic of an integer type makes of the old value: add, min, max, and, or, xor, exchange, compare and exchange; `atom` with a result,
outside a region and without a release, becomes a producer of its operations, in ascending lane.
The model's readings in it: logs 15, 24. -/
def Obligations.Atomics : Prop :=
  (∀ (o : AtomOp) (old : Nat), o.ty = .n32 ∨ o.ty = .n64 ∨ o.ty = .i32 ∨ o.ty = .i64 →
    let n := elemBits o.ty
    let b := o.b.toNat % 2 ^ n
    old < 2 ^ n →
    (o.mod = 0 → atomNew o old = (old + b) % 2 ^ n) ∧
    (o.mod = 1 → Ty.signed o.ty = false → atomNew o old = min old b) ∧ (o.mod = 2 → Ty.signed o.ty = false → atomNew o old = max old b) ∧
    (o.mod = 1 → Ty.signed o.ty = true → signedOf n (atomNew o old) = min (signedOf n old) (signedOf n b)) ∧
    (o.mod = 2 → Ty.signed o.ty = true → signedOf n (atomNew o old) = max (signedOf n old) (signedOf n b)) ∧
    (o.mod = 3 → atomNew o old = old &&& b) ∧ (o.mod = 4 → atomNew o old = old ||| b) ∧ (o.mod = 5 → atomNew o old = old ^^^ b) ∧
    (o.mod = 6 → atomNew o old = b) ∧ (o.mod = 7 → atomNew o old = if old = b then o.c.toNat % 2 ^ n else old)) ∧
  (∀ (f : Fields) (s : State) (e : Env) (accs : List Acc), Ready s e .atom f → e.g.sized → f.dst ≠ .none → e.g.region.isOpen = false →
    e.g.region.reopen = none → e.g.fenceRel = none → f.aux = 0 ∨ f.aux = 1 → (atomScalar f = true ∨ f.dst.isS = true → e.guard f = true) →
    xlat s e .atomic (accesses e f (atomScalar f) true) = .ok s accs → hostUncached accs = none →
    Completes (.atom f) s e .atom f fun g =>
      Launched e g .atom f (tagOf f.ty) (laneBytes f.ty) (.atomic
        (accs.map (fun a => { acc := a, mod := f.mod, ty := f.ty, b := storeData e f f.sb (atomScalar f) a.lane
                              c := storeData e f f.sc (atomScalar f) a.lane })) []
        (if f.aux = 1 ∧ accs ≠ [] then scopeEff f.scope else .none) none))

/-- R357 to R359 and R409: `pref` whose pages are known completes and changes no register, flag or store, and from empty caches no byte of memory;
its line is then in the L1 for CACHE 0, in the L2 for CACHE 1. `clean`, `inval` and `clinv` do nothing for a length of 0, are ILLEGAL beyond 2^40
bytes or past the span's end, and else are under way with the sectors of the pages that translate; `fence` in a group with nothing outstanding
completes; an acquire takes the core past every version that the releases it meets had gone past, and a release is kept for the next store or
atomic.
The model's readings in it: logs 14, 15, 24, 27. -/
def Obligations.RangesAndFences : Prop :=
  (∀ (f : Fields) (s : State) (e : Env), Ready s e .pref f → e.g.rangeOps = [] → (∀ v ∈ prefVas e f, (pageAt s e v.toNat).isSome = true) →
    ∃ t g, exec (.pref f) s = .next t ∧ t.groups.find e.gid = some g ∧
      g = { e.g with subs := g.subs, sig := sigCounted e .pref f, inflight := g.inflight } ∧
      subOf g e.node = some { e.sub with pc := e.next f.form.length, walked := [] } ∧ (∀ n, n ≠ e.node → subOf g n = subOf e.g n) ∧
      (∀ k, k ≠ e.gid → (t.groups.find k).map (fun x => { x with inflight := [] }) = (s.groups.find k).map (fun x => { x with inflight := [] })) ∧
      (s.copies = [] → g.inflight = e.g.inflight ∧ (∀ sp a, newestByte t sp a = newestByte s sp a) ∧
        ∀ v l, prefVas e f = [v] → prefLoc s e v = some l → lineHeld s l.space (l.addr / 256) 0 = false →
          portHeld s (dieOfCore e.core) l = false → sectorWaits s l.space (locSector l) = false → badLoc s l = false →
          (l.space = .dram → codeOf s (l.addr / 256) = 3) →
          (l.cache = 0 → (copyAt t (.l1 e.core) l.space (locSector l)).isSome = true) ∧
          (l.cache = 1 → (copyAt t .home l.space (locSector l)).isSome = true))) ∧
  (∀ (op : Op) (f : Fields) (s : State) (e : Env), op ∈ [Op.clean, .inval, .clinv] → Ready s e op f →
    let a := (readS e.g f f.sa).toNat
    let len := if f.sb.isS then (readS e.g f f.sb).toNat else f.imm.toNat
    let ps := rangePages s e op f (e.va (readS e.g f f.sa)).toNat len
    (e.guard f = false ∨ len = 0 → Completes (op.instr f) s e op f fun g => g = { e.g with subs := g.subs, sig := g.sig }) ∧
    (e.guard f = true → len ≠ 0 → len > 2 ^ 40 ∨ a + len > 2 ^ 64 → exec (op.instr f) s = trap0 s e op f 0x01) ∧
    (e.guard f = true → len ≠ 0 → len ≤ 2 ^ 40 → a + len ≤ 2 ^ 64 → (∀ p ∈ ps, ∀ t, p ≠ .stop t) →
      Completes (op.instr f) s e op f fun g => ∃ r, r.op = op ∧ r.scope = scopeEff f.scope ∧ r.seq = e.g.seq ∧ r.node = e.node ∧
        (∀ sp pa n, (sp, pa, n) ∈ r.spans ↔ ∃ l, RangePage.part n l ∈ ps ∧ l.space = sp ∧ l.addr = pa) ∧
        (∀ x, x ∈ r.sectors ↔ ∃ n l, RangePage.part n l ∈ ps ∧ x ∈ stretchSectors l n) ∧
        g = { e.g with subs := g.subs, sig := g.sig, rangeOps := e.g.rangeOps ++ [r], seq := e.g.seq + 1 })) ∧
  (∀ (f : Fields) (s : State) (e : Env), Ready s e .fence f → e.g.storeQ = [] → e.g.inflight = [] → e.g.rangeOps = [] →
    homeFlights s e.core = false → (scopeRank (scopeEff f.scope) ≥ 4 → dirtyHeld s e.core = false) →
    (e.guard f = false → Completes (.fence f) s e .fence f fun g => g = { e.g with subs := g.subs, sig := g.sig }) ∧
    (e.guard f = true → ∃ t g, exec (.fence f) s = .next t ∧ t.groups.find e.gid = some g ∧
      (∀ k, k ≠ e.gid → (t.groups.find k).map (fun x => { x with inflight := [] }) = (s.groups.find k).map (fun x => { x with inflight := [] })) ∧
      g = { e.g with subs := g.subs, sig := sigCounted e .fence f, fenceRel := g.fenceRel } ∧
      subOf g e.node = some { e.sub with pc := e.next f.form.length, walked := [] } ∧ (∀ n, n ≠ e.node → subOf g n = subOf e.g n) ∧
      g.fenceRel = (if f.aux = 1 then e.g.fenceRel else match e.g.fenceRel with
        | none => some (scopeEff f.scope)
        | some r => some (scopeMax r (scopeEff f.scope))) ∧
      (f.aux ≠ 2 → ∀ r ∈ e.g.lastRead.2, r.meets (scopeEff f.scope) e.gid e.g.team e.core = true → ∀ v ∈ r.rel.view,
        ∀ p ∈ t.past, p.id = v → Party.core e.core ∈ p.seen ∧ ∀ c ∈ t.copies, c.place = .l1 e.core → v ∉ c.stale)))

/-! ### Barriers, condition monitors, the probe (spec/08_barrier.md) -/

/-- R125 to R128: `bara` and `bars` outside a region arrive with their count, and a count of 0, a barrier at or above the team's limit is ILLEGAL;
an arrival, which SIG does not count before then (log 25), is counted once nothing of the group is outstanding: the first sets COUNT, one of a differing count raises BARRIER_MISMATCH, the last
clears COUNT and ARRIVED and flips PAR; `bars` waits when it is not the last. `barq` reads PAR, ARRIVED and COUNT.
The model's reading in it: log 25. -/
def Obligations.Barriers : Prop :=
  (∀ (op : Op) (f : Fields) (s : State) (e : Env), op = .bara ∨ op = .bars → Ready s e op f →
    let b := bits f.imm.toNat 3 0
    let c := if f.sa = .none then bits f.imm.toNat 15 8 else (readS e.g f f.sa).toNat % 256
    (b ≥ e.team.barriers.length → exec (op.instr f) s = trap0 s e op f 0x01) ∧
    (b < e.team.barriers.length → e.g.region.isOpen = true → exec (op.instr f) s = trap0 s e op f 0x03) ∧
    (b < e.team.barriers.length → e.g.region.isOpen = false → c = 0 → exec (op.instr f) s = trap0 s e op f 0x01) ∧
    (b < e.team.barriers.length → e.g.region.isOpen = false → c ≠ 0 → ∃ t g, exec (op.instr f) s = .next t ∧
      EndedAs s t e op f { e.sub with st := .arriving b c (op == .bars) f.form.length } g ∧ g = { e.g with subs := g.subs })) ∧
  (∀ (f : Fields) (s : State) (e : Env), Ready s e .barq f → e.g.sized →
    let n := bits f.imm.toNat 3 0
    let b := e.team.barriers.getD n { count := 0, arrived := 0, par := false }
    (n ≥ e.team.barriers.length → exec (.barq f) s = trap0 s e .barq f 0x01) ∧
    (n < e.team.barriers.length → Completes (.barq f) s e .barq f fun g => OnlyRegs e.g g (dests e.g.s .barq f) ∧ SameMasks e.g g ∧
      ∀ k, f.dst = .s k → sreg g k.val = if e.guard f then
        { val := BitVec.ofNat 64 (b.count.toNat + 2 ^ 8 * b.arrived.toNat + 2 ^ 16 * b.par.toNat), full := true } else sreg e.g k.val)) ∧
  (∀ (s : State) (gid node : Nat) (g : Group) (team : Team) (x : Sub) (bar c k : Nat) (waits : Bool),
    s.groups.find gid = some g → s.teams.find g.team = some team → subOf g node = some x → x.st = .arriving bar c waits k →
    releaseHeldUp s team.core g .team = false → bar < team.barriers.length → 0 < c → c < 256 →
    let b := team.barriers.getD bar { count := 0, arrived := 0, par := false }
    (b.count ≠ 0 → b.count.toNat ≠ c → exec (.barrierArrive gid node) s =
      .next (raise (onGroup s gid (fun g => onSub g node (fun x => { x with st := .runnable }))) gid node 0x06 x.pc 0 false)) ∧
    (b.count = 0 ∨ b.count.toNat = c →
      let seen := if b.count = 0 then 1 else b.arrived.toNat + 1
      ∃ t team' g' y, exec (.barrierArrive gid node) s = .next t ∧ t.teams.find g.team = some team' ∧ t.groups.find gid = some g' ∧
        subOf g' node = some y ∧
        team'.barriers = team.barriers.set bar
          (if seen < c then { count := BitVec.ofNat 8 c, arrived := BitVec.ofNat 8 seen, par := b.par } else { count := 0, arrived := 0, par := !b.par }) ∧
        y.pc = x.pc + BitVec.ofNat 80 k ∧ y.st = (if waits && decide (seen < c) then .waitBars bar else .runnable) ∧
        (seen ≥ c → ∀ p ∈ t.groups, p.2.team = g.team → ∀ z ∈ p.2.subs, z.st ≠ .waitBars bar)))

/-- R131 and R132: `waitc` under a false guard has no effect; on a readable DRAM place that no cache holds, with nothing of the group before it, it
becomes a producer of the value when the comparison holds, and else waits in MONITOR with a monitor of the home slice, or unarmed when the slice's
1,024 are taken. MONITOR_WAKE ends the wait of a satisfied waiter behind the `waitc`.
The model's readings in it: log 25. -/
def Obligations.ConditionMonitors : Prop :=
  (∀ (f : Fields) (s : State) (e : Env), Ready s e .waitc f → e.g.sized →
    let n := if f.ty = .n64 then 8 else 4
    let va := alignDown (eaScalar e f) n
    (e.guard f = false → Completes (.waitc f) s e .waitc f fun g => g = { e.g with subs := g.subs, sig := g.sig }) ∧
    (∀ a l, e.guard f = true → xlat s e .read [{ lane := 0, va := va, size := n }] = .ok s [a] → a.locs.head? = some l → l.space = .dram →
      e.g.storeQ = [] → e.g.inflight = [] → lineHeld s .dram (l.addr / 256) 0 = false → portHeld s (dieOfCore e.core) l = false →
      badLoc s l = false → Plain s e.core l →
      let v := newestLe s .dram l.addr n
      (compareMem f.mod (8 * n) v ((readS e.g f f.sb).toNat % 2 ^ (8 * n)) = true →
        ∃ t g, exec (.waitc f) s = .next t ∧ t.groups.find e.gid = some g ∧
          subOf g e.node = some { e.sub with pc := e.next f.form.length, walked := [] } ∧ Launched e g .waitc f tagRaw 0 (.values [(0, BitVec.ofNat 64 v)] [])) ∧
      (compareMem f.mod (8 * n) v ((readS e.g f f.sb).toNat % 2 ^ (8 * n)) = false →
        let armed := decide (sliceMonitors s .dram l.addr < 1024)
        ∃ t g, exec (.waitc f) s = .next t ∧ t.groups.find e.gid = some g ∧
          subOf g e.node = some { e.sub with st := .monitor e.g.seq armed f.form.length f.mod } ∧
          t.monitors = (if armed then
            s.monitors ++ [{ space := .dram, addr := l.addr, size := n, cmp := f.mod, operand := BitVec.ofNat 64 ((readS e.g f f.sb).toNat % 2 ^ (8 * n)),
                             mask := BitVec.ofNat 64 (2 ^ (8 * n) - 1), ctx := e.team.ctx, waiter := .sub e.gid e.g.seq }] else s.monitors)))) ∧
  (∀ (s : State) (gid node id k : Nat) (g : Group) (team : Team) (c : Context) (x : Sub) (armed : Bool) (cmp : BitVec 4) (i : Inflight) vals flags,
    s.groups.find gid = some g → s.teams.find g.team = some team → s.contexts.find team.ctx = some c → ctxIssues c = true →
    subOf g node = some x → x.st = .monitor id armed k cmp → g.inflight.find? (fun j => j.seq == id) = some i → i.what = .values vals flags →
    ∃ t g', exec (.monitorWake gid node) s = .next t ∧ t.groups.find gid = some g' ∧
      subOf g' node = some { x with pc := x.pc + BitVec.ofNat 80 k, st := .runnable } ∧ g'.inflight = g.inflight.filter (fun j => j.seq != id)) ∧
  (∀ (s : State) (gid node id k : Nat) (g : Group) (team : Team) (c : Context) (x : Sub) (cmp : BitVec 4) (i : Inflight) (a : Acc) (op : W64) (sc : Scope)
      (l : Loc),
    s.groups.find gid = some g → s.teams.find g.team = some team → s.contexts.find team.ctx = some c → ctxIssues c = true →
    subOf g node = some x → x.st = .monitor id false k cmp → g.inflight.find? (fun j => j.seq == id) = some i → i.what = .wait a cmp op sc →
    a.locs.head? = some l → l.space = .dram → lineHeld s .dram (l.addr / 256) 0 = false →
    portHeld s (dieOfCore team.core) l = false → badLoc s l = false → Plain s team.core l →
    let v := newestLe s .dram l.addr a.locs.length
    let holds := compareMem cmp (8 * a.locs.length) v (op.toNat % 2 ^ (8 * a.locs.length))
    ∃ t g', exec (.monitorRecheck gid node) s = .next t ∧ t.groups.find gid = some g' ∧
      g' = { g with inflight := if holds then g.inflight.map (fun j => if j.seq == id then { j with what := .values [(0, BitVec.ofNat 64 v)] [] } else j)
                                else g.inflight })

/-- R135: `fprobe` under the scalar guard stands probing its channels, and PROBE_COMPLETE, once no committed store of the group is left, clears the
destination sets of those channels (all four for a mask of 0) and lets it go on behind the `fprobe`; under a false guard it has no effect.

R113, R165, R191, R301 and R355: a sub-group that waits in Commit() is RUNNABLE again at its instruction when the region's producers and fills are
done, with the region CLOSED; a sleep whose clk have elapsed ends (it is held with the 256 clk more within which R301 lets it end); a refused access is sent again; a range operation whose turn has come acts on its last
sector, and is gone.
The model's readings in it: logs 15, 25. -/
def Obligations.ProbeAndWaitsEnd : Prop :=
  ((∀ (f : Fields) (s : State) (e : Env), Ready s e .fprobe f →
      (e.guard f = false → Completes (.fprobe f) s e .fprobe f fun g => g = { e.g with subs := g.subs, sig := g.sig }) ∧
      (e.guard f = true → ∃ t g, exec (.fprobe f) s = .next t ∧
        EndedAs s t e .fprobe f { e.sub with st := .probing (f.imm.setWidth 4) f.form.length } g ∧ g = { e.g with subs := g.subs })) ∧
    (∀ (s : State) (gid node k : Nat) (g : Group) (team : Team) (x : Sub) (m : BitVec 4),
      s.groups.find gid = some g → s.teams.find g.team = some team → subOf g node = some x → x.st = .probing m k → committedStores g = false →
      (∀ y ∈ s.flights, y.ofCore team.core = false) →
      ∃ t g', exec (.probeComplete gid node) s = .next t ∧ t.groups.find gid = some g' ∧
        subOf g' node = some { x with pc := x.pc + BitVec.ofNat 80 k, st := .runnable } ∧
        ∀ ch, (coreOf t team.core).channels.getD ch [] =
          if m = 0 ∨ m.getLsbD ch = true then [] else (coreOf s team.core).channels.getD ch [])) ∧
  ((∀ (gid node : Nat) (s : State) (g : Group) (team : Team) (x : Sub), s.groups.find gid = some g → s.teams.find g.team = some team →
      subOf g node = some x → x.st = .committing → (g.region.isOpen = true → commitWaits g = false) →
      ∃ t g', exec (.commitProceed gid node) s = .next t ∧ t.groups.find gid = some g' ∧ g'.region.isOpen = false ∧
        (g.region.isOpen = true → g'.region.reopen = some (node, g.region.p, g.region.q) ∧ g'.region.reentry = 0 ∧
          g'.storeQ = g.storeQ.mapIdx (fun i y => if y.held then { y with held := false, seq := g.seq + i, commit := g.seq } else y)) ∧
        subOf g' node = some { x with st := .runnable } ∧ g'.vregs = g.vregs ∧ g'.sregs = g.sregs ∧ SameMasks g g' ∧
        (∀ k, k ≠ gid → t.groups.find k = s.groups.find k) ∧ ∀ sp a, newestByte t sp a = newestByte s sp a) ∧
    (∀ (gid node : Nat) (s : State) (g : Group) (x : Sub) (n : Nat), s.groups.find gid = some g → subOf g node = some x → x.st = .sleeping n →
      ∃ t g', exec (.sleepExpire gid node) s = .next t ∧ t = { s with groups := t.groups } ∧ t.groups.find gid = some g' ∧
        g' = { g with subs := g'.subs } ∧ subOf g' node = some (if n ≤ 256 then { x with st := .runnable } else x)) ∧
    (∀ (gid id : Nat) (s : State) (g : Group), s.groups.find gid = some g →
      ∃ t, exec (.retryResend gid id) s = .next t ∧ t = { s with groups := t.groups } ∧ t.groups.find gid = some { g with
        inflight := g.inflight.map (fun i => if i.seq == id then { i with retrying := false } else i) }) ∧
    (∀ (gid id : Nat) (s : State) (g : Group) (team : Team) (r : RangeOp), s.groups.find gid = some g → s.teams.find g.team = some team →
      g.rangeOps.find? (fun x => x.seq == id) = some r → (∀ x ∈ g.storeQ, x.held = true ∨ r.seq ≤ x.seq) → acquirePending g r.seq = false →
      homeFlights s team.core = false → (r.op = .inval ∨ writeParked s r.spans = false) →
      (r.sectors = [] → ∃ t, exec (.rangeOpComplete gid id) s = .next t ∧ t = { s with groups := t.groups } ∧
        t.groups.find gid = some { g with rangeOps := g.rangeOps.filter (fun x => x.seq != id) }) ∧
      (∀ l, r.sectors = [l] → pinnedAway s l.space (locSector l) (some g.team) = false → rangeHeld s .sys team.core l = false →
        (∀ m ∈ s.monitors, ¬(m.space = l.space ∧ m.addr / 64 = locSector l)) → r.scope = .sys → r.op = .inval ∨ l.space ≠ .array → ∃ t, exec (.rangeOpComplete gid id) s = .next t ∧
          t.groups.find gid = some { g with rangeOps := g.rangeOps.filter (fun x => x.seq != id) } ∧
          (r.op ∈ [Op.inval, .clinv] → ∀ c ∈ t.copies, ¬(c.space = l.space ∧ c.sector = locSector l)) ∧
          (r.op = .clean → s.canonical → l.space = .dram → codeOf s (l.addr / 256) = 3 → (∀ c ∈ s.copies, c.space = .dram → c.sector = locSector l → c.place = .home ∧ c.dirty = true ∧ c.bytes.length = 64) →
            (∀ c ∈ t.copies, c.space = .dram → c.sector = locSector l → c.dirty = false) ∧
            ∀ i, i < 64 → newestByte t .dram (locSector l * 64 + i) = newestByte s .dram (locSector l * 64 + i) ∧
              backing t .dram (locSector l * 64 + i) = newestByte t .dram (locSector l * 64 + i)))))

/-! ### Tiles, engine commands, array commands (spec/21_ref_engines.md, spec/04_queue.md) -/

/-- R76, R77 and R324: `mov` from an engine queue of 0 to 4, under the scalar guard, becomes a producer of the record of the oldest entry that no pop
has taken; no such entry, or a record not yet there under TRAP, raises EMPTY_SOURCE, and the record of a drain held for Commit() REGION_LEGALITY.
The pop waits for the command and for earlier pops of the queue, then gives its destination the payload, the status at bit 40 and the tag at bit 48, and frees the entry, unless its
region is still open. -/
def Obligations.QueuePops : Prop :=
  (∀ (i : Instr) (f : Fields) (s : State) (e : Env), i = .movFromQueue f ∨ (∃ r, i = .mov4B r ∧ f = Four.fields r 0 .none) →
    ∀ n, f.sa = .q n →
    (Legal s e .movFromQueue f →
      (n.val ≥ 5 → exec i s = trap0 s e .movFromQueue f 0x01) ∧
      (n.val < 5 → mustWait s e .movFromQueue f false = false → e.guard f = true →
        (oldestCmd e.g n.val = none → exec i s = trap0 s e .movFromQueue f 0x09) ∧
        (∀ c, oldestCmd e.g n.val = some c → f.fep.getLsbD 2 = true → c.st ≠ .done → exec i s = trap0 s e .movFromQueue f 0x09))) ∧
    (Ready s e .movFromQueue f → n.val < 5 → e.guard f = false → Completes i s e .movFromQueue f (Unmoved e)) ∧
    (∀ c, Ready s e .movFromQueue f → n.val < 5 → e.guard f = true → oldestCmd e.g n.val = some c →
      (c.waitCommit = true → exec i s = trap0 s e .movFromQueue f 0x03) ∧
      (c.waitCommit = false → Completes i s e .movFromQueue f fun g =>
        Launched e { g with queues := e.g.queues } .movFromQueue f tagRaw 0 (.pop n.val c.seq) ∧
        g.queues = e.g.queues.modify n.val (fun l => l.map (fun d => if d.seq == c.seq then { d with popped := true } else d))))) ∧
  (∀ (s : State) (gid id q cmd : Nat) (g : Group) (i : Inflight) (team : Team) (c : Command) (n : Fin 64), s.groups.find gid = some g → g.sized →
    g.inflight.find? (fun j => j.seq == id) = some i → s.teams.find g.team = some team → i.retrying = false → inMonitor g id = false →
    i.what = .pop q cmd → i.dst = .s n → n.val < g.s → (g.queues.getD q []).find? (fun c => c.seq == cmd) = some c →
    (c.st ≠ .done ∨ popBefore g i q = true → exec (.longLatencyWriteback gid id) s = .next s) ∧
    (c.st = .done → popBefore g i q = false →
      ∃ g', exec (.longLatencyWriteback gid id) s = .next (setGroup (joinParty s (.core team.core) (.command gid cmd)) gid g') ∧
      g' = { g with sregs := g'.sregs, inflight := g.inflight.filter (fun j => j.seq != id)
                    queues := if i.region then g.queues else g.queues.modify q (fun l => l.filter (fun d => d.seq != cmd)) } ∧
      sreg g' n.val = { val := BitVec.ofNat 64 (c.payload % 2 ^ 40 + 2 ^ 40 * (c.status % 256) + 2 ^ 48 * c.tag.toNat), full := true } ∧
      ∀ k, k ≠ n.val → sreg g' k = sreg g k))

/-- R168 and R367 to R369: a handle at or above the tile limit is ILLEGAL even under a false guard, which else has no effect. `talloc` of a FREE tile
makes it EMPTY with the geometry and placement of its operands; `tset` of an EMPTY tile replaces what its operands name and makes it READY when IMM
says so; `tfree` of a tile that no command uses makes it FREE, inside a region at Commit(); `tstat` reads the entry. What breaks R368 is ILLEGAL,
areas outside the allocation raise PROTECTION, and another state is ILLEGAL.
The model's readings in it: log 22. -/
def Obligations.TileInstructions : Prop :=
  ∀ (f : Fields) (s : State) (e : Env), e.g.sized →
    let n := bits f.imm.toNat 5 0
    let old := e.team.tiles.getD n Tile.freed
    let entry : Nat → Nat → TileState → Tile := fun geom place st =>
      { old with st := st, tag := bits geom 3 0, rows := bits geom 15 8, cols := bits geom 23 16, pitch := bits geom 51 32, data := bits place 31 0
                 scale := bits place 63 32, chkValid := false }
    let sx : Nat → Bool := fun t => t == 10 || t == 11 || t == 12
    let legal : Nat → Tile → Prop := fun geom t =>
      bits geom 63 52 = 0 ∧ bits geom 31 24 = 0 ∧ bits geom 7 4 = 0 ∧ t.tag ≤ 12 ∧ 0 < t.rows ∧ t.rows ≤ 64 ∧ 0 < t.cols ∧ t.cols ≤ 64 ∧
      (sx t.tag = true → t.cols % 16 = 0) ∧ t.pitch % 4 = 0 ∧ t.cols * tagSize t.tag ≤ t.pitch ∧ t.data % 64 = 0 ∧ t.scale % 64 = 0 ∧
      (sx t.tag = false → t.scale = 0)
    let inside : Tile → Prop := fun t =>
      t.data + (t.rows - 1) * t.pitch + t.cols * tagSize t.tag ≤ e.team.launch.scratch * 1024 ∧
      (sx t.tag = true → t.scale + t.rows * t.cols / 8 ≤ e.team.launch.scratch * 1024)
    let put : Tile → State := fun t => setTeam s e.g.team { e.team with tiles := e.team.tiles.set n t }
    (∀ op ∈ [Op.talloc, .tfree, .tstat, .tset], Ready s e op f →
      (n ≥ e.team.tiles.length → exec (op.instr f) s = trap0 s e op f 0x01) ∧
      (n < e.team.tiles.length → e.guard f = false → Completes (op.instr f) s e op f (Unmoved e))) ∧
    (n < e.team.tiles.length → e.guard f = true →
      (Ready s e .talloc f →
        let geom := (readS e.g f f.sa).toNat
        let place := (readS e.g f f.sb).toNat
        let t : Tile := { entry geom place .empty with rowSums := List.replicate 64 0, colSums := List.replicate 64 0 }
        (old.st ≠ .free → exec (.talloc f) s = trap0 s e .talloc f 0x01) ∧
        (old.st = .free → ¬legal geom t → exec (.talloc f) s = trap0 s e .talloc f 0x01) ∧
        (old.st = .free → legal geom t → ¬inside t → exec (.talloc f) s = trapAt s e .talloc f 0x08 (BitVec.ofNat 80 t.data) false) ∧
        (old.st = .free → legal geom t → inside t → CompletesFrom (.talloc f) s (put t) e .talloc f fun g =>
          g = { e.g with subs := g.subs, sig := g.sig, region := { e.g.region with
            tallocs := if e.g.region.isOpen then e.g.region.tallocs ++ [n] else e.g.region.tallocs } })) ∧
      (Ready s e .tset f → e.g.region.isOpen = true → exec (.tset f) s = trap0 s e .tset f 0x03) ∧
      (Ready s e .tset f → e.g.region.isOpen = false →
        let geom := if f.sa = .none then old.tag + old.rows * 2 ^ 8 + old.cols * 2 ^ 16 + old.pitch * 2 ^ 32 else (readS e.g f f.sa).toNat
        let place := if f.sb = .none then old.data + old.scale * 2 ^ 32 else (readS e.g f f.sb).toNat
        let t := entry geom place (if f.imm.getLsbD 8 then .ready else .empty)
        (old.st ≠ .empty → exec (.tset f) s = trap0 s e .tset f 0x01) ∧
        (old.st = .empty → ¬legal geom t → exec (.tset f) s = trap0 s e .tset f 0x01) ∧
        (old.st = .empty → legal geom t → ¬inside t → exec (.tset f) s = trapAt s e .tset f 0x08 (BitVec.ofNat 80 t.data) false) ∧
        (old.st = .empty → legal geom t → inside t → CompletesFrom (.tset f) s (put t) e .tset f (Unmoved e))) ∧
      (Ready s e .tfree f →
        (old.st = .free → exec (.tfree f) s = trap0 s e .tfree f 0x01) ∧
        (old.st = .filling ∨ old.st = .draining ∨ (old.st ≠ .free ∧ tileUsed s e.g.team n = true) → exec (.tfree f) s = .next s) ∧
        (old.st = .empty ∨ old.st = .ready → tileUsed s e.g.team n = false →
          (e.g.region.isOpen = false → CompletesFrom (.tfree f) s (put Tile.freed) e .tfree f (Unmoved e)) ∧
          (e.g.region.isOpen = true → Completes (.tfree f) s e .tfree f fun g =>
            g = { e.g with subs := g.subs, sig := g.sig, region := { e.g.region with tfrees := e.g.region.tfrees ++ [n] } }))) ∧
      (Ready s e .tstat f → Completes (.tstat f) s e .tstat f fun g => OnlyRegs e.g g (dests e.g.s .tstat f) ∧ SameMasks e.g g ∧
        ∀ k, f.dst = .s k → sreg g k.val = { full := true, val := BitVec.ofNat 64 (2 ^ 8 * old.tag + 2 ^ 16 * old.rows + 2 ^ 24 * old.cols +
          2 ^ 32 * old.chkValid.toNat + match old.st with
            | .free => 0
            | .empty => 1
            | .filling => 2
            | .ready => 3
            | .draining => 4) }))

/-- R364, R370 to R378, at issue, with handles below their limits: under a false guard a command of the copy or matrix engine or of Cicada has no effect;
while its queue holds 16 entries it waits; a walk asked for or a fault raised while its ranges are translated is the next state, where a tile copy's
range is contiguous from its first row's first byte to its last row's last; else, with its tiles as R171 asks and outside a region, it takes
the last place of its queue: q0 for the matrix engine, q1 for the copy engine, q2 for Cicada. Handles at or above the limits, and a fill of a FREE
tile, are ILLEGAL.
The model's readings in it: logs 15, 22. -/
def Obligations.EngineCommandIssue : Prop :=
  ∀ (op : Op) (f : Fields) (s : State) (e : Env), Ready s e op f →
    op ∈ [Op.cpyIn, .cpyOut, .cpyMm, .mma, .mzero, .mload, .mdrain, .mdrainAdd, .stash, .restore] →
    let i := op.instr f
    let q := if op ∈ [Op.cpyIn, .cpyOut, .cpyMm] then 1 else if op ∈ [Op.stash, .restore] then 2 else 0
    let a := readS e.g f f.sa
    let b := readS e.g f f.sb
    let toTl := f.imm.getLsbD 10
    let handles := match op with
      | .cpyIn | .cpyOut => [bits f.imm.toNat 5 0]
      | .mma => [bits f.imm.toNat 9 4, bits f.imm.toNat 15 10]
      | .mload | .mdrain | .mdrainAdd => if toTl then [bits f.imm.toNat 9 4] else []
      | .stash | .restore => [bits f.imm.toNat 21 16]
      | _ => []
    let usesAcc := op ∈ [Op.mma, .mzero, .mload, .mdrain, .mdrainAdd]
    let bad := (∃ h ∈ handles, h ≥ e.team.tiles.length) ∨ (usesAcc ∧ bits f.imm.toNat 3 0 ≥ e.team.accs.length)
    let tl := e.team.tiles.getD (handles.headD 0) Tile.freed
    let tl2 := e.team.tiles.getD (bits f.imm.toNat 15 10) Tile.freed
    let full := (e.g.queues.getD q []).length ≥ 16
    let row := rowBytes tl
    let p := if b.toNat = 0 then row else b.toNat
    let r := rectOf f b.toNat
    let runs : List Trans → W64 → W64 → W64 → Bool → Prop := fun ts vd va vb w =>
      Completes i s e op f fun g => Queued e g op f q vd va vb ts w 0
    let through : EngX → (List Trans → Prop) → Prop := fun x ok => match x with
      | .ok ts => ok ts
      | .wait t => exec i s = .next t
      | .stop t => exec i s = .next (account t e op f)
    let range : List (VAddr × Nat) := [(e.va a, (tl.rows - 1) * p + row)]
    (bad → exec i s = trap0 s e op f 0x01) ∧
    (¬bad → e.guard f = false → Completes i s e op f (Unmoved e)) ∧
    (¬bad → e.guard f = true → full → exec i s = .next s) ∧
    (¬bad → e.guard f = true → ¬full → e.g.region.isOpen = false → e.g.region.reopen = none →
      (op = .cpyIn ∨ op = .restore → tl.st = .free → exec i s = trap0 s e op f 0x01) ∧
      (op = .cpyIn → tl.st = .empty ∨ tl.st = .ready ∧ tileRead s e.g.team (handles.headD 0) = false → row ≤ p → p < 2 ^ 32 →
        through (engTranslate s e .engineRead allow range) fun ts => runs ts 0 a (BitVec.ofNat 64 p) false) ∧
      (op = .cpyOut → tl.st ≠ .ready → exec i s = .next s) ∧
      (op = .cpyOut → tl.st = .ready → row ≤ p → p < 2 ^ 32 →
        through (engTranslate s e .engineWrite allow range) fun ts => runs ts 0 a (BitVec.ofNat 64 p) false) ∧
      (op = .cpyIn ∨ op = .cpyOut → tl.st = .ready → tileRead s e.g.team (handles.headD 0) = false → p < row ∨ p ≥ 2 ^ 32 →
        exec i s = trap0 s e op f 0x01) ∧
      (op = .cpyMm →
        let d := readS e.g f f.dst
        let len := if f.sb.isS then b.toNat else f.imm.toNat
        (len ≥ 2 ^ 32 ∨ a.toNat + len > 2 ^ 64 ∨ d.toNat + len > 2 ^ 64 → exec i s = trap0 s e op f 0x01) ∧
        (len < 2 ^ 32 → a.toNat + len ≤ 2 ^ 64 → d.toNat + len ≤ 2 ^ 64 →
          through (engTranslate s e .engineRead allow [(e.va a, len)]) fun src =>
            through (engTranslate s e .engineWrite allow [(e.va d, len)]) fun ts => runs (src ++ ts) d a (BitVec.ofNat 64 len) false)) ∧
      (op = .mma → tl.st ≠ .ready ∨ tl2.st ≠ .ready → exec i s = .next s) ∧
      (op = .mma → tl.st = .ready → tl2.st = .ready →
        (tl.tag ≠ (tagOf f.ty).toNat ∨ tl2.tag ≠ (tagOf f.ty).toNat → exec i s = trap0 s e op f 0x02) ∧
        (tl.tag = (tagOf f.ty).toNat → tl2.tag = (tagOf f.ty).toNat →
          (mmaIllegal f.ty a.toNat tl tl2 = true → exec i s = trap0 s e op f 0x01) ∧
          (mmaIllegal f.ty a.toNat tl tl2 = false → runs [] 0 a 0 false))) ∧
      (op = .mzero → runs [] 0 0 0 false) ∧
      (op = .mload → toTl = false → rectIllegal f b.toNat a.toNat = false →
        through (engTranslate s e .engineRead allow (rowSegs (e.va a) r.rows r.pitch (r.cols * 4))) fun ts => runs ts 0 a b false) ∧
      (op = .mload → toTl = true → tl.st = .ready → tl.tag = 3 → rectIllegal f b.toNat a.toNat = false → r.rows ≤ tl.rows → r.cols ≤ tl.cols →
        runs [] 0 a b false) ∧
      (op = .mdrain → toTl = false → rectIllegal f b.toNat a.toNat = false →
        through (engTranslate s e .engineWrite allow (rowSegs (e.va a) r.rows r.pitch (r.cols * 4))) fun ts => runs ts 0 a b false) ∧
      (op = .mdrainAdd → toTl = false → rectIllegal f b.toNat a.toNat = false →
        through (engTranslate s e .engineWrite (fun t => !t.r || hostUc t) (rowSegs (e.va a) r.rows r.pitch (r.cols * 4)))
          fun ts => runs ts 0 a b false) ∧
      (op = .mdrain ∨ op = .mdrainAdd → toTl = true → tl.st ≠ .free → tl.tag = 3 → rectIllegal f b.toNat a.toNat = false → r.rows ≤ tl.rows →
        r.cols ≤ tl.cols → runs [] 0 a b false) ∧
      (op = .stash ∧ tl.st = .ready ∨
          op = .restore ∧ (tl.st = .empty ∨ tl.st = .ready ∧ tileRead s e.g.team (handles.headD 0) = false) →
        let len := if f.sb.isS then b.toNat else bits f.imm.toNat 15 0
        let block := if f.aux = 1 then 32 else 64
        let good := len = (tl.rows * tl.cols + 63) / 64 * block ∧ a.toNat % block = 0
        (tl.tag ≠ 3 → tl.tag ≠ 4 → exec i s = trap0 s e op f 0x02) ∧
        (tl.tag = 3 ∨ tl.tag = 4 → ¬good → exec i s = trap0 s e op f 0x0D) ∧
        (tl.tag = 3 ∨ tl.tag = 4 → good →
          through (engTranslate s e (if op = .stash then .engineWrite else .engineRead) notStash [(e.va a, len)])
            fun ts => runs ts 0 a (BitVec.ofNat 64 len) false)))

/-- R118 and R119: an instruction that commits, under the scalar guard in an open region (`cpy.out`, `cpy.mm`, `stash`, `xrun`, `xgate`, `post`, `mdrain`
and `mdrain.add` to memory, a store or atomic that releases, an `atom` with a result), waits with its PC at the instruction while a producer or a
fill of the region has not completed; else it does what it does in the state that Commit() leaves, where the region is CLOSED and its P and Q are
kept; there the region opens again at Next, with the same P and Q, when the instruction ends. An `atom` with a result ends when it has been
performed: its sub-group waits at it till then, and the region opens behind it.
The model's readings in it: logs 23, 67, 88. -/
def Obligations.CommittingCommands : Prop :=
  (∀ (op : Op) (f : Fields) (s : State) (e : Env), Ready s e op f →
    op ∈ [Op.cpyOut, .cpyMm, .stash, .xrun, .xgate, .post, .mdrain, .mdrainAdd, .st, .atom] →
    (op = .mdrain ∨ op = .mdrainAdd → f.imm.getLsbD 10 = false ∧ bits f.imm.toNat 3 0 < e.team.accs.length) → e.guard f = true →
    let i := op.instr f
    let q := if op ∈ [Op.cpyOut, .cpyMm] then 1 else if op = .stash then 2 else if op ∈ [Op.xrun, .xgate] then 3 else if op = .post then 4 else 0
    let n := if op = .cpyOut then bits f.imm.toNat 5 0 else bits f.imm.toNat 21 16
    let tileReady : Team → Prop := fun t => op = .cpyOut ∨ op = .stash → n < t.tiles.length ∧ (t.tiles.getD n Tile.freed).st = .ready ∧
      (op = .stash → (t.tiles.getD n Tile.freed).tag = 3 ∨ (t.tiles.getD n Tile.freed).tag = 4)
    tileReady e.team →
    (op = .post → (∃ k : Fin 64, f.sa = .s k ∧ k.val + 3 < e.g.s ∧ (sreg e.g k.val).val.toNat % 128 = 0 ∧
      ∃ t, pageAt s e (e.va (sreg e.g (k.val + 1)).val).toNat = some (.leaf t))) →
    (op = .st → releaseScope e.g (f.aux == 2) f.scope ≠ none) →
    (op = .atom → f.dst ≠ .none ∨ releaseScope e.g (f.aux == 2 || f.aux == 3) f.scope ≠ none) →
    (op ≠ .st → op ≠ .atom → (e.g.queues.getD q []).length < 16) →
    (e.g.region.isOpen = true → commitWaits e.g = true → ∃ t g, exec i s = .next t ∧ t = { s with groups := t.groups } ∧
      t.groups.find e.gid = some g ∧ (∀ k, k ≠ e.gid → t.groups.find k = s.groups.find k) ∧ g = { e.g with subs := g.subs } ∧
      subOf g e.node = some { e.sub with st := .committing } ∧ ∀ n, n ≠ e.node → subOf g n = subOf e.g n) ∧
    (∀ e', e.g.region.isOpen = true → commitWaits e.g = false → Ready (commitNow s e.gid e.node) e' op f → e'.guard f = true → tileReady e'.team →
      closedAtoms e'.g = false →
      e'.g.region.isOpen = false ∧ e'.g.region.reopen = some (e.node, e.g.region.p, e.g.region.q) ∧
      exec i s = exec i (commitNow s e.gid e.node)) ∧
    (∀ p r t, e.g.region.isOpen = false → e.g.region.reopen = some (e.node, p, r) → exec i s = .next t → ∀ g, t.groups.find e.gid = some g →
      g.queues ≠ e.g.queues ∨ op = .st ∧ g.storeQ ≠ e.g.storeQ → g.region.isOpen = true ∧ g.region.p = p ∧ g.region.q = r ∧ g.region.reentry = 0 ∧
        (subOf g e.node).map (·.regionPc) = some (e.next f.form.length) ∧ (subOf g e.node).map (·.pc) = some (e.next f.form.length))) ∧
  (∀ (f : Fields) (s : State) (e : Env) (accs : List Acc) (r : Nat × Nat × Nat), Ready s e .atom f → f.dst ≠ .none → e.g.region.isOpen = false →
    e.g.region.reopen = some r → r.1 = e.node → closedAtoms e.g = false → e.g.fenceRel = none → f.aux = 0 ∨ f.aux = 1 → (atomScalar f = true ∨ f.dst.isS = true → e.guard f = true) →
    xlat s e .atomic (accesses e f (atomScalar f) true) = .ok s accs → hostUncached accs = none → accs ≠ [] →
    ∃ t g, exec (.atom f) s = .next t ∧ t.groups.find e.gid = some g ∧ g.region = e.g.region ∧ g.sig = sigCounted e .atom f ∧
      subOf g e.node = some { e.sub with st := .performing e.g.seq f.form.length } ∧ (∀ n, n ≠ e.node → subOf g n = subOf e.g n) ∧
      (∃ j, g.inflight = e.g.inflight ++ [j] ∧ j.seq = e.g.seq) ∧ ∀ sp a, newestByte t sp a = newestByte s sp a) ∧
  (∀ (s : State) (gid id n k p q : Nat) (g : Group) (i : Inflight) (team : Team) (o : AtomOp) (l : Loc) (x : Sub),
    s.groups.find gid = some g → g.inflight.find? (fun j => j.seq == id) = some i → s.teams.find g.team = some team →
    i.retrying = false → inMonitor g id = false → i.what = .atomic [o] [] .none none → AtomFree s team.core o l n →
    earlierFirst g i o.acc.locs = false → atomBefore g i.seq true o.acc.locs = false →
    (∀ y ∈ g.storeQ, y.held = true ∨ i.seq ≤ y.seq ∨ overlap y.locs o.acc.locs = false) →
    subOf g x.node = some x → x.st = .performing i.seq k → (∀ y ∈ g.subs, ∀ l m, y.st = .performing l m → y = x) →
    g.region.reopen = some (x.node, p, q) → closedAtoms { g with inflight := g.inflight.filter (fun j => j.seq != i.seq) } = false →
    ∃ t g', exec (.longLatencyWriteback gid id) s = .next t ∧ t.groups.find gid = some g' ∧ g'.region.isOpen = true ∧ g'.region.p = p ∧
      g'.region.q = q ∧ g'.region.reentry = 0 ∧ (subOf g' x.node).map (fun y => (y.pc, y.regionPc)) =
        some (x.pc + BitVec.ofNat 80 k, x.pc + BitVec.ofNat 80 k) ∧ (subOf g' x.node).map (·.st) = some .runnable ∧
      g'.inflight = g.inflight.filter (fun j => j.seq != i.seq) ∧ AtomDone s t o l n)

/-- R379 to R383: under a false guard `xcfg`, `xpool`, `xration`, `xstat`, `xrun`, `xgate` and `post` have no effect. On a SCARAB page that translates,
once no link on the way trains, `xcfg`, `xpool` and `xration` send their fields to the array's sequencer and complete; `xstat` reads the configuration word, state, map or wear,
after the configurations before it. Outside a region `xrun` and `xgate` take a place in q3, with the pages of their words and of their window, and wait
at the sequencer, a ROM word or a bare gate with no fetch; `post` takes one in q4 with its record; a schedule not aligned to 8 bytes, or a KID not to 128, is ILLEGAL.
The model's readings in it: logs 30, 50. -/
def Obligations.ArrayCommandIssue : Prop :=
  ∀ (op : Op) (f : Fields) (s : State) (e : Env), Ready s e op f → op ∈ [Op.xcfg, .xpool, .xration, .xstat, .xrun, .xgate, .post] →
    let i := op.instr f
    let imm := f.imm.toNat
    let va := e.va (readS e.g f f.sa)
    let b := readS e.g f f.sb
    let window := engTranslate s e (if op = .xstat then .engineRead else .engineWrite) notScarab [(va, 1)]
    let arr : List Trans → Nat := fun ts => arrayAt ts va
    let sends : Nat → ArrayCmd → Prop := fun n c => CompletesFrom i s (sendArray s e.core n c) e op f (Unmoved e)
    let sch : Schedule :=
      { gid := e.gid, cmd := e.g.seq, ctx := e.team.ctx, rom := none, gates := [], lo := 0, hi := 0, passes := 0, scrub := false, arrival := 0
        words := none }
    let queues : Nat → Schedule → List Trans → Nat → Prop := fun n x ts len =>
      CompletesFrom i s (sendArray s e.core n (.schedule x)) e op f fun g =>
        Queued e g op f 3 (BitVec.ofNat 64 n) (readS e.g f f.sa) b ts false len
    (op ≠ .post → e.guard f = false → Completes i s e op f (Unmoved e)) ∧
    (op ≠ .post → e.guard f = true → (op = .xrun ∨ op = .xgate → (e.g.queues.getD 3 []).length < 16 ∧ e.g.region.isOpen = false) →
      (∀ t, window = .wait t → exec i s = .next t) ∧
      (∀ t, window = .stop t → exec i s = .next (account t e op f)) ∧
      (∀ ts, window = .ok ts → op ∉ [Op.xrun, .xgate] → arrayHeld s e.core (arr ts) = true → exec i s = .next s) ∧
      (∀ ts, window = .ok ts → arrayHeld s e.core (arr ts) = false →
        (op = .xcfg → sends (arr ts) (.xcfg (bits imm 1 0))) ∧
        (op = .xpool → sends (arr ts) (.xpool (bits imm 17 17) (bits imm 9 0) (bits imm 16 10))) ∧
        (op = .xration → sends (arr ts) (.xration (bits imm 15 0))) ∧
        (op = .xstat → e.g.sized →
          let x := arrayOf s (arr ts)
          (x.run = none → configWaits x = true → exec i s = .next s) ∧
          (x.run.isSome = true ∨ configWaits x = false → Completes i s e op f fun g => OnlyRegs e.g g (dests e.g.s op f) ∧ SameMasks e.g g ∧
            ∀ k, f.dst = .s k → (sreg g k.val).full = true ∧
              (bits imm 1 0 = 0 → (sreg g k.val).val = x.cfg) ∧
              (bits imm 1 0 = 1 → ∀ r, x.run = some r → (sreg g k.val).val = BitVec.ofNat 64 (2 ^ 29 * (r.gate % 2048) + 2 ^ 21 * (r.pass % 256) +
                2 ^ 8 * ((x.waiting.filter (fun c => match c with
                  | .schedule _ => true
                  | _ => false)).length % 256) + match x.st with
                | .idle => 0
                | .running => 1
                | .paused => 2
                | .suspended => 3)) ∧
              (bits imm 1 0 = 2 → (sreg g k.val).val.toNat = match (if bits imm 2 2 = 0 then x.map0 else x.map1).getD (bits imm 12 3) none with
                | some l => l % 1024
                | none => 2 ^ 16) ∧
              (bits imm 1 0 = 3 → (sreg g k.val).val = BitVec.ofNat 64 ((x.wear.find (bits imm 2 2 * 1024 + bits imm 12 3)).getD 0)))) ∧
        (op = .xgate → e.g.region.reopen = none →
          queues (arr ts) { sch with gates := [b], lo := bits imm 9 0, hi := bits imm 19 10, passes := 1, scrub := imm.testBit 20 } ts 0) ∧
        (op = .xrun → f.imm.getLsbD 0 = true → e.g.region.reopen = none → queues (arr ts) { sch with rom := some b } ts 0) ∧
        (op = .xrun → f.imm.getLsbD 0 = false → b.toNat % 8 ≠ 0 → exec i s = trap0 s e op f 0x01) ∧
        (op = .xrun → f.imm.getLsbD 0 = false → b.toNat % 8 = 0 → e.g.region.reopen = none → ∀ hs ps,
          engTranslate s e .engineRead allow [(e.va b, 8)] = .ok hs →
          let ls := headerLocs hs (e.va b)
          headerWaits s e ls = none →
          let gates := bits (headerWord s e.g ls) 61 51
          let len := if gates = 0 ∨ gates > 1024 then 8 else 8 + 8 * gates
          engTranslate s e .engineRead allow [(e.va b, len)] = .ok ps → queues (arr ts) sch (ps ++ ts) len))) ∧
    (∀ n : Fin 64, op = .post → f.sa = .s n → n.val + 3 < e.g.s → (
        let arg : Nat → W64 := fun k => (sreg e.g (n.val + k)).val
        (e.guard f = false → Completes i s e op f (Unmoved e)) ∧
        (e.guard f = true → (e.g.queues.getD 4 []).length < 16 →
          ((arg 0).toNat % 128 ≠ 0 → exec i s = trap0 s e op f 0x01) ∧
          (∀ t, (arg 0).toNat % 128 = 0 → pageAt s e (e.va (arg 1)).toNat = some (.leaf t) → e.g.region.isOpen = false →
            e.g.region.reopen = none → e.g.queues.length = 5 →
            let l := t.loc (e.va (arg 1)).toNat
            Completes i s e op f fun g => ∃ args,
              Queued e g op f 4 0 (arg 0) (arg 1) [t] false (homeDie l.space l.addr) ∧
              Memory.readLe args 0 8 = (arg 2).toNat ∧ Memory.readLe args 8 8 = (arg 3).toNat ∧
              ((g.queues.getD 4 []).getLast?.map (·.buf)) = some args))))

/-! ### Steps of the machine itself: fetch, translation, caches, sub-groups (spec/17_encoding.md, spec/09_page.md, spec/10_tile.md) -/

/-- R144, R145, R157, R162, R277, R288, R289: an ILLEGAL word raises ILLEGAL at issue; a FETCH_FAULT word is fetched again: the word that comes takes its
place, a page that no TLB holds is walked, a sector of a busy array asks for admission, and the fault of the new fetch is raised; a fill ahead of
issue leaves its word, or a FETCH_FAULT word, in the one core's I-cache; a finished walk that no cached pointer serves leaves the queue, its leaf
enters the core's and the die's TLB and reaches the instruction that waits for it; a DRAM line evicted from its home slice is written behind the
caches, and every byte reads as before.
The model's readings in it: logs 1, 44, 45, 59. -/
def Obligations.FetchWalksAndEvictions : Prop :=
  (∀ (len : Nat) (s : State) (e : Env), envOf s = some e → takeDeferred s e = none → exec (.illegalWordIssue len) s =
    .next (raise (accountWord s e) e.gid e.node 0x01 e.sub.pc 0 false)) ∧
  (∀ (len : Nat) (s : State) (e : Env), envOf s = some e → takeDeferred s e = none →
    let look := pageAt s e
    let u := (fetchWord s e.team.ctx look e.sub.pc).1
    let put : Fetched → State := fun w => cacheWord u e.core e.team.ctx e.sub.pc w
    match (fetchWord s e.team.ctx look e.sub.pc).2 with
    | .word w => exec (.fetchFaultIssue len) s = .next (takeWord u e.core e.team.ctx look e.sub.pc w)
    | .miss v x => exec (.fetchFaultIssue len) s = .next (requestWalk (put (.faulted len)) e .fetch v x false)
    | .asks l => exec (.fetchFaultIssue len) s = .next (askRead u l)
    | .denied n v x => exec (.fetchFaultIssue len) s = .next (raise (accountWord (put (.faulted n)) e) e.gid e.node 0x08 e.sub.pc v x)
    | .poisoned n v => exec (.fetchFaultIssue len) s = .next (consumeError (accountWord (put (.faulted n)) e) e.gid e.node 0x0B v)) ∧
  (∀ (core ctx : Nat) (pc : VAddr) (s : State) (c : Context), s.contexts.find ctx = some c → core < 4096 → cachedWord s core ctx pc = none →
    let u := (fetchWord s ctx (pageFor s core ctx [] pc) pc).1
    match (fetchWord s ctx (pageFor s core ctx [] pc) pc).2 with
    | .word w => ∃ t, exec (.icacheFill core ctx pc) s = .next t ∧ cachedWord t core ctx pc = some w ∧
        (∀ k, k ≠ core → (coreOf t k).icache = (coreOf s k).icache) ∧ (∀ k, (coreOf t k).tlb = (coreOf s k).tlb) ∧ t.contexts = s.contexts
    | .miss v _ => exec (.icacheFill core ctx pc) s = .next (match sharedFind u (dieOfCore core) ctx v.toNat with
        | some x => sharedHit u core ctx x
        | none => queueWalk u (dieOfCore core) ctx (v.toNat / 2 ^ 16) none)
    | .asks l => exec (.icacheFill core ctx pc) s = .next (askRead u l)
    | .denied n _ _ | .poisoned n _ => ∃ t, exec (.icacheFill core ctx pc) s = .next t ∧ t = { u with cores := t.cores } ∧
        cachedWord t core ctx pc = some (.faulted n) ∧ (∀ k, k ≠ core → coreOf t k = coreOf u k) ∧
        coreOf t core = { coreOf u core with icache := (coreOf t core).icache }) ∧
  (∀ (s : State) (ctx : Nat) (look : Nat → Option WalkEnd) (pc : VAddr), s.codes = [] →
    (fetchWord s ctx look pc).2 = fillWord s ctx look pc ∧ (fetchWord s ctx look pc).1 = { s with
      metaCache := (fetchWord s ctx look pc).1.metaCache, dies := (fetchWord s ctx look pc).1.dies }) ∧
  (∀ (die idx : Nat) (s : State) (w : Walk) (c : Context) (r : Requester) (g : Group) (x : Sub) (team : Team) (leaf : Trans),
    (dieOf s die).walks[idx]? = some w → idx < 32 → usablePointers (dieOf s die) w.ctx (w.vpn * 2 ^ 16) = [] → s.contexts.find w.ctx = some c →
    let u := walkCodes s w.ctx (w.vpn * 2 ^ 16) c.desc.ptRoot walkLevels
    (s.codes = [] → u = { s with metaCache := u.metaCache, dies := u.dies }) ∧
    (walk u w.ctx (w.vpn * 2 ^ 16) = .leaf leaf → w.who = [r] → u.groups.find r.gid = some g →
      subOf g r.node = some x → u.teams.find g.team = some team → x.st = .runnable → x.pc = r.pc → team.evicting = false →
      ∃ t g' x', exec (.pageWalkComplete die idx) s = .next t ∧ t = { u with groups := t.groups, cores := t.cores, dies := t.dies } ∧
        (dieOf t die).walks = (dieOf s die).walks.eraseIdx idx ∧ (∃ l ∈ (coreOf t team.core).tlb, l.covers w.ctx (w.vpn * 2 ^ 16) = true) ∧
        (∃ l ∈ (dieOf t die).tlb, l.covers w.ctx (w.vpn * 2 ^ 16) = true) ∧ t.groups.find r.gid = some g' ∧ g' = { g with subs := g'.subs } ∧
        subOf g' r.node = some x' ∧ x' = { x with walked := x'.walked } ∧
        { pc := r.pc, vpn := r.addr.toNat / 2 ^ 16, found := .leaf leaf } ∈ x'.walked)) ∧
  (∀ (n : Nat) (code : BitVec 2) (s : State), s.canonical → n < 2 ^ 52 → lineHeld s .dram n 0 = false →
    (∀ c ∈ s.copies, c.space = .dram → c.sector / 4 = n → c.place = .home ∧ c.dirty = true ∧ c.bytes.length = 64) →
    ∃ t, exec (.l2Eviction n none true code false) s = .next t ∧
      t.copies = s.copies.filter (fun c => !(c.space == .dram && c.sector / 4 == n)) ∧ (∀ sp a, newestByte t sp a = newestByte s sp a) ∧
      t = { s with copies := t.copies, dram := t.dram, codes := t.codes, past := t.past })

/-! ### Engines and arrays at work (spec/21_ref_engines.md, spec/12_array.md, spec/13_stash.md) -/

/-- R40, R41, R374 to R377 and R201: a free matrix engine takes up its group's next command, keeping what it found in the accumulator tile; `mzero`
clears the tile; one k-block of `mma`, on the bytes and tile entries that its start took up, gives each element of the product its sum of products,
rounded; a row of `mload` is copied bit for bit; `mdrain`
copies the bits into a tile and ends CHK_VALID, or writes a row; `mdrain.add` takes the holds of its lines in turn. The last step delivers the record.
The model's readings in it: logs 15, 64. -/
def Obligations.MatrixEngine : Prop :=
  ∀ (gid : Nat) (s : State) (j : Job), jobOf s gid 0 = some j →
    let h := physAcc j
    let core := j.team.core
    let old := (accTile s core h).data
    let r := jobRect j
    let f := j.c.fields
    let delivered : State → Nat → Nat → Prop := fun t status payload => ∃ g, t.groups.find gid = some g ∧
      ∀ c ∈ g.queues.getD 0 [], c.seq = j.c.seq → c.st = .done ∧ c.status = status ∧ c.payload = payload
    (forkReady s j.g j.team j.c = true → engineBusy s core [0] = false → allowLevel s core < 3 → drainTileWaits j = false → readTileWaits j = false →
      (j.c.op ∈ [Op.mma, .mzero, .mload] → shadowAway s j = false) → j.c.op ∈ [Op.mma, .mzero, .mload, .mdrain, .mdrainAdd] →
      (j.c.op = .mma → f.aux = 0) → (j.c.op = .mload → toTile f = true) →
      ∃ t g, exec (.matrixCmdStart gid) s = .next t ∧ t.groups.find gid = some g ∧
        (headCmd g 0).map (fun c => (c.seq, c.st, c.before)) = some (j.c.seq, .started, old) ∧ (accTile t core h).data = old ∧
        (j.c.op = .mma → (headCmd g 0).map (fun c => (c.buf, c.tilesAt)) =
          some (j.team.scratch, [j.team.tiles.getD (tileA f) Tile.freed, j.team.tiles.getD (tileB f) Tile.freed])) ∧ ∀ sp a, newestByte t sp a = newestByte s sp a) ∧
    (cmdRuns s j = true →
      (j.c.op = .mzero → ∃ t, exec (.matrixCmdComplete gid) s = .next t ∧ (∀ i k, accRead (accTile t core h).data i k = 0) ∧ delivered t 0 0 ∧
        ∀ sp a, newestByte t sp a = newestByte s sp a) ∧
      (j.c.op = .mma →
        let ta := j.c.tilesAt.getD 0 Tile.freed
        let tb := j.c.tilesAt.getD 1 Tile.freed
        let lay := j.c.va.toNat
        let m := if lay.testBit 0 then ta.cols else ta.rows
        let n := if lay.testBit 1 then tb.cols else tb.rows
        let a : Nat → Nat → FpNum := fun i k => if lay.testBit 0 then tileNum j.c.buf ta k i else tileNum j.c.buf ta i k
        let b : Nat → Nat → FpNum := fun k l => if lay.testBit 1 then tileNum j.c.buf tb k l else tileNum j.c.buf tb l k
        m ≤ 64 → n ≤ 64 → ∃ t, exec (.matrixCmdComplete gid) s = .next t ∧
          (∀ i l, i < 64 → l < 64 → accRead (accTile t core h).data i l = if i < m ∧ l < n then
            BitVec.ofNat 32 (kStep f.ty (a i) (fun k => b k l) (accRead old i l).toNat (j.c.progress * kBlock f.ty)) else accRead old i l) ∧
          (j.c.progress + 1 ≥ mmaCount j → delivered t 0 j.c.payload) ∧ ∀ sp a, newestByte t sp a = newestByte s sp a) ∧
      (j.c.op = .mload → r.row0 + j.c.progress < 64 → r.col0 + r.cols ≤ 64 → ∃ t, exec (.matrixCmdComplete gid) s = .next t ∧
        (∀ i k, i < 64 → k < 64 → accRead (accTile t core h).data i k = if i = r.row0 + j.c.progress ∧ r.col0 ≤ k ∧ k < r.col0 + r.cols then
          BitVec.ofNat 32 (Memory.readLe j.c.buf ((j.c.progress * r.cols + (k - r.col0)) * 4) 4) else accRead old i k) ∧
        (j.c.progress + 1 ≥ r.rows → delivered t j.c.status 0) ∧ ∀ sp a, newestByte t sp a = newestByte s sp a) ∧
      (j.c.op = .mdrain → toTile f = true →
        let n := tileA f
        let tl := j.team.tiles.getD n Tile.freed
        Memory.wf j.team.scratch = true → n < j.team.tiles.length → j.team.freeing = [] → tl.tag = 3 → r.cols * 4 ≤ tl.pitch → ∃ t team, exec (.matrixCmdComplete gid) s = .next t ∧
          t.teams.find j.g.team = some team ∧ (team.tiles.getD n Tile.freed) = { tl with chkValid := false } ∧ delivered t 0 0 ∧
          (∀ i k, i < r.rows → k < r.cols →
            Memory.readLe team.scratch (tl.data + i * tl.pitch + k * 4) 4 = (accRead old (r.row0 + i) (r.col0 + k)).toNat) ∧
          (∀ a, (∀ i k, i < r.rows → k < r.cols → a < tl.data + i * tl.pitch + k * 4 ∨ tl.data + i * tl.pitch + k * 4 + 4 ≤ a) →
            Memory.read team.scratch a = Memory.read j.team.scratch a) ∧
          (accTile t core h).data = old ∧ ∀ sp a, newestByte t sp a = newestByte s sp a) ∧
      (j.c.op = .mdrain → toTile f = false → ∀ s',
        engWrite s j ((rectRow j j.c.progress).zip ((List.range r.cols).flatMap
          (fun k => leBytes 4 (accRead old (r.row0 + j.c.progress) (r.col0 + k)).toNat))) = .ok s' →
        ∃ t, exec (.matrixCmdComplete gid) s = .next t ∧ (∀ sp a, newestByte t sp a = newestByte s' sp a) ∧
          (j.c.progress + 1 ≥ r.rows → delivered t j.c.status 0))) ∧
    (j.c.op = .mdrainAdd → toTile f = false → j.c.st = .started → j.c.holding = false →
      (∀ l, (rectLines j).find? (fun l => !s.lineHolds.contains (l.1, l.2, gid + 1)) = some l → l.1 = .dram → lineHeld s .dram l.2 (gid + 1) = false →
        portHeld s (dieOfCore core) { space := .dram, addr := l.2 * 256, cache := 1, comp := false } = false → (∀ x ∈ s.flights, ∀ w ∈ x.bytes, ¬(w.1.space = .dram ∧ w.1.addr / 256 = l.2)) →
        (∀ c ∈ s.copies, ¬(c.space = .dram ∧ c.sector / 4 = l.2)) → codeOf s l.2 = 3 →
        ∃ t, exec (.mdrainHoldGrant gid) s = .next t ∧ t.lineHolds = s.lineHolds ++ [(.dram, l.2, gid + 1)] ∧
          t = { s with lineHolds := t.lineHolds, metaCache := t.metaCache, dies := t.dies, cores := t.cores, links := t.links, free := t.free }) ∧
      ((∀ l ∈ rectLines j, s.lineHolds.contains (l.1, l.2, gid + 1) = true) →
        ∃ t g, exec (.mdrainHoldGrant gid) s = .next t ∧ t = { s with groups := t.groups } ∧ t.groups.find gid = some g ∧
          (headCmd g 0).map (·.holding) = some true))

/-- R170, R172, R370 to R372, R224 to R235: a free copy engine takes up a fill of an EMPTY or READY tile, which becomes FILLING, or a
drain of a READY tile, which becomes DRAINING; its last row makes the tile READY, a fill's with checksums of what it moved, and delivers the count of
rows; a
row whose read is lost or bad leaves the tile EMPTY and delivers its status. Cicada does the same by blocks; a restored block whose CRC does not agree
delivers status 1. `cpy.mm` reads its source whole and writes it by destination sectors. A command whose tile a rollback has taken away ends with
status 0.
The model's readings in it: logs 15, 81, 89. -/
def Obligations.CopyEngineAndCicada : Prop :=
  ∀ (gid q : Nat) (s : State) (j : Job), q = 1 ∨ q = 2 → jobOf s gid q = some j →
    let op := j.c.op
    let f := j.c.fields
    let start := if q = 1 then exec (.copyCmdStart gid) s else exec (.cicadaCmdStart gid) s
    let go := if q = 1 then exec (.copyCmdComplete gid) s else exec (.cicadaCmdComplete gid) s
    let n := if q = 1 then bits f.imm.toNat 5 0 else bits f.imm.toNat 21 16
    let tl := j.team.tiles.getD n Tile.freed
    let k := j.c.progress
    let base : VAddr := BitVec.ofNat 80 (j.team.hi * 2 ^ 64 + j.c.va.toNat)
    let tile : State → Tile := fun t => ((t.teams.find j.g.team).map (fun x => x.tiles.getD n Tile.freed)).getD Tile.freed
    let scratch : State → Memory := fun t => ((t.teams.find j.g.team).map (·.scratch)).getD []
    let delivered : State → Nat → Nat → Prop := fun t status payload => ∃ g, t.groups.find gid = some g ∧
      ∀ c ∈ g.queues.getD q [], c.seq = j.c.seq → c.st = .done ∧ c.status = status ∧ c.payload = payload
    let rows := if q = 1 then tl.rows else (tl.rows * tl.cols + 63) / 64
    let block := if f.aux = 1 then 32 else 64
    let va : VAddr := if q = 1 then vaByte base (k * j.c.vb.toNat) else vaByte base (k * block)
    let len := if q = 1 then rowBytes tl else block
    let fill := op = (if q = 1 then Op.cpyIn else .restore)
    let drain := op = (if q = 1 then Op.cpyOut else .stash)
    n < j.team.tiles.length ∨ (q = 1 ∧ op = .cpyMm) →
    (forkReady s j.g j.team j.c = true → engineBusy s j.team.core [1, 2] = false → allowLevel s j.team.core < 4 →
      (fill → tl.st = .empty ∨ tl.st = .ready → ∃ t g, start = .next t ∧
        tile t = { tl with st := .filling, chkValid := false } ∧ scratch t = j.team.scratch ∧ t.groups.find gid = some g ∧
        (headCmd g q).map (fun c => (c.seq, c.st)) = some (j.c.seq, .started) ∧ ∀ sp a, newestByte t sp a = newestByte s sp a) ∧
      (drain → tl.st = .ready → ∃ t g, start = .next t ∧ tile t = { tl with st := .draining } ∧ scratch t = j.team.scratch ∧
        t.groups.find gid = some g ∧ (headCmd g q).map (fun c => (c.seq, c.st)) = some (j.c.seq, .started) ∧
        ∀ sp a, newestByte t sp a = newestByte s sp a) ∧
      (q = 1 → op = .cpyMm →
        let ls := cmdLocs j base j.c.vb.toNat
        let s0 := fillCodes s j.team.ctx ls
        let s1 := engFill s0 j ls
        engWaits s j false ls ls = none → (∀ l ∈ ls, engLost s l = false ∧ sectorBad s0 l.space (locSector l) = false) →
          ∃ buf, start = .next (onCmd s1 gid 1 j.c.seq (fun c => { c with st := .started, buf := buf, bad := [] })) ∧
            Memory.readBytes buf 0 ls.length = ls.map (fun l => newestByte s1 l.space l.addr))) ∧
    (cmdRuns s j = true → j.team.freeing = [] →
      (fill ∧ tl.st ≠ .filling ∨ drain ∧ tl.st ≠ .draining → ∃ t, go = .next t ∧ tile t = tl ∧ scratch t = j.team.scratch ∧ delivered t 0 k ∧
        ∀ sp a, newestByte t sp a = newestByte s sp a) ∧
      (fill → tl.st = .filling → ∀ s' bs, engRead s j (cmdLocs j va len) = .ok s' bs → (q = 2 → blockGood (decide (f.aux = 1)) bs = true) →
        ∃ t, go = .next t ∧ (∀ sp a, newestByte t sp a = newestByte s' sp a) ∧
          scratch t = (if q = 1 then rowIn j.team.scratch tl k bs else blockIn j.team.scratch tl (decide (f.aux = 1)) k bs) ∧
          (k + 1 < rows → tile t = tl) ∧
          (k + 1 ≥ rows → (tile t).st = .ready ∧ delivered t 0 (if q = 1 then rows else k + 1) ∧
            (tl.tag = 3 ∨ tl.tag = 4 →
              let moved := if q = 1 then rowIn j.c.buf tl k bs else blockIn j.c.buf tl (decide (f.aux = 1)) k bs
              (tile t).chkValid = true ∧ (tile t).rowSums = rowSumsOf moved tl ∧ (tile t).colSums = colSumsOf moved tl))) ∧
      (∀ s', fill → tl.st = .filling → j.c.region = false → engRead s j (cmdLocs j va len) = .bad s' → ∃ t, go = .next t ∧ (tile t).st = .empty ∧ (tile t).chkValid = false ∧
        delivered t 1 k) ∧
      (q = 2 → fill → tl.st = .filling → j.c.region = false → ∀ s' bs, engRead s j (cmdLocs j va len) = .ok s' bs → blockGood (decide (f.aux = 1)) bs = false →
        ∃ t, go = .next t ∧ (tile t).st = .empty ∧ (tile t).chkValid = false ∧ delivered t 1 k) ∧
      (drain → tl.st = .draining → ∀ s',
        let bs := if q = 1 then rowOut j.team.scratch tl k
          else encodeBlock (decide (f.aux = 1)) ((List.range 64).map (fun i => stashValue j.team.scratch tl (64 * k + i)))
        engWrite s j ((cmdLocs j va len).zip bs) = .ok s' → ∃ t, go = .next t ∧ (∀ sp a, newestByte t sp a = newestByte s' sp a) ∧
          scratch t = j.team.scratch ∧ (k + 1 < rows → tile t = tl) ∧
          (k + 1 ≥ rows → tile t = { tl with st := .ready } ∧ delivered t 0 (if q = 1 then rows else k + 1))) ∧
      (q = 1 → op = .cpyMm → j.c.bad = [] →
        let total := j.c.vb.toNat
        let dst := vaByte (BitVec.ofNat 80 (j.team.hi * 2 ^ 64 + j.c.vd.toNat)) k
        let m := min (64 - dst.toNat % 64) (total - k)
        (m = 0 → ∃ t, go = .next t ∧ delivered t j.c.status total ∧ ∀ sp a, newestByte t sp a = newestByte s sp a) ∧
        (m ≠ 0 → ∀ s', engWrite s j ((cmdLocs j dst m).zip (Memory.readBytes j.c.buf k m)) = .ok s' → ∃ t, go = .next t ∧
          (∀ sp a, newestByte t sp a = newestByte s' sp a) ∧ (k + m ≥ total → delivered t j.c.status total))))

/-- R73, R74, R80 and R383: a `post` whose turn has come stores its record, with its context, KID and three arguments, last at its home die, which has
room for 65,536, and delivers the die's number; the oldest record of a running context whose kernel entry is good starts as a kernel of its die: on a
core of it with room when no other team goes first, else it waits in the kernel table; a bad entry raises ILLEGAL at the hub.
The model's readings in it: log 50. -/
def Obligations.Continuations : Prop :=
  (∀ (gid : Nat) (s : State) (j : Job), jobOf s gid 4 = some j → forkReady s j.g j.team j.c = true →
    (dieOf s j.c.payload).tasks.length < 65536 → routeHeld s (dieOfCore j.team.core) j.c.payload = false → ∃ t g, exec (.taskRecordStore gid) s = .next t ∧
      (dieOf t j.c.payload).tasks = (dieOf s j.c.payload).tasks ++
        [{ ctx := j.team.ctx, kid := BitVec.ofNat 80 (j.team.hi * 2 ^ 64 + j.c.va.toNat), arg0 := j.c.vb,
           arg1 := BitVec.ofNat 64 (Memory.readLe j.c.buf 0 8), arg2 := BitVec.ofNat 64 (Memory.readLe j.c.buf 8 8) }] ∧
      t.groups.find gid = some g ∧ (∀ c ∈ g.queues.getD 4 [], c.seq = j.c.seq → c.st = .done ∧ c.status = 0 ∧ c.payload = j.c.payload) ∧
      (∀ sp a, newestByte t sp a = newestByte s sp a) ∧ ∀ d, d ≠ j.c.payload → dieOf t d = dieOf s d) ∧
  (∀ (die core : Nat) (s : State) (i : Nat) (r : TaskRec), nextTask s die = some (i, r) →
    (∀ u c, fetchLaunch s r.ctx r.kid true = .bad u → u.contexts.find r.ctx = some c → ∃ t, exec (.continuationStart die core) s = .next t ∧
      (dieOf t die).tasks = (dieOf s die).tasks.eraseIdx i ∧
      t.contexts.find r.ctx = some { c with raised := c.raised ++ [hubEvent 0x01 r.kid] } ∧ t.kernels = u.kernels) ∧
    (∀ u l, fetchLaunch s r.ctx r.kid true = .ok u l → u.kernels.length < 4096 → die < 32 →
      let k : Kernel := { ctx := r.ctx, addr := r.kid, launch := l, st := .queued, order := u.nextId, next := 0, unplaced := [], saved := []
                          masks := [], home := some die, exited := 0, cores := [], cont := some r, queue := none }
      (hasRoom u k [] = false ∨ itsTurn u k = false → ∃ t, exec (.continuationStart die core) s = .next t ∧ t.kernels.find u.nextId = some k ∧
        (dieOf t die).tasks = (dieOf s die).tasks.eraseIdx i ∧ t.teams = u.teams ∧ t.nextId = u.nextId + 1) ∧
      (∀ ps, hasRoom u k [] = true → itsTurn u k = true → coreServes u k core = true → roomOn u core l true [] = some ps →
        ∃ t team g, exec (.continuationStart die core) s = .next t ∧ (dieOf t die).tasks = (dieOf s die).tasks.eraseIdx i ∧
          t.teams.find (u.nextId + 1) = some team ∧ team.ctx = r.ctx ∧ team.core = core ∧ team.cont = true ∧ team.recAddr = r.kid ∧
          t.groups.find ((u.nextId + 1) * 16) = some g ∧ g.v = l.pV ∧ g.s = l.pS ∧ (subOf g 1).map (·.pc) = some l.code ∧
          (3 ≤ l.pS → (sreg g 0).val = r.arg0 ∧ (sreg g 1).val = r.arg1 ∧ (sreg g 2).val = r.arg2) ∧
          (t.kernels.find u.nextId).map (·.st) = some .running)))

/-- R205 to R217: a schedule whose fork is made has its words fetched; one that heads an IDLE array, with a slot free and the core at level 0, starts:
words that could not be read stop it with status 5, and a bare gate with LO above HI with status 1.
A gate writes its operation's value in the lanes LO to HI of its output line and nothing else, counting the line's wear; at level 1 and above the array
pauses at the boundary, and goes on at level 0; a gate step owed for an admitted access comes first. The end makes the array IDLE, with its record
delivered. A waiting read of a busy array is admitted with the cells of the last boundary, at most four at one, and costs a gate step. `xcfg`, `xpool`
and `xration` take effect when no schedule runs.
The model's readings in it: logs 15, 30, 43, 82. -/
def Obligations.ArraySequencer : Prop :=
  (∀ (arr : Nat) (s : State) (x : Schedule) (j : Job), unfetched s (arrayOf s arr) = some x → scheduleJob s x = some j →
    owedSchedule s (arr / 64) = none →
    let locs := cmdLocs j (jobVa j j.c.vb) j.c.payload
    let brings : State → List Byte → Prop := fun s' bs => ∃ t, exec (.scheduleStart arr) s = .next t ∧ t = { s' with arrays := t.arrays } ∧
      ∀ y, ArrayCmd.schedule y ∈ (arrayOf t arr).waiting → y.arrival = x.arrival → y.words = some bs
    (∀ s' bs, engRead s j locs = .ok s' bs → brings s' bs) ∧ (∀ s', engRead s j locs = .bad s' → brings s' []) ∧
    (engRead s j locs = .lost → brings s []) ∧ (∀ s', engRead s j locs = .wait s' → exec (.scheduleStart arr) s = .next s')) ∧
  (∀ (arr : Nat) (s : State) (x : Schedule) (j : Job), let a := arrayOf s arr
    owedSchedule s (arr / 64) = none → unfetched s a = none → headSchedule a = some x → scheduleJob s x = some j → slotsBusy s (arr / 64) < 8 → allowLevel s (arr / 64) = 0 →
    scheduleReady s x = true → oldestOnCore s (arr / 64) x = true →
    let begun : Run → Prop := fun r => ∃ t, exec (.scheduleStart arr) s = .next t ∧
      arrayOf t arr = { a with waiting := a.waiting.drop 1, st := .running, run := some r, admits := 0, owed := 0 } ∧
      (∀ k, k ≠ arr → arrayOf t k = arrayOf s k) ∧ ∀ sp b, newestByte t sp b = newestByte s sp b
    (x.rom = none → x.words = none → x.lo > x.hi → begun (Run.refused x 1 0)) ∧
    (x.rom = none → x.words = none → x.lo ≤ x.hi → begun (checkGates a x)) ∧
    (x.rom = none → x.words = some [] → begun (Run.refused x 5 0)) ∧
    (∀ bs, x.rom = none → x.words = some bs → 8 ≤ bs.length → badHeader (leValue (bs.take 8)) = true → begun (Run.refused x 1 0)) ∧
    (∀ w, x.rom = some w → begun (startRom a x w))) ∧
  (∀ (arr : Nat) (s : State) (r : Run) (g : W64), let a := arrayOf s arr
    a.run = some r → a.st = .running → a.owed = 0 → a.asked = [] → a.reads = [] → allowLevel s (arr / 64) = 0 → r.endLeft = 0 → r.stop = none →
    r.checkLeft = 0 → r.sched.rom = none →
    r.sched.gates.getD r.gate 0 = g → isEnd g = false → gateOut g < 960 → (∀ l ∈ gateIns g, l < 960) →
    let o := gateOut g
    let ins := (gateIns g).take (gateArity (gateOp g))
    let axis := gateAxis g
    let cell : ArrayUnit → Nat → Nat → Bool := fun u l k => cellAt u axis l k
    o ∉ ins → r.sched.hi < 1024 → ∃ t, exec (.gateStep arr) s = .next t ∧
      (∀ l k, l < 1024 → k < 1024 → cell (arrayOf t arr) l k =
        if l = o ∧ r.sched.lo ≤ k ∧ k ≤ r.sched.hi then
          let v : Nat → Bool := fun i => (ins[i]?).any (fun m => cell a m k)
          gateCell (gateOp g) (cell a o k) (v 0) (v 1) (v 2)
        else cell a l k) ∧
      wearOf (arrayOf t arr) axis o = min (wearOf a axis o + 1) (2 ^ 40 - 1) ∧ (arrayOf t arr).cfg = a.cfg ∧
      (∀ k, k ≠ arr → arrayOf t k = arrayOf s k) ∧ t.groups = s.groups ∧ t.dram = s.dram) ∧
  (∀ (arr : Nat) (s : State) (r : Run), let a := arrayOf s arr
    a.run = some r →
    (a.st = .running ∨ a.st = .paused → a.owed > 0 → ∃ t, exec (.gateStep arr) s = .next t ∧ arrayOf t arr = { a with owed := a.owed - 1 } ∧
      t = { s with arrays := t.arrays, cores := t.cores } ∧ (coreOf t (arr / 64)).charge = (coreOf s (arr / 64)).charge + 13) ∧
    (a.st = .running → a.owed = 0 → a.asked = [] → a.reads = [] → r.stop = none ∨ r.endLeft > 0 → allowLevel s (arr / 64) ≥ 1 →
      r.stop ≠ some haltedStatus →
      ∃ t, exec (.gateStep arr) s = .next t ∧ t = { s with arrays := t.arrays } ∧ arrayOf t arr = { a with st := .paused }) ∧
    (a.st = .paused → allowLevel s (arr / 64) = 0 →
      ∃ t, exec (.scheduleResume arr) s = .next t ∧ t = { s with arrays := t.arrays } ∧ arrayOf t arr = { a with st := .running }) ∧
    (∀ x, suspendedReady s a = some x → slotFree s (arr / 64) x = true → x.scrub = false → r.stop = none →
      ∃ t, exec (.scheduleResume arr) s = .next t ∧ t = { s with arrays := t.arrays } ∧
        arrayOf t arr = { a with st := .running, run := some { r with checkLeft := 128 } }) ∧
    (∀ st j, a.st = .running ∨ a.st = .paused → r.stop = some st → r.endLeft = 0 → a.owed = 0 → a.asked = [] → a.reads = [] → st ≠ haltedStatus →
      a.heldWrites = [] → scheduleJob s r.sched = some j → ∃ t g, exec (.scheduleEnd arr) s = .next t ∧
        arrayOf t arr = { a with st := .idle, run := none, heldWrites := [], admits := 0 } ∧ t.groups.find r.sched.gid = some g ∧
        ∀ c ∈ g.queues.getD 3 [], c.seq = r.sched.cmd → c.st = .done ∧ c.status = st ∧
          c.payload = 2 ^ 29 * (r.gate % 2048) + 2 ^ 21 * (r.pass % 256) + 2 ^ 13 * min r.remaps 255)) ∧
  (∀ (arr idx : Nat) (s : State), let a := arrayOf s arr
    idx < 2048 → sectorWaits s .array (arr * 2048 + idx) = true → a.reads.contains idx = true → writeAsked a idx = false →
    (a.st = .running → a.admits < 4) → s.copies.length < 15 →
    ∃ t c, exec (.arrayReadAdmit arr idx) s = .next t ∧ copyAt t .home .array (arr * 2048 + idx) = some c ∧ c.dirty = false ∧
      c.bytes = (List.range 64).map (fun i => cellByte a (idx * 64 + i)) ∧
      arrayOf t arr = { a with reads := a.reads.erase idx, admits := a.admits + 1, owed := a.owed + 1 }) ∧
  (∀ (arr : Nat) (s : State) (c : ArrayCmd) (rest : List ArrayCmd), let a := arrayOf s arr
    a.run = none → a.waiting = c :: rest → ∀ t, exec (.arrayConfigApply arr) s = .next t →
    (∀ n, c = .xration n → n < 2 ^ 16 → bits (arrayOf t arr).cfg.toNat 63 48 = n ∧ bits (arrayOf t arr).cfg.toNat 47 0 = bits a.cfg.toNat 47 0 ∧
      arrayOf t arr = { a with waiting := rest, cfg := (arrayOf t arr).cfg }) ∧
    (∀ n, c = .xcfg n → n < 4 → bits (arrayOf t arr).cfg.toNat 13 12 = n ∧ arrayOf t arr = { a with waiting := rest, cfg := (arrayOf t arr).cfg }) ∧
    (∀ x base n, c = .xpool x base n → x < 2 → base < 1024 → n < 128 → poolLines (arrayOf t arr) x = (List.range n).map (· + base) ∧
      mapOf (arrayOf t arr) x = List.replicate 64 none ∧ mapOf (arrayOf t arr) (1 - x) = mapOf a (1 - x) ∧
      poolLines (arrayOf t arr) (1 - x) = poolLines a (1 - x))) ∧
  (∀ (arr : Nat) (s : State) (c : ArrayCmd) (rest : List ArrayCmd), (arrayOf s arr).run = none → (arrayOf s arr).waiting = c :: rest →
    (∀ x, c ≠ .schedule x) → ∃ t, exec (.arrayConfigApply arr) s = .next t ∧ (arrayOf t arr).waiting = rest)

/-! ### Kernels, teams, contexts, queues (spec/03_context.md to spec/05_kernel.md) -/

/-- R56, R81 to R87: a core with room takes the next team of the kernel that is served first; the team starts with its start delay, FREE tiles,
idle barriers and groups whose PC is CODE, registers are zero but for three arguments, and a queued kernel runs when its last team is placed. The end of
the delay lets the team issue. A team of an EVICTING context that has not issued goes back to its kernel; one that has stops issue and, once all that
it started is done, is written to the lowest free slot, which then holds its image, and released; one whose image is longer than a slot stays.
A core under test serves a kernel of PRIO 7 that finds no other room (R88).
The model's readings in it: logs 17, 31, 33, 75. -/
def Obligations.Teams : Prop :=
  (∀ (kernel core : Nat) (s : State) (k : Kernel) (c : Context) (index : Nat) (parts : List Nat), s.kernels.find kernel = some k →
    s.contexts.find k.ctx = some c → headTeam k = some (index, none) → placeable s k = true →
    (∀ e ∈ s.kernels, placeable s e.2 = true → (servedBefore e.2 k = true → canPlace s e.2 = false) ∧
      (k.saved = [] → e.2.saved ≠ [] → e.2.launch.prio < k.launch.prio)) → coreServes s k core = true ∨ abortsScan s k core = true →
    roomOn s core k.launch k.cont.isSome [] = some parts → k.cont = none →
    let r := k.launch
    ∃ t team, exec (.teamPlace kernel core) s = .next t ∧ t.teams.find s.nextId = some team ∧ t.nextId = s.nextId + 1 ∧
      team.ctx = k.ctx ∧ team.kernel = kernel ∧ team.index = index ∧ team.core = core ∧ team.launch = r ∧ team.cont = false ∧
      team.x = index % r.nx ∧ team.y = index / r.nx % r.ny ∧ team.z = index / (r.nx * r.ny) ∧ team.evicting = false ∧
      team.delay = 1 + 16 * ((s.phase.getD r.phase []).getD ((core / 128 + logicalCore s core) % 8) 0) ∧
      team.tiles = List.replicate r.tiles Tile.freed ∧
      team.barriers = List.replicate r.barriers { count := 0, arrived := 0, par := false } ∧ team.scratch = [] ∧
      (∀ i, i < r.pCount + r.cCount → i < 16 → ∃ g, t.groups.find (s.nextId * 16 + i) = some g ∧ g.team = s.nextId ∧ g.num = i ∧ g.sized ∧
        g.consumer = decide (i ≥ r.pCount) ∧ g.v = (if i < r.pCount then r.pV else r.cV) ∧ g.s = (if i < r.pCount then r.pS else r.cS) ∧
        (3 ≤ g.s → (sreg g 0).val = r.arg0 ∧ (sreg g 1).val = r.arg1 ∧ (sreg g 2).val = r.arg2) ∧
        (∀ n, 3 ≤ n → (sreg g n).val = 0) ∧ (∀ n l, laneOf (vreg g n) l = 0) ∧ g.fpm = 0 ∧ g.sig = 0 ∧ g.region.isOpen = false ∧
        subOf g 1 = some (Sub.start r.code)) ∧
      (∀ k', t.kernels.find kernel = some k' → k'.st = if (headTeam k').isSome then .placing else .running)) ∧
  (∀ (team : Nat) (s : State) (t : Team), s.teams.find team = some t → t.delay = 1 →
    exec (.teamStartDelayExpire team) s = .next { s with teams := s.teams.insert team { t with delay := 0, fresh := false } }) ∧
  (∀ (team : Nat) (s : State) (t : Team) (c : Context) (k : Kernel), s.teams.find team = some t → s.contexts.find t.ctx = some c →
    s.kernels.find t.kernel = some k → teamExited s team = false → t.evicting = false → c.st = .evicting →
    (∀ e ∈ s.groups, e.2.team = team → ∀ x ∈ e.2.subs, x.handler = none) →
    (t.fresh = true → t.delay > 0 → ∃ u k', exec (.teamEvict team) s = .next u ∧ u.teams = s.teams.erase team ∧
      (∀ e ∈ u.groups, e.2.team ≠ team) ∧ u.kernels.find t.kernel = some k' ∧ k'.unplaced = k.unplaced ++ [t.index] ∧
      k'.st = .placing) ∧
    (t.fresh = false ∨ t.delay = 0 → freeSlot s t.ctx c ≠ none → imageLen s team t ≤ c.desc.teamSlot * 4096 →
      ∃ u t', exec (.teamEvict team) s = .next u ∧ u.teams.find team = some t' ∧ t'.evicting = true ∧ t'.tiles.length = t.tiles.length ∧
        (∀ gid g, s.groups.find gid = some g → g.team = team → g.region.isOpen = false → ∀ g', u.groups.find gid = some g' →
          g'.vregs.length = g.vregs.length ∧ g'.storeQ = g.storeQ ∧ g'.queues = g.queues ∧
          ∀ x ∈ g'.subs, x.st = .runnable ∨ x.st = .exited ∨ ∃ n, x.st = .atFuse n) ∧ ∀ sp a, newestByte u sp a = newestByte s sp a)) ∧
  (∀ (team : Nat) (s : State) (t : Team) (c : Context) (k : Kernel) (slot : Nat), s.teams.find team = some t → s.contexts.find t.ctx = some c →
    s.kernels.find t.kernel = some k → teamExited s team = false → t.evicting = true → ctxIssues c = true →
    (∀ e ∈ s.groups, e.2.team = team → e.2.inflight = [] ∧ e.2.storeQ = [] ∧ e.2.rangeOps = [] ∧ e.2.deferred = [] ∧
      ∀ q ∈ e.2.queues, ∀ x ∈ q, x.st = .done) → inHandlers s team = false → freeSlot s t.ctx c = some slot →
    let s0 := deliverCore (endPins s team) t.core
    let s1 := (teamGroups s team).foldl (fun s e => onGroup s e.1 recordPcs) (clearChannels s0 t.core)
    let img := teamImage s1 team t .saved []
    let at_ : Nat → Loc := fun j => hubLoc (slotAddr c.desc slot + j)
    let way : Flight := { who := .hub, team := none, bytes := img.mapIdx (fun j b => (at_ j, b)), rel := none }
    undelivered s0 t.core = false → (img.length > c.desc.teamSlot * 4096 → ∃ u, exec (.teamImageWritten team) s = .next u ∧ u.teams.find team = some { t with evicting := false } ∧
      u.kernels = s.kernels) ∧
    (img.length ≤ c.desc.teamSlot * 4096 → ∃ u k', exec (.teamImageWritten team) s = .next u ∧ u.teams.find team = none ∧
      (∀ e ∈ u.groups, e.2.team ≠ team) ∧ u.kernels.find t.kernel = some k' ∧
      k' = { k with masks := k'.masks, saved := k.saved ++ [(t.index, some slot)], st := .placing } ∧
      (s1.canonical → slotAddr c.desc slot + img.length ≤ 2 ^ 52 → s1.flights = [] → way.waits s1 = false →
        (∀ j, j < img.length → LineClear s1 (at_ j) ∧ ((at_ j).space = .dram → codeOf s1 ((at_ j).addr / 256) = 3)) →
        (∀ d n, c.st = .evicting → c.pendingCmd = some (d, n) → ∀ i j, i < 16 → j < img.length → hubLoc (d + i) ≠ at_ j) →
        ∀ j, j < img.length → some (newestByte u (at_ j).space (at_ j).addr) = img[j]?)))

/-- R82, R83 and R89: a kernel whose teams have all exited and whose commands are done is RETIRING; once its stores have left and are delivered, its DONE_VALUE is written
to DONE, 8 bytes at its place, and the kernel, its teams and their groups are gone; a DONE that does not translate for writing raises PROTECTION at
the hub.
The model's readings in it: log 51. -/
def Obligations.Kernels : Prop :=
  ∀ (kernel : Nat) (s : State) (k : Kernel) (c : Context), s.kernels.find kernel = some k → s.contexts.find k.ctx = some c →
    (k.st = .placing ∨ k.st = .running → k.exited ≥ kernelTeams k → commandsDone s kernel = true → c.st ≠ .halting →
      exec (.kernelRetiring kernel) s = .next { s with kernels := s.kernels.insert kernel { k with st := .retiring } }) ∧
    (k.st = .retiring → storesDone s kernel = true →
      let s0 := k.cores.foldl deliverCore s
      let s1 := k.cores.foldl (fun s c => joinParty (clearChannels s c) .hub (.core c)) s0
      let s2 := hubWalkCodes s1 k.ctx k.launch.done.toNat
      let gone : State → Prop := fun t => t.kernels.find kernel = none ∧ (∀ e ∈ t.teams, e.2.kernel ≠ kernel) ∧
        ∀ q w, t.wqs.find q = some w → (w.launched = ((s.wqs.find q).map (fun w => w.launched.erase kernel)).getD [])
      ((∃ x ∈ k.cores, undelivered s0 x = true) → exec (.kernelRetire kernel) s = .next s0) ∧
      ((∀ x ∈ k.cores, undelivered s0 x = false) → c.st ≠ .evicting →
        (k.cont.isSome = true ∨ k.launch.done = 0 → ∃ t, exec (.kernelRetire kernel) s = .next t ∧ gone t ∧
          ∀ sp a, newestByte t sp a = newestByte s0 sp a) ∧
        (k.cont = none → k.launch.done ≠ 0 → hubXlat s2 k.ctx k.launch.done .write = .bad → ∃ t, exec (.kernelRetire kernel) s = .next t ∧ gone t ∧
          t.contexts.find k.ctx = some { c with raised := c.raised ++ [hubEvent 0x08 k.launch.done] }) ∧
        (∀ l, k.cont = none → k.launch.done ≠ 0 → hubXlat s2 k.ctx k.launch.done .write = .ok l → hubWaits s2 l (l.cache != 2) = none →
          l.space = .dram → l.addr % 8 = 0 → LineClear s2 l → codeOf s2 (l.addr / 256) = 3 → s2.copies.length < 15 →
          (∀ m ∈ s2.monitors, ¬(m.space = .dram ∧ m.addr / 64 = locSector l)) → s2.canonical →
          (∀ x ∈ s2.flights, x.who ≠ .hub ∧ ∀ y ∈ x.bytes, ¬(y.1.space = .dram ∧ locSector y.1 = locSector l)) →
          ∃ t, exec (.kernelRetire kernel) s = .next t ∧ gone t ∧ newestLe t .dram l.addr 8 = k.launch.doneValue.toNat ∧
            ∀ sp a, (sp = .dram → a < l.addr ∨ l.addr + 8 ≤ a) → newestByte t sp a = newestByte s2 sp a)))

/-- R43 to R46, R66 to R68 and R70: a command that heads the ring of a READY hub completes with its sequence number, status and result at DONE, and CI moves
on. CREATE makes a LOADED context of the lowest free identifier; START runs a LOADED one and serves its queues; SAVE, RESTORE and DESTROY leave theirs
EVICTING, RESTORING and DESTROYED until they complete; HALT raises the halt line; BIND and UNBIND make and end a work queue. In another state each
completes with BAD_STATE, and a reserved opcode with BAD_STATE; a bad descriptor gives BAD_DESCRIPTOR, no free identifier NO_CONTEXT, a bad queue
BAD_QUEUE.
The model's readings in it: logs 18, 61, 84. -/
def Obligations.ContextCommands : Prop :=
  ∀ (s : State),
    let is : Nat → Prop := fun op => cmdReady s = true ∧ cmdOpcode s = op
    let u := readCmd s
    let i := cmdCtx u
    let pending : Option (Nat × W64) := some (cmdDone u, cmdSeq u)
    let block : Nat → State := fun n => hubFetch u i (cmdArg u) n
    let desc : State → Nat → Byte := fun v o => hubByte v (cmdArg u + o)
    (∀ v st r, complete v st r = hubWrite { v with cmdq := { v.cmdq with ci := v.cmdq.ci + 1, acted := false } } (cmdDone v)
      (leBytes 8 (cmdSeq v).toNat ++ leBytes 4 st ++ leBytes 4 r)) ∧
    (s.codes = [] → u = { s with metaCache := u.metaCache, dies := u.dies, links := u.links, free := u.free }) ∧
    (∀ pi, s.status ≠ .recovery → exec (.commandDoorbell pi) s = .next { s with cmdq := { s.cmdq with pi := pi } }) ∧
    (∀ op, is op → op ∉ [1, 2, 3, 4, 5, 6, 8, 9, 0x10, 0x11, 0x12, 0x13, 0x20, 0x21, 0x22, 0x23, 0x24, 0x25, 0x26, 0x27] →
      exec .reservedCommand s = .next (complete u 1 0)) ∧
    (is 1 → hubHeld u (cmdArg u) = true → exec .cmdCreate s = .next u) ∧
    (is 1 → hubHeld u (cmdArg u) = false →
      let v := block 128
      (descGood (desc v) = false → exec .cmdCreate s = .next (complete v 2 0)) ∧
      (descGood (desc v) = true → (∀ k, k < 1024 → (v.contexts.find k).isSome = true) → exec .cmdCreate s = .next (complete v 3 0)) ∧
      (∀ n, descGood (desc v) = true → n < 1024 → v.contexts.find n = none → (∀ k, k < n → (v.contexts.find k).isSome = true) →
        ∃ c, exec .cmdCreate s = .next (complete { v with contexts := v.contexts.insert n c } 0 n) ∧ c.st = .loaded ∧ c.desc = readDesc (desc v) ∧
          c.raised = [] ∧ c.pendingCmd = none)) ∧
    (∀ (op : Nat) (x : Instr) (sts : List CtxState),
      (op, x, sts) ∈ [(2, .cmdStart, [.loaded]), (3, .cmdSave, [.running]), (4, .ctxRestore, [.saved]), (5, .cmdHalt, [.running, .evicting, .restoring]),
        (6, .cmdDestroy, [.loaded, .stopped, .saved, .failed]), (8, .cmdBind, [.loaded, .running, .evicting, .saved, .restoring])] → is op →
      (∀ c, u.contexts.find i = some c → c.st ∉ sts) → exec x s = .next (complete u 1 0)) ∧
    (∀ c, u.contexts.find i = some c →
      (is 2 → c.st = .loaded → ∃ t, exec .cmdStart s = .next (complete t 0 0) ∧ t.contexts.find i = some { c with st := .running } ∧
        t = { u with contexts := t.contexts, wqs := t.wqs } ∧
        ∀ q w, t.wqs.find q = some w → w.ctx = i → w.st ≠ .bound) ∧
      (is 3 → c.st = .running → (∃ e ∈ u.teams, e.2.ctx = i ∧ teamBusy u e.1 = true) → ∃ t, exec .cmdSave s = .next t ∧
        t.contexts.find i = some { c with st := .evicting, pendingCmd := pending } ∧ t.cmdq.ci = u.cmdq.ci + 1 ∧
        (∀ q w, t.wqs.find q = some w → w.ctx = i → w.st ≠ .serving) ∧ t.teams = u.teams ∧ t.groups = u.groups) ∧
      (is 3 → c.st = .running → (∀ e ∈ u.teams, e.2.ctx ≠ i) → ∃ t, exec .cmdSave s = .next t ∧
        t.contexts.find i = some { c with st := .saved, pendingCmd := none }) ∧
      (is 4 → c.st = .saved → ∃ t, exec .ctxRestore s = .next t ∧ t = { u with contexts := t.contexts, cmdq := t.cmdq } ∧
        t.contexts.find i = some { c with st := .restoring, pendingCmd := pending } ∧ t.cmdq.ci = u.cmdq.ci + 1) ∧
      (is 5 → c.st = .running ∨ c.st = .evicting ∨ c.st = .restoring → ∃ t, exec .cmdHalt s = .next (complete t 0 0) ∧
        t = { u with contexts := t.contexts } ∧ t.contexts.find i = some { c with raised := c.raised ++ [hubEvent 0x20 0] }) ∧
      (is 6 → c.st ∈ [CtxState.loaded, .stopped, .saved, .failed] → ∃ t, exec .cmdDestroy s = .next t ∧
        t.contexts.find i = some { c with st := .destroyed, pendingCmd := pending } ∧ t.cmdq.ci = u.cmdq.ci + 1 ∧
        ∀ e ∈ t.kernels, e.2.ctx = i → e.2.st = .abandoned ∧ e.2.saved = [] ∧ e.2.unplaced = []) ∧
      (is 8 → c.st ∈ [CtxState.loaded, .running, .evicting, .saved, .restoring] →
        let q := cmdQueueNo u
        let v := block 32
        (hubHeld u (cmdArg u) = true → exec .cmdBind s = .next u) ∧
        (hubHeld u (cmdArg u) = false → q ≥ 16384 ∨ (v.wqs.find q).isSome = true ∨ queueGood (desc v) = false →
          exec .cmdBind s = .next (complete v 4 0)) ∧
        (hubHeld u (cmdArg u) = false → q < 16384 → v.wqs.find q = none → queueGood (desc v) = true →
          ∃ w, exec .cmdBind s = .next (complete { v with wqs := v.wqs.insert q w } 0 0) ∧
            w.ctx = cmdCtx v ∧ w.st = (if c.st = .running then .serving else .bound) ∧ w.ci = 0 ∧ w.pi = 0 ∧ w.launched = [] ∧ w.signals = []))) ∧
    (is 9 →
      let q := cmdQueueNo u
      (∀ w, u.wqs.find q = some w → w.ctx = i → w.st ≠ .serving ∨ w.waiting = none → ∃ t, exec .cmdUnbind s = .next (complete t 0 0) ∧
        t.wqs.find q = none ∧ t.orphans = u.orphans ++ w.signals.map (fun x => (q, x)) ∧ (∀ k, k ≠ q → t.wqs.find k = u.wqs.find k)) ∧
      (∀ w, u.wqs.find q = some w → w.ctx = i → w.st = .serving → w.waiting ≠ none → exec .cmdUnbind s = .next u) ∧
      ((∀ w, u.wqs.find q = some w → w.ctx ≠ i) → exec .cmdUnbind s = .next (complete u 4 0)))

/-- R147 to R151 and R259 to R264: what the commands over faults, translations and the machine do, each completing at DONE: FAULTQ declares the fault queue
and enters the kept faults, FQ_CONSUME moves its CI; RESOLVE lets every sub-group parked on the page go on; SHOOTDOWN leaves no translation that it
names in a TLB; RATIO sets the ratios that the next partition clock boundary takes up, PHASE, DRAIN, CNT_CFG and FREQ_CAP set their fields; CNT_DUMP and CLKSAMPLE write their figures; a scan test starts on a core
with no group, and ends with its result while the core is at level 0.
The model's readings in it: logs 35, 38, 39, 40, 48. -/
def Obligations.ManagementCommands : Prop :=
  ∀ (s : State),
    let is : Nat → Prop := fun op => cmdReady s = true ∧ cmdOpcode s = op
    let u := readCmd s
    let byte : Nat → Nat := fun o => cmdLe u o 1
    (is 0x10 → (cmdArg u % 4096 ≠ 0 ∨ cmdLe u 0x20 8 % 8 ≠ 0 ∨ cmdLe u 0x28 2 ≥ 2048 → exec .cmdFaultq s = .next (complete u 2 0)) ∧
      (cmdArg u % 4096 = 0 → cmdLe u 0x20 8 % 8 = 0 → cmdLe u 0x28 2 < 2048 → u.faultq.kept = [] →
        exec .cmdFaultq s = .next (complete { u with faultq := { u.faultq with declared := true, ring := cmdArg u, piAddr := cmdLe u 0x20 8,
                                                                                 vector := cmdLe u 0x28 2, seq := 0, ci := 0 } } 0 0))) ∧
    (is 0x11 → u.faultq.declared = true → cmdLe u 0x20 8 ≤ u.faultq.seq → u.faultq.kept = [] →
      exec .cmdFqConsume s = .next (complete { u with faultq := { u.faultq with ci := max u.faultq.ci (cmdLe u 0x20 8) } } 0 0)) ∧
    (∀ c, is 0x12 → u.contexts.find (cmdCtx u) = some c → c.st = .running → byte 0x30 % 2 = 0 →
      let page := cmdLe u 0x20 10 / 2 ^ 16
      (∀ e ∈ u.groups, ∀ l ∈ e.2.queues, ∀ x ∈ l, x.owed = false) →
        ∃ t, exec .cmdResolve s = .next t ∧ parkedThere t (cmdCtx u) page = [] ∧ ∀ e ∈ t.faultq.entered, e ≠ (cmdCtx u, page)) ∧
    (is 0x13 → u.cmdq.acted = false → u.groups = [] → u.flights = [] → ∃ t, exec .cmdShootdown s = .next (complete t 0 0) ∧
      t = { u with cores := t.cores, dies := t.dies, cmdq := t.cmdq } ∧
      (∀ core, (coreOf t core).tlb = (coreOf u core).tlb.filter (fun x => !(cmdShoot u).hits x)) ∧
      ∀ die, (dieOf t die).tlb = (dieOf u die).tlb.filter (fun x => !(cmdShoot u).hits x) ∧
        (dieOf t die).pointers = (dieOf u die).pointers.filter (fun x => !(cmdShoot u).hitsPointer x)) ∧
    (is 0x20 → byte 0x20 < 32 ∨ byte 0x20 = 0xFF → byte 0x21 < 16 → 2 ≤ byte 0x22 → byte 0x22 ≤ 8 → ∃ t, exec .cmdRatio s = .next (complete t 0 0) ∧
      t = { u with cores := t.cores } ∧ ∀ c, c < 4096 → coreOf t c = { coreOf u c with ratiosSet := (coreOf t c).ratiosSet } ∧ (coreOf t c).ratiosSet =
        if byte 0x20 = 0xFF ∨ c / 128 = byte 0x20 then (coreOf u c).ratiosSet.mapIdx (fun i x => if (byte 0x21).testBit i then byte 0x22 else x)
        else (coreOf u c).ratiosSet) ∧
    (is 0x21 → byte 0x20 < 8 → exec .cmdPhase s = .next (complete { u with
      phase := u.phase.set (byte 0x20) ((List.range 8).map (fun i => byte (0x28 + i))) } 0 0)) ∧
    (is 0x22 →
      let w := cmdLe u 0x20 8
      let count := cmdLe u 0x30 8
      let busy := w.testBit 0 && u.arrays.any (fun e => arrayBusy e.2 && decide (e.1 % 64 ≥ 48 - bits w 13 8))
      let v := hubFetch u (cmdCtx u) (cmdLe u 0x28 8) (32 * count)
      (bits w 13 8 > 48 ∨ count > 2 ^ 20 → exec .cmdDrain s = .next (complete u 2 0)) ∧
      (bits w 13 8 ≤ 48 → count ≤ 2 ^ 20 →
        (busy = true → exec .cmdDrain s = .next (complete u 1 0)) ∧
        (busy = false → hubHeld u (cmdLe u 0x28 8) = true → exec .cmdDrain s = .next u) ∧
        (busy = false → hubHeld u (cmdLe u 0x28 8) = false → exec .cmdDrain s = .next (complete { v with drain := {
          enable := w.testBit 0, n := bits w 13 8, list := (List.range count).map (fun k =>
            { va := BitVec.ofNat 80 (hubReadLe v (cmdLe v 0x28 8 + 32 * k) 10), ctx := hubReadLe v (cmdLe v 0x28 8 + 32 * k + 16) 2 }) } } 0 0)))) ∧
    (is 0x23 → byte 0x20 = 0 → byte 0x21 < 32 → cmdLe u 0x22 2 < 128 → byte 0x24 < 8 → byte 0x25 ≤ 13 →
      cmdLe u 0x28 2 < 1024 ∨ cmdLe u 0x28 2 = 0xFFFF →
      let c := byte 0x21 * 128 + cmdLe u 0x22 2
      let x : Counter := { source := byte 0x25, filter := BitVec.ofNat 16 (cmdLe u 0x28 2), value := 0 }
      exec .cmdCntCfg s = .next (complete
        { u with cores := u.cores.insert c { coreOf u c with counters := (coreOf u c).counters.set (byte 0x24) x } } 0 0)) ∧
    (is 0x24 → cmdArg u % 64 ≠ 0 ∨ byte 0x20 > 2 → exec .cmdCntDump s = .next (complete u 2 0)) ∧
    (is 0x24 → cmdArg u % 64 = 0 → byte 0x20 ≤ 2 →
      let l : List Counter := if byte 0x20 = 0 then (List.range 4096).flatMap (fun c => (coreOf u c).counters)
        else if byte 0x20 = 1 then (List.range 32).flatMap (fun d => (dieOf u d).sliceCounters.flatten) else u.hubCounters
      exec .cmdCntDump s = .next (complete (hubWrite u (cmdArg u) (l.flatMap (fun x => leBytes 8 x.value.toNat))) 0 0)) ∧
    (∀ c, is 0x25 → byte 0x20 < 32 → physicalCore u (byte 0x20) (cmdLe u 0x22 2) = some c →
      (residentOn u c [] ≠ [] → exec .infieldScan s = .next (complete u 0 3)) ∧
      (residentOn u c [] = [] → ∃ t, exec .infieldScan s = .next t ∧ coreOf t c = { coreOf u c with scan := true } ∧
        t.scanning = some (c, cmdDone u, cmdSeq u) ∧ t.cmdq.ci = u.cmdq.ci + 1)) ∧
    (∀ c done seq (r : BitVec 16), s.scanning = some (c, done, seq) → r.toNat ≤ 1 → allowLevel s c = 0 → ∃ t, exec (.scanTestComplete r) s = .next t ∧
      t.scanning = none ∧ (coreOf t c).scan = false ∧ (r = 1 → (coreOf t c).logical = none ∧ (dieOf t (dieOfCore c)).stale = true) ∧
      (r = 0 → (coreOf t c).logical = (coreOf s c).logical)) ∧
    (is 0x26 → cmdArg u % 64 = 0 → ∃ t l, exec .cmdClksample s = .next (complete t 0 0) ∧ l.length = 4096 ∧
      t = { hubWrite u (cmdArg u) ((u.refclk.toNat :: l).flatMap (leBytes 8)) with free := t.free } ∧
      ∀ c, c < 4096 → if (coreOf u c).logical = none then l.getD c 0 = 0
        else ∃ d, d ≤ 8 ∧ l.getD c 0 = ((coreOf u c).cycle.toNat + 2 ^ 64 + d - 4) % 2 ^ 64) ∧
    (is 0x27 → byte 0x20 ≤ 23 → ∃ t, exec .cmdFreqCap s = .next (complete t 0 0) ∧ t = { u with power := t.power, dies := t.dies } ∧
      t.power = { u.power with freqCap := byte 0x20 } ∧ ∀ d, d < 32 → dieOf t d = { dieOf u d with stepTarget := (dieOf t d).stepTarget } ∧
        (∀ k, (dieOf t d).stepTarget = some k → k ≤ byte 0x20) ∧
        ((dieOf t d).stepTarget = none → (dieOf u d).stepTarget = none ∧ (dieOf u d).step ≤ byte 0x20))

/-- R69 to R72 and R79: a doorbell sets the producer index, and one that overruns the ring puts the queue in ERROR. The queue that the engine serves next
consumes its head: LAUNCH queues a kernel, FENCE waits for the kernels before it, SIGNAL keeps its write until the kernels before it have retired, and
WAIT_VALUE is consumed when its condition has held; a bad entry puts the queue in ERROR with CI at the entry. CI is written as 4 bytes.
The model's readings in it: logs 34, 61. -/
def Obligations.WorkQueues : Prop :=
  ∀ (q : Nat) (s : State) (w : WorkQueue), s.wqs.find q = some w →
    let erred : State → State → Prop := fun v t => t.wqs.find q = some { w with st := .error, waiting := none, satisfied := false } ∧
      t.msix = (if w.vector = 0xFFFF then v.msix else v.msix ++ [w.vector]) ∧ t.kernels = v.kernels
    let turn := takeTurn s q w
    turn = hubFetch { s with wqTurn := s.wqTurn.set w.prio q } w.ctx (w.ring + 64 * (w.ci.toNat % 2 ^ w.logSize)) 64 ∧
    (∀ s' x, consume s' q x = hubWrite { s' with wqs := s'.wqs.insert q { x with ci := x.ci + 1, waiting := none, satisfied := false } } x.ciAddr
      (leBytes 4 (x.ci + 1).toNat)) ∧
    (∀ pi : BitVec 32, s.status ≠ .recovery → let w' : WorkQueue := { w with pi := pi }
      (w.st = .error ∨ (pi - w.ci).toNat ≤ 2 ^ w.logSize → exec (.workQueueDoorbell q pi) s = .next { s with wqs := s.wqs.insert q w' }) ∧
      (w.st ≠ .error → (pi - w.ci).toNat > 2 ^ w.logSize → ∃ t, exec (.workQueueDoorbell q pi) s = .next t ∧
        t.wqs.find q = some { w' with st := .error, waiting := none, satisfied := false })) ∧
    (served s q w = true →
      (headType s w = 1 → entryClean turn w 0x18 = true → entryVaGood turn w 128 = true →
        (∀ u r, fetchLaunch turn w.ctx (entryVa turn w) false = .ok u r →
          ∃ t k, exec (.wqLaunch q) s = .next (consume t q { w with launched := w.launched ++ [u.nextId] }) ∧
            t = { u with kernels := u.kernels.insert u.nextId k, nextId := u.nextId + 1, hubCounters := t.hubCounters } ∧
            k = { ctx := w.ctx, addr := entryVa u w, launch := r, st := .queued, order := u.nextId, next := 0, unplaced := [], saved := [], masks := []
                  home := none, exited := 0, cores := [], cont := none, queue := some q }) ∧
        (∀ u, fetchLaunch turn w.ctx (entryVa turn w) false = .wait u → exec (.wqLaunch q) s = .next u) ∧
        (∀ u, fetchLaunch turn w.ctx (entryVa turn w) false = .bad u → ∃ t, exec (.wqLaunch q) s = .next t ∧ erred u t)) ∧
      (headType s w = 1 → entryClean turn w 0x18 = false ∨ entryVaGood turn w 128 = false → ∃ t, exec (.wqLaunch q) s = .next t ∧ erred turn t) ∧
      (headType s w = 0 ∨ headType s w > 4 → ∃ t, exec (.wqLaunch q) s = .next t ∧ erred turn t) ∧
      (headType s w = 4 → entryClean turn w 8 = true → exec (.wqFence q) s = .next (consume turn q w)) ∧
      (headType s w = 4 → entryClean turn w 8 = false → ∃ t, exec (.wqFence q) s = .next t ∧ erred turn t) ∧
      (headType s w = 3 → entryClean turn w 0x29 = true → entryLe turn w 0x20 8 = 0 → entryLe turn w 0x28 1 ≤ 1 → entryVaGood turn w 8 = true →
        let add := entryLe turn w 0x28 1 == 1
        let u := hubWalkCodes turn w.ctx (entryVa turn w).toNat
        (∀ l, hubXlat u w.ctx (entryVa u w) (if add then .atomic else .write) = .ok l →
          (addDenied add l = false → exec (.wqSignal q) s = .next (consume u q { w with signals := w.signals ++
            [{ loc := l, value := BitVec.ofNat 64 (entryLe u w 0x18 8), add := add, after := w.launched }] })) ∧
          (addDenied add l = true → ∃ t, exec (.wqSignal q) s = .next t ∧ erred u t)) ∧
        (hubXlat u w.ctx (entryVa u w) (if add then .atomic else .write) = .bad → ∃ t, exec (.wqSignal q) s = .next t ∧ erred u t)) ∧
      (headType s w = 2 → entryClean s w 0x29 = true → entryLe s w 0x28 1 ≤ 3 → entryVaGood s w 8 = true →
        ∀ l, hubXlat s w.ctx (entryVa s w) .read = .ok l → hubWaits s l true = none →
          let u := hubWalkCodes turn w.ctx (entryVa s w).toNat
          let v := hubFresh u w.ctx l
          let x := newestLe v l.space l.addr 8 &&& entryLe v w 0x20 8
          let y := entryLe v w 0x18 8
          let holds := match entryLe v w 0x28 1 with
            | 0 => x = y
            | 1 => x ≠ y
            | 2 => x ≥ y
            | _ => x < y
          (badLoc u l = true → ∃ t, exec (.wqWaitValue q) s = .next t ∧ erred u t) ∧
          (badLoc u l = false → ∃ t w', exec (.wqWaitValue q) s = .next t ∧ t.wqs.find q = some w' ∧
            w' = { w with waiting := w'.waiting, satisfied := w'.satisfied } ∧ (w'.satisfied = true ↔ holds ∨ w.satisfied = true) ∧
            w'.waiting.isSome = true ∧ (¬holds → w'.waiting = some (l, canArm l.space && decide (sliceMonitors v l.space l.addr < 1024))) ∧
            t.dram = v.dram))) ∧
    (w.satisfied = true → w.st ≠ .error → exec (.waitValueSatisfied q) s = .next (consume s q w)) ∧
    (∀ l, w.waiting = some (l, false) → hubWaits s l true = none → badLoc s l = false →
      let v := hubFresh s w.ctx l
      (waitHolds v w l = true → ∃ t, exec (.waitValueRecheck q) s = .next t ∧ t = { v with wqs := v.wqs.insert q { w with satisfied := true }, past := t.past }) ∧
      (waitHolds v w l = false → exec (.waitValueRecheck q) s = .next v)) ∧
    (∀ x rest, q < 16384 → w.signals = x :: rest → x.after = [] → (∀ e ∈ s.orphans, e.1 ≠ q) → signalWaits s x = none →
      let old : State := { s with wqs := s.wqs.insert q { w with signals := rest } }
      let u := if x.add then hubFresh (landOnto old (wordLocs x.loc)) w.ctx x.loc else old
      peerFails old x.loc = false → peerFails u x.loc = false → x.add = false ∨ sectorBad u x.loc.space (locSector x.loc) = false →
      let v := if x.add then newestLe u x.loc.space x.loc.addr 8 + x.value.toNat else x.value.toNat
      exec (.signalExecute q) s = .next (writeOutside u .hub ((wordLocs x.loc).zip (leBytes 8 v))))

/-- R45, R47 to R52, R59, R65 and R82: the halt line stops a running, evicting or restoring context with the first of its events: its sub-groups that can
issue stop at their instructions, its kernels are ABANDONED, a SAVE or RESTORE under way completes with BAD_STATE; when its units have stopped it is
STOPPED, or FAILED for a bad image, with the message on vector 0. Images that all read well let a RESTORE run. The teardown of a destroyed context frees
the identifier, its queues, teams, kernels and translations. A die whose map is stale renumbers its remaining cores when no group is on it.
The model's readings in it: logs 36, 37, 85, 86. -/
def Obligations.ContextSteps : Prop :=
  ∀ (ctx : Nat) (s : State) (c : Context), s.contexts.find ctx = some c →
    (c.st = .running ∨ c.st = .evicting ∨ c.st = .restoring → c.raised ≠ [] → ∃ t c', exec (.haltLineAssert ctx) s = .next t ∧
      t.contexts.find ctx = some c' ∧ c'.st = .halting ∧ c'.raised = [] ∧ c'.pendingCmd = none ∧ (∀ e, e ∈ c'.taken ↔ e ∈ c.raised) ∧
      (∀ e ∈ ctxGroups t ctx, ∀ x ∈ e.2.subs, x.st ≠ .runnable ∧ x.st ≠ .committing ∧ ∀ n, x.st ≠ .sleeping n) ∧
      (∀ e ∈ t.kernels, e.2.ctx = ctx → e.2.st = .abandoned) ∧ (∀ e ∈ t.wqs, e.2.ctx = ctx → e.2.st ≠ .serving) ∧
      (c.pendingCmd = none → (∀ e ∈ s.arrays, e.2.asked = [] ∧ e.2.reads = []) → ∀ sp a, newestByte t sp a = newestByte s sp a) ∧
      ∀ m ∈ t.monitors, m.ctx = ctx → ∃ q, m.waiter = .queue q) ∧
    (c.st = .halting → draining s c = false → unitsWork s ctx = false → ∃ t c', exec (.contextStopComplete ctx) s = .next t ∧
      t.contexts.find ctx = some c' ∧ c' = { c with st := c'.st, raised := [], taken := [], held := [] } ∧
      c'.st = (if ((c.taken ++ c.raised).head?).map (·.cause) = some 0x22 then .failed else .stopped) ∧ t.msix.getLast? = some 0 ∧
      ∀ e ∈ ctxGroups t ctx, ∀ l ∈ e.2.queues, ∀ x ∈ l, x.st = .done) ∧
    let slots := (s.kernels.filter (fun e => e.2.ctx == ctx)).flatMap (fun e => e.2.saved.map (·.2))
    let read := slots.foldl (fun s k => slotFetch s ctx c k) s
    (c.st = .restoring → c.raised = [] → (∀ k ∈ slots, slotHeld s c k = false) →
      (∀ e ∈ read.kernels, e.2.ctx = ctx → ∀ x ∈ e.2.saved, (imageOf read c e.1 x.1 x.2).isSome = true) →
      ∃ t, exec (.restoreImagesChecked ctx) s = .next t ∧ t.contexts.find ctx = some { c with st := .running, recreated := false, pendingCmd := none } ∧
        t.kernels = s.kernels ∧ ∀ e ∈ t.wqs, e.2.ctx = ctx → e.2.st ≠ .bound) ∧
    (c.st = .restoring → c.raised = [] → (∀ k ∈ slots, slotHeld s c k = false) →
      (∃ e ∈ read.kernels, e.2.ctx = ctx ∧ ∃ x ∈ e.2.saved, imageOf read c e.1 x.1 x.2 = none) →
      ∃ t, exec (.restoreImagesChecked ctx) s = .next t ∧ t.contexts.find ctx = some { c with st := .failed, pendingCmd := none } ∧
        ∀ e ∈ t.kernels, e.2.ctx = ctx → e.2.st = .abandoned) ∧
    (c.st = .destroyed → (∀ e ∈ ctxGroups s ctx, committedStores e.2 = false) → unitsWork s ctx = false →
      ∃ t, exec (.contextTeardownComplete ctx) s = .next t ∧ t.contexts.find ctx = none ∧ (∀ e ∈ t.teams, e.2.ctx ≠ ctx) ∧
        (∀ e ∈ t.kernels, e.2.ctx ≠ ctx) ∧ (∀ e ∈ t.wqs, e.2.ctx ≠ ctx) ∧ (∀ e ∈ t.cores, ∀ x ∈ e.2.tlb, x.ctx ≠ ctx ∧ ctx ∉ x.also) ∧
        (∀ e ∈ t.dies, (∀ x ∈ e.2.tlb, x.ctx ≠ ctx ∧ ctx ∉ x.also) ∧ ∀ x ∈ e.2.tasks, x.ctx ≠ ctx)) ∧
    (∀ die, (dieOf s die).stale = true → (∀ k, k < 128 → residentOn s (die * 128 + k) [] = []) →
      ∃ t, exec (.coreMapRebuild die) s = .next t ∧ (dieOf t die).stale = false ∧ (dieOf t die).mapGen = (dieOf s die).mapGen + 1 ∧
        (∀ k, k < 128 → ((coreOf t (die * 128 + k)).logical.isSome = (coreOf s (die * 128 + k)).logical.isSome)) ∧
        (∀ k l n, k < 128 → l < 128 → (coreOf t (die * 128 + k)).logical = some n → (coreOf t (die * 128 + l)).logical = some n → k = l) ∧
        t.msix = s.msix ++ [0])

/-! ### Power, links and the host (spec/14_link.md, spec/15_power.md) -/

/-- R61, R62, R241, R247 to R250: PWRFAIL raises the halt lines first; with nothing left to stop the supply goes, and what has no supply is as after
reset while host memory, peers, cells and fuses stand. Power-up boots the firmware slot of the higher version among those whose digest, signature, key
and version check, or stays in RECOVERY with none; die-to-die links and peer ports train, then the host port, and READY is signalled on vector 0. A
32-byte nonce starts a report, which is written with its RSA-3072 signature, and clears the doorbell.

R251 to R260: a clk of a core adds its refill to ACC and takes off its charge and its engines' quanta, between −65,536 and 65,535, and raises or
lowers its level by the thresholds; r eighths of a clock elapse in each partition, and the ratio that RATIO has set takes effect where one ends (R13);
POWER_STEP's set point lies between 1,500 and 10,000, a lower one, or any without a ramp, in force at once; HOLD
sends every die to step 0, but after PWRFAIL none; a window takes its figures; a die's µs spends or refills boost; bands 6 and 7 cap a die's step; a step change ends within the
die's cap; the ramp raises the set point by RAMP W in every 1,000 µs, and keeps the rest.
The model's readings in it: logs 9, 19, 40, 41, 63, 80, 83, 87. -/
def Obligations.SupplyBootAndPower : Prop :=
  ((∀ (s : State), s.failing = false → s.drain.enable = false → ∃ t, exec .pwrfail s = .next t ∧ t.failing = true ∧
      (∀ i c, s.contexts.find i = some c → c.st = .running ∨ c.st = .evicting ∨ c.st = .restoring → ∃ c', t.contexts.find i = some c' ∧
        hubEvent 0x21 0 ∈ c'.raised ∧ c'.st = c.st) ∧ ∀ sp a, newestByte t sp a = newestByte s sp a) ∧
    (∀ (s : State), s.failing = true → s.drain.enable = false →
      (∀ e ∈ s.contexts, e.2.st ≠ .running ∧ e.2.st ≠ .evicting ∧ e.2.st ≠ .restoring ∧ e.2.st ≠ .halting) →
      ∃ t, exec .pwrfail s = .next t ∧ t.status = .booting ∧ t.dram = [] ∧ t.hostMem = s.hostMem ∧ t.peerMem = s.peerMem ∧ t.groups = [] ∧ t.teams = [] ∧
        t.contexts = [] ∧ t.kernels = [] ∧ t.copies = [] ∧ t.firmware = s.firmware ∧ t.minVersion = s.minVersion ∧ t.failing = false ∧
        ∀ k r, rowOf (arrayOf t k) r = rowOf (arrayOf s k) r) ∧
    (∀ (s : State), s.status = .booting → s.booted = none →
      (bootSlot s = none → ∃ t, exec .powerUp s = .next t ∧ t.status = .recovery ∧ t.booted = none ∧ (linkOf t 16).st = .training ∧
        t = { s with status := t.status, links := t.links, msix := t.msix }) ∧
      (∀ i, bootSlot s = some i → ∃ t f, exec .powerUp s = .next t ∧ t.status = .booting ∧ t.booted = some i ∧ t.codes = [] ∧
        (∀ p, p < 16 → (linkOf t p).st = .training) ∧ (∀ n, n < Config.dieLinks → (linkOf t (17 + n)).st = .training) ∧
        s.firmware[i]? = some f ∧ sha256 f.image = f.digest ∧ sha256 f.key = s.vendorKey ∧ rsaGood f.key (signedPart f) f.signature = true ∧
        s.minVersion ≤ f.version ∧ (∀ k, k < 2 → ∀ h, s.firmware[k]? = some h → firmwareValid s h = true → h.version ≤ f.version) ∧
        t.contexts = s.contexts ∧ t.dram = s.dram)) ∧
    (∀ (s : State) (i : Nat), s.status = .booting → s.booted = some i →
      ((∃ n, n < Config.dieLinks ∧ (linkOf s (17 + n)).st = .training) → exec .powerUp s = .next s) ∧
      ((∀ n, n < Config.dieLinks → (linkOf s (17 + n)).st ≠ .training) →
        ((linkOf s 16).st = .down → s.drainIndex = none → (∀ e ∈ s.arrays, e.2.st ≠ .suspended) → ∃ t, exec .powerUp s = .next t ∧
          (linkOf t 16).st = .training ∧ t = { s with links := t.links, msix := t.msix }) ∧
        ((linkOf s 16).st = .up ∨ (linkOf s 16).st = .degraded →
          exec .powerUp s = .next { s with status := .ready, msix := s.msix ++ [0] }))) ∧
    (∀ (nonce : List Byte) (s : State), s.attest.busy = false → s.status = .ready → nonce.length = 32 →
      exec (.attestationDoorbell nonce) s = .next { s with attest := { s.attest with busy := true, nonce := nonce } }) ∧
    (∀ (s : State), s.attest.busy = true → ∃ t salt, exec .attestationReportComplete s = .next t ∧ t = { s with attest := t.attest, free := t.free } ∧
      t.attest.busy = false ∧ s.attest.nonce <+: t.attest.report ∧ salt.length = 32 ∧
      t.attest.report = reportBody s ++ rsaSign Config.identityKey.1 Config.identityKey.2 (reportBody s) salt)) ∧
  ((∀ (core : Nat) (s : State), core < 4096 → ∃ t, exec (.allowanceTick core) s = .next t ∧
      let c := coreOf s core
      let c' := coreOf t core
      let x : Int := c.acc + (refill s (core / 128) : Int) - (c.charge : Int) - (engineQuanta s core : Int)
      c'.acc = (if x > 65535 then 65535 else if x < -65536 then -65536 else x) ∧ c'.charge = 0 ∧ c'.cycle = c.cycle + 1 ∧
      (∀ i, i < c'.level ↔ i < 6 ∧ c'.acc < 49152 - 8192 * (i : Int) ∨ i < c.level ∧ c'.acc < 49152 - 8192 * (i : Int) + 1024) ∧
      t = { s with cores := t.cores, dies := t.dies, teams := t.teams, groups := t.groups, hubCounters := t.hubCounters } ∧ (∀ k, k ≠ core → coreOf t k = coreOf s k) ∧
      (∀ k, t.teams.find k = (s.teams.find k).map (fun y => if y.core = core ∧ y.delay > 1 then { y with delay := y.delay - 1 } else y)) ∧
      (∀ p, p < 4 → let e := c.phases.getD p 0
        let r := c.ratios.getD p 8
        c'.phases.getD p 0 = e + r ∧ c'.ratios.getD p 8 = if (e + r) / 8 = e / 8 then r else c.ratiosSet.getD p 8) ∧ c'.ratiosSet = c.ratiosSet ∧
      ∀ sp a, newestByte t sp a = newestByte s sp a) ∧
    (∀ (v : W64) (s : State), s.status ≠ .recovery →
      let w := bits v.toNat 15 0
      let p := if w < 1500 then 1500 else if w > 10000 then 10000 else w
      let written : State → Prop := fun t => t.power.powerStep.toNat = w + 2 ^ 32 * bits v.toNat 48 32 ∧ (t.power.clamped = true ↔ w ≠ p) ∧
        t.power.met = false ∧ t.power.setNow = if p ≤ s.power.setNow ∨ bits v.toNat 47 32 = 0 then p else s.power.setNow
      (v.getLsbD 48 = false → ∃ t, exec (.powerStepSet v) s = .next t ∧ written t ∧ t.dies = s.dies) ∧
      (v.getLsbD 48 = true → s.failing = false → ∃ t, exec (.powerHold v) s = .next t ∧ written t ∧ ∀ d, d < 32 → (dieOf t d).stepTarget = some 0) ∧
      (v.getLsbD 48 = true → s.failing = true → ∃ t, exec (.powerHold v) s = .next t ∧ written t ∧ t.dies = s.dies)) ∧
    (∀ (pkg rails dramW other : BitVec 16) (s : State), ∃ t, exec (.measurementWindow pkg rails dramW other) s = .next t ∧
      t.power.measured.toNat = pkg.toNat + 2 ^ 16 * rails.toNat + 2 ^ 32 * dramW.toNat + 2 ^ 48 * other.toNat ∧
      (t.power.met = true ↔ pkg.toNat * 100 ≤ (if s.power.powerStep.getLsbD 48 then 1500 else s.power.setNow) * 102) ∧ t = { s with power := t.power }) ∧
    (∀ (s : State), s.power.sinceWrite = 0 → s.failing = false → overSet s = true → ∃ t, exec .freqStepAdjust s = .next t ∧ t.power = { s.power with sinceWrite := 100 } ∧
      ∀ d, d < 32 → (dieOf t d).stepTarget =
        some (min (stepCap s (dieOf s d)) (((dieOf s d).step + 1) * s.power.setNow / measuredPkg s - 1))) ∧
    (∀ (s : State), s.power.lowTime ≥ 1000 → s.power.powerStep.getLsbD 48 = false → s.failing = false → ∃ t, exec .freqStepRaise s = .next t ∧ t.power.lowTime = 0 ∧
      ∀ d, d < 32 → (dieOf s d).stepTarget = none → (dieOf t d).stepTarget =
        if (dieOf s d).step < stepCap s (dieOf s d) then some ((dieOf s d).step + 1) else none) ∧
    (∀ (die : Nat) (s : State), die < 32 → ∃ t, exec (.boostTick die) s = .next t ∧
      let d := dieOf s die
      t.power.boostLeft = (if d.step ≥ 20 then s.power.boostLeft - (d.step - 19)
        else if d.boostTime = 3 then min 4000000 (s.power.boostLeft + 1) else s.power.boostLeft) ∧
      t.refclk = (if die = 0 then s.refclk + 100 else s.refclk) ∧
      t.power.rampTime = (if die = 0 then s.power.rampTime + bits s.power.powerStep.toNat 47 32 else s.power.rampTime) ∧ t.groups = s.groups ∧ t.dram = s.dram) ∧
    (∀ (die : Nat) (band : BitVec 3) (s : State), die < 32 → ∃ t, exec (.tempBandChange die band) s = .next t ∧ (dieOf t die).band = band.toNat ∧
      (dieOf t die).step = (dieOf s die).step ∧
      (band = 6 → (dieOf s die).step > 15 → ∃ k, (dieOf t die).stepTarget = some k ∧ k ≤ 15) ∧
      (band = 7 → (dieOf s die).step > 0 → (dieOf t die).stepTarget = some 0) ∧
      t.msix = (if band = 7 ∧ (dieOf s die).band ≠ 7 then s.msix ++ [0] else s.msix)) ∧
    (∀ (die k : Nat) (s : State), (dieOf s die).stepTarget = some k →
      exec (.stepChangeComplete die) s = .next { s with dies := s.dies.insert die { dieOf s die with
        step := min k (stepCap s (dieOf s die)), stepTarget := none } }) ∧
    (∀ (s : State), let r := bits s.power.powerStep.toNat 47 32
      let rise := s.power.rampTime / 1000
      s.failing = false → r ≠ 0 → rise ≠ 0 → s.power.setNow < target s → exec .setPointRamp s = .next { s with power := { s.power with
        setNow := min (target s) (s.power.setNow + rise), rampTime := s.power.rampTime % 1000 } }))

/-- R194, R195 and R237 to R246: RETRAIN trains a link, but while BOOTING, with nothing left of a replay or of failed beats; five locked rails bring it UP, four leave it DEGRADED without the fifth, fewer or the time-out fail
it; the host port comes up with 16, 8 or 4 lanes; a lost rail degrades an UP link. A change of state signals vector 0. A whole flit with the sequence
number expected is accepted with its virtual channel; one missing beat is rebuilt; two, or a bad CRC, ask for a replay, which the sender makes from its
store. Peer requests inside a window of their port, which a flit answers, and host accesses outside the metadata area are performed at the home slices; a snoop writes a
dirty host line back; a capability register takes its value, but in RECOVERY, where the mailbox does. From link-up a walk of the capability list finds
the identity capability, and once READY all of them.
The model's readings in it: logs 13, 20, 42, 49, 62. -/
def Obligations.LinksAndHost : Prop :=
  (∀ (l : Nat) (s : State), linkExists l = true →
    let x := linkOf s l
    (s.status ≠ .recovery → s.status ≠ .booting → x.st ∈ [LinkState.down, .up, .degraded, .failed] → ∃ t, exec (.retrain l) s = .next t ∧
      linkOf t l = { x with
        st := .training, lost := none, replays := 0, resent := false, asked := none, tries := 0, badBeats := [[], [], [], [], []] } ∧ t.msix = s.msix ++ [0] ∧
      t = { s with links := t.links, msix := t.msix }) ∧
    (∀ rails, l = 16 → x.st = .training → ∃ t, exec (.linkTrainComplete l rails) s = .next t ∧ (linkOf t l).st = .up ∧ t.hostWidth ∈ [16, 8, 4]) ∧
    (∀ rails, l ≠ 16 → x.st = .training → unlocked rails = [] → ∃ t, exec (.linkTrainComplete l rails) s = .next t ∧ (linkOf t l).st = .up ∧
      (linkOf t l).lost = none ∧ ((∀ f ∈ s.flights, f.die ≠ hubDie) → t = { s with links := t.links, msix := s.msix ++ [0] })) ∧
    (∀ rails r, l ≠ 16 → x.st = .training → unlocked rails = [r] → ∃ t, exec (.linkTrainComplete l rails) s = .next t ∧ (linkOf t l).st = .degraded ∧
      (linkOf t l).lost = some r ∧ ((∀ f ∈ s.flights, f.die ≠ hubDie) → t = { s with links := t.links, msix := s.msix ++ [0] })) ∧
    (∀ rails, x.st = .training → ∃ t, exec (.linkTrainTimeout l rails) s = .next t ∧ (linkOf t l).st = .failed ∧ t.msix.take (s.msix.length + 1) =
      s.msix ++ [0] ∧ (l < 17 ∨ failedLinks s = [] → t.status = s.status)) ∧
    (flitLink l = true →
      (∀ rail, rail < 5 → x.st = .up → ∃ t, exec (.railLockLoss l rail) s = .next t ∧ linkOf t l = { x with st := .degraded, lost := some rail } ∧
        t.msix = s.msix ++ [0] ∧ t = { s with links := t.links, msix := t.msix }) ∧
      (x.st = .replay → x.replays ≠ 0 → x.resent = false → ∃ t, exec (.replayRequest { link := l, number := none }) s = .next t ∧ linkOf t l = { x with resent := true } ∧
        t = { s with links := t.links, hubCounters := t.hubCounters }) ∧
      (∀ seq, x.st = .up → x.asked ≠ some seq → ∃ t, exec (.replayRequest { link := l, number := some seq }) s = .next t ∧ (linkOf t l).st = .replay ∧
        (linkOf t l).before = .up ∧ (linkOf t l).asked = some seq ∧ (linkOf t l).resend = x.sent.dropWhile (fun f => flitSeq f != seq)) ∧
      (∀ b0 b1 b2 b3 b4 : BitVec 144, x.st = .up → x.lost = none → x.replays = 0 → x.badBeats = [[], [], [], [], []] →
        let f := flitBytes [b0, b1, b2, b3]
        let whole := exec (.linkFlitReceive l [some b0, some b1, some b2, some b3, some b4]) s
        let accepted : State → Prop := fun t => (linkOf t l).st = .up ∧ (linkOf t l).expect = x.expect + 1 ∧
          (linkOf t l).received = x.received ++ [(bits (leValue (f.take 4)) 1 0, (f.drop 4).take 64)]
        (flitGood f = true → flitSeq f = x.expect → ∃ t, whole = .next t ∧ accepted t ∧ (linkOf t l).rebuilt = x.rebuilt) ∧
        (flitGood f = true → flitSeq f = x.expect → b4 = b0 ^^^ b1 ^^^ b2 ^^^ b3 →
          ∃ t, exec (.linkFlitReceive l [some b0, none, some b2, some b3, some b4]) s = .next t ∧ accepted t ∧ (linkOf t l).rebuilt = x.rebuilt + 1) ∧
        (flitGood f = false → ∃ t, whole = .next t ∧ (linkOf t l).st = .replay ∧ (linkOf t l).received = x.received ∧ (linkOf t l).expect = x.expect) ∧
        (∃ t, exec (.linkFlitReceive l [none, none, some b2, some b3, some b4]) s = .next t ∧ (linkOf t l).st = .replay ∧
          (linkOf t l).received = x.received)))) ∧
  (∀ (port addr : Nat) (req : PeerReq) (data : List Byte) (s : State), port < 16 → (linkOf s port).st = .up ∨ (linkOf s port).st = .degraded →
    s.status = .ready → inWindow (linkOf s port) addr data.length = true →
    let ls := outsideLocs addr data.length
    (addr + data.length > dramEnd → exec (.peerInboundRequest port req addr data) s = .fault .noSuchAddress) ∧
    (addr + data.length ≤ dramEnd → outsideWaits s ls = false →
      (∃ t, exec (.peerInboundRequest port req addr data) s = .next t) ∧
      (req = .write → exec (.peerInboundRequest port req addr data) s = .next (sendFlits (writeOutside s (.peer port) (ls.zip data)) [port] 1)) ∧
      (∀ mod ty b c, req = .atomic mod ty b c → s.canonical → 0 < data.length → addr % 64 + data.length ≤ 64 → LineClear s (hubLoc addr) →
        (∀ f ∈ s.flights, f.who ≠ .peer port ∧ overlap f.locs ls = false) → codeOf s (addr / 256) = 3 → (∀ l ∈ ls, badLoc s l = false) → (∀ m ∈ s.monitors, ¬(m.space = .dram ∧ m.addr / 64 = addr / 64)) →
        ∃ t, exec (.peerInboundRequest port req addr data) s = .next t ∧
          AtomDone s t { acc := { lane := 0, off := 0, va := 0, locs := ls }, mod := mod, ty := ty, b := b, c := c } (hubLoc addr) data.length))) ∧
  (∀ (port addr : Nat) (req : PeerReq) (data : List Byte) (s : State), port < 16 → inWindow (linkOf s port) addr data.length = false →
    exec (.peerInboundRequest port req addr data) s = .next s) ∧
  (∀ (addr : Nat) (data : List Byte) (s : State), s.status ≠ .recovery → s.status ≠ .fatal → let ls := outsideLocs addr data.length
    ((∃ l ∈ ls, inMeta l.addr = true) → ∀ w, exec (.hostMemAccess w addr data) s = .next s) ∧
    ((∀ l ∈ ls, inMeta l.addr = false ∧ hostReaches s l = true) → outsideWaits s ls = false →
      exec (.hostMemAccess true addr data) s = .next (writeOutside s .host (ls.zip data)) ∧
      ((∀ l ∈ ls, ∀ c ∈ s.copies, ¬(c.space = l.space ∧ c.sector = locSector l)) →
        (∀ l ∈ ls, l.space = .dram → codeOf s (l.addr / 256) = 3) → ∃ t, exec (.hostMemAccess false addr data) s = .next t ∧
          t = { s with free := t.free, past := t.past, metaCache := t.metaCache, dies := t.dies, links := t.links }))) ∧
  (∀ (line : Nat) (inv : Bool) (s : State), s.canonical → hostLinkUp s = true → pinnedAway s .host line none = false → lineHeld s .host (line / 4) 0 = false →
    portHeld s hubDie (hubLoc (line * 64)) = false → line * 64 < 2 ^ 52 → dramEnd ≤ line * 64 →
    (∀ c ∈ s.copies, c.space = .host → c.sector = line → c.place = .home ∧ c.dirty = true ∧ c.bytes.length = 64) →
    ∃ t, exec (.cxlCacheSnoop line inv) s = .next t ∧ (∀ sp a, newestByte t sp a = newestByte s sp a) ∧
      (∀ c ∈ t.copies, c.space = .host → c.sector = line → c.dirty = false ∧ inv = false) ∧
      ∀ i, i < 64 → Memory.read t.hostMem (line * 64 + i) = newestByte s .host (line * 64 + i)) ∧
  (∀ (v : W64) (s : State),
    (s.status ≠ .recovery →
      exec (.registerWrite 2 0x08 v) s = .next { s with cmdq := { s.cmdq with ring := v.toNat } } ∧
      exec (.registerWrite 2 0x10 v) s = .next { s with cmdq := { s.cmdq with logSize := v.toNat % 32 } } ∧
      exec (.registerWrite 4 0x08 v) s = .next { s with errlog := { s.errlog with ring := v.toNat } } ∧
      exec (.registerWrite 4 0x10 v) s = .next { s with errlog := { s.errlog with size := v.toNat } } ∧
      exec (.registerWrite 4 0x18 v) s = .next { s with errlog := { s.errlog with ci := v.toNat } }) ∧
    (s.status = .recovery → ∀ o, exec (.registerWrite 0 o v) s = .next { s with mailbox := s.mailbox ++ [(o, v)] })) ∧
  (∀ s : State,
    (hostLinkUp s = false → ∀ o, bar0Read s o = none) ∧
    (hostLinkUp s = true → ∃ h, bar0Read s 0 = some h ∧ bits h.toNat 15 0 = 1) ∧ (hostLinkUp s = true → (bar0Read s 0x18).isSome = true) ∧
    (hostLinkUp s = true → s.status = .ready → walkList s 8 0 = [1, 2, 3, 4, 5, 6, 7, 8]))

/-! ### The whole machine -/

/-- R273, R276 to R286: for every well-formed instruction whose fields its form can hold, the decoder reads the encoder's bytes back as that instruction, with
every operand at every value, whatever bytes follow. -/
def Obligations.RoundTrip : Prop :=
  ∀ i : Instr, i.wf = true → i.encodable = true → ∃ bs, encode i = some bs ∧ ∀ rest, decode (bs ++ rest) = .ok (i, bs.length)

/-- Words that spec/ writes out (spec/17_encoding.md R278, spec/22_prog_matrix.md to spec/26_prog_bankadd.md) decode to the instructions that it says they
are: one of each form. -/
def Obligations.DecodesSpecWords : Prop :=
  decode [0x60, 0xA6] = .ok (.faddF322B 5 6, 2) ∧
  decode [0x8B, 0x10, 0x20, 0x44] = .ok (.addN644B { fa := false, fb := false, dst := 0x40, sa := 0x40, sb := 0x44 }, 4) ∧
  decode [0xC3, 0x00, 0x0C, 0x81, 0x20, 0x7F] =
    .ok (.ld { form := .f6a, pred := 2, dst := .v 4, sa := .s 0, ty := .n32 }, 6) ∧
  decode [0xC9, 0x34, 0x00, 0x9D, 0x44, 0x06] =
    .ok (.sel { form := .f6b, dst := .v 4, sa := .p 5, sb := .v 8, sc := .v 6 }, 6) ∧
  decode [0xD1, 0x00, 0x3F, 0xFF, 0x04, 0x08] = .ok (.region { form := .f6c, imm := 0x408 }, 6) ∧
  decode [0xE1, 0x28, 0x02, 0x04, 0x00, 0x00, 0x00, 0x01] =
    .ok (.add { form := .f8a, pred := 2, dst := .v 4, sa := .v 4, sb := .imm, ty := .n32, imm := 1 }, 8) ∧
  decode [0xEB, 0x80, 0x0C, 0x40, 0xA9, 0x2E, 0x28, 0x00] =
    .ok (.atom { form := .f8b, dst := .s 20, sa := .s 11, sb := .s 5, scope := .dev, ty := .n32 }, 8) ∧
  decode [0xF0, 0x81, 0x40, 0x3F, 0xFF, 0xFF, 0xFF, 0xC0, 0xD1, 0x00, 0x00, 0x0C, 0x20] =
    .ok (.mma { form := .f13, ty := .sx4, aux := 1, imm := 0xC20 }, 13)

/-- R105, R273, R288 and R289: when the word at the PC of the sub-group that attempts stands in the I-cache, or the bytes at the PC decode to it, as an
instruction, the step is that instruction's meaning, at the state with the turn taken, the sub-group as the current one, and, where it was fetched, the
word cached. An attempt that issues when its slot of the partition owes another sub-group the clock leaves all as its fetch left it but the list of
those that wait; before a slot's candidate stand only groups that have had their clock, or whose turn another slot's sub-group has; neither its slot
nor its group has issued at this clock; and among its group's sub-groups that wait for a slot which has not, it is the next in node number.
When it is a device's turn, the step is that device step's meaning; where it would end a clk of a core before its slots have issued what they owe,
nothing happens yet. Which attempt comes next is free. The model's readings in it: logs 1, 72. -/
def Obligations.StepRunsInstruction : Prop :=
  (∀ (s : State) (gid node : Nat) (e : Env) (i : Instr) (n : Nat), s.turn = some (.issue gid node) →
    let s1 : State := { s with turn := none, cur := (gid, node) }
    envOf s1 = some e →
    (cachedWord s1 e.core e.team.ctx e.pc = some (.instr i n) → Attempted s1 e i (exec i s1) (step s)) ∧
    (cachedWord s1 e.core e.team.ctx e.pc = none →
      let look := pageAt s1 e
      (∀ u, fetchWord s1 e.team.ctx look e.pc = (u, .word (.instr i n)) →
        let s2 := takeWord u e.core e.team.ctx look e.pc (.instr i n)
        Attempted s2 e i (exec i s2) (step s)) ∧
      (∀ t1 ts b rest bs, fillPages s1 look e.pc 1 (codePages e.pc 1) = .ok t1 → fetchBytes s1 e.team.ctx t1 e.pc 1 = .ok (b :: rest) →
        fillPages s1 look e.pc (byteLength b.toNat) (codePages e.pc (byteLength b.toNat)) = .ok ts →
        fetchBytes s1 e.team.ctx ts e.pc (byteLength b.toNat) = .ok bs → decode bs = .ok (i, n) →
        fillWord s1 e.team.ctx look e.pc = .word (.instr i n)))) ∧
  (∀ (s : State) (l : List (Nat × Nat × Nat)) (core part slot clock gid node : Nat), candidate s l core part slot clock = some (gid, node) →
    s.turns.slots.find (slotKey core part slot) ≠ some clock ∧ (gid, node, slot) ∈ l ∧
    ∃ before r after, l = before ++ r :: after ∧ r.1 = gid ∧ r.2.2 = slot ∧ onPart s core part gid = true ∧
      (s.turns.groups.find gid).map (·.1) ≠ some clock ∧
      (∀ q ∈ before, q.2.2 = slot → onPart s core part q.1 = true → (s.turns.groups.find q.1).map (·.1) = some clock ∨
        ∃ n, turnOf s l core part clock q.1 = some n ∧ (q.1, n, slot) ∉ l) ∧
      let last := ((s.turns.groups.find gid).map (·.2)).getD 0
      ∀ m k, (gid, m, k) ∈ l → s.turns.slots.find (slotKey core part k) ≠ some clock →
        (last < m → last < node ∧ node ≤ m) ∧ (node ≤ last → node ≤ m)) ∧
  (∀ (s : State) (i : Instr), s.turn = some (.device i) → Machine.Instr.deviceStep i = true →
    let s0 : State := { s with turn := none }
    (∀ x, exec i s0 = .fault x → step s = .fault x) ∧ (∀ x, exec i s0 = .refused x → step s = .refused x) ∧
    (∀ t, exec i s0 = .next t → ticked s0 t = none → step s = .next t) ∧
    (∀ t core, exec i s0 = .next t → ticked s0 t = some core → step s = .next (match clockEnds s0 core with
      | some x => { countWithheld s0 t core with turns := x }
      | none => s0)))

/-- Every byte memory and every team's scratchpad keeps its canonical form, whatever the step does (log 3: memory lists only what was written with
another value than it would read as). -/
def Obligations.MemoryStaysCanonical : Prop :=
  ∀ s t : State, s.canonical → s.scratchCanonical → step s = .next t → t.canonical ∧ t.scratchCanonical

/-- R9, R17, R38, R75, R81 and R93: every step keeps every group's register files at the sizes of its budgets, with 64 lanes to a vector register, seven
writable predicates, five flag sets and five queues. -/
def Obligations.GroupsStaySized : Prop :=
  ∀ s t : State, s.sized → step s = .next t → t.sized

/-- R12, R81, R240 and R251, and the values of the log where the spec gives none (logs 1 to 6): reset has canonical memories and sized groups, no context,
every partition of every core at ratio 8, every link down, the set point at 10,000 W and every die at step 19; a group starts sized, with every lane
live at its code, its arguments in s0 to s2, every register full, and no region, split or command. -/
def Obligations.ResetState : Prop :=
  State.reset.canonical ∧ State.reset.scratchCanonical ∧ State.reset.sized ∧ State.reset.contexts = [] ∧
  (∀ c, (coreOf State.reset c).ratios = [8, 8, 8, 8] ∧ (coreOf State.reset c).ratiosSet = [8, 8, 8, 8]) ∧ (∀ l, (linkOf State.reset l).st = .down) ∧
  (∀ d, (dieOf State.reset d).step = 19) ∧ State.reset.power.powerStep = 10000 ∧
  (∀ (team num part v n : Nat) (consumer : Bool) (pc : VAddr) (a0 a1 a2 : W64), 3 ≤ n →
    let g := Group.start team num part consumer v n pc a0 a1 a2
    g.sized ∧ g.subs = [Sub.start pc] ∧ (Sub.start pc).node = 1 ∧ (Sub.start pc).em = BitVec.allOnes 64 ∧ (Sub.start pc).pc = pc ∧
    (sreg g 0).val = a0 ∧ (sreg g 1).val = a1 ∧ (sreg g 2).val = a2 ∧ (∀ k, 3 ≤ k → (sreg g k).val = 0) ∧
    (∀ r ∈ g.vregs, r = VReg.zero) ∧ (∀ r ∈ g.sregs, r.full = true) ∧ (∀ p ∈ g.preds, p = 0) ∧ (∀ p ∈ g.fl, p = 0) ∧ g.fpm = 0 ∧ g.sig = 0 ∧
    g.region.isOpen = false ∧ g.region.reentry = 0 ∧ g.splits = [] ∧ (∀ q ∈ g.queues, q = []))

/-- Every step of the machine outside the groups' instructions answers a next state, whatever the state: it is never refused. A page walk, the hub's
LAUNCH, WAIT_VALUE, SIGNAL, DONE write and continuation start may end in the fault that an address beyond the machine's DRAM is, and a peer's request
in the same; each of them has a statement of its own that says where it completes (log 12). -/
def Obligations.DeviceStepsAnswer : Prop :=
  ∀ (i : Instr) (s : State), Machine.Instr.deviceStep i = true →
    let reaches : Bool := match i with
      | .pageWalkComplete _ _ | .kernelRetire _ | .continuationStart _ _ | .wqLaunch _ | .wqWaitValue _ | .wqSignal _
      | .peerInboundRequest _ _ _ _ => true
      | _ => false
    (reaches = false → ∃ t, exec i s = .next t) ∧
    (reaches = true → (∃ t, exec i s = .next t) ∨ exec i s = .fault .noSuchAddress)
end

