-- ==== Sys2Proof/Laws/Maps.lean ====
section
/-! SUPPORT. Laws of maps and of byte memories: reading after a write, what a write leaves alone, and the canonical form. -/

namespace Sys2Proof.Machine

/-! ### Maps -/

@[simp] theorem Map.find_nil {α : Type} (k : Nat) : Map.find ([] : Map α) k = none := rfl

@[simp] theorem Map.find_insert_self {α : Type} (m : Map α) (k : Nat) (x : α) : (m.insert k x).find k = some x := by
  induction m with
  | nil => simp [Map.insert, Map.find]
  | cons e t ih =>
    obtain ⟨j, y⟩ := e
    simp only [Map.insert]
    split
    · simp [Map.find]
    · split
      · simp [Map.find]
      · rename_i h
        simp only [Map.find, h]
        exact ih

theorem Map.find_insert_other {α : Type} (m : Map α) (k l : Nat) (x : α) (h : l ≠ k) : (m.insert k x).find l = m.find l := by
  have hk : (k == l) = false := by simp [Ne.symm h]
  induction m with
  | nil => simp [Map.insert, Map.find, hk]
  | cons e t ih =>
    obtain ⟨j, y⟩ := e
    simp only [Map.insert]
    split
    · simp [Map.find, hk]
    · split
      · rename_i hj
        have : j = k := by simpa using hj
        subst this
        simp [Map.find, hk]
      · simp only [Map.find, ih]

theorem Map.find_insert {α : Type} (m : Map α) (k l : Nat) (x : α) :
    (m.insert k x).find l = if l = k then some x else m.find l := by
  by_cases h : l = k
  · subst h; simp
  · simp [h, Map.find_insert_other]

@[simp] theorem Map.find_modify {α : Type} (m : Map α) (k l : Nat) (fn : α → α) :
    (m.modify k fn).find l = if l = k then (m.find l).map fn else m.find l := by
  induction m with
  | nil => simp [Map.modify]
  | cons e t ih =>
    obtain ⟨j, y⟩ := e
    simp only [Map.modify, List.map_cons, Map.find] at ih ⊢
    by_cases hj : j = l
    · subst hj
      by_cases hk : j = k
      · simp [hk]
      · simp [hk]
    · have hb : (j == l) = false := by simp [hj]
      by_cases hk : j = k
      · subst hk; simp only [beq_self_eq_true, if_true, hb, Bool.false_eq_true, if_false]; exact ih
      · have : (j == k) = false := by simp [hk]
        simp only [this, Bool.false_eq_true, if_false, hb]; exact ih

/-! ### The canonical form of a byte memory -/

/-- A lower bound on the first address. -/
def Memory.above (a : Nat) : Memory → Prop
  | [] => True
  | (b, _) :: _ => a < b

theorem Memory.wf_cons (a : Nat) (x : Byte) (t : Memory) :
    Memory.wf ((a, x) :: t) = true ↔ x ≠ unwritten ∧ Memory.above a t ∧ Memory.wf t = true := by
  cases t with
  | nil => simp [Memory.wf, Memory.above]
  | cons e u => obtain ⟨b, y⟩ := e; simp [Memory.wf, Memory.above, and_assoc]

theorem Memory.above_write (m : Memory) (a b : Nat) (x : Byte) (hm : Memory.wf m = true) (h : Memory.above a m) (hb : a < b) :
    Memory.above a (m.write b x) := by
  cases m with
  | nil => by_cases hx : x = unwritten <;> simp [Memory.write, Memory.above, hx, hb]
  | cons e t =>
    obtain ⟨j, y⟩ := e
    simp only [Memory.above] at h
    simp only [Memory.write]
    split
    · split <;> simp [Memory.above, h, hb]
    · split
      · split
        · cases t with
          | nil => simp [Memory.above]
          | cons e u =>
            obtain ⟨c, z⟩ := e
            have := ((Memory.wf_cons _ _ _).1 hm).2.1
            simp only [Memory.above] at this ⊢
            omega
        · simpa [Memory.above] using hb
      · simpa [Memory.above] using h

/-- A write keeps the canonical form. -/
theorem Memory.wf_write (m : Memory) (a : Nat) (x : Byte) (h : Memory.wf m = true) : Memory.wf (m.write a x) = true := by
  induction m with
  | nil =>
    by_cases hx : x = unwritten
    · simp [Memory.write, hx, Memory.wf]
    · simp [Memory.write, hx, Memory.wf]
  | cons e t ih =>
    obtain ⟨j, y⟩ := e
    obtain ⟨hy, hj, ht⟩ := (Memory.wf_cons _ _ _).1 h
    simp only [Memory.write]
    split
    · split
      · exact h
      · rename_i hx
        exact (Memory.wf_cons _ _ _).2 ⟨by simpa using hx, by simpa [Memory.above], h⟩
    · split
      · rename_i hja
        have hja : j = a := by simpa using hja
        subst hja
        split
        · exact ht
        · rename_i hx
          exact (Memory.wf_cons _ _ _).2 ⟨by simpa using hx, hj, ht⟩
      · rename_i h1 h2
        have h2 : j ≠ a := by simpa using h2
        exact (Memory.wf_cons _ _ _).2 ⟨hy, Memory.above_write t j a x ht hj (by omega), ih ht⟩

theorem Memory.read_above (m : Memory) (a : Nat) (h : Memory.wf m = true) (ha : Memory.above a m) : m.read a = unwritten := by
  induction m generalizing a with
  | nil => rfl
  | cons e t ih =>
    obtain ⟨j, y⟩ := e
    obtain ⟨_, hj, ht⟩ := (Memory.wf_cons _ _ _).1 h
    simp only [Memory.above] at ha
    have hne : (j == a) = false := by simp; omega
    simp only [Memory.read, hne, Bool.false_eq_true, if_false]
    refine ih a ht ?_
    cases t with
    | nil => trivial
    | cons e u => obtain ⟨b, z⟩ := e; simp only [Memory.above] at hj ⊢; omega

/-- A read of the address written gives the value written. -/
theorem Memory.read_write_self (m : Memory) (a : Nat) (x : Byte) (h : Memory.wf m = true) : (m.write a x).read a = x := by
  induction m with
  | nil =>
    by_cases hx : x = unwritten
    · subst hx; simp [Memory.write, Memory.read]
    · simp [Memory.write, hx, Memory.read]
  | cons e t ih =>
    obtain ⟨j, y⟩ := e
    obtain ⟨hy, hj, ht⟩ := (Memory.wf_cons _ _ _).1 h
    simp only [Memory.write]
    split
    · rename_i hlt
      split
      · rename_i hx
        have hx : x = unwritten := by simpa using hx
        rw [hx]; exact Memory.read_above _ _ h (by simpa [Memory.above] using hlt)
      · simp [Memory.read]
    · split
      · rename_i hja
        have hja : j = a := by simpa using hja
        subst hja
        split
        · rename_i hx
          have hx : x = unwritten := by simpa using hx
          rw [hx]; exact Memory.read_above _ _ ht hj
        · simp [Memory.read]
      · rename_i h1 h2
        have h2 : (j == a) = false := by simpa using h2
        simp only [Memory.read, h2, Bool.false_eq_true, if_false]
        exact ih ht

/-- A write leaves every other address as it was. -/
theorem Memory.read_write_other (m : Memory) (a b : Nat) (x : Byte) (h : Memory.wf m = true) (hb : b ≠ a) : (m.write a x).read b = m.read b := by
  have hab : (a == b) = false := by simp [Ne.symm hb]
  induction m with
  | nil =>
    by_cases hx : x = unwritten
    · simp [Memory.write, hx]
    · simp [Memory.write, hx, Memory.read, hab]
  | cons e t ih =>
    obtain ⟨j, y⟩ := e
    obtain ⟨hy, hj, ht⟩ := (Memory.wf_cons _ _ _).1 h
    simp only [Memory.write]
    split
    · split
      · rfl
      · simp [Memory.read, hab]
    · split
      · rename_i hja
        have hja : j = a := by simpa using hja
        subst hja
        split
        · simp [Memory.read, hab]
        · simp [Memory.read, hab]
      · simp only [Memory.read, ih ht]

theorem Memory.wf_writeBytes (m : Memory) (a : Nat) (bs : List Byte) (h : Memory.wf m = true) : Memory.wf (m.writeBytes a bs) = true := by
  induction bs generalizing m a with
  | nil => exact h
  | cons b t ih => exact ih _ _ (Memory.wf_write m a b h)

end Sys2Proof.Machine
end

