-- ==== Sys2Proof/Laws/State.lean ====
section
/-! SUPPORT. What each update of the machine's parts does to each field of the state: one lemma per field per update. -/

namespace Sys2Proof.Machine

/-! ### `setCore` -/

@[simp] theorem setCore_turn (s : State) (c : Nat) (x : Core) : (setCore s c x).turn = s.turn := rfl
@[simp] theorem setCore_turns (s : State) (c : Nat) (x : Core) : (setCore s c x).turns = s.turns := rfl
@[simp] theorem setCore_picks (s : State) (c : Nat) (x : Core) : (setCore s c x).picks = s.picks := rfl
@[simp] theorem setCore_free (s : State) (c : Nat) (x : Core) : (setCore s c x).free = s.free := rfl
@[simp] theorem setCore_cur (s : State) (c : Nat) (x : Core) : (setCore s c x).cur = s.cur := rfl
@[simp] theorem setCore_nextId (s : State) (c : Nat) (x : Core) : (setCore s c x).nextId = s.nextId := rfl
@[simp] theorem setCore_dram (s : State) (c : Nat) (x : Core) : (setCore s c x).dram = s.dram := rfl
@[simp] theorem setCore_hostMem (s : State) (c : Nat) (x : Core) : (setCore s c x).hostMem = s.hostMem := rfl
@[simp] theorem setCore_peerMem (s : State) (c : Nat) (x : Core) : (setCore s c x).peerMem = s.peerMem := rfl
@[simp] theorem setCore_copies (s : State) (c : Nat) (x : Core) : (setCore s c x).copies = s.copies := rfl
@[simp] theorem setCore_past (s : State) (c : Nat) (x : Core) : (setCore s c x).past = s.past := rfl
@[simp] theorem setCore_releases (s : State) (c : Nat) (x : Core) : (setCore s c x).releases = s.releases := rfl
@[simp] theorem setCore_flights (s : State) (c : Nat) (x : Core) : (setCore s c x).flights = s.flights := rfl
@[simp] theorem setCore_poisoned (s : State) (c : Nat) (x : Core) : (setCore s c x).poisoned = s.poisoned := rfl
@[simp] theorem setCore_codes (s : State) (c : Nat) (x : Core) : (setCore s c x).codes = s.codes := rfl
@[simp] theorem setCore_metaCache (s : State) (c : Nat) (x : Core) : (setCore s c x).metaCache = s.metaCache := rfl
@[simp] theorem setCore_monitors (s : State) (c : Nat) (x : Core) : (setCore s c x).monitors = s.monitors := rfl
@[simp] theorem setCore_lineHolds (s : State) (c : Nat) (x : Core) : (setCore s c x).lineHolds = s.lineHolds := rfl
@[simp] theorem setCore_groups (s : State) (c : Nat) (x : Core) : (setCore s c x).groups = s.groups := rfl
@[simp] theorem setCore_teams (s : State) (c : Nat) (x : Core) : (setCore s c x).teams = s.teams := rfl
@[simp] theorem setCore_cores (s : State) (c : Nat) (x : Core) : (setCore s c x).cores = s.cores.insert c x := rfl
@[simp] theorem setCore_dies (s : State) (c : Nat) (x : Core) : (setCore s c x).dies = s.dies := rfl
@[simp] theorem setCore_arrays (s : State) (c : Nat) (x : Core) : (setCore s c x).arrays = s.arrays := rfl
@[simp] theorem setCore_status (s : State) (c : Nat) (x : Core) : (setCore s c x).status = s.status := rfl
@[simp] theorem setCore_contexts (s : State) (c : Nat) (x : Core) : (setCore s c x).contexts = s.contexts := rfl
@[simp] theorem setCore_cmdq (s : State) (c : Nat) (x : Core) : (setCore s c x).cmdq = s.cmdq := rfl
@[simp] theorem setCore_wqs (s : State) (c : Nat) (x : Core) : (setCore s c x).wqs = s.wqs := rfl
@[simp] theorem setCore_wqTurn (s : State) (c : Nat) (x : Core) : (setCore s c x).wqTurn = s.wqTurn := rfl
@[simp] theorem setCore_orphans (s : State) (c : Nat) (x : Core) : (setCore s c x).orphans = s.orphans := rfl
@[simp] theorem setCore_kernels (s : State) (c : Nat) (x : Core) : (setCore s c x).kernels = s.kernels := rfl
@[simp] theorem setCore_faultq (s : State) (c : Nat) (x : Core) : (setCore s c x).faultq = s.faultq := rfl
@[simp] theorem setCore_errlog (s : State) (c : Nat) (x : Core) : (setCore s c x).errlog = s.errlog := rfl
@[simp] theorem setCore_phase (s : State) (c : Nat) (x : Core) : (setCore s c x).phase = s.phase := rfl
@[simp] theorem setCore_power (s : State) (c : Nat) (x : Core) : (setCore s c x).power = s.power := rfl
@[simp] theorem setCore_drain (s : State) (c : Nat) (x : Core) : (setCore s c x).drain = s.drain := rfl
@[simp] theorem setCore_drainIndex (s : State) (c : Nat) (x : Core) : (setCore s c x).drainIndex = s.drainIndex := rfl
@[simp] theorem setCore_hubCounters (s : State) (c : Nat) (x : Core) : (setCore s c x).hubCounters = s.hubCounters := rfl
@[simp] theorem setCore_refclk (s : State) (c : Nat) (x : Core) : (setCore s c x).refclk = s.refclk := rfl
@[simp] theorem setCore_links (s : State) (c : Nat) (x : Core) : (setCore s c x).links = s.links := rfl
@[simp] theorem setCore_hostWidth (s : State) (c : Nat) (x : Core) : (setCore s c x).hostWidth = s.hostWidth := rfl
@[simp] theorem setCore_attest (s : State) (c : Nat) (x : Core) : (setCore s c x).attest = s.attest := rfl
@[simp] theorem setCore_firmware (s : State) (c : Nat) (x : Core) : (setCore s c x).firmware = s.firmware := rfl
@[simp] theorem setCore_minVersion (s : State) (c : Nat) (x : Core) : (setCore s c x).minVersion = s.minVersion := rfl
@[simp] theorem setCore_vendorKey (s : State) (c : Nat) (x : Core) : (setCore s c x).vendorKey = s.vendorKey := rfl
@[simp] theorem setCore_mailbox (s : State) (c : Nat) (x : Core) : (setCore s c x).mailbox = s.mailbox := rfl
@[simp] theorem setCore_booted (s : State) (c : Nat) (x : Core) : (setCore s c x).booted = s.booted := rfl
@[simp] theorem setCore_scanning (s : State) (c : Nat) (x : Core) : (setCore s c x).scanning = s.scanning := rfl
@[simp] theorem setCore_msix (s : State) (c : Nat) (x : Core) : (setCore s c x).msix = s.msix := rfl
@[simp] theorem setCore_failing (s : State) (c : Nat) (x : Core) : (setCore s c x).failing = s.failing := rfl

/-! ### `setDie` -/

@[simp] theorem setDie_turn (s : State) (d : Nat) (x : Die) : (setDie s d x).turn = s.turn := rfl
@[simp] theorem setDie_turns (s : State) (d : Nat) (x : Die) : (setDie s d x).turns = s.turns := rfl
@[simp] theorem setDie_picks (s : State) (d : Nat) (x : Die) : (setDie s d x).picks = s.picks := rfl
@[simp] theorem setDie_free (s : State) (d : Nat) (x : Die) : (setDie s d x).free = s.free := rfl
@[simp] theorem setDie_cur (s : State) (d : Nat) (x : Die) : (setDie s d x).cur = s.cur := rfl
@[simp] theorem setDie_nextId (s : State) (d : Nat) (x : Die) : (setDie s d x).nextId = s.nextId := rfl
@[simp] theorem setDie_dram (s : State) (d : Nat) (x : Die) : (setDie s d x).dram = s.dram := rfl
@[simp] theorem setDie_hostMem (s : State) (d : Nat) (x : Die) : (setDie s d x).hostMem = s.hostMem := rfl
@[simp] theorem setDie_peerMem (s : State) (d : Nat) (x : Die) : (setDie s d x).peerMem = s.peerMem := rfl
@[simp] theorem setDie_copies (s : State) (d : Nat) (x : Die) : (setDie s d x).copies = s.copies := rfl
@[simp] theorem setDie_past (s : State) (d : Nat) (x : Die) : (setDie s d x).past = s.past := rfl
@[simp] theorem setDie_releases (s : State) (d : Nat) (x : Die) : (setDie s d x).releases = s.releases := rfl
@[simp] theorem setDie_flights (s : State) (d : Nat) (x : Die) : (setDie s d x).flights = s.flights := rfl
@[simp] theorem setDie_poisoned (s : State) (d : Nat) (x : Die) : (setDie s d x).poisoned = s.poisoned := rfl
@[simp] theorem setDie_codes (s : State) (d : Nat) (x : Die) : (setDie s d x).codes = s.codes := rfl
@[simp] theorem setDie_metaCache (s : State) (d : Nat) (x : Die) : (setDie s d x).metaCache = s.metaCache := rfl
@[simp] theorem setDie_monitors (s : State) (d : Nat) (x : Die) : (setDie s d x).monitors = s.monitors := rfl
@[simp] theorem setDie_lineHolds (s : State) (d : Nat) (x : Die) : (setDie s d x).lineHolds = s.lineHolds := rfl
@[simp] theorem setDie_groups (s : State) (d : Nat) (x : Die) : (setDie s d x).groups = s.groups := rfl
@[simp] theorem setDie_teams (s : State) (d : Nat) (x : Die) : (setDie s d x).teams = s.teams := rfl
@[simp] theorem setDie_cores (s : State) (d : Nat) (x : Die) : (setDie s d x).cores = s.cores := rfl
@[simp] theorem setDie_dies (s : State) (d : Nat) (x : Die) : (setDie s d x).dies = s.dies.insert d x := rfl
@[simp] theorem setDie_arrays (s : State) (d : Nat) (x : Die) : (setDie s d x).arrays = s.arrays := rfl
@[simp] theorem setDie_status (s : State) (d : Nat) (x : Die) : (setDie s d x).status = s.status := rfl
@[simp] theorem setDie_contexts (s : State) (d : Nat) (x : Die) : (setDie s d x).contexts = s.contexts := rfl
@[simp] theorem setDie_cmdq (s : State) (d : Nat) (x : Die) : (setDie s d x).cmdq = s.cmdq := rfl
@[simp] theorem setDie_wqs (s : State) (d : Nat) (x : Die) : (setDie s d x).wqs = s.wqs := rfl
@[simp] theorem setDie_wqTurn (s : State) (d : Nat) (x : Die) : (setDie s d x).wqTurn = s.wqTurn := rfl
@[simp] theorem setDie_orphans (s : State) (d : Nat) (x : Die) : (setDie s d x).orphans = s.orphans := rfl
@[simp] theorem setDie_kernels (s : State) (d : Nat) (x : Die) : (setDie s d x).kernels = s.kernels := rfl
@[simp] theorem setDie_faultq (s : State) (d : Nat) (x : Die) : (setDie s d x).faultq = s.faultq := rfl
@[simp] theorem setDie_errlog (s : State) (d : Nat) (x : Die) : (setDie s d x).errlog = s.errlog := rfl
@[simp] theorem setDie_phase (s : State) (d : Nat) (x : Die) : (setDie s d x).phase = s.phase := rfl
@[simp] theorem setDie_power (s : State) (d : Nat) (x : Die) : (setDie s d x).power = s.power := rfl
@[simp] theorem setDie_drain (s : State) (d : Nat) (x : Die) : (setDie s d x).drain = s.drain := rfl
@[simp] theorem setDie_drainIndex (s : State) (d : Nat) (x : Die) : (setDie s d x).drainIndex = s.drainIndex := rfl
@[simp] theorem setDie_hubCounters (s : State) (d : Nat) (x : Die) : (setDie s d x).hubCounters = s.hubCounters := rfl
@[simp] theorem setDie_refclk (s : State) (d : Nat) (x : Die) : (setDie s d x).refclk = s.refclk := rfl
@[simp] theorem setDie_links (s : State) (d : Nat) (x : Die) : (setDie s d x).links = s.links := rfl
@[simp] theorem setDie_hostWidth (s : State) (d : Nat) (x : Die) : (setDie s d x).hostWidth = s.hostWidth := rfl
@[simp] theorem setDie_attest (s : State) (d : Nat) (x : Die) : (setDie s d x).attest = s.attest := rfl
@[simp] theorem setDie_firmware (s : State) (d : Nat) (x : Die) : (setDie s d x).firmware = s.firmware := rfl
@[simp] theorem setDie_minVersion (s : State) (d : Nat) (x : Die) : (setDie s d x).minVersion = s.minVersion := rfl
@[simp] theorem setDie_vendorKey (s : State) (d : Nat) (x : Die) : (setDie s d x).vendorKey = s.vendorKey := rfl
@[simp] theorem setDie_mailbox (s : State) (d : Nat) (x : Die) : (setDie s d x).mailbox = s.mailbox := rfl
@[simp] theorem setDie_booted (s : State) (d : Nat) (x : Die) : (setDie s d x).booted = s.booted := rfl
@[simp] theorem setDie_scanning (s : State) (d : Nat) (x : Die) : (setDie s d x).scanning = s.scanning := rfl
@[simp] theorem setDie_msix (s : State) (d : Nat) (x : Die) : (setDie s d x).msix = s.msix := rfl
@[simp] theorem setDie_failing (s : State) (d : Nat) (x : Die) : (setDie s d x).failing = s.failing := rfl

/-! ### `setArray` -/

@[simp] theorem setArray_turn (s : State) (a : Nat) (x : ArrayUnit) : (setArray s a x).turn = s.turn := rfl
@[simp] theorem setArray_turns (s : State) (a : Nat) (x : ArrayUnit) : (setArray s a x).turns = s.turns := rfl
@[simp] theorem setArray_picks (s : State) (a : Nat) (x : ArrayUnit) : (setArray s a x).picks = s.picks := rfl
@[simp] theorem setArray_free (s : State) (a : Nat) (x : ArrayUnit) : (setArray s a x).free = s.free := rfl
@[simp] theorem setArray_cur (s : State) (a : Nat) (x : ArrayUnit) : (setArray s a x).cur = s.cur := rfl
@[simp] theorem setArray_nextId (s : State) (a : Nat) (x : ArrayUnit) : (setArray s a x).nextId = s.nextId := rfl
@[simp] theorem setArray_dram (s : State) (a : Nat) (x : ArrayUnit) : (setArray s a x).dram = s.dram := rfl
@[simp] theorem setArray_hostMem (s : State) (a : Nat) (x : ArrayUnit) : (setArray s a x).hostMem = s.hostMem := rfl
@[simp] theorem setArray_peerMem (s : State) (a : Nat) (x : ArrayUnit) : (setArray s a x).peerMem = s.peerMem := rfl
@[simp] theorem setArray_copies (s : State) (a : Nat) (x : ArrayUnit) : (setArray s a x).copies = s.copies := rfl
@[simp] theorem setArray_past (s : State) (a : Nat) (x : ArrayUnit) : (setArray s a x).past = s.past := rfl
@[simp] theorem setArray_releases (s : State) (a : Nat) (x : ArrayUnit) : (setArray s a x).releases = s.releases := rfl
@[simp] theorem setArray_flights (s : State) (a : Nat) (x : ArrayUnit) : (setArray s a x).flights = s.flights := rfl
@[simp] theorem setArray_poisoned (s : State) (a : Nat) (x : ArrayUnit) : (setArray s a x).poisoned = s.poisoned := rfl
@[simp] theorem setArray_codes (s : State) (a : Nat) (x : ArrayUnit) : (setArray s a x).codes = s.codes := rfl
@[simp] theorem setArray_metaCache (s : State) (a : Nat) (x : ArrayUnit) : (setArray s a x).metaCache = s.metaCache := rfl
@[simp] theorem setArray_monitors (s : State) (a : Nat) (x : ArrayUnit) : (setArray s a x).monitors = s.monitors := rfl
@[simp] theorem setArray_lineHolds (s : State) (a : Nat) (x : ArrayUnit) : (setArray s a x).lineHolds = s.lineHolds := rfl
@[simp] theorem setArray_groups (s : State) (a : Nat) (x : ArrayUnit) : (setArray s a x).groups = s.groups := rfl
@[simp] theorem setArray_teams (s : State) (a : Nat) (x : ArrayUnit) : (setArray s a x).teams = s.teams := rfl
@[simp] theorem setArray_cores (s : State) (a : Nat) (x : ArrayUnit) : (setArray s a x).cores = s.cores := rfl
@[simp] theorem setArray_dies (s : State) (a : Nat) (x : ArrayUnit) : (setArray s a x).dies = s.dies := rfl
@[simp] theorem setArray_arrays (s : State) (a : Nat) (x : ArrayUnit) : (setArray s a x).arrays = s.arrays.insert a x := rfl
@[simp] theorem setArray_status (s : State) (a : Nat) (x : ArrayUnit) : (setArray s a x).status = s.status := rfl
@[simp] theorem setArray_contexts (s : State) (a : Nat) (x : ArrayUnit) : (setArray s a x).contexts = s.contexts := rfl
@[simp] theorem setArray_cmdq (s : State) (a : Nat) (x : ArrayUnit) : (setArray s a x).cmdq = s.cmdq := rfl
@[simp] theorem setArray_wqs (s : State) (a : Nat) (x : ArrayUnit) : (setArray s a x).wqs = s.wqs := rfl
@[simp] theorem setArray_wqTurn (s : State) (a : Nat) (x : ArrayUnit) : (setArray s a x).wqTurn = s.wqTurn := rfl
@[simp] theorem setArray_orphans (s : State) (a : Nat) (x : ArrayUnit) : (setArray s a x).orphans = s.orphans := rfl
@[simp] theorem setArray_kernels (s : State) (a : Nat) (x : ArrayUnit) : (setArray s a x).kernels = s.kernels := rfl
@[simp] theorem setArray_faultq (s : State) (a : Nat) (x : ArrayUnit) : (setArray s a x).faultq = s.faultq := rfl
@[simp] theorem setArray_errlog (s : State) (a : Nat) (x : ArrayUnit) : (setArray s a x).errlog = s.errlog := rfl
@[simp] theorem setArray_phase (s : State) (a : Nat) (x : ArrayUnit) : (setArray s a x).phase = s.phase := rfl
@[simp] theorem setArray_power (s : State) (a : Nat) (x : ArrayUnit) : (setArray s a x).power = s.power := rfl
@[simp] theorem setArray_drain (s : State) (a : Nat) (x : ArrayUnit) : (setArray s a x).drain = s.drain := rfl
@[simp] theorem setArray_drainIndex (s : State) (a : Nat) (x : ArrayUnit) : (setArray s a x).drainIndex = s.drainIndex := rfl
@[simp] theorem setArray_hubCounters (s : State) (a : Nat) (x : ArrayUnit) : (setArray s a x).hubCounters = s.hubCounters := rfl
@[simp] theorem setArray_refclk (s : State) (a : Nat) (x : ArrayUnit) : (setArray s a x).refclk = s.refclk := rfl
@[simp] theorem setArray_links (s : State) (a : Nat) (x : ArrayUnit) : (setArray s a x).links = s.links := rfl
@[simp] theorem setArray_hostWidth (s : State) (a : Nat) (x : ArrayUnit) : (setArray s a x).hostWidth = s.hostWidth := rfl
@[simp] theorem setArray_attest (s : State) (a : Nat) (x : ArrayUnit) : (setArray s a x).attest = s.attest := rfl
@[simp] theorem setArray_firmware (s : State) (a : Nat) (x : ArrayUnit) : (setArray s a x).firmware = s.firmware := rfl
@[simp] theorem setArray_minVersion (s : State) (a : Nat) (x : ArrayUnit) : (setArray s a x).minVersion = s.minVersion := rfl
@[simp] theorem setArray_vendorKey (s : State) (a : Nat) (x : ArrayUnit) : (setArray s a x).vendorKey = s.vendorKey := rfl
@[simp] theorem setArray_mailbox (s : State) (a : Nat) (x : ArrayUnit) : (setArray s a x).mailbox = s.mailbox := rfl
@[simp] theorem setArray_booted (s : State) (a : Nat) (x : ArrayUnit) : (setArray s a x).booted = s.booted := rfl
@[simp] theorem setArray_scanning (s : State) (a : Nat) (x : ArrayUnit) : (setArray s a x).scanning = s.scanning := rfl
@[simp] theorem setArray_msix (s : State) (a : Nat) (x : ArrayUnit) : (setArray s a x).msix = s.msix := rfl
@[simp] theorem setArray_failing (s : State) (a : Nat) (x : ArrayUnit) : (setArray s a x).failing = s.failing := rfl

/-! ### `setLink` -/

@[simp] theorem setLink_turn (s : State) (l : Nat) (x : Link) : (setLink s l x).turn = s.turn := rfl
@[simp] theorem setLink_turns (s : State) (l : Nat) (x : Link) : (setLink s l x).turns = s.turns := rfl
@[simp] theorem setLink_picks (s : State) (l : Nat) (x : Link) : (setLink s l x).picks = s.picks := rfl
@[simp] theorem setLink_free (s : State) (l : Nat) (x : Link) : (setLink s l x).free = s.free := rfl
@[simp] theorem setLink_cur (s : State) (l : Nat) (x : Link) : (setLink s l x).cur = s.cur := rfl
@[simp] theorem setLink_nextId (s : State) (l : Nat) (x : Link) : (setLink s l x).nextId = s.nextId := rfl
@[simp] theorem setLink_dram (s : State) (l : Nat) (x : Link) : (setLink s l x).dram = s.dram := rfl
@[simp] theorem setLink_hostMem (s : State) (l : Nat) (x : Link) : (setLink s l x).hostMem = s.hostMem := rfl
@[simp] theorem setLink_peerMem (s : State) (l : Nat) (x : Link) : (setLink s l x).peerMem = s.peerMem := rfl
@[simp] theorem setLink_copies (s : State) (l : Nat) (x : Link) : (setLink s l x).copies = s.copies := rfl
@[simp] theorem setLink_past (s : State) (l : Nat) (x : Link) : (setLink s l x).past = s.past := rfl
@[simp] theorem setLink_releases (s : State) (l : Nat) (x : Link) : (setLink s l x).releases = s.releases := rfl
@[simp] theorem setLink_flights (s : State) (l : Nat) (x : Link) : (setLink s l x).flights = s.flights := rfl
@[simp] theorem setLink_poisoned (s : State) (l : Nat) (x : Link) : (setLink s l x).poisoned = s.poisoned := rfl
@[simp] theorem setLink_codes (s : State) (l : Nat) (x : Link) : (setLink s l x).codes = s.codes := rfl
@[simp] theorem setLink_metaCache (s : State) (l : Nat) (x : Link) : (setLink s l x).metaCache = s.metaCache := rfl
@[simp] theorem setLink_monitors (s : State) (l : Nat) (x : Link) : (setLink s l x).monitors = s.monitors := rfl
@[simp] theorem setLink_lineHolds (s : State) (l : Nat) (x : Link) : (setLink s l x).lineHolds = s.lineHolds := rfl
@[simp] theorem setLink_groups (s : State) (l : Nat) (x : Link) : (setLink s l x).groups = s.groups := rfl
@[simp] theorem setLink_teams (s : State) (l : Nat) (x : Link) : (setLink s l x).teams = s.teams := rfl
@[simp] theorem setLink_cores (s : State) (l : Nat) (x : Link) : (setLink s l x).cores = s.cores := rfl
@[simp] theorem setLink_dies (s : State) (l : Nat) (x : Link) : (setLink s l x).dies = s.dies := rfl
@[simp] theorem setLink_arrays (s : State) (l : Nat) (x : Link) : (setLink s l x).arrays = s.arrays := rfl
@[simp] theorem setLink_status (s : State) (l : Nat) (x : Link) : (setLink s l x).status = s.status := rfl
@[simp] theorem setLink_contexts (s : State) (l : Nat) (x : Link) : (setLink s l x).contexts = s.contexts := rfl
@[simp] theorem setLink_cmdq (s : State) (l : Nat) (x : Link) : (setLink s l x).cmdq = s.cmdq := rfl
@[simp] theorem setLink_wqs (s : State) (l : Nat) (x : Link) : (setLink s l x).wqs = s.wqs := rfl
@[simp] theorem setLink_wqTurn (s : State) (l : Nat) (x : Link) : (setLink s l x).wqTurn = s.wqTurn := rfl
@[simp] theorem setLink_orphans (s : State) (l : Nat) (x : Link) : (setLink s l x).orphans = s.orphans := rfl
@[simp] theorem setLink_kernels (s : State) (l : Nat) (x : Link) : (setLink s l x).kernels = s.kernels := rfl
@[simp] theorem setLink_faultq (s : State) (l : Nat) (x : Link) : (setLink s l x).faultq = s.faultq := rfl
@[simp] theorem setLink_errlog (s : State) (l : Nat) (x : Link) : (setLink s l x).errlog = s.errlog := rfl
@[simp] theorem setLink_phase (s : State) (l : Nat) (x : Link) : (setLink s l x).phase = s.phase := rfl
@[simp] theorem setLink_power (s : State) (l : Nat) (x : Link) : (setLink s l x).power = s.power := rfl
@[simp] theorem setLink_drain (s : State) (l : Nat) (x : Link) : (setLink s l x).drain = s.drain := rfl
@[simp] theorem setLink_drainIndex (s : State) (l : Nat) (x : Link) : (setLink s l x).drainIndex = s.drainIndex := rfl
@[simp] theorem setLink_hubCounters (s : State) (l : Nat) (x : Link) : (setLink s l x).hubCounters = s.hubCounters := rfl
@[simp] theorem setLink_refclk (s : State) (l : Nat) (x : Link) : (setLink s l x).refclk = s.refclk := rfl
@[simp] theorem setLink_links (s : State) (l : Nat) (x : Link) : (setLink s l x).links = s.links.insert l x := rfl
@[simp] theorem setLink_hostWidth (s : State) (l : Nat) (x : Link) : (setLink s l x).hostWidth = s.hostWidth := rfl
@[simp] theorem setLink_attest (s : State) (l : Nat) (x : Link) : (setLink s l x).attest = s.attest := rfl
@[simp] theorem setLink_firmware (s : State) (l : Nat) (x : Link) : (setLink s l x).firmware = s.firmware := rfl
@[simp] theorem setLink_minVersion (s : State) (l : Nat) (x : Link) : (setLink s l x).minVersion = s.minVersion := rfl
@[simp] theorem setLink_vendorKey (s : State) (l : Nat) (x : Link) : (setLink s l x).vendorKey = s.vendorKey := rfl
@[simp] theorem setLink_mailbox (s : State) (l : Nat) (x : Link) : (setLink s l x).mailbox = s.mailbox := rfl
@[simp] theorem setLink_booted (s : State) (l : Nat) (x : Link) : (setLink s l x).booted = s.booted := rfl
@[simp] theorem setLink_scanning (s : State) (l : Nat) (x : Link) : (setLink s l x).scanning = s.scanning := rfl
@[simp] theorem setLink_msix (s : State) (l : Nat) (x : Link) : (setLink s l x).msix = s.msix := rfl
@[simp] theorem setLink_failing (s : State) (l : Nat) (x : Link) : (setLink s l x).failing = s.failing := rfl

/-! ### `setGroup` -/

@[simp] theorem setGroup_turn (s : State) (g : Nat) (x : Group) : (setGroup s g x).turn = s.turn := rfl
@[simp] theorem setGroup_turns (s : State) (g : Nat) (x : Group) : (setGroup s g x).turns = s.turns := rfl
@[simp] theorem setGroup_picks (s : State) (g : Nat) (x : Group) : (setGroup s g x).picks = s.picks := rfl
@[simp] theorem setGroup_free (s : State) (g : Nat) (x : Group) : (setGroup s g x).free = s.free := rfl
@[simp] theorem setGroup_cur (s : State) (g : Nat) (x : Group) : (setGroup s g x).cur = s.cur := rfl
@[simp] theorem setGroup_nextId (s : State) (g : Nat) (x : Group) : (setGroup s g x).nextId = s.nextId := rfl
@[simp] theorem setGroup_dram (s : State) (g : Nat) (x : Group) : (setGroup s g x).dram = s.dram := rfl
@[simp] theorem setGroup_hostMem (s : State) (g : Nat) (x : Group) : (setGroup s g x).hostMem = s.hostMem := rfl
@[simp] theorem setGroup_peerMem (s : State) (g : Nat) (x : Group) : (setGroup s g x).peerMem = s.peerMem := rfl
@[simp] theorem setGroup_copies (s : State) (g : Nat) (x : Group) : (setGroup s g x).copies = s.copies := rfl
@[simp] theorem setGroup_past (s : State) (g : Nat) (x : Group) : (setGroup s g x).past = s.past := rfl
@[simp] theorem setGroup_releases (s : State) (g : Nat) (x : Group) : (setGroup s g x).releases = s.releases := rfl
@[simp] theorem setGroup_flights (s : State) (g : Nat) (x : Group) : (setGroup s g x).flights = s.flights := rfl
@[simp] theorem setGroup_poisoned (s : State) (g : Nat) (x : Group) : (setGroup s g x).poisoned = s.poisoned := rfl
@[simp] theorem setGroup_codes (s : State) (g : Nat) (x : Group) : (setGroup s g x).codes = s.codes := rfl
@[simp] theorem setGroup_metaCache (s : State) (g : Nat) (x : Group) : (setGroup s g x).metaCache = s.metaCache := rfl
@[simp] theorem setGroup_monitors (s : State) (g : Nat) (x : Group) : (setGroup s g x).monitors = s.monitors := rfl
@[simp] theorem setGroup_lineHolds (s : State) (g : Nat) (x : Group) : (setGroup s g x).lineHolds = s.lineHolds := rfl
@[simp] theorem setGroup_groups (s : State) (g : Nat) (x : Group) : (setGroup s g x).groups = s.groups.insert g x := rfl
@[simp] theorem setGroup_teams (s : State) (g : Nat) (x : Group) : (setGroup s g x).teams = s.teams := rfl
@[simp] theorem setGroup_cores (s : State) (g : Nat) (x : Group) : (setGroup s g x).cores = s.cores := rfl
@[simp] theorem setGroup_dies (s : State) (g : Nat) (x : Group) : (setGroup s g x).dies = s.dies := rfl
@[simp] theorem setGroup_arrays (s : State) (g : Nat) (x : Group) : (setGroup s g x).arrays = s.arrays := rfl
@[simp] theorem setGroup_status (s : State) (g : Nat) (x : Group) : (setGroup s g x).status = s.status := rfl
@[simp] theorem setGroup_contexts (s : State) (g : Nat) (x : Group) : (setGroup s g x).contexts = s.contexts := rfl
@[simp] theorem setGroup_cmdq (s : State) (g : Nat) (x : Group) : (setGroup s g x).cmdq = s.cmdq := rfl
@[simp] theorem setGroup_wqs (s : State) (g : Nat) (x : Group) : (setGroup s g x).wqs = s.wqs := rfl
@[simp] theorem setGroup_wqTurn (s : State) (g : Nat) (x : Group) : (setGroup s g x).wqTurn = s.wqTurn := rfl
@[simp] theorem setGroup_orphans (s : State) (g : Nat) (x : Group) : (setGroup s g x).orphans = s.orphans := rfl
@[simp] theorem setGroup_kernels (s : State) (g : Nat) (x : Group) : (setGroup s g x).kernels = s.kernels := rfl
@[simp] theorem setGroup_faultq (s : State) (g : Nat) (x : Group) : (setGroup s g x).faultq = s.faultq := rfl
@[simp] theorem setGroup_errlog (s : State) (g : Nat) (x : Group) : (setGroup s g x).errlog = s.errlog := rfl
@[simp] theorem setGroup_phase (s : State) (g : Nat) (x : Group) : (setGroup s g x).phase = s.phase := rfl
@[simp] theorem setGroup_power (s : State) (g : Nat) (x : Group) : (setGroup s g x).power = s.power := rfl
@[simp] theorem setGroup_drain (s : State) (g : Nat) (x : Group) : (setGroup s g x).drain = s.drain := rfl
@[simp] theorem setGroup_drainIndex (s : State) (g : Nat) (x : Group) : (setGroup s g x).drainIndex = s.drainIndex := rfl
@[simp] theorem setGroup_hubCounters (s : State) (g : Nat) (x : Group) : (setGroup s g x).hubCounters = s.hubCounters := rfl
@[simp] theorem setGroup_refclk (s : State) (g : Nat) (x : Group) : (setGroup s g x).refclk = s.refclk := rfl
@[simp] theorem setGroup_links (s : State) (g : Nat) (x : Group) : (setGroup s g x).links = s.links := rfl
@[simp] theorem setGroup_hostWidth (s : State) (g : Nat) (x : Group) : (setGroup s g x).hostWidth = s.hostWidth := rfl
@[simp] theorem setGroup_attest (s : State) (g : Nat) (x : Group) : (setGroup s g x).attest = s.attest := rfl
@[simp] theorem setGroup_firmware (s : State) (g : Nat) (x : Group) : (setGroup s g x).firmware = s.firmware := rfl
@[simp] theorem setGroup_minVersion (s : State) (g : Nat) (x : Group) : (setGroup s g x).minVersion = s.minVersion := rfl
@[simp] theorem setGroup_vendorKey (s : State) (g : Nat) (x : Group) : (setGroup s g x).vendorKey = s.vendorKey := rfl
@[simp] theorem setGroup_mailbox (s : State) (g : Nat) (x : Group) : (setGroup s g x).mailbox = s.mailbox := rfl
@[simp] theorem setGroup_booted (s : State) (g : Nat) (x : Group) : (setGroup s g x).booted = s.booted := rfl
@[simp] theorem setGroup_scanning (s : State) (g : Nat) (x : Group) : (setGroup s g x).scanning = s.scanning := rfl
@[simp] theorem setGroup_msix (s : State) (g : Nat) (x : Group) : (setGroup s g x).msix = s.msix := rfl
@[simp] theorem setGroup_failing (s : State) (g : Nat) (x : Group) : (setGroup s g x).failing = s.failing := rfl

/-! ### `setTeam` -/

@[simp] theorem setTeam_turn (s : State) (t : Nat) (x : Team) : (setTeam s t x).turn = s.turn := rfl
@[simp] theorem setTeam_turns (s : State) (t : Nat) (x : Team) : (setTeam s t x).turns = s.turns := rfl
@[simp] theorem setTeam_picks (s : State) (t : Nat) (x : Team) : (setTeam s t x).picks = s.picks := rfl
@[simp] theorem setTeam_free (s : State) (t : Nat) (x : Team) : (setTeam s t x).free = s.free := rfl
@[simp] theorem setTeam_cur (s : State) (t : Nat) (x : Team) : (setTeam s t x).cur = s.cur := rfl
@[simp] theorem setTeam_nextId (s : State) (t : Nat) (x : Team) : (setTeam s t x).nextId = s.nextId := rfl
@[simp] theorem setTeam_dram (s : State) (t : Nat) (x : Team) : (setTeam s t x).dram = s.dram := rfl
@[simp] theorem setTeam_hostMem (s : State) (t : Nat) (x : Team) : (setTeam s t x).hostMem = s.hostMem := rfl
@[simp] theorem setTeam_peerMem (s : State) (t : Nat) (x : Team) : (setTeam s t x).peerMem = s.peerMem := rfl
@[simp] theorem setTeam_copies (s : State) (t : Nat) (x : Team) : (setTeam s t x).copies = s.copies := rfl
@[simp] theorem setTeam_past (s : State) (t : Nat) (x : Team) : (setTeam s t x).past = s.past := rfl
@[simp] theorem setTeam_releases (s : State) (t : Nat) (x : Team) : (setTeam s t x).releases = s.releases := rfl
@[simp] theorem setTeam_flights (s : State) (t : Nat) (x : Team) : (setTeam s t x).flights = s.flights := rfl
@[simp] theorem setTeam_poisoned (s : State) (t : Nat) (x : Team) : (setTeam s t x).poisoned = s.poisoned := rfl
@[simp] theorem setTeam_codes (s : State) (t : Nat) (x : Team) : (setTeam s t x).codes = s.codes := rfl
@[simp] theorem setTeam_metaCache (s : State) (t : Nat) (x : Team) : (setTeam s t x).metaCache = s.metaCache := rfl
@[simp] theorem setTeam_monitors (s : State) (t : Nat) (x : Team) : (setTeam s t x).monitors = s.monitors := rfl
@[simp] theorem setTeam_lineHolds (s : State) (t : Nat) (x : Team) : (setTeam s t x).lineHolds = s.lineHolds := rfl
@[simp] theorem setTeam_groups (s : State) (t : Nat) (x : Team) : (setTeam s t x).groups = s.groups := rfl
@[simp] theorem setTeam_teams (s : State) (t : Nat) (x : Team) : (setTeam s t x).teams = s.teams.insert t x := rfl
@[simp] theorem setTeam_cores (s : State) (t : Nat) (x : Team) : (setTeam s t x).cores = s.cores := rfl
@[simp] theorem setTeam_dies (s : State) (t : Nat) (x : Team) : (setTeam s t x).dies = s.dies := rfl
@[simp] theorem setTeam_arrays (s : State) (t : Nat) (x : Team) : (setTeam s t x).arrays = s.arrays := rfl
@[simp] theorem setTeam_status (s : State) (t : Nat) (x : Team) : (setTeam s t x).status = s.status := rfl
@[simp] theorem setTeam_contexts (s : State) (t : Nat) (x : Team) : (setTeam s t x).contexts = s.contexts := rfl
@[simp] theorem setTeam_cmdq (s : State) (t : Nat) (x : Team) : (setTeam s t x).cmdq = s.cmdq := rfl
@[simp] theorem setTeam_wqs (s : State) (t : Nat) (x : Team) : (setTeam s t x).wqs = s.wqs := rfl
@[simp] theorem setTeam_wqTurn (s : State) (t : Nat) (x : Team) : (setTeam s t x).wqTurn = s.wqTurn := rfl
@[simp] theorem setTeam_orphans (s : State) (t : Nat) (x : Team) : (setTeam s t x).orphans = s.orphans := rfl
@[simp] theorem setTeam_kernels (s : State) (t : Nat) (x : Team) : (setTeam s t x).kernels = s.kernels := rfl
@[simp] theorem setTeam_faultq (s : State) (t : Nat) (x : Team) : (setTeam s t x).faultq = s.faultq := rfl
@[simp] theorem setTeam_errlog (s : State) (t : Nat) (x : Team) : (setTeam s t x).errlog = s.errlog := rfl
@[simp] theorem setTeam_phase (s : State) (t : Nat) (x : Team) : (setTeam s t x).phase = s.phase := rfl
@[simp] theorem setTeam_power (s : State) (t : Nat) (x : Team) : (setTeam s t x).power = s.power := rfl
@[simp] theorem setTeam_drain (s : State) (t : Nat) (x : Team) : (setTeam s t x).drain = s.drain := rfl
@[simp] theorem setTeam_drainIndex (s : State) (t : Nat) (x : Team) : (setTeam s t x).drainIndex = s.drainIndex := rfl
@[simp] theorem setTeam_hubCounters (s : State) (t : Nat) (x : Team) : (setTeam s t x).hubCounters = s.hubCounters := rfl
@[simp] theorem setTeam_refclk (s : State) (t : Nat) (x : Team) : (setTeam s t x).refclk = s.refclk := rfl
@[simp] theorem setTeam_links (s : State) (t : Nat) (x : Team) : (setTeam s t x).links = s.links := rfl
@[simp] theorem setTeam_hostWidth (s : State) (t : Nat) (x : Team) : (setTeam s t x).hostWidth = s.hostWidth := rfl
@[simp] theorem setTeam_attest (s : State) (t : Nat) (x : Team) : (setTeam s t x).attest = s.attest := rfl
@[simp] theorem setTeam_firmware (s : State) (t : Nat) (x : Team) : (setTeam s t x).firmware = s.firmware := rfl
@[simp] theorem setTeam_minVersion (s : State) (t : Nat) (x : Team) : (setTeam s t x).minVersion = s.minVersion := rfl
@[simp] theorem setTeam_vendorKey (s : State) (t : Nat) (x : Team) : (setTeam s t x).vendorKey = s.vendorKey := rfl
@[simp] theorem setTeam_mailbox (s : State) (t : Nat) (x : Team) : (setTeam s t x).mailbox = s.mailbox := rfl
@[simp] theorem setTeam_booted (s : State) (t : Nat) (x : Team) : (setTeam s t x).booted = s.booted := rfl
@[simp] theorem setTeam_scanning (s : State) (t : Nat) (x : Team) : (setTeam s t x).scanning = s.scanning := rfl
@[simp] theorem setTeam_msix (s : State) (t : Nat) (x : Team) : (setTeam s t x).msix = s.msix := rfl
@[simp] theorem setTeam_failing (s : State) (t : Nat) (x : Team) : (setTeam s t x).failing = s.failing := rfl

/-! ### `setCtx` -/

@[simp] theorem setCtx_turn (s : State) (c : Nat) (x : Context) : (setCtx s c x).turn = s.turn := rfl
@[simp] theorem setCtx_turns (s : State) (c : Nat) (x : Context) : (setCtx s c x).turns = s.turns := rfl
@[simp] theorem setCtx_picks (s : State) (c : Nat) (x : Context) : (setCtx s c x).picks = s.picks := rfl
@[simp] theorem setCtx_free (s : State) (c : Nat) (x : Context) : (setCtx s c x).free = s.free := rfl
@[simp] theorem setCtx_cur (s : State) (c : Nat) (x : Context) : (setCtx s c x).cur = s.cur := rfl
@[simp] theorem setCtx_nextId (s : State) (c : Nat) (x : Context) : (setCtx s c x).nextId = s.nextId := rfl
@[simp] theorem setCtx_dram (s : State) (c : Nat) (x : Context) : (setCtx s c x).dram = s.dram := rfl
@[simp] theorem setCtx_hostMem (s : State) (c : Nat) (x : Context) : (setCtx s c x).hostMem = s.hostMem := rfl
@[simp] theorem setCtx_peerMem (s : State) (c : Nat) (x : Context) : (setCtx s c x).peerMem = s.peerMem := rfl
@[simp] theorem setCtx_copies (s : State) (c : Nat) (x : Context) : (setCtx s c x).copies = s.copies := rfl
@[simp] theorem setCtx_past (s : State) (c : Nat) (x : Context) : (setCtx s c x).past = s.past := rfl
@[simp] theorem setCtx_releases (s : State) (c : Nat) (x : Context) : (setCtx s c x).releases = s.releases := rfl
@[simp] theorem setCtx_flights (s : State) (c : Nat) (x : Context) : (setCtx s c x).flights = s.flights := rfl
@[simp] theorem setCtx_poisoned (s : State) (c : Nat) (x : Context) : (setCtx s c x).poisoned = s.poisoned := rfl
@[simp] theorem setCtx_codes (s : State) (c : Nat) (x : Context) : (setCtx s c x).codes = s.codes := rfl
@[simp] theorem setCtx_metaCache (s : State) (c : Nat) (x : Context) : (setCtx s c x).metaCache = s.metaCache := rfl
@[simp] theorem setCtx_monitors (s : State) (c : Nat) (x : Context) : (setCtx s c x).monitors = s.monitors := rfl
@[simp] theorem setCtx_lineHolds (s : State) (c : Nat) (x : Context) : (setCtx s c x).lineHolds = s.lineHolds := rfl
@[simp] theorem setCtx_groups (s : State) (c : Nat) (x : Context) : (setCtx s c x).groups = s.groups := rfl
@[simp] theorem setCtx_teams (s : State) (c : Nat) (x : Context) : (setCtx s c x).teams = s.teams := rfl
@[simp] theorem setCtx_cores (s : State) (c : Nat) (x : Context) : (setCtx s c x).cores = s.cores := rfl
@[simp] theorem setCtx_dies (s : State) (c : Nat) (x : Context) : (setCtx s c x).dies = s.dies := rfl
@[simp] theorem setCtx_arrays (s : State) (c : Nat) (x : Context) : (setCtx s c x).arrays = s.arrays := rfl
@[simp] theorem setCtx_status (s : State) (c : Nat) (x : Context) : (setCtx s c x).status = s.status := rfl
@[simp] theorem setCtx_contexts (s : State) (c : Nat) (x : Context) : (setCtx s c x).contexts = s.contexts.insert c x := rfl
@[simp] theorem setCtx_cmdq (s : State) (c : Nat) (x : Context) : (setCtx s c x).cmdq = s.cmdq := rfl
@[simp] theorem setCtx_wqs (s : State) (c : Nat) (x : Context) : (setCtx s c x).wqs = s.wqs := rfl
@[simp] theorem setCtx_wqTurn (s : State) (c : Nat) (x : Context) : (setCtx s c x).wqTurn = s.wqTurn := rfl
@[simp] theorem setCtx_orphans (s : State) (c : Nat) (x : Context) : (setCtx s c x).orphans = s.orphans := rfl
@[simp] theorem setCtx_kernels (s : State) (c : Nat) (x : Context) : (setCtx s c x).kernels = s.kernels := rfl
@[simp] theorem setCtx_faultq (s : State) (c : Nat) (x : Context) : (setCtx s c x).faultq = s.faultq := rfl
@[simp] theorem setCtx_errlog (s : State) (c : Nat) (x : Context) : (setCtx s c x).errlog = s.errlog := rfl
@[simp] theorem setCtx_phase (s : State) (c : Nat) (x : Context) : (setCtx s c x).phase = s.phase := rfl
@[simp] theorem setCtx_power (s : State) (c : Nat) (x : Context) : (setCtx s c x).power = s.power := rfl
@[simp] theorem setCtx_drain (s : State) (c : Nat) (x : Context) : (setCtx s c x).drain = s.drain := rfl
@[simp] theorem setCtx_drainIndex (s : State) (c : Nat) (x : Context) : (setCtx s c x).drainIndex = s.drainIndex := rfl
@[simp] theorem setCtx_hubCounters (s : State) (c : Nat) (x : Context) : (setCtx s c x).hubCounters = s.hubCounters := rfl
@[simp] theorem setCtx_refclk (s : State) (c : Nat) (x : Context) : (setCtx s c x).refclk = s.refclk := rfl
@[simp] theorem setCtx_links (s : State) (c : Nat) (x : Context) : (setCtx s c x).links = s.links := rfl
@[simp] theorem setCtx_hostWidth (s : State) (c : Nat) (x : Context) : (setCtx s c x).hostWidth = s.hostWidth := rfl
@[simp] theorem setCtx_attest (s : State) (c : Nat) (x : Context) : (setCtx s c x).attest = s.attest := rfl
@[simp] theorem setCtx_firmware (s : State) (c : Nat) (x : Context) : (setCtx s c x).firmware = s.firmware := rfl
@[simp] theorem setCtx_minVersion (s : State) (c : Nat) (x : Context) : (setCtx s c x).minVersion = s.minVersion := rfl
@[simp] theorem setCtx_vendorKey (s : State) (c : Nat) (x : Context) : (setCtx s c x).vendorKey = s.vendorKey := rfl
@[simp] theorem setCtx_mailbox (s : State) (c : Nat) (x : Context) : (setCtx s c x).mailbox = s.mailbox := rfl
@[simp] theorem setCtx_booted (s : State) (c : Nat) (x : Context) : (setCtx s c x).booted = s.booted := rfl
@[simp] theorem setCtx_scanning (s : State) (c : Nat) (x : Context) : (setCtx s c x).scanning = s.scanning := rfl
@[simp] theorem setCtx_msix (s : State) (c : Nat) (x : Context) : (setCtx s c x).msix = s.msix := rfl
@[simp] theorem setCtx_failing (s : State) (c : Nat) (x : Context) : (setCtx s c x).failing = s.failing := rfl

/-! ### `setKernel` -/

@[simp] theorem setKernel_turn (s : State) (k : Nat) (x : Kernel) : (setKernel s k x).turn = s.turn := rfl
@[simp] theorem setKernel_turns (s : State) (k : Nat) (x : Kernel) : (setKernel s k x).turns = s.turns := rfl
@[simp] theorem setKernel_picks (s : State) (k : Nat) (x : Kernel) : (setKernel s k x).picks = s.picks := rfl
@[simp] theorem setKernel_free (s : State) (k : Nat) (x : Kernel) : (setKernel s k x).free = s.free := rfl
@[simp] theorem setKernel_cur (s : State) (k : Nat) (x : Kernel) : (setKernel s k x).cur = s.cur := rfl
@[simp] theorem setKernel_nextId (s : State) (k : Nat) (x : Kernel) : (setKernel s k x).nextId = s.nextId := rfl
@[simp] theorem setKernel_dram (s : State) (k : Nat) (x : Kernel) : (setKernel s k x).dram = s.dram := rfl
@[simp] theorem setKernel_hostMem (s : State) (k : Nat) (x : Kernel) : (setKernel s k x).hostMem = s.hostMem := rfl
@[simp] theorem setKernel_peerMem (s : State) (k : Nat) (x : Kernel) : (setKernel s k x).peerMem = s.peerMem := rfl
@[simp] theorem setKernel_copies (s : State) (k : Nat) (x : Kernel) : (setKernel s k x).copies = s.copies := rfl
@[simp] theorem setKernel_past (s : State) (k : Nat) (x : Kernel) : (setKernel s k x).past = s.past := rfl
@[simp] theorem setKernel_releases (s : State) (k : Nat) (x : Kernel) : (setKernel s k x).releases = s.releases := rfl
@[simp] theorem setKernel_flights (s : State) (k : Nat) (x : Kernel) : (setKernel s k x).flights = s.flights := rfl
@[simp] theorem setKernel_poisoned (s : State) (k : Nat) (x : Kernel) : (setKernel s k x).poisoned = s.poisoned := rfl
@[simp] theorem setKernel_codes (s : State) (k : Nat) (x : Kernel) : (setKernel s k x).codes = s.codes := rfl
@[simp] theorem setKernel_metaCache (s : State) (k : Nat) (x : Kernel) : (setKernel s k x).metaCache = s.metaCache := rfl
@[simp] theorem setKernel_monitors (s : State) (k : Nat) (x : Kernel) : (setKernel s k x).monitors = s.monitors := rfl
@[simp] theorem setKernel_lineHolds (s : State) (k : Nat) (x : Kernel) : (setKernel s k x).lineHolds = s.lineHolds := rfl
@[simp] theorem setKernel_groups (s : State) (k : Nat) (x : Kernel) : (setKernel s k x).groups = s.groups := rfl
@[simp] theorem setKernel_teams (s : State) (k : Nat) (x : Kernel) : (setKernel s k x).teams = s.teams := rfl
@[simp] theorem setKernel_cores (s : State) (k : Nat) (x : Kernel) : (setKernel s k x).cores = s.cores := rfl
@[simp] theorem setKernel_dies (s : State) (k : Nat) (x : Kernel) : (setKernel s k x).dies = s.dies := rfl
@[simp] theorem setKernel_arrays (s : State) (k : Nat) (x : Kernel) : (setKernel s k x).arrays = s.arrays := rfl
@[simp] theorem setKernel_status (s : State) (k : Nat) (x : Kernel) : (setKernel s k x).status = s.status := rfl
@[simp] theorem setKernel_contexts (s : State) (k : Nat) (x : Kernel) : (setKernel s k x).contexts = s.contexts := rfl
@[simp] theorem setKernel_cmdq (s : State) (k : Nat) (x : Kernel) : (setKernel s k x).cmdq = s.cmdq := rfl
@[simp] theorem setKernel_wqs (s : State) (k : Nat) (x : Kernel) : (setKernel s k x).wqs = s.wqs := rfl
@[simp] theorem setKernel_wqTurn (s : State) (k : Nat) (x : Kernel) : (setKernel s k x).wqTurn = s.wqTurn := rfl
@[simp] theorem setKernel_orphans (s : State) (k : Nat) (x : Kernel) : (setKernel s k x).orphans = s.orphans := rfl
@[simp] theorem setKernel_kernels (s : State) (k : Nat) (x : Kernel) : (setKernel s k x).kernels = s.kernels.insert k x := rfl
@[simp] theorem setKernel_faultq (s : State) (k : Nat) (x : Kernel) : (setKernel s k x).faultq = s.faultq := rfl
@[simp] theorem setKernel_errlog (s : State) (k : Nat) (x : Kernel) : (setKernel s k x).errlog = s.errlog := rfl
@[simp] theorem setKernel_phase (s : State) (k : Nat) (x : Kernel) : (setKernel s k x).phase = s.phase := rfl
@[simp] theorem setKernel_power (s : State) (k : Nat) (x : Kernel) : (setKernel s k x).power = s.power := rfl
@[simp] theorem setKernel_drain (s : State) (k : Nat) (x : Kernel) : (setKernel s k x).drain = s.drain := rfl
@[simp] theorem setKernel_drainIndex (s : State) (k : Nat) (x : Kernel) : (setKernel s k x).drainIndex = s.drainIndex := rfl
@[simp] theorem setKernel_hubCounters (s : State) (k : Nat) (x : Kernel) : (setKernel s k x).hubCounters = s.hubCounters := rfl
@[simp] theorem setKernel_refclk (s : State) (k : Nat) (x : Kernel) : (setKernel s k x).refclk = s.refclk := rfl
@[simp] theorem setKernel_links (s : State) (k : Nat) (x : Kernel) : (setKernel s k x).links = s.links := rfl
@[simp] theorem setKernel_hostWidth (s : State) (k : Nat) (x : Kernel) : (setKernel s k x).hostWidth = s.hostWidth := rfl
@[simp] theorem setKernel_attest (s : State) (k : Nat) (x : Kernel) : (setKernel s k x).attest = s.attest := rfl
@[simp] theorem setKernel_firmware (s : State) (k : Nat) (x : Kernel) : (setKernel s k x).firmware = s.firmware := rfl
@[simp] theorem setKernel_minVersion (s : State) (k : Nat) (x : Kernel) : (setKernel s k x).minVersion = s.minVersion := rfl
@[simp] theorem setKernel_vendorKey (s : State) (k : Nat) (x : Kernel) : (setKernel s k x).vendorKey = s.vendorKey := rfl
@[simp] theorem setKernel_mailbox (s : State) (k : Nat) (x : Kernel) : (setKernel s k x).mailbox = s.mailbox := rfl
@[simp] theorem setKernel_booted (s : State) (k : Nat) (x : Kernel) : (setKernel s k x).booted = s.booted := rfl
@[simp] theorem setKernel_scanning (s : State) (k : Nat) (x : Kernel) : (setKernel s k x).scanning = s.scanning := rfl
@[simp] theorem setKernel_msix (s : State) (k : Nat) (x : Kernel) : (setKernel s k x).msix = s.msix := rfl
@[simp] theorem setKernel_failing (s : State) (k : Nat) (x : Kernel) : (setKernel s k x).failing = s.failing := rfl

/-! ### `setWq` -/

@[simp] theorem setWq_turn (s : State) (q : Nat) (x : WorkQueue) : (setWq s q x).turn = s.turn := rfl
@[simp] theorem setWq_turns (s : State) (q : Nat) (x : WorkQueue) : (setWq s q x).turns = s.turns := rfl
@[simp] theorem setWq_picks (s : State) (q : Nat) (x : WorkQueue) : (setWq s q x).picks = s.picks := rfl
@[simp] theorem setWq_free (s : State) (q : Nat) (x : WorkQueue) : (setWq s q x).free = s.free := rfl
@[simp] theorem setWq_cur (s : State) (q : Nat) (x : WorkQueue) : (setWq s q x).cur = s.cur := rfl
@[simp] theorem setWq_nextId (s : State) (q : Nat) (x : WorkQueue) : (setWq s q x).nextId = s.nextId := rfl
@[simp] theorem setWq_dram (s : State) (q : Nat) (x : WorkQueue) : (setWq s q x).dram = s.dram := rfl
@[simp] theorem setWq_hostMem (s : State) (q : Nat) (x : WorkQueue) : (setWq s q x).hostMem = s.hostMem := rfl
@[simp] theorem setWq_peerMem (s : State) (q : Nat) (x : WorkQueue) : (setWq s q x).peerMem = s.peerMem := rfl
@[simp] theorem setWq_copies (s : State) (q : Nat) (x : WorkQueue) : (setWq s q x).copies = s.copies := rfl
@[simp] theorem setWq_past (s : State) (q : Nat) (x : WorkQueue) : (setWq s q x).past = s.past := rfl
@[simp] theorem setWq_releases (s : State) (q : Nat) (x : WorkQueue) : (setWq s q x).releases = s.releases := rfl
@[simp] theorem setWq_flights (s : State) (q : Nat) (x : WorkQueue) : (setWq s q x).flights = s.flights := rfl
@[simp] theorem setWq_poisoned (s : State) (q : Nat) (x : WorkQueue) : (setWq s q x).poisoned = s.poisoned := rfl
@[simp] theorem setWq_codes (s : State) (q : Nat) (x : WorkQueue) : (setWq s q x).codes = s.codes := rfl
@[simp] theorem setWq_metaCache (s : State) (q : Nat) (x : WorkQueue) : (setWq s q x).metaCache = s.metaCache := rfl
@[simp] theorem setWq_monitors (s : State) (q : Nat) (x : WorkQueue) : (setWq s q x).monitors = s.monitors := rfl
@[simp] theorem setWq_lineHolds (s : State) (q : Nat) (x : WorkQueue) : (setWq s q x).lineHolds = s.lineHolds := rfl
@[simp] theorem setWq_groups (s : State) (q : Nat) (x : WorkQueue) : (setWq s q x).groups = s.groups := rfl
@[simp] theorem setWq_teams (s : State) (q : Nat) (x : WorkQueue) : (setWq s q x).teams = s.teams := rfl
@[simp] theorem setWq_cores (s : State) (q : Nat) (x : WorkQueue) : (setWq s q x).cores = s.cores := rfl
@[simp] theorem setWq_dies (s : State) (q : Nat) (x : WorkQueue) : (setWq s q x).dies = s.dies := rfl
@[simp] theorem setWq_arrays (s : State) (q : Nat) (x : WorkQueue) : (setWq s q x).arrays = s.arrays := rfl
@[simp] theorem setWq_status (s : State) (q : Nat) (x : WorkQueue) : (setWq s q x).status = s.status := rfl
@[simp] theorem setWq_contexts (s : State) (q : Nat) (x : WorkQueue) : (setWq s q x).contexts = s.contexts := rfl
@[simp] theorem setWq_cmdq (s : State) (q : Nat) (x : WorkQueue) : (setWq s q x).cmdq = s.cmdq := rfl
@[simp] theorem setWq_wqs (s : State) (q : Nat) (x : WorkQueue) : (setWq s q x).wqs = s.wqs.insert q x := rfl
@[simp] theorem setWq_wqTurn (s : State) (q : Nat) (x : WorkQueue) : (setWq s q x).wqTurn = s.wqTurn := rfl
@[simp] theorem setWq_orphans (s : State) (q : Nat) (x : WorkQueue) : (setWq s q x).orphans = s.orphans := rfl
@[simp] theorem setWq_kernels (s : State) (q : Nat) (x : WorkQueue) : (setWq s q x).kernels = s.kernels := rfl
@[simp] theorem setWq_faultq (s : State) (q : Nat) (x : WorkQueue) : (setWq s q x).faultq = s.faultq := rfl
@[simp] theorem setWq_errlog (s : State) (q : Nat) (x : WorkQueue) : (setWq s q x).errlog = s.errlog := rfl
@[simp] theorem setWq_phase (s : State) (q : Nat) (x : WorkQueue) : (setWq s q x).phase = s.phase := rfl
@[simp] theorem setWq_power (s : State) (q : Nat) (x : WorkQueue) : (setWq s q x).power = s.power := rfl
@[simp] theorem setWq_drain (s : State) (q : Nat) (x : WorkQueue) : (setWq s q x).drain = s.drain := rfl
@[simp] theorem setWq_drainIndex (s : State) (q : Nat) (x : WorkQueue) : (setWq s q x).drainIndex = s.drainIndex := rfl
@[simp] theorem setWq_hubCounters (s : State) (q : Nat) (x : WorkQueue) : (setWq s q x).hubCounters = s.hubCounters := rfl
@[simp] theorem setWq_refclk (s : State) (q : Nat) (x : WorkQueue) : (setWq s q x).refclk = s.refclk := rfl
@[simp] theorem setWq_links (s : State) (q : Nat) (x : WorkQueue) : (setWq s q x).links = s.links := rfl
@[simp] theorem setWq_hostWidth (s : State) (q : Nat) (x : WorkQueue) : (setWq s q x).hostWidth = s.hostWidth := rfl
@[simp] theorem setWq_attest (s : State) (q : Nat) (x : WorkQueue) : (setWq s q x).attest = s.attest := rfl
@[simp] theorem setWq_firmware (s : State) (q : Nat) (x : WorkQueue) : (setWq s q x).firmware = s.firmware := rfl
@[simp] theorem setWq_minVersion (s : State) (q : Nat) (x : WorkQueue) : (setWq s q x).minVersion = s.minVersion := rfl
@[simp] theorem setWq_vendorKey (s : State) (q : Nat) (x : WorkQueue) : (setWq s q x).vendorKey = s.vendorKey := rfl
@[simp] theorem setWq_mailbox (s : State) (q : Nat) (x : WorkQueue) : (setWq s q x).mailbox = s.mailbox := rfl
@[simp] theorem setWq_booted (s : State) (q : Nat) (x : WorkQueue) : (setWq s q x).booted = s.booted := rfl
@[simp] theorem setWq_scanning (s : State) (q : Nat) (x : WorkQueue) : (setWq s q x).scanning = s.scanning := rfl
@[simp] theorem setWq_msix (s : State) (q : Nat) (x : WorkQueue) : (setWq s q x).msix = s.msix := rfl
@[simp] theorem setWq_failing (s : State) (q : Nat) (x : WorkQueue) : (setWq s q x).failing = s.failing := rfl

/-! ### `onGroup`, `fresh` -/

@[simp] theorem onGroup_turn (s : State) (k : Nat) (fn : Group → Group) : (onGroup s k fn).turn = s.turn := rfl
@[simp] theorem onGroup_turns (s : State) (k : Nat) (fn : Group → Group) : (onGroup s k fn).turns = s.turns := rfl
@[simp] theorem onGroup_picks (s : State) (k : Nat) (fn : Group → Group) : (onGroup s k fn).picks = s.picks := rfl
@[simp] theorem onGroup_free (s : State) (k : Nat) (fn : Group → Group) : (onGroup s k fn).free = s.free := rfl
@[simp] theorem onGroup_cur (s : State) (k : Nat) (fn : Group → Group) : (onGroup s k fn).cur = s.cur := rfl
@[simp] theorem onGroup_nextId (s : State) (k : Nat) (fn : Group → Group) : (onGroup s k fn).nextId = s.nextId := rfl
@[simp] theorem onGroup_dram (s : State) (k : Nat) (fn : Group → Group) : (onGroup s k fn).dram = s.dram := rfl
@[simp] theorem onGroup_hostMem (s : State) (k : Nat) (fn : Group → Group) : (onGroup s k fn).hostMem = s.hostMem := rfl
@[simp] theorem onGroup_peerMem (s : State) (k : Nat) (fn : Group → Group) : (onGroup s k fn).peerMem = s.peerMem := rfl
@[simp] theorem onGroup_copies (s : State) (k : Nat) (fn : Group → Group) : (onGroup s k fn).copies = s.copies := rfl
@[simp] theorem onGroup_past (s : State) (k : Nat) (fn : Group → Group) : (onGroup s k fn).past = s.past := rfl
@[simp] theorem onGroup_releases (s : State) (k : Nat) (fn : Group → Group) : (onGroup s k fn).releases = s.releases := rfl
@[simp] theorem onGroup_flights (s : State) (k : Nat) (fn : Group → Group) : (onGroup s k fn).flights = s.flights := rfl
@[simp] theorem onGroup_poisoned (s : State) (k : Nat) (fn : Group → Group) : (onGroup s k fn).poisoned = s.poisoned := rfl
@[simp] theorem onGroup_codes (s : State) (k : Nat) (fn : Group → Group) : (onGroup s k fn).codes = s.codes := rfl
@[simp] theorem onGroup_metaCache (s : State) (k : Nat) (fn : Group → Group) : (onGroup s k fn).metaCache = s.metaCache := rfl
@[simp] theorem onGroup_monitors (s : State) (k : Nat) (fn : Group → Group) : (onGroup s k fn).monitors = s.monitors := rfl
@[simp] theorem onGroup_lineHolds (s : State) (k : Nat) (fn : Group → Group) : (onGroup s k fn).lineHolds = s.lineHolds := rfl
@[simp] theorem onGroup_groups (s : State) (k : Nat) (fn : Group → Group) : (onGroup s k fn).groups = s.groups.modify k fn := rfl
@[simp] theorem onGroup_teams (s : State) (k : Nat) (fn : Group → Group) : (onGroup s k fn).teams = s.teams := rfl
@[simp] theorem onGroup_cores (s : State) (k : Nat) (fn : Group → Group) : (onGroup s k fn).cores = s.cores := rfl
@[simp] theorem onGroup_dies (s : State) (k : Nat) (fn : Group → Group) : (onGroup s k fn).dies = s.dies := rfl
@[simp] theorem onGroup_arrays (s : State) (k : Nat) (fn : Group → Group) : (onGroup s k fn).arrays = s.arrays := rfl
@[simp] theorem onGroup_status (s : State) (k : Nat) (fn : Group → Group) : (onGroup s k fn).status = s.status := rfl
@[simp] theorem onGroup_contexts (s : State) (k : Nat) (fn : Group → Group) : (onGroup s k fn).contexts = s.contexts := rfl
@[simp] theorem onGroup_cmdq (s : State) (k : Nat) (fn : Group → Group) : (onGroup s k fn).cmdq = s.cmdq := rfl
@[simp] theorem onGroup_wqs (s : State) (k : Nat) (fn : Group → Group) : (onGroup s k fn).wqs = s.wqs := rfl
@[simp] theorem onGroup_wqTurn (s : State) (k : Nat) (fn : Group → Group) : (onGroup s k fn).wqTurn = s.wqTurn := rfl
@[simp] theorem onGroup_orphans (s : State) (k : Nat) (fn : Group → Group) : (onGroup s k fn).orphans = s.orphans := rfl
@[simp] theorem onGroup_kernels (s : State) (k : Nat) (fn : Group → Group) : (onGroup s k fn).kernels = s.kernels := rfl
@[simp] theorem onGroup_faultq (s : State) (k : Nat) (fn : Group → Group) : (onGroup s k fn).faultq = s.faultq := rfl
@[simp] theorem onGroup_errlog (s : State) (k : Nat) (fn : Group → Group) : (onGroup s k fn).errlog = s.errlog := rfl
@[simp] theorem onGroup_phase (s : State) (k : Nat) (fn : Group → Group) : (onGroup s k fn).phase = s.phase := rfl
@[simp] theorem onGroup_power (s : State) (k : Nat) (fn : Group → Group) : (onGroup s k fn).power = s.power := rfl
@[simp] theorem onGroup_drain (s : State) (k : Nat) (fn : Group → Group) : (onGroup s k fn).drain = s.drain := rfl
@[simp] theorem onGroup_drainIndex (s : State) (k : Nat) (fn : Group → Group) : (onGroup s k fn).drainIndex = s.drainIndex := rfl
@[simp] theorem onGroup_hubCounters (s : State) (k : Nat) (fn : Group → Group) : (onGroup s k fn).hubCounters = s.hubCounters := rfl
@[simp] theorem onGroup_refclk (s : State) (k : Nat) (fn : Group → Group) : (onGroup s k fn).refclk = s.refclk := rfl
@[simp] theorem onGroup_links (s : State) (k : Nat) (fn : Group → Group) : (onGroup s k fn).links = s.links := rfl
@[simp] theorem onGroup_hostWidth (s : State) (k : Nat) (fn : Group → Group) : (onGroup s k fn).hostWidth = s.hostWidth := rfl
@[simp] theorem onGroup_attest (s : State) (k : Nat) (fn : Group → Group) : (onGroup s k fn).attest = s.attest := rfl
@[simp] theorem onGroup_firmware (s : State) (k : Nat) (fn : Group → Group) : (onGroup s k fn).firmware = s.firmware := rfl
@[simp] theorem onGroup_minVersion (s : State) (k : Nat) (fn : Group → Group) : (onGroup s k fn).minVersion = s.minVersion := rfl
@[simp] theorem onGroup_vendorKey (s : State) (k : Nat) (fn : Group → Group) : (onGroup s k fn).vendorKey = s.vendorKey := rfl
@[simp] theorem onGroup_mailbox (s : State) (k : Nat) (fn : Group → Group) : (onGroup s k fn).mailbox = s.mailbox := rfl
@[simp] theorem onGroup_booted (s : State) (k : Nat) (fn : Group → Group) : (onGroup s k fn).booted = s.booted := rfl
@[simp] theorem onGroup_scanning (s : State) (k : Nat) (fn : Group → Group) : (onGroup s k fn).scanning = s.scanning := rfl
@[simp] theorem onGroup_msix (s : State) (k : Nat) (fn : Group → Group) : (onGroup s k fn).msix = s.msix := rfl
@[simp] theorem onGroup_failing (s : State) (k : Nat) (fn : Group → Group) : (onGroup s k fn).failing = s.failing := rfl
@[simp] theorem fresh_turn (s : State) : (fresh s).turn = s.turn := rfl
@[simp] theorem fresh_turns (s : State) : (fresh s).turns = s.turns := rfl
@[simp] theorem fresh_picks (s : State) : (fresh s).picks = s.picks := rfl
@[simp] theorem fresh_free (s : State) : (fresh s).free = s.free + 1 := rfl
@[simp] theorem fresh_cur (s : State) : (fresh s).cur = s.cur := rfl
@[simp] theorem fresh_nextId (s : State) : (fresh s).nextId = s.nextId := rfl
@[simp] theorem fresh_dram (s : State) : (fresh s).dram = s.dram := rfl
@[simp] theorem fresh_hostMem (s : State) : (fresh s).hostMem = s.hostMem := rfl
@[simp] theorem fresh_peerMem (s : State) : (fresh s).peerMem = s.peerMem := rfl
@[simp] theorem fresh_copies (s : State) : (fresh s).copies = s.copies := rfl
@[simp] theorem fresh_past (s : State) : (fresh s).past = s.past := rfl
@[simp] theorem fresh_releases (s : State) : (fresh s).releases = s.releases := rfl
@[simp] theorem fresh_flights (s : State) : (fresh s).flights = s.flights := rfl
@[simp] theorem fresh_poisoned (s : State) : (fresh s).poisoned = s.poisoned := rfl
@[simp] theorem fresh_codes (s : State) : (fresh s).codes = s.codes := rfl
@[simp] theorem fresh_metaCache (s : State) : (fresh s).metaCache = s.metaCache := rfl
@[simp] theorem fresh_monitors (s : State) : (fresh s).monitors = s.monitors := rfl
@[simp] theorem fresh_lineHolds (s : State) : (fresh s).lineHolds = s.lineHolds := rfl
@[simp] theorem fresh_groups (s : State) : (fresh s).groups = s.groups := rfl
@[simp] theorem fresh_teams (s : State) : (fresh s).teams = s.teams := rfl
@[simp] theorem fresh_cores (s : State) : (fresh s).cores = s.cores := rfl
@[simp] theorem fresh_dies (s : State) : (fresh s).dies = s.dies := rfl
@[simp] theorem fresh_arrays (s : State) : (fresh s).arrays = s.arrays := rfl
@[simp] theorem fresh_status (s : State) : (fresh s).status = s.status := rfl
@[simp] theorem fresh_contexts (s : State) : (fresh s).contexts = s.contexts := rfl
@[simp] theorem fresh_cmdq (s : State) : (fresh s).cmdq = s.cmdq := rfl
@[simp] theorem fresh_wqs (s : State) : (fresh s).wqs = s.wqs := rfl
@[simp] theorem fresh_wqTurn (s : State) : (fresh s).wqTurn = s.wqTurn := rfl
@[simp] theorem fresh_orphans (s : State) : (fresh s).orphans = s.orphans := rfl
@[simp] theorem fresh_kernels (s : State) : (fresh s).kernels = s.kernels := rfl
@[simp] theorem fresh_faultq (s : State) : (fresh s).faultq = s.faultq := rfl
@[simp] theorem fresh_errlog (s : State) : (fresh s).errlog = s.errlog := rfl
@[simp] theorem fresh_phase (s : State) : (fresh s).phase = s.phase := rfl
@[simp] theorem fresh_power (s : State) : (fresh s).power = s.power := rfl
@[simp] theorem fresh_drain (s : State) : (fresh s).drain = s.drain := rfl
@[simp] theorem fresh_drainIndex (s : State) : (fresh s).drainIndex = s.drainIndex := rfl
@[simp] theorem fresh_hubCounters (s : State) : (fresh s).hubCounters = s.hubCounters := rfl
@[simp] theorem fresh_refclk (s : State) : (fresh s).refclk = s.refclk := rfl
@[simp] theorem fresh_links (s : State) : (fresh s).links = s.links := rfl
@[simp] theorem fresh_hostWidth (s : State) : (fresh s).hostWidth = s.hostWidth := rfl
@[simp] theorem fresh_attest (s : State) : (fresh s).attest = s.attest := rfl
@[simp] theorem fresh_firmware (s : State) : (fresh s).firmware = s.firmware := rfl
@[simp] theorem fresh_minVersion (s : State) : (fresh s).minVersion = s.minVersion := rfl
@[simp] theorem fresh_vendorKey (s : State) : (fresh s).vendorKey = s.vendorKey := rfl
@[simp] theorem fresh_mailbox (s : State) : (fresh s).mailbox = s.mailbox := rfl
@[simp] theorem fresh_booted (s : State) : (fresh s).booted = s.booted := rfl
@[simp] theorem fresh_scanning (s : State) : (fresh s).scanning = s.scanning := rfl
@[simp] theorem fresh_msix (s : State) : (fresh s).msix = s.msix := rfl
@[simp] theorem fresh_failing (s : State) : (fresh s).failing = s.failing := rfl

/-! ### Event counters and the charge of an issue -/

@[simp] theorem countCore_turn (s : State) (c src ctx n : Nat) : (countCore s c src ctx n).turn = s.turn := rfl
@[simp] theorem countCore_turns (s : State) (c src ctx n : Nat) : (countCore s c src ctx n).turns = s.turns := rfl
@[simp] theorem countCore_picks (s : State) (c src ctx n : Nat) : (countCore s c src ctx n).picks = s.picks := rfl
@[simp] theorem countCore_free (s : State) (c src ctx n : Nat) : (countCore s c src ctx n).free = s.free := rfl
@[simp] theorem countCore_cur (s : State) (c src ctx n : Nat) : (countCore s c src ctx n).cur = s.cur := rfl
@[simp] theorem countCore_nextId (s : State) (c src ctx n : Nat) : (countCore s c src ctx n).nextId = s.nextId := rfl
@[simp] theorem countCore_dram (s : State) (c src ctx n : Nat) : (countCore s c src ctx n).dram = s.dram := rfl
@[simp] theorem countCore_hostMem (s : State) (c src ctx n : Nat) : (countCore s c src ctx n).hostMem = s.hostMem := rfl
@[simp] theorem countCore_peerMem (s : State) (c src ctx n : Nat) : (countCore s c src ctx n).peerMem = s.peerMem := rfl
@[simp] theorem countCore_copies (s : State) (c src ctx n : Nat) : (countCore s c src ctx n).copies = s.copies := rfl
@[simp] theorem countCore_past (s : State) (c src ctx n : Nat) : (countCore s c src ctx n).past = s.past := rfl
@[simp] theorem countCore_releases (s : State) (c src ctx n : Nat) : (countCore s c src ctx n).releases = s.releases := rfl
@[simp] theorem countCore_flights (s : State) (c src ctx n : Nat) : (countCore s c src ctx n).flights = s.flights := rfl
@[simp] theorem countCore_poisoned (s : State) (c src ctx n : Nat) : (countCore s c src ctx n).poisoned = s.poisoned := rfl
@[simp] theorem countCore_codes (s : State) (c src ctx n : Nat) : (countCore s c src ctx n).codes = s.codes := rfl
@[simp] theorem countCore_metaCache (s : State) (c src ctx n : Nat) : (countCore s c src ctx n).metaCache = s.metaCache := rfl
@[simp] theorem countCore_monitors (s : State) (c src ctx n : Nat) : (countCore s c src ctx n).monitors = s.monitors := rfl
@[simp] theorem countCore_lineHolds (s : State) (c src ctx n : Nat) : (countCore s c src ctx n).lineHolds = s.lineHolds := rfl
@[simp] theorem countCore_groups (s : State) (c src ctx n : Nat) : (countCore s c src ctx n).groups = s.groups := rfl
@[simp] theorem countCore_teams (s : State) (c src ctx n : Nat) : (countCore s c src ctx n).teams = s.teams := rfl
@[simp] theorem countCore_dies (s : State) (c src ctx n : Nat) : (countCore s c src ctx n).dies = s.dies := rfl
@[simp] theorem countCore_arrays (s : State) (c src ctx n : Nat) : (countCore s c src ctx n).arrays = s.arrays := rfl
@[simp] theorem countCore_status (s : State) (c src ctx n : Nat) : (countCore s c src ctx n).status = s.status := rfl
@[simp] theorem countCore_contexts (s : State) (c src ctx n : Nat) : (countCore s c src ctx n).contexts = s.contexts := rfl
@[simp] theorem countCore_cmdq (s : State) (c src ctx n : Nat) : (countCore s c src ctx n).cmdq = s.cmdq := rfl
@[simp] theorem countCore_wqs (s : State) (c src ctx n : Nat) : (countCore s c src ctx n).wqs = s.wqs := rfl
@[simp] theorem countCore_wqTurn (s : State) (c src ctx n : Nat) : (countCore s c src ctx n).wqTurn = s.wqTurn := rfl
@[simp] theorem countCore_orphans (s : State) (c src ctx n : Nat) : (countCore s c src ctx n).orphans = s.orphans := rfl
@[simp] theorem countCore_kernels (s : State) (c src ctx n : Nat) : (countCore s c src ctx n).kernels = s.kernels := rfl
@[simp] theorem countCore_faultq (s : State) (c src ctx n : Nat) : (countCore s c src ctx n).faultq = s.faultq := rfl
@[simp] theorem countCore_errlog (s : State) (c src ctx n : Nat) : (countCore s c src ctx n).errlog = s.errlog := rfl
@[simp] theorem countCore_phase (s : State) (c src ctx n : Nat) : (countCore s c src ctx n).phase = s.phase := rfl
@[simp] theorem countCore_power (s : State) (c src ctx n : Nat) : (countCore s c src ctx n).power = s.power := rfl
@[simp] theorem countCore_drain (s : State) (c src ctx n : Nat) : (countCore s c src ctx n).drain = s.drain := rfl
@[simp] theorem countCore_drainIndex (s : State) (c src ctx n : Nat) : (countCore s c src ctx n).drainIndex = s.drainIndex := rfl
@[simp] theorem countCore_hubCounters (s : State) (c src ctx n : Nat) : (countCore s c src ctx n).hubCounters = s.hubCounters := rfl
@[simp] theorem countCore_refclk (s : State) (c src ctx n : Nat) : (countCore s c src ctx n).refclk = s.refclk := rfl
@[simp] theorem countCore_links (s : State) (c src ctx n : Nat) : (countCore s c src ctx n).links = s.links := rfl
@[simp] theorem countCore_hostWidth (s : State) (c src ctx n : Nat) : (countCore s c src ctx n).hostWidth = s.hostWidth := rfl
@[simp] theorem countCore_attest (s : State) (c src ctx n : Nat) : (countCore s c src ctx n).attest = s.attest := rfl
@[simp] theorem countCore_firmware (s : State) (c src ctx n : Nat) : (countCore s c src ctx n).firmware = s.firmware := rfl
@[simp] theorem countCore_minVersion (s : State) (c src ctx n : Nat) : (countCore s c src ctx n).minVersion = s.minVersion := rfl
@[simp] theorem countCore_vendorKey (s : State) (c src ctx n : Nat) : (countCore s c src ctx n).vendorKey = s.vendorKey := rfl
@[simp] theorem countCore_mailbox (s : State) (c src ctx n : Nat) : (countCore s c src ctx n).mailbox = s.mailbox := rfl
@[simp] theorem countCore_booted (s : State) (c src ctx n : Nat) : (countCore s c src ctx n).booted = s.booted := rfl
@[simp] theorem countCore_scanning (s : State) (c src ctx n : Nat) : (countCore s c src ctx n).scanning = s.scanning := rfl
@[simp] theorem countCore_msix (s : State) (c src ctx n : Nat) : (countCore s c src ctx n).msix = s.msix := rfl
@[simp] theorem countCore_failing (s : State) (c src ctx n : Nat) : (countCore s c src ctx n).failing = s.failing := rfl
@[simp] theorem countHub_turn (s : State) (src ctx n : Nat) : (countHub s src ctx n).turn = s.turn := rfl
@[simp] theorem countHub_turns (s : State) (src ctx n : Nat) : (countHub s src ctx n).turns = s.turns := rfl
@[simp] theorem countHub_picks (s : State) (src ctx n : Nat) : (countHub s src ctx n).picks = s.picks := rfl
@[simp] theorem countHub_free (s : State) (src ctx n : Nat) : (countHub s src ctx n).free = s.free := rfl
@[simp] theorem countHub_cur (s : State) (src ctx n : Nat) : (countHub s src ctx n).cur = s.cur := rfl
@[simp] theorem countHub_nextId (s : State) (src ctx n : Nat) : (countHub s src ctx n).nextId = s.nextId := rfl
@[simp] theorem countHub_dram (s : State) (src ctx n : Nat) : (countHub s src ctx n).dram = s.dram := rfl
@[simp] theorem countHub_hostMem (s : State) (src ctx n : Nat) : (countHub s src ctx n).hostMem = s.hostMem := rfl
@[simp] theorem countHub_peerMem (s : State) (src ctx n : Nat) : (countHub s src ctx n).peerMem = s.peerMem := rfl
@[simp] theorem countHub_copies (s : State) (src ctx n : Nat) : (countHub s src ctx n).copies = s.copies := rfl
@[simp] theorem countHub_past (s : State) (src ctx n : Nat) : (countHub s src ctx n).past = s.past := rfl
@[simp] theorem countHub_releases (s : State) (src ctx n : Nat) : (countHub s src ctx n).releases = s.releases := rfl
@[simp] theorem countHub_flights (s : State) (src ctx n : Nat) : (countHub s src ctx n).flights = s.flights := rfl
@[simp] theorem countHub_poisoned (s : State) (src ctx n : Nat) : (countHub s src ctx n).poisoned = s.poisoned := rfl
@[simp] theorem countHub_codes (s : State) (src ctx n : Nat) : (countHub s src ctx n).codes = s.codes := rfl
@[simp] theorem countHub_metaCache (s : State) (src ctx n : Nat) : (countHub s src ctx n).metaCache = s.metaCache := rfl
@[simp] theorem countHub_monitors (s : State) (src ctx n : Nat) : (countHub s src ctx n).monitors = s.monitors := rfl
@[simp] theorem countHub_lineHolds (s : State) (src ctx n : Nat) : (countHub s src ctx n).lineHolds = s.lineHolds := rfl
@[simp] theorem countHub_groups (s : State) (src ctx n : Nat) : (countHub s src ctx n).groups = s.groups := rfl
@[simp] theorem countHub_teams (s : State) (src ctx n : Nat) : (countHub s src ctx n).teams = s.teams := rfl
@[simp] theorem countHub_cores (s : State) (src ctx n : Nat) : (countHub s src ctx n).cores = s.cores := rfl
@[simp] theorem countHub_dies (s : State) (src ctx n : Nat) : (countHub s src ctx n).dies = s.dies := rfl
@[simp] theorem countHub_arrays (s : State) (src ctx n : Nat) : (countHub s src ctx n).arrays = s.arrays := rfl
@[simp] theorem countHub_status (s : State) (src ctx n : Nat) : (countHub s src ctx n).status = s.status := rfl
@[simp] theorem countHub_contexts (s : State) (src ctx n : Nat) : (countHub s src ctx n).contexts = s.contexts := rfl
@[simp] theorem countHub_cmdq (s : State) (src ctx n : Nat) : (countHub s src ctx n).cmdq = s.cmdq := rfl
@[simp] theorem countHub_wqs (s : State) (src ctx n : Nat) : (countHub s src ctx n).wqs = s.wqs := rfl
@[simp] theorem countHub_wqTurn (s : State) (src ctx n : Nat) : (countHub s src ctx n).wqTurn = s.wqTurn := rfl
@[simp] theorem countHub_orphans (s : State) (src ctx n : Nat) : (countHub s src ctx n).orphans = s.orphans := rfl
@[simp] theorem countHub_kernels (s : State) (src ctx n : Nat) : (countHub s src ctx n).kernels = s.kernels := rfl
@[simp] theorem countHub_faultq (s : State) (src ctx n : Nat) : (countHub s src ctx n).faultq = s.faultq := rfl
@[simp] theorem countHub_errlog (s : State) (src ctx n : Nat) : (countHub s src ctx n).errlog = s.errlog := rfl
@[simp] theorem countHub_phase (s : State) (src ctx n : Nat) : (countHub s src ctx n).phase = s.phase := rfl
@[simp] theorem countHub_power (s : State) (src ctx n : Nat) : (countHub s src ctx n).power = s.power := rfl
@[simp] theorem countHub_drain (s : State) (src ctx n : Nat) : (countHub s src ctx n).drain = s.drain := rfl
@[simp] theorem countHub_drainIndex (s : State) (src ctx n : Nat) : (countHub s src ctx n).drainIndex = s.drainIndex := rfl
@[simp] theorem countHub_refclk (s : State) (src ctx n : Nat) : (countHub s src ctx n).refclk = s.refclk := rfl
@[simp] theorem countHub_links (s : State) (src ctx n : Nat) : (countHub s src ctx n).links = s.links := rfl
@[simp] theorem countHub_hostWidth (s : State) (src ctx n : Nat) : (countHub s src ctx n).hostWidth = s.hostWidth := rfl
@[simp] theorem countHub_attest (s : State) (src ctx n : Nat) : (countHub s src ctx n).attest = s.attest := rfl
@[simp] theorem countHub_firmware (s : State) (src ctx n : Nat) : (countHub s src ctx n).firmware = s.firmware := rfl
@[simp] theorem countHub_minVersion (s : State) (src ctx n : Nat) : (countHub s src ctx n).minVersion = s.minVersion := rfl
@[simp] theorem countHub_vendorKey (s : State) (src ctx n : Nat) : (countHub s src ctx n).vendorKey = s.vendorKey := rfl
@[simp] theorem countHub_mailbox (s : State) (src ctx n : Nat) : (countHub s src ctx n).mailbox = s.mailbox := rfl
@[simp] theorem countHub_booted (s : State) (src ctx n : Nat) : (countHub s src ctx n).booted = s.booted := rfl
@[simp] theorem countHub_scanning (s : State) (src ctx n : Nat) : (countHub s src ctx n).scanning = s.scanning := rfl
@[simp] theorem countHub_msix (s : State) (src ctx n : Nat) : (countHub s src ctx n).msix = s.msix := rfl
@[simp] theorem countHub_failing (s : State) (src ctx n : Nat) : (countHub s src ctx n).failing = s.failing := rfl
@[simp] theorem countSlice_turn (s : State) (d l src ctx n : Nat) : (countSlice s d l src ctx n).turn = s.turn := rfl
@[simp] theorem countSlice_turns (s : State) (d l src ctx n : Nat) : (countSlice s d l src ctx n).turns = s.turns := rfl
@[simp] theorem countSlice_picks (s : State) (d l src ctx n : Nat) : (countSlice s d l src ctx n).picks = s.picks := rfl
@[simp] theorem countSlice_free (s : State) (d l src ctx n : Nat) : (countSlice s d l src ctx n).free = s.free := rfl
@[simp] theorem countSlice_cur (s : State) (d l src ctx n : Nat) : (countSlice s d l src ctx n).cur = s.cur := rfl
@[simp] theorem countSlice_nextId (s : State) (d l src ctx n : Nat) : (countSlice s d l src ctx n).nextId = s.nextId := rfl
@[simp] theorem countSlice_dram (s : State) (d l src ctx n : Nat) : (countSlice s d l src ctx n).dram = s.dram := rfl
@[simp] theorem countSlice_hostMem (s : State) (d l src ctx n : Nat) : (countSlice s d l src ctx n).hostMem = s.hostMem := rfl
@[simp] theorem countSlice_peerMem (s : State) (d l src ctx n : Nat) : (countSlice s d l src ctx n).peerMem = s.peerMem := rfl
@[simp] theorem countSlice_copies (s : State) (d l src ctx n : Nat) : (countSlice s d l src ctx n).copies = s.copies := rfl
@[simp] theorem countSlice_past (s : State) (d l src ctx n : Nat) : (countSlice s d l src ctx n).past = s.past := rfl
@[simp] theorem countSlice_releases (s : State) (d l src ctx n : Nat) : (countSlice s d l src ctx n).releases = s.releases := rfl
@[simp] theorem countSlice_flights (s : State) (d l src ctx n : Nat) : (countSlice s d l src ctx n).flights = s.flights := rfl
@[simp] theorem countSlice_poisoned (s : State) (d l src ctx n : Nat) : (countSlice s d l src ctx n).poisoned = s.poisoned := rfl
@[simp] theorem countSlice_codes (s : State) (d l src ctx n : Nat) : (countSlice s d l src ctx n).codes = s.codes := rfl
@[simp] theorem countSlice_metaCache (s : State) (d l src ctx n : Nat) : (countSlice s d l src ctx n).metaCache = s.metaCache := rfl
@[simp] theorem countSlice_monitors (s : State) (d l src ctx n : Nat) : (countSlice s d l src ctx n).monitors = s.monitors := rfl
@[simp] theorem countSlice_lineHolds (s : State) (d l src ctx n : Nat) : (countSlice s d l src ctx n).lineHolds = s.lineHolds := rfl
@[simp] theorem countSlice_groups (s : State) (d l src ctx n : Nat) : (countSlice s d l src ctx n).groups = s.groups := rfl
@[simp] theorem countSlice_teams (s : State) (d l src ctx n : Nat) : (countSlice s d l src ctx n).teams = s.teams := rfl
@[simp] theorem countSlice_cores (s : State) (d l src ctx n : Nat) : (countSlice s d l src ctx n).cores = s.cores := rfl
@[simp] theorem countSlice_arrays (s : State) (d l src ctx n : Nat) : (countSlice s d l src ctx n).arrays = s.arrays := rfl
@[simp] theorem countSlice_status (s : State) (d l src ctx n : Nat) : (countSlice s d l src ctx n).status = s.status := rfl
@[simp] theorem countSlice_contexts (s : State) (d l src ctx n : Nat) : (countSlice s d l src ctx n).contexts = s.contexts := rfl
@[simp] theorem countSlice_cmdq (s : State) (d l src ctx n : Nat) : (countSlice s d l src ctx n).cmdq = s.cmdq := rfl
@[simp] theorem countSlice_wqs (s : State) (d l src ctx n : Nat) : (countSlice s d l src ctx n).wqs = s.wqs := rfl
@[simp] theorem countSlice_wqTurn (s : State) (d l src ctx n : Nat) : (countSlice s d l src ctx n).wqTurn = s.wqTurn := rfl
@[simp] theorem countSlice_orphans (s : State) (d l src ctx n : Nat) : (countSlice s d l src ctx n).orphans = s.orphans := rfl
@[simp] theorem countSlice_kernels (s : State) (d l src ctx n : Nat) : (countSlice s d l src ctx n).kernels = s.kernels := rfl
@[simp] theorem countSlice_faultq (s : State) (d l src ctx n : Nat) : (countSlice s d l src ctx n).faultq = s.faultq := rfl
@[simp] theorem countSlice_errlog (s : State) (d l src ctx n : Nat) : (countSlice s d l src ctx n).errlog = s.errlog := rfl
@[simp] theorem countSlice_phase (s : State) (d l src ctx n : Nat) : (countSlice s d l src ctx n).phase = s.phase := rfl
@[simp] theorem countSlice_power (s : State) (d l src ctx n : Nat) : (countSlice s d l src ctx n).power = s.power := rfl
@[simp] theorem countSlice_drain (s : State) (d l src ctx n : Nat) : (countSlice s d l src ctx n).drain = s.drain := rfl
@[simp] theorem countSlice_drainIndex (s : State) (d l src ctx n : Nat) : (countSlice s d l src ctx n).drainIndex = s.drainIndex := rfl
@[simp] theorem countSlice_hubCounters (s : State) (d l src ctx n : Nat) : (countSlice s d l src ctx n).hubCounters = s.hubCounters := rfl
@[simp] theorem countSlice_refclk (s : State) (d l src ctx n : Nat) : (countSlice s d l src ctx n).refclk = s.refclk := rfl
@[simp] theorem countSlice_links (s : State) (d l src ctx n : Nat) : (countSlice s d l src ctx n).links = s.links := rfl
@[simp] theorem countSlice_hostWidth (s : State) (d l src ctx n : Nat) : (countSlice s d l src ctx n).hostWidth = s.hostWidth := rfl
@[simp] theorem countSlice_attest (s : State) (d l src ctx n : Nat) : (countSlice s d l src ctx n).attest = s.attest := rfl
@[simp] theorem countSlice_firmware (s : State) (d l src ctx n : Nat) : (countSlice s d l src ctx n).firmware = s.firmware := rfl
@[simp] theorem countSlice_minVersion (s : State) (d l src ctx n : Nat) : (countSlice s d l src ctx n).minVersion = s.minVersion := rfl
@[simp] theorem countSlice_vendorKey (s : State) (d l src ctx n : Nat) : (countSlice s d l src ctx n).vendorKey = s.vendorKey := rfl
@[simp] theorem countSlice_mailbox (s : State) (d l src ctx n : Nat) : (countSlice s d l src ctx n).mailbox = s.mailbox := rfl
@[simp] theorem countSlice_booted (s : State) (d l src ctx n : Nat) : (countSlice s d l src ctx n).booted = s.booted := rfl
@[simp] theorem countSlice_scanning (s : State) (d l src ctx n : Nat) : (countSlice s d l src ctx n).scanning = s.scanning := rfl
@[simp] theorem countSlice_msix (s : State) (d l src ctx n : Nat) : (countSlice s d l src ctx n).msix = s.msix := rfl
@[simp] theorem countSlice_failing (s : State) (d l src ctx n : Nat) : (countSlice s d l src ctx n).failing = s.failing := rfl
@[simp] theorem account_turn (s : State) (e : Env) (op : Op) (f : Fields) : (account s e op f).turn = s.turn := rfl
@[simp] theorem account_turns (s : State) (e : Env) (op : Op) (f : Fields) : (account s e op f).turns = s.turns := rfl
@[simp] theorem account_picks (s : State) (e : Env) (op : Op) (f : Fields) : (account s e op f).picks = s.picks := rfl
@[simp] theorem account_free (s : State) (e : Env) (op : Op) (f : Fields) : (account s e op f).free = s.free := rfl
@[simp] theorem account_cur (s : State) (e : Env) (op : Op) (f : Fields) : (account s e op f).cur = s.cur := rfl
@[simp] theorem account_nextId (s : State) (e : Env) (op : Op) (f : Fields) : (account s e op f).nextId = s.nextId := rfl
@[simp] theorem account_dram (s : State) (e : Env) (op : Op) (f : Fields) : (account s e op f).dram = s.dram := rfl
@[simp] theorem account_hostMem (s : State) (e : Env) (op : Op) (f : Fields) : (account s e op f).hostMem = s.hostMem := rfl
@[simp] theorem account_peerMem (s : State) (e : Env) (op : Op) (f : Fields) : (account s e op f).peerMem = s.peerMem := rfl
@[simp] theorem account_copies (s : State) (e : Env) (op : Op) (f : Fields) : (account s e op f).copies = s.copies := rfl
@[simp] theorem account_past (s : State) (e : Env) (op : Op) (f : Fields) : (account s e op f).past = s.past := rfl
@[simp] theorem account_releases (s : State) (e : Env) (op : Op) (f : Fields) : (account s e op f).releases = s.releases := rfl
@[simp] theorem account_flights (s : State) (e : Env) (op : Op) (f : Fields) : (account s e op f).flights = s.flights := rfl
@[simp] theorem account_poisoned (s : State) (e : Env) (op : Op) (f : Fields) : (account s e op f).poisoned = s.poisoned := rfl
@[simp] theorem account_codes (s : State) (e : Env) (op : Op) (f : Fields) : (account s e op f).codes = s.codes := rfl
@[simp] theorem account_metaCache (s : State) (e : Env) (op : Op) (f : Fields) : (account s e op f).metaCache = s.metaCache := rfl
@[simp] theorem account_monitors (s : State) (e : Env) (op : Op) (f : Fields) : (account s e op f).monitors = s.monitors := rfl
@[simp] theorem account_lineHolds (s : State) (e : Env) (op : Op) (f : Fields) : (account s e op f).lineHolds = s.lineHolds := rfl
@[simp] theorem account_groups (s : State) (e : Env) (op : Op) (f : Fields) : (account s e op f).groups = s.groups := rfl
@[simp] theorem account_teams (s : State) (e : Env) (op : Op) (f : Fields) : (account s e op f).teams = s.teams := rfl
@[simp] theorem account_dies (s : State) (e : Env) (op : Op) (f : Fields) : (account s e op f).dies = s.dies := rfl
@[simp] theorem account_arrays (s : State) (e : Env) (op : Op) (f : Fields) : (account s e op f).arrays = s.arrays := rfl
@[simp] theorem account_status (s : State) (e : Env) (op : Op) (f : Fields) : (account s e op f).status = s.status := rfl
@[simp] theorem account_contexts (s : State) (e : Env) (op : Op) (f : Fields) : (account s e op f).contexts = s.contexts := rfl
@[simp] theorem account_cmdq (s : State) (e : Env) (op : Op) (f : Fields) : (account s e op f).cmdq = s.cmdq := rfl
@[simp] theorem account_wqs (s : State) (e : Env) (op : Op) (f : Fields) : (account s e op f).wqs = s.wqs := rfl
@[simp] theorem account_wqTurn (s : State) (e : Env) (op : Op) (f : Fields) : (account s e op f).wqTurn = s.wqTurn := rfl
@[simp] theorem account_orphans (s : State) (e : Env) (op : Op) (f : Fields) : (account s e op f).orphans = s.orphans := rfl
@[simp] theorem account_kernels (s : State) (e : Env) (op : Op) (f : Fields) : (account s e op f).kernels = s.kernels := rfl
@[simp] theorem account_faultq (s : State) (e : Env) (op : Op) (f : Fields) : (account s e op f).faultq = s.faultq := rfl
@[simp] theorem account_errlog (s : State) (e : Env) (op : Op) (f : Fields) : (account s e op f).errlog = s.errlog := rfl
@[simp] theorem account_phase (s : State) (e : Env) (op : Op) (f : Fields) : (account s e op f).phase = s.phase := rfl
@[simp] theorem account_power (s : State) (e : Env) (op : Op) (f : Fields) : (account s e op f).power = s.power := rfl
@[simp] theorem account_drain (s : State) (e : Env) (op : Op) (f : Fields) : (account s e op f).drain = s.drain := rfl
@[simp] theorem account_drainIndex (s : State) (e : Env) (op : Op) (f : Fields) : (account s e op f).drainIndex = s.drainIndex := rfl
@[simp] theorem account_hubCounters (s : State) (e : Env) (op : Op) (f : Fields) : (account s e op f).hubCounters = s.hubCounters := rfl
@[simp] theorem account_refclk (s : State) (e : Env) (op : Op) (f : Fields) : (account s e op f).refclk = s.refclk := rfl
@[simp] theorem account_links (s : State) (e : Env) (op : Op) (f : Fields) : (account s e op f).links = s.links := rfl
@[simp] theorem account_hostWidth (s : State) (e : Env) (op : Op) (f : Fields) : (account s e op f).hostWidth = s.hostWidth := rfl
@[simp] theorem account_attest (s : State) (e : Env) (op : Op) (f : Fields) : (account s e op f).attest = s.attest := rfl
@[simp] theorem account_firmware (s : State) (e : Env) (op : Op) (f : Fields) : (account s e op f).firmware = s.firmware := rfl
@[simp] theorem account_minVersion (s : State) (e : Env) (op : Op) (f : Fields) : (account s e op f).minVersion = s.minVersion := rfl
@[simp] theorem account_vendorKey (s : State) (e : Env) (op : Op) (f : Fields) : (account s e op f).vendorKey = s.vendorKey := rfl
@[simp] theorem account_mailbox (s : State) (e : Env) (op : Op) (f : Fields) : (account s e op f).mailbox = s.mailbox := rfl
@[simp] theorem account_booted (s : State) (e : Env) (op : Op) (f : Fields) : (account s e op f).booted = s.booted := rfl
@[simp] theorem account_scanning (s : State) (e : Env) (op : Op) (f : Fields) : (account s e op f).scanning = s.scanning := rfl
@[simp] theorem account_msix (s : State) (e : Env) (op : Op) (f : Fields) : (account s e op f).msix = s.msix := rfl
@[simp] theorem account_failing (s : State) (e : Env) (op : Op) (f : Fields) : (account s e op f).failing = s.failing := rfl

/-! ### Reading a part after it was written -/

@[simp] theorem coreOf_setCore_self (s : State) (c : Nat) (x : Core) : coreOf (setCore s c x) c = x := by simp [coreOf]
theorem coreOf_setCore_other (s : State) (c d : Nat) (x : Core) (h : d ≠ c) : coreOf (setCore s c x) d = coreOf s d := by
  simp [coreOf, Map.find_insert_other _ _ _ _ h]
@[simp] theorem dieOf_setDie_self (s : State) (d : Nat) (x : Die) : dieOf (setDie s d x) d = x := by simp [dieOf]
theorem dieOf_setDie_other (s : State) (c d : Nat) (x : Die) (h : d ≠ c) : dieOf (setDie s c x) d = dieOf s d := by
  simp [dieOf, Map.find_insert_other _ _ _ _ h]
@[simp] theorem arrayOf_setArray_self (s : State) (a : Nat) (x : ArrayUnit) : arrayOf (setArray s a x) a = x := by simp [arrayOf]
theorem arrayOf_setArray_other (s : State) (a b : Nat) (x : ArrayUnit) (h : b ≠ a) : arrayOf (setArray s a x) b = arrayOf s b := by
  simp [arrayOf, Map.find_insert_other _ _ _ _ h]
@[simp] theorem linkOf_setLink_self (s : State) (l : Nat) (x : Link) : linkOf (setLink s l x) l = x := by simp [linkOf]
theorem linkOf_setLink_other (s : State) (l m : Nat) (x : Link) (h : m ≠ l) : linkOf (setLink s l x) m = linkOf s m := by
  simp [linkOf, Map.find_insert_other _ _ _ _ h]

@[simp] theorem coreOf_setGroup (s : State) (g c : Nat) (x : Group) : coreOf (setGroup s g x) c = coreOf s c := rfl
@[simp] theorem coreOf_setTeam (s : State) (t c : Nat) (x : Team) : coreOf (setTeam s t x) c = coreOf s c := rfl
@[simp] theorem coreOf_setCtx (s : State) (k c : Nat) (x : Context) : coreOf (setCtx s k x) c = coreOf s c := rfl

end Sys2Proof.Machine
end

