-- ==== Sys2Proof/Laws/Operands.lean ====
section
/-! SUPPORT. What each update of a group does to each of its fields, and reading a register, predicate or sub-group after it was written. -/

namespace Sys2Proof.Machine

/-! ### `setV` -/

@[simp] theorem setV_team (g : Group) (n : Nat) (r : VReg) : (setV g n r).team = g.team := rfl
@[simp] theorem setV_num (g : Group) (n : Nat) (r : VReg) : (setV g n r).num = g.num := rfl
@[simp] theorem setV_part (g : Group) (n : Nat) (r : VReg) : (setV g n r).part = g.part := rfl
@[simp] theorem setV_consumer (g : Group) (n : Nat) (r : VReg) : (setV g n r).consumer = g.consumer := rfl
@[simp] theorem setV_v (g : Group) (n : Nat) (r : VReg) : (setV g n r).v = g.v := rfl
@[simp] theorem setV_s (g : Group) (n : Nat) (r : VReg) : (setV g n r).s = g.s := rfl
@[simp] theorem setV_sregs (g : Group) (n : Nat) (r : VReg) : (setV g n r).sregs = g.sregs := rfl
@[simp] theorem setV_preds (g : Group) (n : Nat) (r : VReg) : (setV g n r).preds = g.preds := rfl
@[simp] theorem setV_fl (g : Group) (n : Nat) (r : VReg) : (setV g n r).fl = g.fl := rfl
@[simp] theorem setV_fpm (g : Group) (n : Nat) (r : VReg) : (setV g n r).fpm = g.fpm := rfl
@[simp] theorem setV_sig (g : Group) (n : Nat) (r : VReg) : (setV g n r).sig = g.sig := rfl
@[simp] theorem setV_region (g : Group) (n : Nat) (r : VReg) : (setV g n r).region = g.region := rfl
@[simp] theorem setV_storeQ (g : Group) (n : Nat) (r : VReg) : (setV g n r).storeQ = g.storeQ := rfl
@[simp] theorem setV_inflight (g : Group) (n : Nat) (r : VReg) : (setV g n r).inflight = g.inflight := rfl
@[simp] theorem setV_queues (g : Group) (n : Nat) (r : VReg) : (setV g n r).queues = g.queues := rfl
@[simp] theorem setV_fenceRel (g : Group) (n : Nat) (r : VReg) : (setV g n r).fenceRel = g.fenceRel := rfl
@[simp] theorem setV_rangeOps (g : Group) (n : Nat) (r : VReg) : (setV g n r).rangeOps = g.rangeOps := rfl
@[simp] theorem setV_deferred (g : Group) (n : Nat) (r : VReg) : (setV g n r).deferred = g.deferred := rfl
@[simp] theorem setV_splits (g : Group) (n : Nat) (r : VReg) : (setV g n r).splits = g.splits := rfl
@[simp] theorem setV_subs (g : Group) (n : Nat) (r : VReg) : (setV g n r).subs = g.subs := rfl
@[simp] theorem setV_seq (g : Group) (n : Nat) (r : VReg) : (setV g n r).seq = g.seq := rfl

/-! ### `setS` -/

@[simp] theorem setS_team (g : Group) (n : Nat) (r : SReg) : (setS g n r).team = g.team := rfl
@[simp] theorem setS_num (g : Group) (n : Nat) (r : SReg) : (setS g n r).num = g.num := rfl
@[simp] theorem setS_part (g : Group) (n : Nat) (r : SReg) : (setS g n r).part = g.part := rfl
@[simp] theorem setS_consumer (g : Group) (n : Nat) (r : SReg) : (setS g n r).consumer = g.consumer := rfl
@[simp] theorem setS_v (g : Group) (n : Nat) (r : SReg) : (setS g n r).v = g.v := rfl
@[simp] theorem setS_s (g : Group) (n : Nat) (r : SReg) : (setS g n r).s = g.s := rfl
@[simp] theorem setS_vregs (g : Group) (n : Nat) (r : SReg) : (setS g n r).vregs = g.vregs := rfl
@[simp] theorem setS_preds (g : Group) (n : Nat) (r : SReg) : (setS g n r).preds = g.preds := rfl
@[simp] theorem setS_fl (g : Group) (n : Nat) (r : SReg) : (setS g n r).fl = g.fl := rfl
@[simp] theorem setS_fpm (g : Group) (n : Nat) (r : SReg) : (setS g n r).fpm = g.fpm := rfl
@[simp] theorem setS_sig (g : Group) (n : Nat) (r : SReg) : (setS g n r).sig = g.sig := rfl
@[simp] theorem setS_region (g : Group) (n : Nat) (r : SReg) : (setS g n r).region = g.region := rfl
@[simp] theorem setS_storeQ (g : Group) (n : Nat) (r : SReg) : (setS g n r).storeQ = g.storeQ := rfl
@[simp] theorem setS_inflight (g : Group) (n : Nat) (r : SReg) : (setS g n r).inflight = g.inflight := rfl
@[simp] theorem setS_queues (g : Group) (n : Nat) (r : SReg) : (setS g n r).queues = g.queues := rfl
@[simp] theorem setS_fenceRel (g : Group) (n : Nat) (r : SReg) : (setS g n r).fenceRel = g.fenceRel := rfl
@[simp] theorem setS_rangeOps (g : Group) (n : Nat) (r : SReg) : (setS g n r).rangeOps = g.rangeOps := rfl
@[simp] theorem setS_deferred (g : Group) (n : Nat) (r : SReg) : (setS g n r).deferred = g.deferred := rfl
@[simp] theorem setS_splits (g : Group) (n : Nat) (r : SReg) : (setS g n r).splits = g.splits := rfl
@[simp] theorem setS_subs (g : Group) (n : Nat) (r : SReg) : (setS g n r).subs = g.subs := rfl
@[simp] theorem setS_seq (g : Group) (n : Nat) (r : SReg) : (setS g n r).seq = g.seq := rfl

/-! ### `onSub` -/

@[simp] theorem onSub_team (g : Group) (n : Nat) (fn : Sub → Sub) : (onSub g n fn).team = g.team := rfl
@[simp] theorem onSub_num (g : Group) (n : Nat) (fn : Sub → Sub) : (onSub g n fn).num = g.num := rfl
@[simp] theorem onSub_part (g : Group) (n : Nat) (fn : Sub → Sub) : (onSub g n fn).part = g.part := rfl
@[simp] theorem onSub_consumer (g : Group) (n : Nat) (fn : Sub → Sub) : (onSub g n fn).consumer = g.consumer := rfl
@[simp] theorem onSub_v (g : Group) (n : Nat) (fn : Sub → Sub) : (onSub g n fn).v = g.v := rfl
@[simp] theorem onSub_s (g : Group) (n : Nat) (fn : Sub → Sub) : (onSub g n fn).s = g.s := rfl
@[simp] theorem onSub_vregs (g : Group) (n : Nat) (fn : Sub → Sub) : (onSub g n fn).vregs = g.vregs := rfl
@[simp] theorem onSub_sregs (g : Group) (n : Nat) (fn : Sub → Sub) : (onSub g n fn).sregs = g.sregs := rfl
@[simp] theorem onSub_preds (g : Group) (n : Nat) (fn : Sub → Sub) : (onSub g n fn).preds = g.preds := rfl
@[simp] theorem onSub_fl (g : Group) (n : Nat) (fn : Sub → Sub) : (onSub g n fn).fl = g.fl := rfl
@[simp] theorem onSub_fpm (g : Group) (n : Nat) (fn : Sub → Sub) : (onSub g n fn).fpm = g.fpm := rfl
@[simp] theorem onSub_sig (g : Group) (n : Nat) (fn : Sub → Sub) : (onSub g n fn).sig = g.sig := rfl
@[simp] theorem onSub_region (g : Group) (n : Nat) (fn : Sub → Sub) : (onSub g n fn).region = g.region := rfl
@[simp] theorem onSub_storeQ (g : Group) (n : Nat) (fn : Sub → Sub) : (onSub g n fn).storeQ = g.storeQ := rfl
@[simp] theorem onSub_inflight (g : Group) (n : Nat) (fn : Sub → Sub) : (onSub g n fn).inflight = g.inflight := rfl
@[simp] theorem onSub_queues (g : Group) (n : Nat) (fn : Sub → Sub) : (onSub g n fn).queues = g.queues := rfl
@[simp] theorem onSub_fenceRel (g : Group) (n : Nat) (fn : Sub → Sub) : (onSub g n fn).fenceRel = g.fenceRel := rfl
@[simp] theorem onSub_rangeOps (g : Group) (n : Nat) (fn : Sub → Sub) : (onSub g n fn).rangeOps = g.rangeOps := rfl
@[simp] theorem onSub_deferred (g : Group) (n : Nat) (fn : Sub → Sub) : (onSub g n fn).deferred = g.deferred := rfl
@[simp] theorem onSub_splits (g : Group) (n : Nat) (fn : Sub → Sub) : (onSub g n fn).splits = g.splits := rfl
@[simp] theorem onSub_seq (g : Group) (n : Nat) (fn : Sub → Sub) : (onSub g n fn).seq = g.seq := rfl

/-! ### `setPred`, `sigAfter` -/

@[simp] theorem setPred_team (g : Group) (n : Nat) (x : Mask) : (setPred g n x).team = g.team := by unfold setPred; split <;> rfl
@[simp] theorem setPred_num (g : Group) (n : Nat) (x : Mask) : (setPred g n x).num = g.num := by unfold setPred; split <;> rfl
@[simp] theorem setPred_part (g : Group) (n : Nat) (x : Mask) : (setPred g n x).part = g.part := by unfold setPred; split <;> rfl
@[simp] theorem setPred_consumer (g : Group) (n : Nat) (x : Mask) : (setPred g n x).consumer = g.consumer := by unfold setPred; split <;> rfl
@[simp] theorem setPred_v (g : Group) (n : Nat) (x : Mask) : (setPred g n x).v = g.v := by unfold setPred; split <;> rfl
@[simp] theorem setPred_s (g : Group) (n : Nat) (x : Mask) : (setPred g n x).s = g.s := by unfold setPred; split <;> rfl
@[simp] theorem setPred_vregs (g : Group) (n : Nat) (x : Mask) : (setPred g n x).vregs = g.vregs := by unfold setPred; split <;> rfl
@[simp] theorem setPred_sregs (g : Group) (n : Nat) (x : Mask) : (setPred g n x).sregs = g.sregs := by unfold setPred; split <;> rfl
@[simp] theorem setPred_fl (g : Group) (n : Nat) (x : Mask) : (setPred g n x).fl = g.fl := by unfold setPred; split <;> rfl
@[simp] theorem setPred_fpm (g : Group) (n : Nat) (x : Mask) : (setPred g n x).fpm = g.fpm := by unfold setPred; split <;> rfl
@[simp] theorem setPred_sig (g : Group) (n : Nat) (x : Mask) : (setPred g n x).sig = g.sig := by unfold setPred; split <;> rfl
@[simp] theorem setPred_region (g : Group) (n : Nat) (x : Mask) : (setPred g n x).region = g.region := by unfold setPred; split <;> rfl
@[simp] theorem setPred_storeQ (g : Group) (n : Nat) (x : Mask) : (setPred g n x).storeQ = g.storeQ := by unfold setPred; split <;> rfl
@[simp] theorem setPred_inflight (g : Group) (n : Nat) (x : Mask) : (setPred g n x).inflight = g.inflight := by unfold setPred; split <;> rfl
@[simp] theorem setPred_queues (g : Group) (n : Nat) (x : Mask) : (setPred g n x).queues = g.queues := by unfold setPred; split <;> rfl
@[simp] theorem setPred_fenceRel (g : Group) (n : Nat) (x : Mask) : (setPred g n x).fenceRel = g.fenceRel := by unfold setPred; split <;> rfl
@[simp] theorem setPred_rangeOps (g : Group) (n : Nat) (x : Mask) : (setPred g n x).rangeOps = g.rangeOps := by unfold setPred; split <;> rfl
@[simp] theorem setPred_deferred (g : Group) (n : Nat) (x : Mask) : (setPred g n x).deferred = g.deferred := by unfold setPred; split <;> rfl
@[simp] theorem setPred_splits (g : Group) (n : Nat) (x : Mask) : (setPred g n x).splits = g.splits := by unfold setPred; split <;> rfl
@[simp] theorem setPred_subs (g : Group) (n : Nat) (x : Mask) : (setPred g n x).subs = g.subs := by unfold setPred; split <;> rfl
@[simp] theorem setPred_seq (g : Group) (n : Nat) (x : Mask) : (setPred g n x).seq = g.seq := by unfold setPred; split <;> rfl
@[simp] theorem sigAfter_team (g : Group) (n : Nat) (op : Op) (f : Fields) : (sigAfter g n op f).team = g.team := by unfold sigAfter; split <;> rfl
@[simp] theorem sigAfter_num (g : Group) (n : Nat) (op : Op) (f : Fields) : (sigAfter g n op f).num = g.num := by unfold sigAfter; split <;> rfl
@[simp] theorem sigAfter_part (g : Group) (n : Nat) (op : Op) (f : Fields) : (sigAfter g n op f).part = g.part := by unfold sigAfter; split <;> rfl
@[simp] theorem sigAfter_consumer (g : Group) (n : Nat) (op : Op) (f : Fields) : (sigAfter g n op f).consumer = g.consumer := by unfold sigAfter; split <;> rfl
@[simp] theorem sigAfter_v (g : Group) (n : Nat) (op : Op) (f : Fields) : (sigAfter g n op f).v = g.v := by unfold sigAfter; split <;> rfl
@[simp] theorem sigAfter_s (g : Group) (n : Nat) (op : Op) (f : Fields) : (sigAfter g n op f).s = g.s := by unfold sigAfter; split <;> rfl
@[simp] theorem sigAfter_vregs (g : Group) (n : Nat) (op : Op) (f : Fields) : (sigAfter g n op f).vregs = g.vregs := by unfold sigAfter; split <;> rfl
@[simp] theorem sigAfter_sregs (g : Group) (n : Nat) (op : Op) (f : Fields) : (sigAfter g n op f).sregs = g.sregs := by unfold sigAfter; split <;> rfl
@[simp] theorem sigAfter_preds (g : Group) (n : Nat) (op : Op) (f : Fields) : (sigAfter g n op f).preds = g.preds := by unfold sigAfter; split <;> rfl
@[simp] theorem sigAfter_fl (g : Group) (n : Nat) (op : Op) (f : Fields) : (sigAfter g n op f).fl = g.fl := by unfold sigAfter; split <;> rfl
@[simp] theorem sigAfter_fpm (g : Group) (n : Nat) (op : Op) (f : Fields) : (sigAfter g n op f).fpm = g.fpm := by unfold sigAfter; split <;> rfl
@[simp] theorem sigAfter_region (g : Group) (n : Nat) (op : Op) (f : Fields) : (sigAfter g n op f).region = g.region := by unfold sigAfter; split <;> rfl
@[simp] theorem sigAfter_storeQ (g : Group) (n : Nat) (op : Op) (f : Fields) : (sigAfter g n op f).storeQ = g.storeQ := by unfold sigAfter; split <;> rfl
@[simp] theorem sigAfter_inflight (g : Group) (n : Nat) (op : Op) (f : Fields) : (sigAfter g n op f).inflight = g.inflight := by unfold sigAfter; split <;> rfl
@[simp] theorem sigAfter_queues (g : Group) (n : Nat) (op : Op) (f : Fields) : (sigAfter g n op f).queues = g.queues := by unfold sigAfter; split <;> rfl
@[simp] theorem sigAfter_fenceRel (g : Group) (n : Nat) (op : Op) (f : Fields) : (sigAfter g n op f).fenceRel = g.fenceRel := by unfold sigAfter; split <;> rfl
@[simp] theorem sigAfter_rangeOps (g : Group) (n : Nat) (op : Op) (f : Fields) : (sigAfter g n op f).rangeOps = g.rangeOps := by unfold sigAfter; split <;> rfl
@[simp] theorem sigAfter_deferred (g : Group) (n : Nat) (op : Op) (f : Fields) : (sigAfter g n op f).deferred = g.deferred := by unfold sigAfter; split <;> rfl
@[simp] theorem sigAfter_splits (g : Group) (n : Nat) (op : Op) (f : Fields) : (sigAfter g n op f).splits = g.splits := by unfold sigAfter; split <;> rfl
@[simp] theorem sigAfter_subs (g : Group) (n : Nat) (op : Op) (f : Fields) : (sigAfter g n op f).subs = g.subs := by unfold sigAfter; split <;> rfl
@[simp] theorem sigAfter_seq (g : Group) (n : Nat) (op : Op) (f : Fields) : (sigAfter g n op f).seq = g.seq := by unfold sigAfter; split <;> rfl

/-! ### Registers -/

@[simp] theorem setV_length (g : Group) (n : Nat) (r : VReg) : (setV g n r).vregs.length = g.vregs.length := by simp [setV]
@[simp] theorem setS_length (g : Group) (n : Nat) (r : SReg) : (setS g n r).sregs.length = g.sregs.length := by simp [setS]

theorem vreg_setV_self (g : Group) (n : Nat) (r : VReg) (h : n < g.vregs.length) : vreg (setV g n r) n = r := by
  simp [vreg, setV, List.getD, h]
theorem vreg_setV_other (g : Group) (n m : Nat) (r : VReg) (h : m ≠ n) : vreg (setV g n r) m = vreg g m := by
  simp [vreg, setV, List.getD, List.getElem?_set_ne (Ne.symm h)]
theorem sreg_setS_self (g : Group) (n : Nat) (r : SReg) (h : n < g.sregs.length) : sreg (setS g n r) n = r := by
  simp [sreg, setS, List.getD, h]
theorem sreg_setS_other (g : Group) (n m : Nat) (r : SReg) (h : m ≠ n) : sreg (setS g n r) m = sreg g m := by
  simp [sreg, setS, List.getD, List.getElem?_set_ne (Ne.symm h)]
@[simp] theorem sreg_setV (g : Group) (n m : Nat) (r : VReg) : sreg (setV g n r) m = sreg g m := rfl
@[simp] theorem vreg_setS (g : Group) (n m : Nat) (r : SReg) : vreg (setS g n r) m = vreg g m := rfl
@[simp] theorem vreg_onSub (g : Group) (n m : Nat) (fn : Sub → Sub) : vreg (onSub g n fn) m = vreg g m := rfl
@[simp] theorem sreg_onSub (g : Group) (n m : Nat) (fn : Sub → Sub) : sreg (onSub g n fn) m = sreg g m := rfl
@[simp] theorem predOf_setV (g : Group) (n m : Nat) (r : VReg) : predOf (setV g n r) m = predOf g m := rfl
@[simp] theorem predOf_setS (g : Group) (n m : Nat) (r : SReg) : predOf (setS g n r) m = predOf g m := rfl
@[simp] theorem vreg_setPred (g : Group) (n m : Nat) (x : Mask) : vreg (setPred g n x) m = vreg g m := by simp [vreg]
@[simp] theorem sreg_setPred (g : Group) (n m : Nat) (x : Mask) : sreg (setPred g n x) m = sreg g m := by simp [sreg]

/-- Lane `i` of a list of lanes. -/
theorem lanesOf_getD (fn : Nat → W32) (i : Nat) (h : i < 64) : (lanesOf fn).getD i 0 = fn i := by
  simp [lanesOf, List.getD, h]

/-- What `vput` puts into lane `i`. -/
theorem laneOf_vput (r : VReg) (m : Mask) (t : BitVec 4) (fn : Nat → W32) (i : Nat) (h : i < 64) :
    laneOf (vput r m t fn) i = if m.getLsbD i then fn i else laneOf r i := by
  unfold laneOf vput
  exact lanesOf_getD (fun i => if m.getLsbD i then fn i else r.lanes.getD i 0) i h

@[simp] theorem vput_tag (r : VReg) (m : Mask) (t : BitVec 4) (fn : Nat → W32) : (vput r m t fn).tag = t := rfl
@[simp] theorem vput_full (r : VReg) (m : Mask) (t : BitVec 4) (fn : Nat → W32) : (vput r m t fn).full = r.full := rfl

/-! ### Predicates (R93) -/

/-- p0 reads as all ones whatever is written. -/
@[simp] theorem predOf_zero (g : Group) : predOf g 0 = BitVec.allOnes 64 := rfl
/-- A write of p0 is discarded. -/
@[simp] theorem setPred_zero (g : Group) (x : Mask) : setPred g 0 x = g := rfl

theorem predOf_setPred_self (g : Group) (n : Nat) (x : Mask) (h0 : n ≠ 0) (h : n ≤ g.preds.length) : predOf (setPred g n x) n = x := by
  have h1 : n - 1 < g.preds.length := by omega
  simp [predOf, setPred, h0, List.getD, h1]
theorem predOf_setPred_other (g : Group) (n m : Nat) (x : Mask) (h : m ≠ n) : predOf (setPred g n x) m = predOf g m := by
  unfold predOf setPred
  by_cases hm : m = 0
  · simp [hm]
  · by_cases hn : n = 0
    · simp [hn]
    · have h1 : n - 1 ≠ m - 1 := by omega
      simp [hm, hn, List.getD, List.getElem?_set_ne h1]

/-! ### Sub-groups -/

theorem subOf_onSub_self (g : Group) (n : Nat) (fn : Sub → Sub) (h : ∀ x, (fn x).node = x.node) :
    subOf (onSub g n fn) n = (subOf g n).map fn := by
  show List.find? _ (List.map _ _) = Option.map fn (List.find? _ _)
  generalize g.subs = l
  induction l with
  | nil => rfl
  | cons x t ih =>
    by_cases hx : x.node = n
    · simp [hx, h]
    · have hx' : (x.node == n) = false := by simp [hx]
      rw [List.map_cons, List.find?_cons_of_neg (by simp [hx]), List.find?_cons_of_neg (by simp [hx])]
      exact ih

theorem subOf_onSub_other (g : Group) (n m : Nat) (fn : Sub → Sub) (h : ∀ x, (fn x).node = x.node) (hm : m ≠ n) :
    subOf (onSub g n fn) m = subOf g m := by
  show List.find? _ (List.map _ _) = List.find? _ _
  generalize g.subs = l
  induction l with
  | nil => rfl
  | cons x t ih =>
    rw [List.map_cons]
    by_cases hx : x.node = n
    · have h1 : ¬ n = m := Ne.symm hm
      rw [List.find?_cons_of_neg (by simp [hx, h, h1]), List.find?_cons_of_neg (by simp [hx, h1])]
      exact ih
    · by_cases hy : x.node = m
      · rw [List.find?_cons_of_pos (by simp [hy, hm]), List.find?_cons_of_pos (by simp [hy])]
        simp [hx]
      · rw [List.find?_cons_of_neg (by simp [hx, hy]), List.find?_cons_of_neg (by simp [hy])]
        exact ih

end Sys2Proof.Machine
end

