-- ==== Sys2Proof/Laws/Ops.lean ====
section
/-! SUPPORT. What the shared operations can do, said once: the checks at issue, the end of an instruction, taking an exception, Commit(), and
what leaves every byte of memory as it was. -/

namespace Sys2Proof.Machine

/-! ### The issuing sub-group -/

/-- What `envOf` finds stands in the state. -/
theorem envOf_spec {s : State} {e : Env} (h : envOf s = some e) :
    e.gid = s.cur.1 ∧ e.node = s.cur.2 ∧ s.groups.find e.gid = some e.g ∧ subOf e.g e.node = some e.sub ∧
    s.teams.find e.g.team = some e.team ∧ s.contexts.find e.team.ctx = some e.ctx ∧ e.sub.st = .runnable := by
  unfold envOf at h
  split at h
  · cases h
  · rename_i g hg
    split at h
    · rename_i sub team hs ht
      split at h
      · rename_i ctx hc
        split at h
        · rename_i hok
          cases h
          simp only [Bool.and_eq_true, beq_iff_eq] at hok
          exact ⟨rfl, rfl, hg, hs, ht, hc, hok.1.1.1⟩
        · cases h
      · cases h
    · cases h

/-! ### Memory reads the same when the storage is the same -/

theorem newestByte_congr {s t : State} (hc : t.copies = s.copies) (hd : t.dram = s.dram) (hh : t.hostMem = s.hostMem)
    (hp : t.peerMem = s.peerMem) (ha : t.arrays = s.arrays) (sp : Space) (a : Nat) : newestByte t sp a = newestByte s sp a := by
  have hb : backing t = backing s := by
    funext sp a
    cases sp <;> simp [backing, peerOf, arrayOf, hd, hh, hp, ha]
  simp only [newestByte, newestBytes, dirtyCopy, homeBytes, copyAt, hc, hb]

/-! ### The end of an instruction -/

theorem coreOf_account (s : State) (e : Env) (op : Op) (f : Fields) (c : Nat) :
    coreOf (account s e op f) c =
      { coreOf s c with
        charge := if c = e.core then (coreOf s c).charge + issueCharge op f else (coreOf s c).charge
        counters := (coreOf (account s e op f) c).counters } := by
  by_cases h : c = e.core
  · subst h; simp [account, charge, countCore]
  · simp [account, charge, countCore, coreOf_setCore_other _ _ _ _ h, h]

/-- The end of an instruction in a group that has the sub-groups of before, with the issuing one changed by `fn` last. -/
theorem account_endedAs {s : State} {e : Env} (op : Op) (f : Fields) (g : Group) (fn : Sub → Sub) (he : envOf s = some e)
    (hsub : g.subs = e.g.subs) (hfn : ∀ x, (fn x).node = x.node) :
    EndedAs s (account (setGroup s e.gid (onSub g e.node fn)) e op f) e op f (fn e.sub) (onSub g e.node fn) := by
  obtain ⟨-, -, -, hs, -⟩ := envOf_spec he
  have hg : ∀ n, subOf g n = subOf e.g n := by
    intro n; simp [subOf, hsub]
  refine ⟨⟨?_, ?_, ?_, ?_⟩, ?_, ?_, ?_, ?_⟩
  · rfl
  · intro k hk; simp [Map.find_insert_other _ _ _ _ hk]
  · intro c
    rw [coreOf_account]
    by_cases h : c = e.core <;> simp [h]
  · intro sp a; exact newestByte_congr rfl rfl rfl rfl rfl sp a
  · simp
  · rw [subOf_onSub_self _ _ _ hfn, hg, hs]; rfl
  · intro n hn; rw [subOf_onSub_other _ _ _ _ hfn hn, hg]
  · rw [coreOf_account]; simp

/-- The end of an instruction at `pc` in a group that has the sub-groups and the SIG of before. -/
theorem finishAt_ended {s : State} {e : Env} (op : Op) (f : Fields) (g : Group) (pc : VAddr) (he : envOf s = some e)
    (hsub : g.subs = e.g.subs) (hsig : g.sig = e.g.sig) :
    ∃ t, finishAt e op f s g pc = .next t ∧
      Ended s t e op f pc (onSub (sigAfter g e.node op f) e.node (fun x => { x with pc := pc, walked := [] })) := by
  refine ⟨_, rfl, account_endedAs op f (sigAfter g e.node op f) (fun x => { x with pc := pc, walked := [] }) he (by simp [hsub]) (fun _ => rfl), ?_⟩
  simp only [onSub_sig, sigAfter, sigCounted, hsig, Bool.and_eq_true, beq_iff_eq]
  split <;> simp_all

/-! ### The checks at issue (R295) -/

/-- A sub-group that is ready, and that the instruction's own checks let through, has the instruction's effect. -/
theorem issue_of_ready {s : State} {e : Env} {op : Op} {f : Fields} (h : Ready s e op f) (illegal blocked legality : Env → Bool)
    (body : Env → Out) (h1 : illegal e = false) (h2 : guardFirst op = true → e.guard f = true) (h3 : blocked e = false)
    (h4 : legality e = false) : issue op f s illegal blocked legality body = body e := by
  obtain ⟨a, b, c, d, k, q, l, m, n, o⟩ := h
  have hh : (e.inHandler && !handlerAllows op f) = false := by
    cases hi : e.inHandler with
    | false => rfl
    | true => simp [k hi]
  have hg : (guardFirst op && !e.guard f) = false := by
    cases hi : guardFirst op with
    | false => rfl
    | true => simp [h2 hi]
  simp [issue, a, b, c, d, hh, q, h1, hg, h3, l, m, n, o, h4]

/-- An instruction with no check of its own. -/
theorem issuePlain_of_ready {s : State} {e : Env} {op : Op} {f : Fields} (h : Ready s e op f) (body : Env → Out)
    (h2 : guardFirst op = true → e.guard f = true) : issuePlain op f s body = body e :=
  issue_of_ready h never never never body rfl h2 rfl rfl

/-- Under a false guard an instruction of R364 ends with no effect. -/
theorem issue_of_skipped {s : State} {e : Env} {op : Op} {f : Fields} (illegal blocked legality : Env → Bool)
    (body : Env → Out) (he : envOf s = some e) (hd : takeDeferred s e = none) (hw : wfWord op f = true) (hb : overBudget e op f = false)
    (hh : e.inHandler = true → handlerAllows op f = true) (hq : setsTag15 e.g op f = false) (h1 : illegal e = false) (hg : guardFirst op = true) (hf : e.guard f = false) :
    issue op f s illegal blocked legality body = finish e op f s e.g := by
  have hh' : (e.inHandler && !handlerAllows op f) = false := by
    cases hi : e.inHandler with
    | false => rfl
    | true => simp [hh hi]
  simp [issue, he, hd, hw, hb, hh', hq, h1, hg, hf]

/-- Everything an issue can do: wait, take a deferred error, trap, end under a false guard, or have the instruction's effect. -/
theorem issue_cases {op : Op} {f : Fields} {s : State} {illegal blocked legality : Env → Bool} {body : Env → Out} {o : Out}
    (h : issue op f s illegal blocked legality body = o) :
    (o = .next s) ∨
    (∃ e t, envOf s = some e ∧ takeDeferred s e = some t ∧ o = .next t) ∨
    (∃ e c, envOf s = some e ∧ (c = 0x01 ∨ c = 0x09 ∨ c = 0x02 ∨ c = 0x03) ∧ o = trap0 s e op f c) ∨
    (∃ e, envOf s = some e ∧ guardFirst op = true ∧ e.guard f = false ∧ o = finish e op f s e.g) ∨
    (∃ e, envOf s = some e ∧ takeDeferred s e = none ∧ wfWord op f = true ∧ overBudget e op f = false ∧ setsTag15 e.g op f = false ∧ illegal e = false ∧
      mustWait s e op f (blocked e) = false ∧ legality e = false ∧ o = body e) := by
  unfold issue at h
  cases he : envOf s with
  | none => left; simp only [he] at h; exact h.symm
  | some e =>
    simp only [he] at h
    cases hd : takeDeferred s e with
    | some t => right; left; simp only [hd] at h; exact ⟨e, t, rfl, hd, h.symm⟩
    | none =>
      simp only [hd] at h
      split at h
      · right; right; left; exact ⟨e, 0x01, rfl, .inl rfl, h.symm⟩
      · rename_i h1
        simp only [Bool.or_eq_true, not_or, Bool.not_eq_true, Bool.not_eq_false'] at h1
        split at h
        · rename_i h2
          simp only [Bool.and_eq_true, Bool.not_eq_true'] at h2
          right; right; right; left; exact ⟨e, rfl, h2.1, h2.2, h.symm⟩
        · split at h
          · left; exact h.symm
          · rename_i h3
            split at h
            · right; right; left; exact ⟨e, 0x09, rfl, .inr (.inl rfl), h.symm⟩
            · split at h
              · right; right; left; exact ⟨e, 0x02, rfl, .inr (.inr (.inl rfl)), h.symm⟩
              · split at h
                · right; right; left; exact ⟨e, 0x03, rfl, .inr (.inr (.inr rfl)), h.symm⟩
                · rename_i h6
                  simp only [Bool.or_eq_true, not_or, Bool.not_eq_true] at h6
                  right; right; right; right
                  exact ⟨e, rfl, hd, h1.1.1.1.1, h1.1.1.1.2, h1.1.2, h1.2, by simpa using h3, h6.2, h.symm⟩

/-! ### Taking an exception (R53, R54) and Commit() -/

/-- A trap with its handler enabled, in a context that no halt has stopped, enters it. -/
theorem raise_enters {s : State} {gid node cause : Nat} {g : Group} {x : Sub} {team : Team} {ctx : Context} (resume addr : VAddr) (st : Bool)
    (h1 : s.groups.find gid = some g) (h2 : subOf g node = some x) (h3 : s.teams.find g.team = some team)
    (h4 : s.contexts.find team.ctx = some ctx) (h5 : x.handler = none) (h6 : ctx.desc.trapEnable.getLsbD cause = true)
    (h7 : ctxIssues ctx = true) :
    raise s gid node cause resume addr st = setGroup s gid (enterHandler g node cause ctx.desc resume (addr.setWidth 64) st) := by
  simp [raise, h1, h2, h3, h4, h5, h6, h7]

/-- A trap without one stops the sub-group and reaches the hub. -/
theorem raise_stops {s : State} {gid node cause : Nat} {g : Group} {x : Sub} {team : Team} {ctx : Context} (resume addr : VAddr) (st : Bool)
    (h1 : s.groups.find gid = some g) (h2 : subOf g node = some x) (h3 : s.teams.find g.team = some team)
    (h4 : s.contexts.find team.ctx = some ctx) (h5 : x.handler.isSome = true ∨ ctx.desc.trapEnable.getLsbD cause = false ∨ ctxIssues ctx = false) :
    ∃ ev : Event, ev.cause = cause ∧ ev.gid = some gid ∧ ev.pc = x.pc ∧ ev.addr = addr ∧
      raise s gid node cause resume addr st =
        setCtx (setGroup s gid (onSub g node (fun y => { y with st := .stopped }))) team.ctx { ctx with raised := ctx.raised ++ [ev] } := by
  have h : (x.handler.isNone && ctx.desc.trapEnable.getLsbD cause && ctxIssues ctx) = false := by
    rcases h5 with h5 | h5 | h5
    · simp [Option.isNone_iff_eq_none, Option.isSome_iff_ne_none.mp h5]
    · simp [h5]
    · simp [h5]
  exact ⟨_, rfl, rfl, rfl, rfl, by simp only [raise, h1, h2, h3, h4, h, Bool.false_eq_true, if_false]; rfl⟩

/-- Commit() of a committing instruction: nothing to do outside a region, unless an atomic of the group stands before a region that is owed. -/
theorem commitFirst_closed {s : State} {e : Env} (body : State → Env → Out) (h : e.g.region.isOpen = false)
    (ha : (owedRegion e.g e.node && closedAtoms e.g) = false) : commitFirst s e body = body s e := by simp [commitFirst, h, ha]

/-- Everything that a committing instruction does before its own effect. -/
theorem commitFirst_cases {s : State} {e : Env} {body : State → Env → Out} {o : Out} (h : commitFirst s e body = o) :
    (e.g.region.isOpen = false ∧ (o = body s e ∨ owedRegion e.g e.node = true ∧ closedAtoms e.g = true ∧ o = .next s)) ∨
    (e.g.region.isOpen = true ∧ commitWaits e.g = true ∧
      o = .next (onGroup s e.gid (fun g => onSub g e.node (fun x => { x with st := .committing })))) ∨
    (e.g.region.isOpen = true ∧ commitWaits e.g = false ∧
      ((∃ e', envOf (commitNow s e.gid e.node) = some e' ∧ o = body (commitNow s e.gid e.node) e') ∨
       (envOf (commitNow s e.gid e.node) = none ∧ o = .next (commitNow s e.gid e.node)))) := by
  unfold commitFirst at h
  split at h
  · rename_i h1
    left
    refine ⟨by simpa using h1, ?_⟩
    split at h
    · rename_i h2; simp only [Bool.and_eq_true] at h2; right; exact ⟨h2.1, h2.2, h.symm⟩
    · left; exact h.symm
  · rename_i h1
    have h1' : e.g.region.isOpen = true := by simpa using h1
    split at h
    · rename_i h2; right; left; exact ⟨h1', h2, h.symm⟩
    · rename_i h2
      right; right
      refine ⟨h1', by simpa using h2, ?_⟩
      cases he : envOf (commitNow s e.gid e.node) with
      | none => right; simp only [he] at h; exact ⟨rfl, h.symm⟩
      | some e' => left; simp only [he] at h; exact ⟨e', rfl, h.symm⟩

end Sys2Proof.Machine
end

