-- ==== Sys2Proof/Laws/Compute.lean ====
section
/-! SUPPORT. What the shapes of the computing instructions do, said once: writing a destination, a value instruction, a predicate, a producer. -/

namespace Sys2Proof.Machine

/-! ### Writing a destination -/

theorem mem_regsFrom_v {n k : Nat} {d : Sel} : Reg.v k ∈ regsFrom n d ↔ ∃ a, d = .v a ∧ ∃ i, i < n ∧ k = a.val + i := by
  cases d <;> simp [regsFrom, eq_comm]

theorem mem_regsFrom_s {n k : Nat} {d : Sel} : Reg.s k ∈ regsFrom n d ↔ ∃ a, d = .s a ∧ k = a.val := by
  cases d <;> simp [regsFrom]

/-- Writing a vector destination leaves everything but its registers. -/
theorem writeV_only (g : Group) (d : Sel) (wide : Bool) (m : Mask) (t : BitVec 4) (fn : Nat → W64) :
    OnlyRegs g (writeV g d wide m t fn) (regsFrom (if wide then 2 else 1) d) := by
  cases d with
  | v a =>
    refine ⟨?_, ?_, ?_⟩
    · cases wide <;> rfl
    · intro n hn
      cases wide with
      | false =>
        have h : n ≠ a.val := by rintro rfl; exact hn (mem_regsFrom_v.mpr ⟨a, rfl, 0, by decide, rfl⟩)
        exact vreg_setV_other _ _ _ _ h
      | true =>
        have h : n ≠ a.val := by rintro rfl; exact hn (mem_regsFrom_v.mpr ⟨a, rfl, 0, by decide, rfl⟩)
        have h1 : n ≠ a.val + 1 := by rintro rfl; exact hn (mem_regsFrom_v.mpr ⟨a, rfl, 1, by decide, rfl⟩)
        show vreg (setV (setV _ _ _) _ _) n = _
        rw [vreg_setV_other _ _ _ _ h1, vreg_setV_other _ _ _ _ h]
    · intro n _; cases wide <;> rfl
  | _ => exact ⟨rfl, fun _ _ => rfl, fun _ _ => rfl⟩

@[simp] theorem writeV_subs (g : Group) (d : Sel) (w : Bool) (m : Mask) (t : BitVec 4) (fn : Nat → W64) : (writeV g d w m t fn).subs = g.subs := by
  cases d <;> cases w <;> rfl
@[simp] theorem writeV_sig (g : Group) (d : Sel) (w : Bool) (m : Mask) (t : BitVec 4) (fn : Nat → W64) : (writeV g d w m t fn).sig = g.sig := by
  cases d <;> cases w <;> rfl
@[simp] theorem writeV_preds (g : Group) (d : Sel) (w : Bool) (m : Mask) (t : BitVec 4) (fn : Nat → W64) : (writeV g d w m t fn).preds = g.preds := by
  cases d <;> cases w <;> rfl
@[simp] theorem writeV_fl (g : Group) (d : Sel) (w : Bool) (m : Mask) (t : BitVec 4) (fn : Nat → W64) : (writeV g d w m t fn).fl = g.fl := by
  cases d <;> cases w <;> rfl
@[simp] theorem writeS_subs (g : Group) (d : Sel) (x : W64) : (writeS g d x).subs = g.subs := by cases d <;> rfl
@[simp] theorem writeS_sig (g : Group) (d : Sel) (x : W64) : (writeS g d x).sig = g.sig := by cases d <;> rfl
@[simp] theorem writeS_preds (g : Group) (d : Sel) (x : W64) : (writeS g d x).preds = g.preds := by cases d <;> rfl
@[simp] theorem writeS_fl (g : Group) (d : Sel) (x : W64) : (writeS g d x).fl = g.fl := by cases d <;> rfl
@[simp] theorem writePred_subs (g : Group) (d : Sel) (x : Mask) : (writePred g d x).subs = g.subs := by cases d <;> simp [writePred]
@[simp] theorem writePred_sig (g : Group) (d : Sel) (x : Mask) : (writePred g d x).sig = g.sig := by cases d <;> simp [writePred]
@[simp] theorem writePred_fl (g : Group) (d : Sel) (x : Mask) : (writePred g d x).fl = g.fl := by cases d <;> simp [writePred]

/-- A value is its high and low words. -/
theorem halves (x : W64) : (x >>> 32).setWidth 32 ++ x.setWidth 32 = x := by
  apply BitVec.eq_of_getLsbD_eq
  intro j hj
  rw [BitVec.getLsbD_append]
  by_cases h : j < 32
  · simp [h, hj]
  · have h1 : j - 32 < 32 := by omega
    have h2 : 32 + (j - 32) = j := by omega
    simp [h, h1, h2]

/-- A vector destination in the group's budget reads back what was written (R33, R316). -/
theorem writeV_result (g : Group) (f : Fields) (m : Mask) (t : BitVec 4) (fn : Nat → W64)
    (hb : ∀ r ∈ regsFrom (tyRegs f.ty) f.dst, r.inBudget g = true) (hl : g.vregs.length = g.v)
    (hf : ∀ r ∈ regsFrom (tyRegs f.ty) f.dst, r.full g = true) (hd : f.dst.isV = true) (holds : Nat → W64 → Prop)
    (hh : ∀ i, i < 64 → m.getLsbD i = true → holds i (if f.ty.w64 then fn i else ((fn i).setWidth 32).setWidth 64)) :
    VectorResult g (writeV g f.dst f.ty.w64 m t fn) f m t holds := by
  cases hdst : f.dst with
  | v a =>
    rw [hdst] at hb hf
    cases hw : f.ty.w64 with
    | false =>
      simp only [tyRegs, hw, Bool.false_eq_true, if_false] at hb hf hh
      have ha : a.val < g.vregs.length := by
        have := hb (.v a.val) (mem_regsFrom_v.mpr ⟨a, rfl, 0, by decide, rfl⟩)
        rw [hl]; simpa [Reg.inBudget] using this
      have hfull : (vreg g a.val).full = true := hf (.v a.val) (mem_regsFrom_v.mpr ⟨a, rfl, 0, by decide, rfl⟩)
      have key : vreg (writeV g (.v a) false m t fn) a.val = vput (vreg g a.val) m t (fun i => (fn i).setWidth 32) :=
        vreg_setV_self _ _ _ ha
      refine ⟨?_, ?_, ?_⟩
      · intro i hi hm
        have := hh i hi hm
        simp only [hdst, hw, readWide, Bool.false_eq_true, if_false, readLane, key, laneOf_vput _ _ _ _ _ hi, hm, if_true]
        exact this
      · intro i hi hm
        simp only [hdst, hw, readWide, Bool.false_eq_true, if_false, readLane, key, laneOf_vput _ _ _ _ _ hi, hm]
      · intro n hn
        simp only [hdst, hw, tyRegs, Bool.false_eq_true, if_false] at hn ⊢
        obtain ⟨b, hb1, i, hi, rfl⟩ := mem_regsFrom_v.mp hn
        cases hb1
        have : i = 0 := by omega
        subst this
        rw [Nat.add_zero, key]; exact ⟨rfl, hfull⟩
    | true =>
      simp only [tyRegs, hw, if_true] at hb hf hh
      have ha : a.val < g.vregs.length := by
        have := hb (.v a.val) (mem_regsFrom_v.mpr ⟨a, rfl, 0, by decide, rfl⟩)
        rw [hl]; simpa [Reg.inBudget] using this
      have ha1 : a.val + 1 < g.vregs.length := by
        have := hb (.v (a.val + 1)) (mem_regsFrom_v.mpr ⟨a, rfl, 1, by decide, rfl⟩)
        rw [hl]; simpa [Reg.inBudget] using this
      have hfull : (vreg g a.val).full = true := hf (.v a.val) (mem_regsFrom_v.mpr ⟨a, rfl, 0, by decide, rfl⟩)
      have hfull1 : (vreg g (a.val + 1)).full = true := hf (.v (a.val + 1)) (mem_regsFrom_v.mpr ⟨a, rfl, 1, by decide, rfl⟩)
      have hne : a.val ≠ a.val + 1 := by omega
      have key : vreg (writeV g (.v a) true m t fn) a.val = vput (vreg g a.val) m t (fun i => (fn i).setWidth 32) := by
        show vreg (setV (setV _ _ _) _ _) a.val = _
        rw [vreg_setV_other _ _ _ _ hne, vreg_setV_self _ _ _ ha]
      have key1 : vreg (writeV g (.v a) true m t fn) (a.val + 1) =
          vput (vreg g (a.val + 1)) m t (fun i => ((fn i) >>> 32).setWidth 32) := by
        show vreg (setV (setV _ _ _) _ _) (a.val + 1) = _
        rw [vreg_setV_self _ _ _ (by simpa using ha1), vreg_setV_other _ _ _ _ (Ne.symm hne)]
      refine ⟨?_, ?_, ?_⟩
      · intro i hi hm
        have := hh i hi hm
        simp only [hdst, hw, readWide, if_true, readPair, key, key1, laneOf_vput _ _ _ _ _ hi, hm]
        rw [halves]; exact this
      · intro i hi hm
        simp only [hdst, hw, readWide, if_true, readPair, key, key1, laneOf_vput _ _ _ _ _ hi, hm, Bool.false_eq_true, if_false]
      · intro n hn
        simp only [hdst, hw, tyRegs, if_true] at hn ⊢
        obtain ⟨b, hb1, i, hi, rfl⟩ := mem_regsFrom_v.mp hn
        cases hb1
        have : i = 0 ∨ i = 1 := by omega
        rcases this with rfl | rfl
        · rw [Nat.add_zero, key]; exact ⟨rfl, hfull⟩
        · rw [key1]; exact ⟨rfl, hfull1⟩
  | _ => simp [hdst, Sel.isV] at hd

/-! ### Budgets and full bits from readiness -/

theorem budget_dests {e : Env} {op : Op} {f : Fields} (h : overBudget e op f = false) : ∀ r ∈ dests e.g.s op f, r.inBudget e.g = true := by
  intro r hr
  have := List.any_eq_false.mp h r (List.mem_append_left _ hr)
  simpa using this

theorem full_dests {s : State} {e : Env} {op : Op} {f : Fields} {b : Bool} (h : mustWait s e op f b = false) :
    ∀ r ∈ dests e.g.s op f, r.full e.g = true := by
  intro r hr
  unfold mustWait at h
  simp only [Bool.or_eq_false_iff] at h
  have := List.any_eq_false.mp h.1.1.1.1 r hr
  simpa using this

/-! ### A value instruction -/

/-- The registers of a value instruction's destination are those of its type. -/
theorem writeS_result (g : Group) (f : Fields) (x : W64) (hb : ∀ r ∈ regsFrom 1 f.dst, r.inBudget g = true) (hl : g.sregs.length = g.s)
    (hd : f.dst.isS = true) (holds : W64 → Prop) (hh : holds x) : ScalarResult g (writeS g f.dst x) f true holds := by
  cases hdst : f.dst with
  | s a =>
    rw [hdst] at hb
    have ha : a.val < g.sregs.length := by
      have := hb (.s a.val) (mem_regsFrom_s.mpr ⟨a, rfl, rfl⟩)
      rw [hl]; simpa [Reg.inBudget] using this
    have key : sreg (writeS g (.s a) x) a.val = { val := x, full := true } := sreg_setS_self _ _ _ ha
    simp only [ScalarResult, if_true, hdst, readS, key]
    refine ⟨hh, ?_⟩
    intro r hr
    cases r with
    | v n => simp [regsFrom] at hr
    | s n =>
      obtain ⟨b, hb1, rfl⟩ := mem_regsFrom_s.mp hr
      cases hb1
      simp [Reg.full, key]
  | _ => simp [hdst, Sel.isS] at hd

theorem writeS_only (g : Group) (d : Sel) (x : W64) : OnlyRegs g (writeS g d x) (regsFrom 1 d) := by
  cases d with
  | s a =>
    refine ⟨rfl, fun _ _ => rfl, ?_⟩
    intro n hn
    have h : n ≠ a.val := by rintro rfl; exact hn (mem_regsFrom_s.mpr ⟨a, rfl, rfl⟩)
    exact sreg_setS_other _ _ _ _ h
  | _ => exact ⟨rfl, fun _ _ => rfl, fun _ _ => rfl⟩

/-- A group that the end of an instruction leaves reads as the group it was given. -/
theorem OnlyRegs.ended {g g' : Group} {ds : List Reg} (h : OnlyRegs g g' ds) (n : Nat) (op : Op) (f : Fields) (fn : Sub → Sub) :
    OnlyRegs g (onSub (sigAfter g' n op f) n fn) ds := by
  refine ⟨?_, ?_, ?_⟩
  · have := h.rest
    rw [this]
    unfold sigAfter
    split <;> rfl
  · intro k hk
    rw [← h.v k hk]
    simp [vreg]
  · intro k hk
    rw [← h.s k hk]
    simp [sreg]

theorem OnlyRegs.weaken {g g' : Group} {ds es : List Reg} (h : OnlyRegs g g' ds) (hs : ∀ r ∈ ds, r ∈ es) : OnlyRegs g g' es :=
  ⟨h.rest, fun n hn => h.v n (fun hm => hn (hs _ hm)), fun n hn => h.s n (fun hm => hn (hs _ hm))⟩

theorem OnlyRegs.refl (g : Group) (ds : List Reg) : OnlyRegs g g ds := ⟨rfl, fun _ _ => rfl, fun _ _ => rfl⟩

/-- Reading registers of a group that the end of an instruction leaves. -/
theorem readWide_ended (g : Group) (n : Nat) (op : Op) (k : Fields) (fn : Sub → Sub) (w : Bool) (f : Fields) (x : Sel) (i : Nat) :
    readWide w (onSub (sigAfter g n op k) n fn) f x i = readWide w g f x i := by
  cases x <;> cases w <;> simp [readWide, readLane, readPair, readS, vreg, sreg]

theorem readS_ended (g : Group) (n : Nat) (op : Op) (k : Fields) (fn : Sub → Sub) (f : Fields) (x : Sel) :
    readS (onSub (sigAfter g n op k) n fn) f x = readS g f x := by
  cases x <;> simp [readS, sreg]

theorem VectorResult.ended {g g' : Group} {f : Fields} {m : Mask} {t : BitVec 4} {holds : Nat → W64 → Prop} (h : VectorResult g g' f m t holds)
    (n : Nat) (op : Op) (k : Fields) (fn : Sub → Sub) : VectorResult g (onSub (sigAfter g' n op k) n fn) f m t holds := by
  refine ⟨?_, ?_, ?_⟩
  · intro i hi hm; rw [readWide_ended]; exact h.active i hi hm
  · intro i hi hm; rw [readWide_ended]; exact h.others i hi hm
  · intro j hj
    have := h.mark j hj
    simpa [vreg] using this

theorem ScalarResult.ended {g g' : Group} {f : Fields} {b : Bool} {holds : W64 → Prop} (h : ScalarResult g g' f b holds)
    (n : Nat) (op : Op) (k : Fields) (fn : Sub → Sub) : ScalarResult g (onSub (sigAfter g' n op k) n fn) f b holds := by
  cases b with
  | true =>
    simp only [ScalarResult, if_true] at h ⊢
    rw [readS_ended]
    refine ⟨h.1, ?_⟩
    intro r hr
    have := h.2 r hr
    cases r <;> simpa [Reg.full, vreg, sreg] using this
  | false =>
    simp only [ScalarResult, Bool.false_eq_true, if_false] at h ⊢
    intro j; rw [← h j]; simp [sreg]

theorem guardFirst_of_plain {op : Op} {e : Env} {f : Fields} (h : guardFirst op = false) : guardFirst op = true → e.guard f = true := by
  intro h'; rw [h] at h'; cases h'

/-- What a value instruction does (R316): its effect, for lane results `holdsV` and a scalar result `holdsS`. -/
theorem valueOp_completes {i : Instr} {s : State} {e : Env} {op : Op} {f : Fields} (tag : Env → BitVec 4) (fnV : Env → Nat → W64)
    (fnS : Env → W64) (hx : exec i s = valueOp op f s tag fnV fnS) (hr : Ready s e op f) (hz : e.g.sized)
    (hd : dests e.g.s op f = regsFrom (tyRegs f.ty) f.dst) (hg : guardFirst op = false) (hk : f.dst.isV = true ∨ f.dst.isS = true)
    (holdsV : Nat → W64 → Prop) (holdsS : W64 → Prop)
    (hV : ∀ l, l < 64 → (e.active f).getLsbD l = true →
      holdsV l (if f.ty.w64 then fnV e l else ((fnV e l).setWidth 32).setWidth 64))
    (hS : f.dst.isS = true → holdsS (fnS e)) :
    Completes i s e op f (fun g => ValueEffect e g op f (tag e) holdsV holdsS) := by
  have hb := budget_dests hr.budget
  have hf := full_dests hr.go
  rw [hd] at hb hf
  have hbody : exec i s = (if f.dst.isV then finish e op f s (writeV e.g f.dst f.ty.w64 (e.active f) (tag e) (fnV e))
      else if e.guard f then finish e op f s (writeS e.g f.dst (fnS e)) else finish e op f s e.g) := by
    rw [hx]; exact issuePlain_of_ready hr _ (guardFirst_of_plain hg)
  cases hv : f.dst.isV with
  | true =>
    rw [hv] at hbody
    simp only [if_true] at hbody
    obtain ⟨t, ht, hend⟩ := finishAt_ended op f (writeV e.g f.dst f.ty.w64 (e.active f) (tag e) (fnV e)) (e.next f.form.length) hr.env
      (by simp) (by simp)
    refine ⟨t, _, hbody.trans ht, hend, ?_, ?_, ?_, ?_⟩
    · rw [hd]
      exact (writeV_only _ _ _ _ _ _).ended _ _ _ _
    · exact ⟨by simp, by simp⟩
    · intro _
      exact (writeV_result e.g f (e.active f) (tag e) (fnV e) hb hz.v hf hv holdsV hV).ended _ _ _ _
    · intro hs
      cases hdst : f.dst <;> simp [hdst, Sel.isV, Sel.isS] at hv hs
  | false =>
    have hs : f.dst.isS = true := by rcases hk with h | h; · rw [hv] at h; cases h
                                     · exact h
    have h1 : ∀ n, regsFrom n f.dst = regsFrom 1 f.dst := by
      intro n; cases hdst : f.dst <;> simp [hdst, Sel.isS] at hs; rfl
    rw [h1] at hb
    rw [hv] at hbody
    simp only [Bool.false_eq_true, if_false] at hbody
    cases hgd : e.guard f with
    | true =>
      rw [hgd] at hbody
      simp only [if_true] at hbody
      obtain ⟨t, ht, hend⟩ := finishAt_ended op f (writeS e.g f.dst (fnS e)) (e.next f.form.length) hr.env (by simp) (by simp)
      refine ⟨t, _, hbody.trans ht, hend, ?_, ?_, ?_, ?_⟩
      · rw [hd, h1]; exact (writeS_only _ _ _).ended _ _ _ _
      · exact ⟨by simp, by simp⟩
      · intro h; rw [hv] at h; cases h
      · intro _; rw [hgd]; exact (writeS_result e.g f (fnS e) hb hz.s hs holdsS (hS hs)).ended _ _ _ _
    | false =>
      rw [hgd] at hbody
      simp only [Bool.false_eq_true, if_false] at hbody
      obtain ⟨t, ht, hend⟩ := finishAt_ended op f e.g (e.next f.form.length) hr.env rfl rfl
      refine ⟨t, _, hbody.trans ht, hend, ?_, ?_, ?_, ?_⟩
      · exact (OnlyRegs.refl _ _).ended _ _ _ _
      · exact ⟨by simp, by simp⟩
      · intro h; rw [hv] at h; cases h
      · intro _; rw [hgd]
        have : ScalarResult e.g e.g f false holdsS := by simp [ScalarResult]
        exact this.ended _ _ _ _

/-! ### Predicates -/

theorem writePred_effect (g : Group) (d : Sel) (x : Mask) (hp : g.preds.length = 7) (hd : d.isP = true) : PredEffect g (writePred g d x) d x := by
  cases d with
  | p a =>
    refine ⟨⟨?_, ?_, ?_⟩, by simp, ?_⟩
    · simp only [writePred, setPred]; split <;> rfl
    · intro n _; simp [writePred]
    · intro n _; simp [writePred]
    · intro n hn
      simp only [writePred]
      by_cases ha : a.val = 0
      · rw [ha, setPred_zero]
        have : ¬ (Sel.p (Fin.ofNat 8 n) = Sel.p a ∧ n ≠ 0) := by
          rintro ⟨h, h0⟩
          have : n % 8 = a.val := congrArg Fin.val (Sel.p.inj h)
          omega
        rw [if_neg this]
      · by_cases h : n = a.val
        · subst h
          have h1 : Fin.ofNat 8 a.val = a := by ext; simp [Fin.ofNat, Nat.mod_eq_of_lt a.isLt]
          rw [predOf_setPred_self _ _ _ ha (by have := a.isLt; omega)]
          simp only [h1, true_and]
          rw [if_pos (by simpa using ha)]
        · rw [predOf_setPred_other _ _ _ _ h]
          have : ¬ (Sel.p (Fin.ofNat 8 n) = Sel.p a ∧ n ≠ 0) := by
            rintro ⟨h1, _⟩
            have : n % 8 = a.val := congrArg Fin.val (Sel.p.inj h1)
            omega
          rw [if_neg this]
  | _ => simp [Sel.isP] at hd

theorem PredEffect.ended {g g' : Group} {d : Sel} {x : Mask} (h : PredEffect g g' d x) (n : Nat) (op : Op) (f : Fields) (fn : Sub → Sub) :
    PredEffect g (onSub (sigAfter g' n op f) n fn) d x := by
  refine ⟨h.regs.ended _ _ _ _, ?_, ?_⟩
  · simpa using h.fl
  · intro k hk
    rw [← h.preds k hk]
    simp [predOf]

/-! ### Producers (R100) -/

theorem setTag_fold (t : BitVec 4) (rs : List Reg) (g : Group) (n : Nat) :
    (rs.foldl (setTag t) g).vregs.length = g.vregs.length ∧ (rs.foldl (setTag t) g).sregs = g.sregs ∧
    (n < g.vregs.length → vreg (rs.foldl (setTag t) g) n = if Reg.v n ∈ rs then { vreg g n with tag := t } else vreg g n) ∧
    (rs.foldl (setTag t) g) = { g with vregs := (rs.foldl (setTag t) g).vregs } := by
  induction rs generalizing g with
  | nil => exact ⟨rfl, rfl, fun _ => by simp, rfl⟩
  | cons r l ih =>
    cases r with
    | s k =>
      obtain ⟨a, b, c, d⟩ := ih g
      refine ⟨a, b, ?_, d⟩
      intro h
      have := c h
      simpa [setTag] using this
    | v k =>
      obtain ⟨a, b, c, d⟩ := ih (setV g k { vreg g k with tag := t })
      refine ⟨by simpa [setTag] using a, by simpa [setTag] using b, ?_, ?_⟩
      · intro h
        have hc := c (by simpa using h)
        simp only [List.foldl_cons, setTag] at hc ⊢
        rw [hc]
        by_cases hk : n = k
        · subst hk; simp [vreg_setV_self _ _ _ h]
        · have : Reg.v n ≠ Reg.v k := by simp [hk]
          simp [vreg_setV_other _ _ _ _ hk, this]
      · simp only [List.foldl_cons, setTag] at d ⊢
        rw [d]; rfl

theorem setEmpty_fold (rs : List Reg) (g : Group) (n : Nat) :
    (rs.foldl setEmpty g).vregs.length = g.vregs.length ∧ (rs.foldl setEmpty g).sregs.length = g.sregs.length ∧
    (n < g.vregs.length → vreg (rs.foldl setEmpty g) n = if Reg.v n ∈ rs then { vreg g n with full := false } else vreg g n) ∧
    (n < g.sregs.length → sreg (rs.foldl setEmpty g) n = if Reg.s n ∈ rs then { sreg g n with full := false } else sreg g n) ∧
    (rs.foldl setEmpty g) = { g with vregs := (rs.foldl setEmpty g).vregs, sregs := (rs.foldl setEmpty g).sregs } := by
  induction rs generalizing g with
  | nil => exact ⟨rfl, rfl, fun _ => by simp, fun _ => by simp, rfl⟩
  | cons r l ih =>
    cases r with
    | s k =>
      obtain ⟨a, b, c, d, e⟩ := ih (setS g k { sreg g k with full := false })
      refine ⟨by simpa [setEmpty] using a, by simpa [setEmpty] using b, ?_, ?_, ?_⟩
      · intro h
        have hc := c (by simpa using h)
        simp only [List.foldl_cons, setEmpty] at hc ⊢
        rw [hc]; simp
      · intro h
        have hc := d (by simpa using h)
        simp only [List.foldl_cons, setEmpty] at hc ⊢
        rw [hc]
        by_cases hk : n = k
        · subst hk; simp [sreg_setS_self _ _ _ h]
        · have : Reg.s n ≠ Reg.s k := by simp [hk]
          simp [sreg_setS_other _ _ _ _ hk, this]
      · simp only [List.foldl_cons, setEmpty] at e ⊢
        rw [e]; rfl
    | v k =>
      obtain ⟨a, b, c, d, e⟩ := ih (setV g k { vreg g k with full := false })
      refine ⟨by simpa [setEmpty] using a, by simpa [setEmpty] using b, ?_, ?_, ?_⟩
      · intro h
        have hc := c (by simpa using h)
        simp only [List.foldl_cons, setEmpty] at hc ⊢
        rw [hc]
        by_cases hk : n = k
        · subst hk; simp [vreg_setV_self _ _ _ h]
        · have : Reg.v n ≠ Reg.v k := by simp [hk]
          simp [vreg_setV_other _ _ _ _ hk, this]
      · intro h
        have hc := d (by simpa using h)
        simp only [List.foldl_cons, setEmpty] at hc ⊢
        rw [hc]; simp
      · simp only [List.foldl_cons, setEmpty] at e ⊢
        rw [e]; rfl

/-- What taking a place in group order does (R33, R100). -/
theorem launch_launched {e : Env} {op : Op} {f : Fields} (tag : BitVec 4) (size : Nat) (what : Pending) (hz : e.g.sized)
    (hd : dests e.g.s op f = regsFrom (tyRegs f.ty) f.dst) (hb : ∀ r ∈ dests e.g.s op f, r.inBudget e.g = true) (n : Nat) (k : Fields)
    (fn : Sub → Sub) : Launched e (onSub (sigAfter (launch e f e.g tag size what) n op k) n fn) op f tag size what := by
  rw [hd] at hb
  have hlen : ∀ m, Reg.v m ∈ regsFrom (tyRegs f.ty) f.dst → m < e.g.vregs.length := by
    intro m hm; rw [hz.v]; simpa [Reg.inBudget] using hb _ hm
  have hlenS : ∀ m, Reg.s m ∈ regsFrom (tyRegs f.ty) f.dst → m < e.g.sregs.length := by
    intro m hm; rw [hz.s]; simpa [Reg.inBudget] using hb _ hm
  have hv : ∀ m, m < e.g.vregs.length → vreg (launch e f e.g tag size what) m =
      if Reg.v m ∈ regsFrom (tyRegs f.ty) f.dst then { vreg e.g m with tag := tag, full := false } else vreg e.g m := by
    intro m hm
    obtain ⟨a, b, c, d⟩ := setTag_fold tag (regsFrom (tyRegs f.ty) f.dst) e.g m
    obtain ⟨_, _, c', _, _⟩ := setEmpty_fold (regsFrom (tyRegs f.ty) f.dst) ((regsFrom (tyRegs f.ty) f.dst).foldl (setTag tag) e.g) m
    have h1 := c' (by rw [a]; exact hm)
    show vreg ((regsFrom (tyRegs f.ty) f.dst).foldl setEmpty ((regsFrom (tyRegs f.ty) f.dst).foldl (setTag tag) e.g)) m = _
    rw [h1, c hm]
    split <;> rfl
  have hs : ∀ m, m < e.g.sregs.length → sreg (launch e f e.g tag size what) m =
      if Reg.s m ∈ regsFrom (tyRegs f.ty) f.dst then { sreg e.g m with full := false } else sreg e.g m := by
    intro m hm
    obtain ⟨_, b, _, _⟩ := setTag_fold tag (regsFrom (tyRegs f.ty) f.dst) e.g m
    obtain ⟨_, _, _, d', _⟩ := setEmpty_fold (regsFrom (tyRegs f.ty) f.dst) ((regsFrom (tyRegs f.ty) f.dst).foldl (setTag tag) e.g) m
    have h1 := d' (by rw [b]; exact hm)
    show sreg ((regsFrom (tyRegs f.ty) f.dst).foldl setEmpty ((regsFrom (tyRegs f.ty) f.dst).foldl (setTag tag) e.g)) m = _
    rw [h1]
    simp only [sreg, b]
  have hlv : (launch e f e.g tag size what).vregs.length = e.g.vregs.length := by
    show ((regsFrom (tyRegs f.ty) f.dst).foldl setEmpty _).vregs.length = _
    rw [(setEmpty_fold _ _ 0).1, (setTag_fold _ _ _ 0).1]
  have hls : (launch e f e.g tag size what).sregs.length = e.g.sregs.length := by
    show ((regsFrom (tyRegs f.ty) f.dst).foldl setEmpty _).sregs.length = _
    rw [(setEmpty_fold _ _ 0).2.1, (setTag_fold _ _ _ 0).2.1]
  have hrest : launch e f e.g tag size what = { e.g with
      vregs := (launch e f e.g tag size what).vregs, sregs := (launch e f e.g tag size what).sregs
      inflight := e.g.inflight ++ [{ seq := e.g.seq, node := e.node, pc := e.pc, dst := f.dst, ty := f.ty, size := size, region := e.g.region.isOpen
                                     retrying := false, what := what }]
      seq := e.g.seq + 1 } := by
    have h1 := (setEmpty_fold (regsFrom (tyRegs f.ty) f.dst) ((regsFrom (tyRegs f.ty) f.dst).foldl (setTag tag) e.g) 0).2.2.2.2
    have h2 := (setTag_fold tag (regsFrom (tyRegs f.ty) f.dst) e.g 0).2.2.2
    have h3 : (regsFrom (tyRegs f.ty) f.dst).foldl setEmpty ((regsFrom (tyRegs f.ty) f.dst).foldl (setTag tag) e.g) =
        { e.g with
          vregs := ((regsFrom (tyRegs f.ty) f.dst).foldl setEmpty ((regsFrom (tyRegs f.ty) f.dst).foldl (setTag tag) e.g)).vregs
          sregs := ((regsFrom (tyRegs f.ty) f.dst).foldl setEmpty ((regsFrom (tyRegs f.ty) f.dst).foldl (setTag tag) e.g)).sregs } := by
      rw [h2] at h1 ⊢
      exact h1
    simp only [launch]
    rw [h3]
  have hvr : ∀ m, vreg (onSub (sigAfter (launch e f e.g tag size what) n op k) n fn) m = vreg (launch e f e.g tag size what) m := by
    intro m; simp [vreg]
  have hsr : ∀ m, sreg (onSub (sigAfter (launch e f e.g tag size what) n op k) n fn) m = sreg (launch e f e.g tag size what) m := by
    intro m; simp [sreg]
  refine ⟨?_, ?_, ?_, ?_, ?_, ?_, ?_⟩
  · rw [hrest]; unfold sigAfter; split <;> rfl
  · intro m hm
    rw [hd] at hm
    rw [hvr]
    by_cases h : m < e.g.vregs.length
    · rw [hv m h, if_neg hm]
    · simp only [vreg, List.getD, List.getElem?_eq_none (Nat.le_of_not_lt h), List.getElem?_eq_none (hlv ▸ Nat.le_of_not_lt h)]
  · intro m hm
    rw [hd] at hm
    rw [hsr]
    by_cases h : m < e.g.sregs.length
    · rw [hs m h, if_neg hm]
    · simp only [sreg, List.getD, List.getElem?_eq_none (Nat.le_of_not_lt h), List.getElem?_eq_none (hls ▸ Nat.le_of_not_lt h)]
  · intro m hm
    rw [hd] at hm
    rw [hvr, hv m (hlen m hm), if_pos hm]
  · intro m hm
    rw [hd] at hm
    rw [hsr, hs m (hlenS m hm), if_pos hm]
  · rw [hrest]; simp
  · rw [hrest]; simp

end Sys2Proof.Machine
end

