-- ==== Sys2Proof/Laws/Memory.lean ====
section
/-! SUPPORT. Every memory operation keeps the canonical form of every byte memory, and what a write of the storage reads back as. -/

namespace Sys2Proof.Machine

/-- The byte memories stand as they were. -/
def SameStore (s t : State) : Prop := t.dram = s.dram ∧ t.hostMem = s.hostMem ∧ t.peerMem = s.peerMem

theorem SameStore.refl (s : State) : SameStore s s := ⟨rfl, rfl, rfl⟩

theorem SameStore.trans {s t u : State} (h : SameStore s t) (k : SameStore t u) : SameStore s u :=
  ⟨k.1.trans h.1, k.2.1.trans h.2.1, k.2.2.trans h.2.2⟩

theorem SameStore.canonical {s t : State} (h : SameStore s t) (hs : s.canonical) : t.canonical := by
  unfold State.canonical at *
  rw [h.1, h.2.1, h.2.2]; exact hs

/-- A fold of operations each of which leaves the byte memories alone. -/
theorem SameStore.foldl {α : Type} {f : State → α → State} (h : ∀ s x, SameStore s (f s x)) (l : List α) (s : State) :
    SameStore s (l.foldl f s) := by
  induction l generalizing s with
  | nil => exact .refl s
  | cons x t ih => exact .trans (h s x) (ih _)

/-- A fold of operations each of which keeps the byte memories canonical. -/
theorem canonical_foldl {α : Type} {f : State → α → State} (h : ∀ s x, s.canonical → (f s x).canonical) (l : List α) {s : State}
    (hs : s.canonical) : (l.foldl f s).canonical := by
  induction l generalizing s with
  | nil => exact hs
  | cons x t ih => exact ih (h s x hs)

theorem canonical_ite {c : Prop} [Decidable c] {s t : State} (hs : s.canonical) (ht : t.canonical) : (if c then s else t).canonical := by
  split
  · exact hs
  · exact ht

/-! ### Writes of cells -/

theorem wf_foldl_write (ws : List Host.Cell) (m : Memory) (h : Memory.wf m = true) :
    Memory.wf (ws.foldl (fun m w => m.write w.1 w.2) m) = true := by
  induction ws generalizing m with
  | nil => exact h
  | cons w t ih => exact ih _ (Memory.wf_write m w.1 w.2 h)

theorem peerOf_wf {s : State} (p : Nat) (h : s.canonical) : Memory.wf (peerOf s p) = true := by
  unfold peerOf
  cases hf : s.peerMem.find? (fun e => e.1 == p) with
  | none => rfl
  | some e => exact h.2.2 e (List.mem_of_find?_eq_some hf)

theorem wf_ite {c : Prop} [Decidable c] {a b : Memory} (ha : Memory.wf a = true) (hb : Memory.wf b = true) : Memory.wf (if c then a else b) = true := by
  split
  · exact ha
  · exact hb

theorem appendError_canonical {s : State} (pa kind die slice : Nat) (cyc : W64) (h : s.canonical) :
    (appendError s pa kind die slice cyc).canonical := by
  obtain ⟨h1, h2, h3⟩ := h
  unfold appendError
  simp only
  split
  · exact ⟨h1, h2, h3⟩
  · exact ⟨wf_ite (Memory.wf_writeBytes _ _ _ h1) h1, wf_ite h2 (Memory.wf_writeBytes _ _ _ h2), h3⟩

theorem sendFlits_same (s : State) (ls : List Nat) (vc : Nat) : SameStore s (sendFlits s ls vc) := by
  unfold sendFlits; split <;> exact ⟨rfl, rfl, rfl⟩

theorem crossing_same (s : State) (a b : Nat) : SameStore s (crossing s a b) := .trans (sendFlits_same _ _ _) (sendFlits_same _ _ _)

theorem backCrossing_same (s : State) (sp : Space) (a : Nat) : SameStore s (backCrossing s sp a) := by
  unfold backCrossing; split
  · exact crossing_same _ _ _
  · exact .refl s

theorem setBacking_canonical {s : State} (sp : Space) (ws : List Host.Cell) (h : s.canonical) : (setBacking s sp ws).canonical := by
  obtain ⟨h1, h2, h3⟩ := h
  cases sp with
  | dram => exact ⟨wf_foldl_write ws _ h1, h2, h3⟩
  | host =>
    obtain ⟨k1, k2, k3⟩ := (backCrossing_same s .host ((ws.head?.map (·.1)).getD 0)).canonical ⟨h1, h2, h3⟩
    exact ⟨k1, wf_foldl_write ws _ h2, k3⟩
  | peer p =>
    refine ⟨h1, h2, ?_⟩
    intro e he
    simp only [setBacking, List.mem_append, List.mem_filter, List.mem_singleton] at he
    rcases he with he | rfl
    · exact h3 e he.1
    · exact wf_foldl_write ws _ (peerOf_wf p ⟨h1, h2, h3⟩)
  | array =>
    cases ws with
    | nil => exact ⟨h1, h2, h3⟩
    | cons w t =>
      simp only [setBacking]
      split
      · exact ⟨h1, h2, h3⟩
      · split
        · apply appendError_canonical; exact ⟨h1, h2, h3⟩
        · exact ⟨h1, h2, h3⟩

/-! ### Copies, messages and monitors: no byte memory moves -/

theorem fresh_same (s : State) : SameStore s (fresh s) := ⟨rfl, rfl, rfl⟩
theorem dropCopies_same (s : State) (sp : Space) (k : Nat) (p : Copy → Bool) : SameStore s (dropCopies s sp k p) := ⟨rfl, rfl, rfl⟩
theorem putCopy_same (s : State) (c : Copy) : SameStore s (putCopy s c) := by unfold putCopy; dsimp only; split <;> exact ⟨rfl, rfl, rfl⟩
theorem putLine_same (s : State) (c : Copy) : SameStore s (putLine s c) := .trans (putCopy_same s c) ⟨rfl, rfl, rfl⟩
theorem poison_same (s : State) (sp : Space) (l : List Nat) : SameStore s (poison s sp l) := ⟨rfl, rfl, rfl⟩
theorem settlePoison_same (s : State) (sp : Space) (l : Nat) : SameStore s (settlePoison s sp l) := by
  unfold settlePoison; split <;> exact ⟨rfl, rfl, rfl⟩
theorem setCode_same (s : State) (l c : Nat) : SameStore s (setCode s l c) := ⟨rfl, rfl, rfl⟩
theorem setArray_same (s : State) (k : Nat) (a : ArrayUnit) : SameStore s (setArray s k a) := ⟨rfl, rfl, rfl⟩
theorem countSlice_same (s : State) (d k n ctx m : Nat) : SameStore s (countSlice s d k n ctx m) := ⟨rfl, rfl, rfl⟩
theorem notePast_same (s : State) (sp : Space) (k : Nat) (old : List Byte) (ws : List Host.Cell) (seen : List Party) (b : Bool) :
    SameStore s (notePast s sp k old ws seen b) := ⟨rfl, rfl, rfl⟩
theorem markSeen_same (s : State) (who : Party) (ls : List Loc) (missing : List Nat) : SameStore s (markSeen s who ls missing) := ⟨rfl, rfl, rfl⟩
theorem joinView_same (s : State) (who : Party) (ids : List Nat) : SameStore s (joinView s who ids) := ⟨rfl, rfl, rfl⟩
theorem joinParty_same (s : State) (who other : Party) : SameStore s (joinParty s who other) := joinView_same _ _ _
theorem acquire_same (s : State) (core gid team : Nat) (sc : Scope) (rels : List Release) : SameStore s (acquire s core gid team sc rels) := joinView_same _ _ _
theorem endReleases_same (s : State) (ws : List (Loc × Byte)) : SameStore s (endReleases s ws) := ⟨rfl, rfl, rfl⟩
theorem addRelease_same (s : State) (who : Party) (ws : List (Loc × Byte)) (rel : Option Rel) : SameStore s (addRelease s who ws rel) := by
  unfold addRelease; split <;> exact ⟨rfl, rfl, rfl⟩
theorem dropStaleAt_same (s : State) (core : Nat) (l : Loc) : SameStore s (dropStaleAt s core l) := ⟨rfl, rfl, rfl⟩
theorem markBehind_same (s : State) (sp : Space) (k : Nat) (missing : List Nat) : SameStore s (markBehind s sp k missing) := ⟨rfl, rfl, rfl⟩
theorem undoWrite_same (s : State) (p : Past) : SameStore s (undoWrite s p) := ⟨rfl, rfl, rfl⟩
theorem clearWritten_same (s : State) (ws : List (Loc × Byte)) : SameStore s (clearWritten s ws) := ⟨rfl, rfl, rfl⟩

theorem forgetLost_same (s : State) (sp : Space) (k : Nat) : SameStore s (forgetLost s sp k) := by
  have h (l : List Past) : SameStore s (l.foldr (fun p s => undoWrite s p) s) := by
    induction l with
    | nil => exact .refl s
    | cons p l ih => exact ih.trans (undoWrite_same _ p)
  exact h _

theorem noteSend_same (s : State) (core ch dest : Nat) : SameStore s (noteSend s core ch dest) := by
  have h (u : State) (c : Prop) [Decidable c] (l : List Nat) (v : Nat) : SameStore u (if c then u else sendFlits u l v) := by
    split
    · exact .refl u
    · exact sendFlits_same _ _ _
  have k (u : State) (c : Prop) [Decidable c] (l : List Nat) (v : Nat) : SameStore u (if c then sendFlits u l v else u) := by
    split
    · exact sendFlits_same _ _ _
    · exact .refl u
  exact .trans (SameStore.refl (setCore s core _) : SameStore s (setCore s core _)) (.trans (sendFlits_same _ _ _) (.trans (k _ _ _ _) (h _ _ _ _)))

theorem noteAnswers_same (s : State) (sp : Space) (k : Nat) (p : Copy → Bool) : SameStore s (noteAnswers s sp k p) := by
  unfold noteAnswers
  apply SameStore.foldl
  intro s c
  split
  · exact noteSend_same _ _ _ _
  · exact crossing_same _ _ _
  · exact .refl s

theorem monitorGive_same (s : State) (m : Monitor) : SameStore s (monitorGive s m) := by
  unfold monitorGive
  cases m.waiter with
  | queue q => exact ⟨rfl, rfl, rfl⟩
  | sub gid p =>
    dsimp only
    split
    · rename_i team _ _
      have hf : ∀ (ls : List Loc) (u : State), SameStore u (ls.foldl (fun s l => dropStaleAt s team.core l) u) :=
        fun ls u => SameStore.foldl (fun s l => dropStaleAt_same s team.core l) ls u
      have hg (fn : Group → Group) : SameStore s (onGroup { s with monitors := s.monitors.erase m } gid fn) := ⟨rfl, rfl, rfl⟩
      exact (hg _).trans ((hf m.locs _).trans (acquire_same _ _ _ _ _ _))
    · exact ⟨rfl, rfl, rfl⟩

theorem monitorsSee_same (s : State) (sp : Space) (k : Nat) : SameStore s (monitorsSee s sp k) := by
  unfold monitorsSee
  apply SameStore.foldl
  intro s m
  split
  · exact monitorGive_same _ _
  · exact .refl s

theorem pushL1_same (s : State) (sp : Space) (k : Nat) : SameStore s (pushL1 s sp k) := by
  unfold pushL1
  split
  · exact .refl s
  · exact .trans (noteAnswers_same _ _ _ _) (.trans (putLine_same _ _) (.trans (putCopy_same _ _) (.trans (settlePoison_same _ _ _) (monitorsSee_same _ _ _))))

theorem pushGuest_same (s : State) (sp : Space) (k : Nat) : SameStore s (pushGuest s sp k) := by
  unfold pushGuest
  split
  · exact .refl s
  · exact .trans (crossing_same _ _ _) (.trans (putLine_same _ _) (.trans (putCopy_same _ _) (.trans (settlePoison_same _ _ _) (monitorsSee_same _ _ _))))

theorem recall_same (s : State) (sp : Space) (k : Nat) : SameStore s (recallCopies s sp k) := .trans (pushL1_same _ _ _) (pushGuest_same _ _ _)

theorem homeOnly_same (s : State) (sp : Space) (k : Nat) : SameStore s (homeOnly s sp k) :=
  .trans (recall_same _ _ _) (.trans (noteAnswers_same _ _ _ _) (dropCopies_same _ _ _ _))

theorem gatherSector_same (s : State) (core : Nat) (sp : Space) (k : Nat) : SameStore s (gatherSector s core sp k) := by
  unfold gatherSector
  split
  · exact recall_same _ _ _
  · exact pushL1_same _ _ _

theorem evictL1_same (s : State) (core : Nat) (c : Copy) : SameStore s (evictL1 s core c) := by
  unfold evictL1
  dsimp only
  split
  · exact .trans (pushL1_same _ _ _) (dropCopies_same _ _ _ _)
  · exact dropCopies_same _ _ _ _

theorem roomL1_same (s : State) (core : Nat) : SameStore s (roomL1 s core) := by
  unfold roomL1
  dsimp only
  split
  · exact .refl s
  · split
    · exact .trans ⟨rfl, rfl, rfl⟩ (evictL1_same _ _ _)
    · exact .refl s

theorem limitPins_same (s : State) (core : Nat) : SameStore s (limitPins s core) := by
  unfold limitPins
  split
  · split
    · exact evictL1_same _ _ _
    · exact .refl s
  · exact .refl s

theorem invalidateOthers_same (s : State) (core : Nat) (sp : Space) (k : Nat) (v : List Nat) : SameStore s (invalidateOthers s core sp k v) := by
  unfold invalidateOthers
  exact .trans (noteAnswers_same _ _ _ _) ⟨rfl, rfl, rfl⟩

theorem evictGuest_same (s : State) (sp : Space) (line die : Nat) (drop : Bool) : SameStore s (evictGuest s sp line die drop) := by
  unfold evictGuest
  dsimp only
  have h1 : SameStore s ((lineSectors line).foldl (fun s x =>
      if (dirtyCopy s isL1 sp x).any (fun c => copyDie c == die && c.place != .home) then pushL1 s sp x else s) s) := by
    apply SameStore.foldl; intro s x; split
    · exact pushL1_same _ _ _
    · exact .refl s
  refine .trans h1 ?_
  generalize (lineSectors line).foldl _ s = u
  have h2 : SameStore u ((lineSectors line).foldl (fun s x =>
      if (dirtyCopy s isGuest sp x).any (fun c => copyDie c == die && c.place != .home) then pushGuest s sp x else s) u) := by
    apply SameStore.foldl; intro s x; split
    · exact pushGuest_same _ _ _
    · exact .refl s
  refine .trans h2 ?_
  split
  · exact SameStore.foldl (fun s x => dropCopies_same _ _ _ _) _ _
  · exact .refl _

theorem fillBytes_same (s : State) (core : Nat) (c : Copy) : SameStore s (fillBytes s core c).1 := by
  unfold fillBytes
  dsimp only
  split <;> exact ⟨rfl, rfl, rfl⟩

theorem askOwner_same (s : State) (core : Nat) (sp : Space) (k : Nat) : SameStore s (askOwner s core sp k) := by
  unfold askOwner
  dsimp only
  split
  · exact .refl s
  · exact crossing_same _ _ _

/-! ### Write-backs: the storage stays canonical -/

theorem sliceError_canonical {s : State} (sp : Space) (line kind : Nat) (h : s.canonical) : (sliceError s sp line kind).canonical :=
  appendError_canonical _ _ _ _ _ h

theorem poisonLine_canonical {s : State} (sp : Space) (line kind : Nat) (h : s.canonical) : (poisonLine s sp line kind).canonical :=
  sliceError_canonical _ _ _ ((poison_same _ _ _).canonical h)

theorem storeLine_canonical {s : State} (sp : Space) (line : Nat) (ws : List (List Host.Cell)) (cw : Bool) (code : Nat) (bad : Bool)
    (h : s.canonical) : (storeLine s sp line ws cw code bad).canonical := by
  unfold storeLine
  dsimp only
  split
  · exact poisonLine_canonical _ _ _ h
  · have hs : (ws.foldl (fun s w => setBacking s sp w) s).canonical := canonical_foldl (fun s w hs => setBacking_canonical _ _ hs) _ h
    split
    · exact (setCode_same _ _ _).canonical hs
    · exact hs

theorem writeBackLine_canonical {s : State} (sp : Space) (line : Nat) (secs : List Nat) (code : Nat) (bad : Bool) (h : s.canonical) :
    (writeBackLine s sp line secs code bad).canonical := by
  unfold writeBackLine
  dsimp only
  split
  · exact h
  · refine canonical_foldl (fun s d hs => ?_) _ (storeLine_canonical _ _ _ _ _ _ h)
    split
    · exact (dropCopies_same _ _ _ _).canonical hs
    · exact (markBehind_same _ _ _ _).canonical ((putCopy_same _ _).canonical hs)

theorem writeBackFree_canonical {s : State} (sp : Space) (line : Nat) (secs : List Nat) (h : s.canonical) :
    (writeBackFree s sp line secs).canonical := writeBackLine_canonical _ _ _ _ _ (SameStore.canonical ⟨rfl, rfl, rfl⟩ h)

theorem evictHome_canonical {s : State} (sp : Space) (line code : Nat) (bad drop : Bool) (h : s.canonical) :
    (evictHome s sp line code bad drop).canonical := by
  unfold evictHome
  dsimp only
  have h2 := writeBackLine_canonical sp line (lineSectors line) code bad
    ((SameStore.foldl (fun s x => recall_same s sp x) (lineSectors line) s).canonical h)
  split
  · exact (SameStore.foldl (fun s x => dropCopies_same _ _ _ _) _ _).canonical h2
  · exact h2

theorem roomL2_canonical {s : State} (pl : Place) (sp : Space) (k : Nat) (h : s.canonical) : (roomL2 s pl sp k).canonical := by
  unfold roomL2
  dsimp only
  have hf : (fresh s).canonical := h
  split
  · exact (evictGuest_same _ _ _ _ _).canonical hf
  · exact evictHome_canonical _ _ _ _ _ hf
  · exact h

theorem installBelow_canonical {s : State} (core : Nat) (c : Copy) (h : s.canonical) : (installBelow s core c).canonical := by
  unfold installBelow
  dsimp only
  have hu : (if (copyAt s .home c.space c.sector).isNone = true then
      putLine (roomL2 (backCrossing s c.space (c.sector * 64)) .home c.space c.sector) { c with place := .home } else s).canonical := by
    split
    · exact (putLine_same _ _).canonical (roomL2_canonical _ _ _ ((backCrossing_same _ _ _).canonical h))
    · exact h
  generalize (if (copyAt s .home c.space c.sector).isNone = true then _ else s) = u at hu
  split
  · split
    · exact (putLine_same _ _).canonical hu
    · exact hu
  · exact (putLine_same _ _).canonical (roomL2_canonical _ _ _ hu)

theorem fillFrom_canonical {s : State} (core : Nat) (sp : Space) (k : Nat) (cw newest : Bool) (h : s.canonical) :
    (fillFrom s core sp k cw newest).canonical := by
  unfold fillFrom
  split
  · exact h
  · have hu := (roomL1_same _ core).canonical (installBelow_canonical core
      (Copy.clean (.l1 core) sp k (newestBytes (gatherSector s core sp k) sp k) cw) ((gatherSector_same s core sp k).canonical h))
    cases newest with
    | true => exact (putCopy_same _ _).canonical hu
    | false => exact (putCopy_same _ _).canonical ((fillBytes_same _ _ _).canonical hu)

theorem fillL1_canonical {s : State} (core : Nat) (sp : Space) (k : Nat) (cw : Bool) (h : s.canonical) : (fillL1 s core sp k cw).canonical :=
  fillFrom_canonical _ _ _ _ _ h

theorem fillHome_canonical {s : State} (sp : Space) (k : Nat) (cw : Bool) (h : s.canonical) : (fillHome s sp k cw).canonical := by
  unfold fillHome
  dsimp only
  have hr := (recall_same s sp k).canonical h
  split
  · exact hr
  · exact (putLine_same _ _).canonical (roomL2_canonical _ _ _ ((backCrossing_same _ _ _).canonical hr))

theorem expandLine_canonical {s : State} (sp : Space) (line : Nat) (cw : Bool) (h : s.canonical) : (expandLine s sp line cw).canonical := by
  unfold expandLine
  refine canonical_foldl (fun s k hs => ?_) _ h
  split
  · exact hs
  · exact (putLine_same _ _).canonical (roomL2_canonical _ _ _ hs)

theorem readMeta_same (s : State) (ctx line d k : Nat) : SameStore s (readMeta s ctx line d k) := by
  unfold readMeta; dsimp only; split <;> exact ⟨rfl, rfl, rfl⟩

theorem fillCode_canonical {s : State} (ctx : Nat) (l : Loc) (h : s.canonical) : (fillCode s ctx l).canonical := by
  unfold fillCode
  dsimp only
  split
  · exact h
  · have hu := (readMeta_same s ctx (l.addr / 256) (homeDie .dram l.addr) (homeSlice .dram l.addr)).canonical h
    generalize readMeta _ _ _ _ _ = u at hu
    split
    · exact hu
    · have hc : (countSlice u (homeDie .dram l.addr) (homeSlice .dram l.addr) 4 ctx 1).canonical := hu
      have hx (c : Prop) [Decidable c] (k : Nat) := canonical_ite (c := c)
        (poisonLine_canonical .dram (l.addr / 256) k ((fresh_same _).canonical hc)) ((fresh_same _).canonical hc)
      exact canonical_ite (hx _ _) (expandLine_canonical _ _ _ (hx _ _))

theorem fillCodes_canonical {s : State} (ctx : Nat) (ls : List Loc) (h : s.canonical) : (fillCodes s ctx ls).canonical :=
  canonical_foldl (fun _ l hs => fillCode_canonical ctx l hs) _ h

theorem dropHeld_canonical {s : State} (sp : Space) (k : Nat) (h : s.canonical) : (dropHeld s sp k).canonical := by
  unfold dropHeld
  split
  · exact h
  · exact (dropCopies_same _ _ _ _).canonical (writeBackFree_canonical _ _ _ ((homeOnly_same _ _ _).canonical h))

theorem admitRead_canonical {s : State} (sec : Nat) (h : s.canonical) : (admitRead s sec).canonical := by
  unfold admitRead
  dsimp only
  split
  · refine (putCopy_same _ _).canonical (roomL2_canonical _ _ _ ?_)
    exact h
  · exact h

/-! ### Writes of places -/

theorem destWrite_canonical {s : State} (sp : Space) (k : Nat) (ws : List Host.Cell) (h : s.canonical) : (destWrite s sp k ws).canonical :=
  setBacking_canonical _ _ (dropHeld_canonical _ _ h)

theorem homeLine_same (s : State) (sp : Space) (k : Nat) : SameStore s (homeLine s sp k) :=
  SameStore.foldl (fun s x => homeOnly_same s sp x) _ s

theorem homeWriteSector_canonical {s : State} (l : Loc) (ws : List Host.Cell) (h : s.canonical) : (homeWriteSector s l ws).canonical := by
  unfold homeWriteSector
  dsimp only
  split
  · exact destWrite_canonical _ _ _ h
  · have hh := (homeLine_same s l.space (locSector l)).canonical h
    generalize homeLine s l.space (locSector l) = u at hh
    have hn (b : Bool) := (notePast_same u l.space (locSector l) (homeBytes u l.space (locSector l)) ws [] b).canonical hh
    split
    · exact (settlePoison_same _ _ _).canonical ((putLine_same _ _).canonical (hn false))
    · split
      · exact storeLine_canonical _ _ _ _ _ _ ((hn true : (fresh (notePast _ _ _ _ _ _ _)).canonical))
      · refine (settlePoison_same _ _ _).canonical ((putLine_same _ _).canonical (roomL2_canonical _ _ _ ((backCrossing_same _ _ _).canonical ?_)))
        split
        · exact (poison_same _ _ _).canonical (hn false)
        · exact hn false

theorem homeWriteLine_canonical {s : State} (l : Loc) (ws : List Host.Cell) (h : s.canonical) : (homeWriteLine s l ws).canonical := by
  unfold homeWriteLine
  dsimp only
  refine storeLine_canonical _ _ _ _ _ _ ((fresh_same _).canonical (canonical_foldl (fun s x hs => ?_) _
    ((homeLine_same s l.space (locSector l)).canonical h)))
  exact (dropCopies_same _ _ _ _).canonical ((notePast_same _ _ _ _ _ _ _).canonical hs)

theorem l1WriteSector_canonical {s : State} (core : Nat) (l : Loc) (ws : List Host.Cell) (pin : Option Nat) (h : s.canonical) :
    (l1WriteSector s core l ws pin).canonical := by
  unfold l1WriteSector
  dsimp only
  have h1 (c : Prop) [Decidable c] := canonical_ite (c := c) ((dropCopies_same s l.space (locSector l) (fun c => c.place == .l1 core)).canonical h) h
  have hf (c : Prop) [Decidable c] := fillFrom_canonical core l.space (locSector l) l.comp true ((askOwner_same _ core l.space (locSector l)).canonical (h1 c))
  split
  · exact (putCopy_same _ _).canonical ((invalidateOthers_same _ _ _ _ _).canonical ((notePast_same _ _ _ _ _ _ _).canonical
      ((markSeen_same _ _ _ _).canonical (hf _))))
  · exact hf _

theorem writeHomeLine_canonical {s : State} (ws : List (Loc × Byte)) (h : s.canonical) : (writeHomeLine s ws).canonical := by
  unfold writeHomeLine
  split
  · exact h
  · split
    · exact homeWriteLine_canonical _ _ h
    · refine canonical_foldl (fun s k hs => ?_) _ h
      split
      · exact hs
      · exact homeWriteSector_canonical _ _ hs

theorem writeHome_canonical {s : State} (ws : List (Loc × Byte)) (h : s.canonical) : (writeHome s ws).canonical :=
  (endReleases_same _ _).canonical ((clearWritten_same _ _).canonical (canonical_foldl (fun _ _ hs => writeHomeLine_canonical _ hs) _ h))

theorem partyCrossing_same (s : State) (who : Party) (ls : List Loc) : SameStore s (partyCrossing s who ls) := by
  unfold partyCrossing
  split
  · exact .refl s
  · exact .refl s
  · exact SameStore.foldl (fun s l => crossing_same s _ _) _ _

/-- A write at the home slices keeps the storage canonical. -/
theorem performWrite_canonical {s : State} (who : Party) (ws : List (Loc × Byte)) (rel : Option Rel) (h : s.canonical) :
    (performWrite s who ws rel).canonical :=
  (SameStore.foldl (fun s _ => monitorsSee_same s _ _) _ _).canonical ((addRelease_same _ _ _ _).canonical ((markSeen_same _ _ _ _).canonical
    (writeHome_canonical _ ((partyCrossing_same _ _ _).canonical h))))

theorem writeNear_canonical {s : State} (core : Nat) (ws : List (Loc × Byte)) (pin : Option Nat) (rel : Option Rel) (h : s.canonical) :
    (writeNear s core ws pin rel).canonical := by
  unfold writeNear
  refine (addRelease_same _ _ _ _).canonical ((endReleases_same _ _).canonical (canonical_foldl (fun s k hs => ?_) _ h))
  split
  · exact hs
  · rename_i w r _
    dsimp only
    have h2 := l1WriteSector_canonical core w.1 (cellsOf (w :: r)) pin hs
    split
    · exact (limitPins_same _ _).canonical h2
    · exact h2

theorem sendStore_canonical {s : State} (core team : Nat) (ws : List (Loc × Byte)) (rel : Option Rel) (h : s.canonical) :
    (sendStore s core team ws rel).canonical := by
  unfold sendStore
  exact SameStore.canonical (s := List.foldl _ s _) ⟨rfl, rfl, rfl⟩ (canonical_foldl (fun s k hs => dropHeld_canonical k.1 k.2 hs) _ h)

theorem linkLost_canonical {s : State} (l : Loc) (h : s.canonical) : (linkLost s l).canonical := by
  unfold linkLost
  split
  · exact appendError_canonical _ _ _ _ _ h
  · exact h

theorem landFlight_canonical {s : State} (f : Flight) (h : s.canonical) : (landFlight s f).canonical := by
  unfold landFlight
  dsimp only
  have h0 : State.canonical { s with flights := s.flights.erase f } := h
  split
  · exact h0
  · split
    · exact linkLost_canonical _ h0
    · exact performWrite_canonical _ _ _ h0

/-- Writes that land keep the storage canonical. -/
theorem landFlights_canonical {s : State} (p : Flight → Bool) (h : s.canonical) : (landFlights s p).canonical := by
  unfold landFlights
  refine canonical_foldl (fun s f hs => ?_) _ h
  split
  · exact hs
  · exact landFlight_canonical _ hs

theorem writeCore_canonical {s : State} (core team : Nat) (ws : List (Loc × Byte)) (pin : Bool) (rel : Option Rel) (h : s.canonical) :
    (writeCore s core team ws pin rel).canonical := by
  unfold writeCore
  split
  · exact h
  · split
    · exact sendStore_canonical _ _ _ _ h
    · dsimp only
      split
      · exact writeNear_canonical _ _ _ _ (landFlights_canonical _ h)
      · split
        · exact sendStore_canonical _ _ _ _ ((fresh_same _).canonical (landFlights_canonical _ h))
        · exact performWrite_canonical _ _ _ ((fresh_same _).canonical (landFlights_canonical _ h))

theorem outsideWrite_canonical {s : State} (who : Party) (ws : List (Loc × Byte)) (rel : Option Rel) (h : s.canonical) :
    (outsideWrite s who ws rel).canonical := by
  unfold outsideWrite
  dsimp only
  split
  · exact landFlights_canonical _ h
  · exact performWrite_canonical _ _ _ (landFlights_canonical _ h)

theorem writeOutside_canonical {s : State} (who : Party) (ws : List (Loc × Byte)) (h : s.canonical) : (writeOutside s who ws).canonical :=
  outsideWrite_canonical _ _ _ h

theorem hubWrite_canonical {s : State} (pa : Nat) (bs : List Byte) (h : s.canonical) : (hubWrite s pa bs).canonical := outsideWrite_canonical _ _ _ h

/-- The hub's read of its descriptors and commands keeps the storage canonical. -/
theorem hubFetch_canonical {s : State} (ctx pa n : Nat) (h : s.canonical) : (hubFetch s ctx pa n).canonical :=
  fillCodes_canonical _ _ ((partyCrossing_same _ _ _).canonical h)

/-- Reset memory is canonical. -/
theorem reset_memory : Memory.wf State.reset.dram = true ∧ Memory.wf State.reset.hostMem = true ∧ State.reset.peerMem = [] := ⟨by decide, by decide, rfl⟩

end Sys2Proof.Machine
end

