-- ==== Sys2Proof/Laws/PerInstr.lean ====
section
/-! SUPPORT. Per instruction: which of its parts the encoder writes, and that the decoder's constructors give the instruction back from them. -/

namespace Sys2Proof.Laws.Encoding

/-- A word's operation and fields, a 2-byte form's OP5 and registers, a 4-byte form's OP6 and fields name the instruction, and an instruction has
at most one of them. -/
def Statement (i : Instr) : Prop :=
  (∀ op f, i.word? = some (op, f) → op.instr f = i ∧ i.two? = none ∧ i.four? = none) ∧
  (∀ k d b, i.two? = some (k, d, b) → k < 32 ∧ twoInstr k d b = i ∧ i.four? = none) ∧
  (∀ k r, i.four? = some (k, r) → k < 64 ∧ fourInstr k r = i)

theorem ofWord {i : Instr} {op : Op} {f : Fields} (h : i.word? = some (op, f)) (hi : op.instr f = i) (h2 : i.two? = none)
    (h4 : i.four? = none) : Statement i := by
  refine ⟨?_, ?_, ?_⟩
  · intro op' f' h'; rw [h] at h'; cases h'; exact ⟨hi, h2, h4⟩
  · intro k d b h'; rw [h2] at h'; cases h'
  · intro k r h'; rw [h4] at h'; cases h'

theorem ofTwo {i : Instr} {k : Nat} {d b : Fin 32} (hw : i.word? = none) (h : i.two? = some (k, d, b)) (hk : k < 32)
    (hi : twoInstr k d b = i) (h4 : i.four? = none) : Statement i := by
  refine ⟨?_, ?_, ?_⟩
  · intro op f h'; rw [hw] at h'; cases h'
  · intro k' d' b' h'; rw [h] at h'; cases h'; exact ⟨hk, hi, h4⟩
  · intro k' r h'; rw [h4] at h'; cases h'

theorem ofFour {i : Instr} {k : Nat} {r : Four} (hw : i.word? = none) (h2 : i.two? = none) (h : i.four? = some (k, r)) (hk : k < 64)
    (hi : fourInstr k r = i) : Statement i := by
  refine ⟨?_, ?_, ?_⟩
  · intro op f h'; rw [hw] at h'; cases h'
  · intro k' d' b' h'; rw [h2] at h'; cases h'
  · intro k' r' h'; rw [h] at h'; cases h'; exact ⟨hk, hi⟩

theorem ofDevice {i : Instr} (hw : i.word? = none) (h2 : i.two? = none) (h4 : i.four? = none) : Statement i := by
  refine ⟨?_, ?_, ?_⟩
  · intro op f h'; rw [hw] at h'; cases h'
  · intro k d b h'; rw [h2] at h'; cases h'
  · intro k r h'; rw [h4] at h'; cases h'

theorem nop (f : Fields) : Statement (Instr.nop f) := ofWord rfl rfl rfl rfl
theorem bra (f : Fields) : Statement (Instr.bra f) := ofWord rfl rfl rfl rfl
theorem brc (f : Fields) : Statement (Instr.brc f) := ofWord rfl rfl rfl rfl
theorem brd (f : Fields) : Statement (Instr.brd f) := ofWord rfl rfl rfl rfl
theorem fuse (f : Fields) : Statement (Instr.fuse f) := ofWord rfl rfl rfl rfl
theorem jmpi (f : Fields) : Statement (Instr.jmpi f) := ofWord rfl rfl rfl rfl
theorem call (f : Fields) : Statement (Instr.call f) := ofWord rfl rfl rfl rfl
theorem ret (f : Fields) : Statement (Instr.ret f) := ofWord rfl rfl rfl rfl
theorem exit (f : Fields) : Statement (Instr.exit f) := ofWord rfl rfl rfl rfl
theorem yield (f : Fields) : Statement (Instr.yield f) := ofWord rfl rfl rfl rfl
theorem sleepClk (f : Fields) : Statement (Instr.sleepClk f) := ofWord rfl rfl rfl rfl
theorem movem (f : Fields) : Statement (Instr.movem f) := ofWord rfl rfl rfl rfl
theorem brk (f : Fields) : Statement (Instr.brk f) := ofWord rfl rfl rfl rfl
theorem region (f : Fields) : Statement (Instr.region f) := ofWord rfl rfl rfl rfl
theorem commit (f : Fields) : Statement (Instr.commit f) := ofWord rfl rfl rfl rfl
theorem sigchk (f : Fields) : Statement (Instr.sigchk f) := ofWord rfl rfl rfl rfl
theorem sigrst (f : Fields) : Statement (Instr.sigrst f) := ofWord rfl rfl rfl rfl
theorem trap (f : Fields) : Statement (Instr.trap f) := ofWord rfl rfl rfl rfl
theorem eret (f : Fields) : Statement (Instr.eret f) := ofWord rfl rfl rfl rfl
theorem rdspec (f : Fields) : Statement (Instr.rdspec f) := ofWord rfl rfl rfl rfl
theorem wrspec (f : Fields) : Statement (Instr.wrspec f) := ofWord rfl rfl rfl rfl
theorem laneget (f : Fields) : Statement (Instr.laneget f) := ofWord rfl rfl rfl rfl
theorem laneset (f : Fields) : Statement (Instr.laneset f) := ofWord rfl rfl rfl rfl
theorem fmode (f : Fields) : Statement (Instr.fmode f) := ofWord rfl rfl rfl rfl
theorem flclr (f : Fields) : Statement (Instr.flclr f) := ofWord rfl rfl rfl rfl
theorem mov (f : Fields) : Statement (Instr.mov f) := ofWord rfl rfl rfl rfl
theorem movFromQueue (f : Fields) : Statement (Instr.movFromQueue f) := ofWord rfl rfl rfl rfl
theorem movi (f : Fields) : Statement (Instr.movi f) := ofWord rfl rfl rfl rfl
theorem add (f : Fields) : Statement (Instr.add f) := ofWord rfl rfl rfl rfl
theorem sub (f : Fields) : Statement (Instr.sub f) := ofWord rfl rfl rfl rfl
theorem addc (f : Fields) : Statement (Instr.addc f) := ofWord rfl rfl rfl rfl
theorem mul (f : Fields) : Statement (Instr.mul f) := ofWord rfl rfl rfl rfl
theorem mulh (f : Fields) : Statement (Instr.mulh f) := ofWord rfl rfl rfl rfl
theorem mad (f : Fields) : Statement (Instr.mad f) := ofWord rfl rfl rfl rfl
theorem neg (f : Fields) : Statement (Instr.neg f) := ofWord rfl rfl rfl rfl
theorem abs (f : Fields) : Statement (Instr.abs f) := ofWord rfl rfl rfl rfl
theorem min (f : Fields) : Statement (Instr.min f) := ofWord rfl rfl rfl rfl
theorem max (f : Fields) : Statement (Instr.max f) := ofWord rfl rfl rfl rfl
theorem and (f : Fields) : Statement (Instr.and f) := ofWord rfl rfl rfl rfl
theorem or (f : Fields) : Statement (Instr.or f) := ofWord rfl rfl rfl rfl
theorem xor (f : Fields) : Statement (Instr.xor f) := ofWord rfl rfl rfl rfl
theorem not (f : Fields) : Statement (Instr.not f) := ofWord rfl rfl rfl rfl
theorem andn (f : Fields) : Statement (Instr.andn f) := ofWord rfl rfl rfl rfl
theorem shl (f : Fields) : Statement (Instr.shl f) := ofWord rfl rfl rfl rfl
theorem shr (f : Fields) : Statement (Instr.shr f) := ofWord rfl rfl rfl rfl
theorem sar (f : Fields) : Statement (Instr.sar f) := ofWord rfl rfl rfl rfl
theorem rot (f : Fields) : Statement (Instr.rot f) := ofWord rfl rfl rfl rfl
theorem clz (f : Fields) : Statement (Instr.clz f) := ofWord rfl rfl rfl rfl
theorem popc (f : Fields) : Statement (Instr.popc f) := ofWord rfl rfl rfl rfl
theorem brev (f : Fields) : Statement (Instr.brev f) := ofWord rfl rfl rfl rfl
theorem bfe (f : Fields) : Statement (Instr.bfe f) := ofWord rfl rfl rfl rfl
theorem bfi (f : Fields) : Statement (Instr.bfi f) := ofWord rfl rfl rfl rfl
theorem sel (f : Fields) : Statement (Instr.sel f) := ofWord rfl rfl rfl rfl
theorem cmp (f : Fields) : Statement (Instr.cmp f) := ofWord rfl rfl rfl rfl
theorem lea (f : Fields) : Statement (Instr.lea f) := ofWord rfl rfl rfl rfl
theorem div (f : Fields) : Statement (Instr.div f) := ofWord rfl rfl rfl rfl
theorem rem (f : Fields) : Statement (Instr.rem f) := ofWord rfl rfl rfl rfl
theorem fadd (f : Fields) : Statement (Instr.fadd f) := ofWord rfl rfl rfl rfl
theorem fsub (f : Fields) : Statement (Instr.fsub f) := ofWord rfl rfl rfl rfl
theorem fmul (f : Fields) : Statement (Instr.fmul f) := ofWord rfl rfl rfl rfl
theorem ffma (f : Fields) : Statement (Instr.ffma f) := ofWord rfl rfl rfl rfl
theorem fmin (f : Fields) : Statement (Instr.fmin f) := ofWord rfl rfl rfl rfl
theorem fmax (f : Fields) : Statement (Instr.fmax f) := ofWord rfl rfl rfl rfl
theorem fabs (f : Fields) : Statement (Instr.fabs f) := ofWord rfl rfl rfl rfl
theorem fneg (f : Fields) : Statement (Instr.fneg f) := ofWord rfl rfl rfl rfl
theorem fcmp (f : Fields) : Statement (Instr.fcmp f) := ofWord rfl rfl rfl rfl
theorem fclass (f : Fields) : Statement (Instr.fclass f) := ofWord rfl rfl rfl rfl
theorem frnd (f : Fields) : Statement (Instr.frnd f) := ofWord rfl rfl rfl rfl
theorem frcp (f : Fields) : Statement (Instr.frcp f) := ofWord rfl rfl rfl rfl
theorem frsq (f : Fields) : Statement (Instr.frsq f) := ofWord rfl rfl rfl rfl
theorem fsqrt (f : Fields) : Statement (Instr.fsqrt f) := ofWord rfl rfl rfl rfl
theorem fexp2 (f : Fields) : Statement (Instr.fexp2 f) := ofWord rfl rfl rfl rfl
theorem flog2 (f : Fields) : Statement (Instr.flog2 f) := ofWord rfl rfl rfl rfl
theorem fsin (f : Fields) : Statement (Instr.fsin f) := ofWord rfl rfl rfl rfl
theorem fcos (f : Fields) : Statement (Instr.fcos f) := ofWord rfl rfl rfl rfl
theorem ftanh (f : Fields) : Statement (Instr.ftanh f) := ofWord rfl rfl rfl rfl
theorem fdot2 (f : Fields) : Statement (Instr.fdot2 f) := ofWord rfl rfl rfl rfl
theorem cvt (f : Fields) : Statement (Instr.cvt f) := ofWord rfl rfl rfl rfl
theorem pack (f : Fields) : Statement (Instr.pack f) := ofWord rfl rfl rfl rfl
theorem unpack (f : Fields) : Statement (Instr.unpack f) := ofWord rfl rfl rfl rfl
theorem sxq (f : Fields) : Statement (Instr.sxq f) := ofWord rfl rfl rfl rfl
theorem sxd (f : Fields) : Statement (Instr.sxd f) := ofWord rfl rfl rfl rfl
theorem tag (f : Fields) : Statement (Instr.tag f) := ofWord rfl rfl rfl rfl
theorem tagof (f : Fields) : Statement (Instr.tagof f) := ofWord rfl rfl rfl rfl
theorem shfl (f : Fields) : Statement (Instr.shfl f) := ofWord rfl rfl rfl rfl
theorem ballot (f : Fields) : Statement (Instr.ballot f) := ofWord rfl rfl rfl rfl
theorem vote (f : Fields) : Statement (Instr.vote f) := ofWord rfl rfl rfl rfl
theorem lred (f : Fields) : Statement (Instr.lred f) := ofWord rfl rfl rfl rfl
theorem scan (f : Fields) : Statement (Instr.scan f) := ofWord rfl rfl rfl rfl
theorem matchKeys (f : Fields) : Statement (Instr.matchKeys f) := ofWord rfl rfl rfl rfl
theorem bcast (f : Fields) : Statement (Instr.bcast f) := ofWord rfl rfl rfl rfl
theorem firstLane (f : Fields) : Statement (Instr.firstLane f) := ofWord rfl rfl rfl rfl
theorem pand (f : Fields) : Statement (Instr.pand f) := ofWord rfl rfl rfl rfl
theorem por (f : Fields) : Statement (Instr.por f) := ofWord rfl rfl rfl rfl
theorem pxor (f : Fields) : Statement (Instr.pxor f) := ofWord rfl rfl rfl rfl
theorem pnot (f : Fields) : Statement (Instr.pnot f) := ofWord rfl rfl rfl rfl
theorem pmov (f : Fields) : Statement (Instr.pmov f) := ofWord rfl rfl rfl rfl
theorem pcnt (f : Fields) : Statement (Instr.pcnt f) := ofWord rfl rfl rfl rfl
theorem ld (f : Fields) : Statement (Instr.ld f) := ofWord rfl rfl rfl rfl
theorem st (f : Fields) : Statement (Instr.st f) := ofWord rfl rfl rfl rfl
theorem lds (f : Fields) : Statement (Instr.lds f) := ofWord rfl rfl rfl rfl
theorem sts (f : Fields) : Statement (Instr.sts f) := ofWord rfl rfl rfl rfl
theorem pref (f : Fields) : Statement (Instr.pref f) := ofWord rfl rfl rfl rfl
theorem clean (f : Fields) : Statement (Instr.clean f) := ofWord rfl rfl rfl rfl
theorem inval (f : Fields) : Statement (Instr.inval f) := ofWord rfl rfl rfl rfl
theorem clinv (f : Fields) : Statement (Instr.clinv f) := ofWord rfl rfl rfl rfl
theorem fence (f : Fields) : Statement (Instr.fence f) := ofWord rfl rfl rfl rfl
theorem fprobe (f : Fields) : Statement (Instr.fprobe f) := ofWord rfl rfl rfl rfl
theorem atom (f : Fields) : Statement (Instr.atom f) := ofWord rfl rfl rfl rfl
theorem mred (f : Fields) : Statement (Instr.mred f) := ofWord rfl rfl rfl rfl
theorem waitc (f : Fields) : Statement (Instr.waitc f) := ofWord rfl rfl rfl rfl
theorem bara (f : Fields) : Statement (Instr.bara f) := ofWord rfl rfl rfl rfl
theorem bars (f : Fields) : Statement (Instr.bars f) := ofWord rfl rfl rfl rfl
theorem barq (f : Fields) : Statement (Instr.barq f) := ofWord rfl rfl rfl rfl
theorem talloc (f : Fields) : Statement (Instr.talloc f) := ofWord rfl rfl rfl rfl
theorem tfree (f : Fields) : Statement (Instr.tfree f) := ofWord rfl rfl rfl rfl
theorem tstat (f : Fields) : Statement (Instr.tstat f) := ofWord rfl rfl rfl rfl
theorem tset (f : Fields) : Statement (Instr.tset f) := ofWord rfl rfl rfl rfl
theorem cpyIn (f : Fields) : Statement (Instr.cpyIn f) := ofWord rfl rfl rfl rfl
theorem cpyOut (f : Fields) : Statement (Instr.cpyOut f) := ofWord rfl rfl rfl rfl
theorem cpyMm (f : Fields) : Statement (Instr.cpyMm f) := ofWord rfl rfl rfl rfl
theorem mma (f : Fields) : Statement (Instr.mma f) := ofWord rfl rfl rfl rfl
theorem mzero (f : Fields) : Statement (Instr.mzero f) := ofWord rfl rfl rfl rfl
theorem mload (f : Fields) : Statement (Instr.mload f) := ofWord rfl rfl rfl rfl
theorem mdrain (f : Fields) : Statement (Instr.mdrain f) := ofWord rfl rfl rfl rfl
theorem mdrainAdd (f : Fields) : Statement (Instr.mdrainAdd f) := ofWord rfl rfl rfl rfl
theorem stash (f : Fields) : Statement (Instr.stash f) := ofWord rfl rfl rfl rfl
theorem restore (f : Fields) : Statement (Instr.restore f) := ofWord rfl rfl rfl rfl
theorem xcfg (f : Fields) : Statement (Instr.xcfg f) := ofWord rfl rfl rfl rfl
theorem xpool (f : Fields) : Statement (Instr.xpool f) := ofWord rfl rfl rfl rfl
theorem xration (f : Fields) : Statement (Instr.xration f) := ofWord rfl rfl rfl rfl
theorem xrun (f : Fields) : Statement (Instr.xrun f) := ofWord rfl rfl rfl rfl
theorem xgate (f : Fields) : Statement (Instr.xgate f) := ofWord rfl rfl rfl rfl
theorem xstat (f : Fields) : Statement (Instr.xstat f) := ofWord rfl rfl rfl rfl
theorem post (f : Fields) : Statement (Instr.post f) := ofWord rfl rfl rfl rfl
theorem mov2B (d b : Fin 32) : Statement (Instr.mov2B d b) := ofTwo rfl rfl (by decide) rfl rfl
theorem not2B (d b : Fin 32) : Statement (Instr.not2B d b) := ofTwo rfl rfl (by decide) rfl rfl
theorem and2B (d b : Fin 32) : Statement (Instr.and2B d b) := ofTwo rfl rfl (by decide) rfl rfl
theorem or2B (d b : Fin 32) : Statement (Instr.or2B d b) := ofTwo rfl rfl (by decide) rfl rfl
theorem xor2B (d b : Fin 32) : Statement (Instr.xor2B d b) := ofTwo rfl rfl (by decide) rfl rfl
theorem andn2B (d b : Fin 32) : Statement (Instr.andn2B d b) := ofTwo rfl rfl (by decide) rfl rfl
theorem shl2B (d b : Fin 32) : Statement (Instr.shl2B d b) := ofTwo rfl rfl (by decide) rfl rfl
theorem shr2B (d b : Fin 32) : Statement (Instr.shr2B d b) := ofTwo rfl rfl (by decide) rfl rfl
theorem addI322B (d b : Fin 32) : Statement (Instr.addI322B d b) := ofTwo rfl rfl (by decide) rfl rfl
theorem addN322B (d b : Fin 32) : Statement (Instr.addN322B d b) := ofTwo rfl rfl (by decide) rfl rfl
theorem subI322B (d b : Fin 32) : Statement (Instr.subI322B d b) := ofTwo rfl rfl (by decide) rfl rfl
theorem subN322B (d b : Fin 32) : Statement (Instr.subN322B d b) := ofTwo rfl rfl (by decide) rfl rfl
theorem mulI322B (d b : Fin 32) : Statement (Instr.mulI322B d b) := ofTwo rfl rfl (by decide) rfl rfl
theorem mulN322B (d b : Fin 32) : Statement (Instr.mulN322B d b) := ofTwo rfl rfl (by decide) rfl rfl
theorem minI322B (d b : Fin 32) : Statement (Instr.minI322B d b) := ofTwo rfl rfl (by decide) rfl rfl
theorem maxI322B (d b : Fin 32) : Statement (Instr.maxI322B d b) := ofTwo rfl rfl (by decide) rfl rfl
theorem minN322B (d b : Fin 32) : Statement (Instr.minN322B d b) := ofTwo rfl rfl (by decide) rfl rfl
theorem maxN322B (d b : Fin 32) : Statement (Instr.maxN322B d b) := ofTwo rfl rfl (by decide) rfl rfl
theorem sarI322B (d b : Fin 32) : Statement (Instr.sarI322B d b) := ofTwo rfl rfl (by decide) rfl rfl
theorem negI322B (d b : Fin 32) : Statement (Instr.negI322B d b) := ofTwo rfl rfl (by decide) rfl rfl
theorem addI162B (d b : Fin 32) : Statement (Instr.addI162B d b) := ofTwo rfl rfl (by decide) rfl rfl
theorem addI82B (d b : Fin 32) : Statement (Instr.addI82B d b) := ofTwo rfl rfl (by decide) rfl rfl
theorem absI322B (d b : Fin 32) : Statement (Instr.absI322B d b) := ofTwo rfl rfl (by decide) rfl rfl
theorem fnegF322B (d b : Fin 32) : Statement (Instr.fnegF322B d b) := ofTwo rfl rfl (by decide) rfl rfl
theorem faddF322B (d b : Fin 32) : Statement (Instr.faddF322B d b) := ofTwo rfl rfl (by decide) rfl rfl
theorem fsubF322B (d b : Fin 32) : Statement (Instr.fsubF322B d b) := ofTwo rfl rfl (by decide) rfl rfl
theorem fmulF322B (d b : Fin 32) : Statement (Instr.fmulF322B d b) := ofTwo rfl rfl (by decide) rfl rfl
theorem fminF322B (d b : Fin 32) : Statement (Instr.fminF322B d b) := ofTwo rfl rfl (by decide) rfl rfl
theorem fmaxF322B (d b : Fin 32) : Statement (Instr.fmaxF322B d b) := ofTwo rfl rfl (by decide) rfl rfl
theorem faddBf162B (d b : Fin 32) : Statement (Instr.faddBf162B d b) := ofTwo rfl rfl (by decide) rfl rfl
theorem fmulBf162B (d b : Fin 32) : Statement (Instr.fmulBf162B d b) := ofTwo rfl rfl (by decide) rfl rfl
theorem fabsF322B (d b : Fin 32) : Statement (Instr.fabsF322B d b) := ofTwo rfl rfl (by decide) rfl rfl
theorem mov4B (r : Four) : Statement (Instr.mov4B r) := ofFour rfl rfl rfl (by decide) rfl
theorem movi4B (r : Four) : Statement (Instr.movi4B r) := ofFour rfl rfl rfl (by decide) rfl
theorem and4B (r : Four) : Statement (Instr.and4B r) := ofFour rfl rfl rfl (by decide) rfl
theorem or4B (r : Four) : Statement (Instr.or4B r) := ofFour rfl rfl rfl (by decide) rfl
theorem xor4B (r : Four) : Statement (Instr.xor4B r) := ofFour rfl rfl rfl (by decide) rfl
theorem andn4B (r : Four) : Statement (Instr.andn4B r) := ofFour rfl rfl rfl (by decide) rfl
theorem shl4B (r : Four) : Statement (Instr.shl4B r) := ofFour rfl rfl rfl (by decide) rfl
theorem shr4B (r : Four) : Statement (Instr.shr4B r) := ofFour rfl rfl rfl (by decide) rfl
theorem addI324B (r : Four) : Statement (Instr.addI324B r) := ofFour rfl rfl rfl (by decide) rfl
theorem addN324B (r : Four) : Statement (Instr.addN324B r) := ofFour rfl rfl rfl (by decide) rfl
theorem addI644B (r : Four) : Statement (Instr.addI644B r) := ofFour rfl rfl rfl (by decide) rfl
theorem addN644B (r : Four) : Statement (Instr.addN644B r) := ofFour rfl rfl rfl (by decide) rfl
theorem subI324B (r : Four) : Statement (Instr.subI324B r) := ofFour rfl rfl rfl (by decide) rfl
theorem subN324B (r : Four) : Statement (Instr.subN324B r) := ofFour rfl rfl rfl (by decide) rfl
theorem subI644B (r : Four) : Statement (Instr.subI644B r) := ofFour rfl rfl rfl (by decide) rfl
theorem subN644B (r : Four) : Statement (Instr.subN644B r) := ofFour rfl rfl rfl (by decide) rfl
theorem mulI324B (r : Four) : Statement (Instr.mulI324B r) := ofFour rfl rfl rfl (by decide) rfl
theorem mulN324B (r : Four) : Statement (Instr.mulN324B r) := ofFour rfl rfl rfl (by decide) rfl
theorem mulN644B (r : Four) : Statement (Instr.mulN644B r) := ofFour rfl rfl rfl (by decide) rfl
theorem mulhN324B (r : Four) : Statement (Instr.mulhN324B r) := ofFour rfl rfl rfl (by decide) rfl
theorem minI324B (r : Four) : Statement (Instr.minI324B r) := ofFour rfl rfl rfl (by decide) rfl
theorem maxI324B (r : Four) : Statement (Instr.maxI324B r) := ofFour rfl rfl rfl (by decide) rfl
theorem minN324B (r : Four) : Statement (Instr.minN324B r) := ofFour rfl rfl rfl (by decide) rfl
theorem maxN324B (r : Four) : Statement (Instr.maxN324B r) := ofFour rfl rfl rfl (by decide) rfl
theorem sarI324B (r : Four) : Statement (Instr.sarI324B r) := ofFour rfl rfl rfl (by decide) rfl
theorem sarI644B (r : Four) : Statement (Instr.sarI644B r) := ofFour rfl rfl rfl (by decide) rfl
theorem rot4B (r : Four) : Statement (Instr.rot4B r) := ofFour rfl rfl rfl (by decide) rfl
theorem not4B (r : Four) : Statement (Instr.not4B r) := ofFour rfl rfl rfl (by decide) rfl
theorem popc4B (r : Four) : Statement (Instr.popc4B r) := ofFour rfl rfl rfl (by decide) rfl
theorem clz4B (r : Four) : Statement (Instr.clz4B r) := ofFour rfl rfl rfl (by decide) rfl
theorem negI324B (r : Four) : Statement (Instr.negI324B r) := ofFour rfl rfl rfl (by decide) rfl
theorem divN324B (r : Four) : Statement (Instr.divN324B r) := ofFour rfl rfl rfl (by decide) rfl
theorem cmpEqI324B (r : Four) : Statement (Instr.cmpEqI324B r) := ofFour rfl rfl rfl (by decide) rfl
theorem cmpNeI324B (r : Four) : Statement (Instr.cmpNeI324B r) := ofFour rfl rfl rfl (by decide) rfl
theorem cmpLtI324B (r : Four) : Statement (Instr.cmpLtI324B r) := ofFour rfl rfl rfl (by decide) rfl
theorem cmpGeI324B (r : Four) : Statement (Instr.cmpGeI324B r) := ofFour rfl rfl rfl (by decide) rfl
theorem cmpEqN324B (r : Four) : Statement (Instr.cmpEqN324B r) := ofFour rfl rfl rfl (by decide) rfl
theorem cmpNeN324B (r : Four) : Statement (Instr.cmpNeN324B r) := ofFour rfl rfl rfl (by decide) rfl
theorem cmpLtN324B (r : Four) : Statement (Instr.cmpLtN324B r) := ofFour rfl rfl rfl (by decide) rfl
theorem cmpGeN324B (r : Four) : Statement (Instr.cmpGeN324B r) := ofFour rfl rfl rfl (by decide) rfl
theorem cmpEqI644B (r : Four) : Statement (Instr.cmpEqI644B r) := ofFour rfl rfl rfl (by decide) rfl
theorem cmpNeI644B (r : Four) : Statement (Instr.cmpNeI644B r) := ofFour rfl rfl rfl (by decide) rfl
theorem cmpLtI644B (r : Four) : Statement (Instr.cmpLtI644B r) := ofFour rfl rfl rfl (by decide) rfl
theorem cmpGtI644B (r : Four) : Statement (Instr.cmpGtI644B r) := ofFour rfl rfl rfl (by decide) rfl
theorem cmpLtN644B (r : Four) : Statement (Instr.cmpLtN644B r) := ofFour rfl rfl rfl (by decide) rfl
theorem cmpGeN644B (r : Four) : Statement (Instr.cmpGeN644B r) := ofFour rfl rfl rfl (by decide) rfl
theorem fcmpLtF324B (r : Four) : Statement (Instr.fcmpLtF324B r) := ofFour rfl rfl rfl (by decide) rfl
theorem fcmpGeF324B (r : Four) : Statement (Instr.fcmpGeF324B r) := ofFour rfl rfl rfl (by decide) rfl
theorem faddF324B (r : Four) : Statement (Instr.faddF324B r) := ofFour rfl rfl rfl (by decide) rfl
theorem fsubF324B (r : Four) : Statement (Instr.fsubF324B r) := ofFour rfl rfl rfl (by decide) rfl
theorem fmulF324B (r : Four) : Statement (Instr.fmulF324B r) := ofFour rfl rfl rfl (by decide) rfl
theorem fminF324B (r : Four) : Statement (Instr.fminF324B r) := ofFour rfl rfl rfl (by decide) rfl
theorem fmaxF324B (r : Four) : Statement (Instr.fmaxF324B r) := ofFour rfl rfl rfl (by decide) rfl
theorem faddBf164B (r : Four) : Statement (Instr.faddBf164B r) := ofFour rfl rfl rfl (by decide) rfl
theorem fmulBf164B (r : Four) : Statement (Instr.fmulBf164B r) := ofFour rfl rfl rfl (by decide) rfl
theorem frcpF324B (r : Four) : Statement (Instr.frcpF324B r) := ofFour rfl rfl rfl (by decide) rfl
theorem shflUp4B (r : Four) : Statement (Instr.shflUp4B r) := ofFour rfl rfl rfl (by decide) rfl
theorem shflDn4B (r : Four) : Statement (Instr.shflDn4B r) := ofFour rfl rfl rfl (by decide) rfl
theorem shflXor4B (r : Four) : Statement (Instr.shflXor4B r) := ofFour rfl rfl rfl (by decide) rfl
theorem shflIdx4B (r : Four) : Statement (Instr.shflIdx4B r) := ofFour rfl rfl rfl (by decide) rfl
theorem ballot4B (r : Four) : Statement (Instr.ballot4B r) := ofFour rfl rfl rfl (by decide) rfl
theorem voteAny4B (r : Four) : Statement (Instr.voteAny4B r) := ofFour rfl rfl rfl (by decide) rfl
theorem voteAll4B (r : Four) : Statement (Instr.voteAll4B r) := ofFour rfl rfl rfl (by decide) rfl
theorem lredAddF324B (r : Four) : Statement (Instr.lredAddF324B r) := ofFour rfl rfl rfl (by decide) rfl
theorem illegalWordIssue (len : Nat) : Statement (Instr.illegalWordIssue len) := ofDevice rfl rfl rfl
theorem fetchFaultIssue (len : Nat) : Statement (Instr.fetchFaultIssue len) := ofDevice rfl rfl rfl
theorem icacheFill (core ctx : Nat) (pc : VAddr) : Statement (Instr.icacheFill core ctx pc) := ofDevice rfl rfl rfl
theorem longLatencyWriteback (gid id : Nat) : Statement (Instr.longLatencyWriteback gid id) := ofDevice rfl rfl rfl
theorem commitProceed (gid node : Nat) : Statement (Instr.commitProceed gid node) := ofDevice rfl rfl rfl
theorem storeQueueRetire (gid : Nat) : Statement (Instr.storeQueueRetire gid) := ofDevice rfl rfl rfl
theorem monitorWake (gid node : Nat) : Statement (Instr.monitorWake gid node) := ofDevice rfl rfl rfl
theorem monitorRecheck (gid node : Nat) : Statement (Instr.monitorRecheck gid node) := ofDevice rfl rfl rfl
theorem barrierArrive (gid node : Nat) : Statement (Instr.barrierArrive gid node) := ofDevice rfl rfl rfl
theorem probeComplete (gid node : Nat) : Statement (Instr.probeComplete gid node) := ofDevice rfl rfl rfl
theorem sleepExpire (gid node : Nat) : Statement (Instr.sleepExpire gid node) := ofDevice rfl rfl rfl
theorem rangeOpComplete (gid id : Nat) : Statement (Instr.rangeOpComplete gid id) := ofDevice rfl rfl rfl
theorem retryResend (gid id : Nat) : Statement (Instr.retryResend gid id) := ofDevice rfl rfl rfl
theorem pageWalkComplete (die idx : Nat) : Statement (Instr.pageWalkComplete die idx) := ofDevice rfl rfl rfl
theorem l2Eviction (line : Nat) (guest : Option Nat) (drop : Bool) (code : BitVec 2) (bad : Bool) : Statement (Instr.l2Eviction line guest drop code bad) := ofDevice rfl rfl rfl
theorem matrixCmdStart (gid : Nat) : Statement (Instr.matrixCmdStart gid) := ofDevice rfl rfl rfl
theorem mdrainHoldGrant (gid : Nat) : Statement (Instr.mdrainHoldGrant gid) := ofDevice rfl rfl rfl
theorem matrixCmdComplete (gid : Nat) : Statement (Instr.matrixCmdComplete gid) := ofDevice rfl rfl rfl
theorem copyCmdStart (gid : Nat) : Statement (Instr.copyCmdStart gid) := ofDevice rfl rfl rfl
theorem copyCmdComplete (gid : Nat) : Statement (Instr.copyCmdComplete gid) := ofDevice rfl rfl rfl
theorem cicadaCmdStart (gid : Nat) : Statement (Instr.cicadaCmdStart gid) := ofDevice rfl rfl rfl
theorem cicadaCmdComplete (gid : Nat) : Statement (Instr.cicadaCmdComplete gid) := ofDevice rfl rfl rfl
theorem taskRecordStore (gid : Nat) : Statement (Instr.taskRecordStore gid) := ofDevice rfl rfl rfl
theorem continuationStart (die core : Nat) : Statement (Instr.continuationStart die core) := ofDevice rfl rfl rfl
theorem scheduleStart (arr : Nat) : Statement (Instr.scheduleStart arr) := ofDevice rfl rfl rfl
theorem gateStep (arr : Nat) : Statement (Instr.gateStep arr) := ofDevice rfl rfl rfl
theorem scheduleResume (arr : Nat) : Statement (Instr.scheduleResume arr) := ofDevice rfl rfl rfl
theorem scheduleEnd (arr : Nat) : Statement (Instr.scheduleEnd arr) := ofDevice rfl rfl rfl
theorem arrayReadAdmit (arr idx : Nat) : Statement (Instr.arrayReadAdmit arr idx) := ofDevice rfl rfl rfl
theorem arrayConfigApply (arr : Nat) : Statement (Instr.arrayConfigApply arr) := ofDevice rfl rfl rfl
theorem teamPlace (kernel core : Nat) : Statement (Instr.teamPlace kernel core) := ofDevice rfl rfl rfl
theorem teamStartDelayExpire (team : Nat) : Statement (Instr.teamStartDelayExpire team) := ofDevice rfl rfl rfl
theorem teamEvict (team : Nat) : Statement (Instr.teamEvict team) := ofDevice rfl rfl rfl
theorem teamImageWritten (team : Nat) : Statement (Instr.teamImageWritten team) := ofDevice rfl rfl rfl
theorem kernelRetiring (kernel : Nat) : Statement (Instr.kernelRetiring kernel) := ofDevice rfl rfl rfl
theorem kernelRetire (kernel : Nat) : Statement (Instr.kernelRetire kernel) := ofDevice rfl rfl rfl
theorem commandDoorbell (pi : BitVec 32) : Statement (Instr.commandDoorbell pi) := ofDevice rfl rfl rfl
theorem cmdCreate : Statement (Instr.cmdCreate) := ofDevice rfl rfl rfl
theorem cmdStart : Statement (Instr.cmdStart) := ofDevice rfl rfl rfl
theorem cmdSave : Statement (Instr.cmdSave) := ofDevice rfl rfl rfl
theorem ctxRestore : Statement (Instr.ctxRestore) := ofDevice rfl rfl rfl
theorem cmdHalt : Statement (Instr.cmdHalt) := ofDevice rfl rfl rfl
theorem cmdDestroy : Statement (Instr.cmdDestroy) := ofDevice rfl rfl rfl
theorem cmdBind : Statement (Instr.cmdBind) := ofDevice rfl rfl rfl
theorem cmdUnbind : Statement (Instr.cmdUnbind) := ofDevice rfl rfl rfl
theorem cmdFaultq : Statement (Instr.cmdFaultq) := ofDevice rfl rfl rfl
theorem cmdFqConsume : Statement (Instr.cmdFqConsume) := ofDevice rfl rfl rfl
theorem cmdResolve : Statement (Instr.cmdResolve) := ofDevice rfl rfl rfl
theorem cmdShootdown : Statement (Instr.cmdShootdown) := ofDevice rfl rfl rfl
theorem cmdRatio : Statement (Instr.cmdRatio) := ofDevice rfl rfl rfl
theorem cmdPhase : Statement (Instr.cmdPhase) := ofDevice rfl rfl rfl
theorem cmdDrain : Statement (Instr.cmdDrain) := ofDevice rfl rfl rfl
theorem cmdCntCfg : Statement (Instr.cmdCntCfg) := ofDevice rfl rfl rfl
theorem cmdCntDump : Statement (Instr.cmdCntDump) := ofDevice rfl rfl rfl
theorem infieldScan : Statement (Instr.infieldScan) := ofDevice rfl rfl rfl
theorem scanTestComplete (result : BitVec 16) : Statement (Instr.scanTestComplete result) := ofDevice rfl rfl rfl
theorem cmdClksample : Statement (Instr.cmdClksample) := ofDevice rfl rfl rfl
theorem cmdFreqCap : Statement (Instr.cmdFreqCap) := ofDevice rfl rfl rfl
theorem reservedCommand : Statement (Instr.reservedCommand) := ofDevice rfl rfl rfl
theorem haltLineAssert (ctx : Nat) : Statement (Instr.haltLineAssert ctx) := ofDevice rfl rfl rfl
theorem contextStopComplete (ctx : Nat) : Statement (Instr.contextStopComplete ctx) := ofDevice rfl rfl rfl
theorem restoreImagesChecked (ctx : Nat) : Statement (Instr.restoreImagesChecked ctx) := ofDevice rfl rfl rfl
theorem contextTeardownComplete (ctx : Nat) : Statement (Instr.contextTeardownComplete ctx) := ofDevice rfl rfl rfl
theorem coreMapRebuild (die : Nat) : Statement (Instr.coreMapRebuild die) := ofDevice rfl rfl rfl
theorem workQueueDoorbell (q : Nat) (pi : BitVec 32) : Statement (Instr.workQueueDoorbell q pi) := ofDevice rfl rfl rfl
theorem wqLaunch (q : Nat) : Statement (Instr.wqLaunch q) := ofDevice rfl rfl rfl
theorem wqWaitValue (q : Nat) : Statement (Instr.wqWaitValue q) := ofDevice rfl rfl rfl
theorem waitValueSatisfied (q : Nat) : Statement (Instr.waitValueSatisfied q) := ofDevice rfl rfl rfl
theorem waitValueRecheck (q : Nat) : Statement (Instr.waitValueRecheck q) := ofDevice rfl rfl rfl
theorem wqSignal (q : Nat) : Statement (Instr.wqSignal q) := ofDevice rfl rfl rfl
theorem signalExecute (q : Nat) : Statement (Instr.signalExecute q) := ofDevice rfl rfl rfl
theorem wqFence (q : Nat) : Statement (Instr.wqFence q) := ofDevice rfl rfl rfl
theorem allowanceTick (core : Nat) : Statement (Instr.allowanceTick core) := ofDevice rfl rfl rfl
theorem measurementWindow (pkg rails dramW other : BitVec 16) : Statement (Instr.measurementWindow pkg rails dramW other) := ofDevice rfl rfl rfl
theorem freqStepAdjust : Statement (Instr.freqStepAdjust) := ofDevice rfl rfl rfl
theorem freqStepRaise : Statement (Instr.freqStepRaise) := ofDevice rfl rfl rfl
theorem boostTick (die : Nat) : Statement (Instr.boostTick die) := ofDevice rfl rfl rfl
theorem tempBandChange (die : Nat) (band : BitVec 3) : Statement (Instr.tempBandChange die band) := ofDevice rfl rfl rfl
theorem powerStepSet (value : W64) : Statement (Instr.powerStepSet value) := ofDevice rfl rfl rfl
theorem powerHold (value : W64) : Statement (Instr.powerHold value) := ofDevice rfl rfl rfl
theorem pwrfail : Statement (Instr.pwrfail) := ofDevice rfl rfl rfl
theorem powerUp : Statement (Instr.powerUp) := ofDevice rfl rfl rfl
theorem attestationDoorbell (nonce : List Byte) : Statement (Instr.attestationDoorbell nonce) := ofDevice rfl rfl rfl
theorem attestationReportComplete : Statement (Instr.attestationReportComplete) := ofDevice rfl rfl rfl
theorem retrain (link : Nat) : Statement (Instr.retrain link) := ofDevice rfl rfl rfl
theorem linkFlitReceive (link : Nat) (beats : List (Option (BitVec 144))) : Statement (Instr.linkFlitReceive link beats) := ofDevice rfl rfl rfl
theorem replayRequest (req : ReplayReq) : Statement (Instr.replayRequest req) := ofDevice rfl rfl rfl
theorem railLockLoss (link rail : Nat) : Statement (Instr.railLockLoss link rail) := ofDevice rfl rfl rfl
theorem linkTrainComplete (link : Nat) (rails : BitVec 5) : Statement (Instr.linkTrainComplete link rails) := ofDevice rfl rfl rfl
theorem linkTrainTimeout (link : Nat) (rails : BitVec 5) : Statement (Instr.linkTrainTimeout link rails) := ofDevice rfl rfl rfl
theorem peerInboundRequest (port : Nat) (req : PeerReq) (addr : Nat) (data : List Byte) :
    Statement (Instr.peerInboundRequest port req addr data) := ofDevice rfl rfl rfl
theorem hostMemAccess (write : Bool) (addr : Nat) (data : List Byte) : Statement (Instr.hostMemAccess write addr data) := ofDevice rfl rfl rfl
theorem registerWrite (cap : Nat) (offset : Nat) (value : W64) : Statement (Instr.registerWrite cap offset value) := ofDevice rfl rfl rfl
theorem cxlCacheSnoop (line : Nat) (invalidate : Bool) : Statement (Instr.cxlCacheSnoop line invalidate) := ofDevice rfl rfl rfl
theorem setPointRamp : Statement (Instr.setPointRamp) := ofDevice rfl rfl rfl
theorem stepChangeComplete (die : Nat) : Statement (Instr.stepChangeComplete die) := ofDevice rfl rfl rfl

end Sys2Proof.Laws.Encoding
end

