-- ==== Sys2Proof/Laws/Turns.lean ====
section
/-! SUPPORT. What a step can do: one lemma for an attempt, one for a device step, and one for the step itself, which an invariant's proof cites. -/

namespace Sys2Proof.Machine

@[simp] theorem atTurn_turn (s : State) (gid node : Nat) : (atTurn s gid node).turn = none := rfl
@[simp] theorem atTurn_cur (s : State) (gid node : Nat) : (atTurn s gid node).cur = (gid, node) := rfl
@[simp] theorem atTurn_groups (s : State) (gid node : Nat) : (atTurn s gid node).groups = s.groups := rfl
@[simp] theorem atTurn_teams (s : State) (gid node : Nat) : (atTurn s gid node).teams = s.teams := rfl
@[simp] theorem atTurn_cores (s : State) (gid node : Nat) : (atTurn s gid node).cores = s.cores := rfl
@[simp] theorem atTurn_turns (s : State) (gid node : Nat) : (atTurn s gid node).turns = s.turns := rfl

/-- An attempt leaves the outcome of its instruction, or the state with its word fetched, and else moves the turns only. -/
theorem issueTurn_cases (s : State) (e : Env) (i : Instr) (t : State) :
    issueTurn s e i t = { t with turns := (issueTurn s e i t).turns } ∨ issueTurn s e i t = { s with turns := (issueTurn s e i t).turns } := by
  unfold issueTurn
  dsimp only
  split
  · exact .inl rfl
  · split
    · exact .inl rfl
    · exact .inr rfl

/-- The count of withheld slots moves a core's counters only. -/
theorem countWithheld_cores (s t : State) (core : Nat) : countWithheld s t core = { t with cores := (countWithheld s t core).cores } := by
  unfold countWithheld
  dsimp only
  split <;> rfl

/-- A device step leaves its outcome, with the turns and the cores' counters moved at most, or does not take place yet. -/
theorem deviceTurn_cases (s t : State) :
    deviceTurn s t = { t with turns := (deviceTurn s t).turns, cores := (deviceTurn s t).cores } ∨ deviceTurn s t = s := by
  unfold deviceTurn
  split
  · exact .inl rfl
  · split
    · rename_i core hcore x hx
      left
      exact congrArg (fun w : State => { w with turns := x }) (countWithheld_cores s t _)
    · exact .inr rfl

/-- What is taken answers from the instruction's own next state `v`: that, or the state that it was taken at, but for whose turn it is and what the
cores have counted. -/
theorem runTaken_next {s t u : State} {i : Instr} (h : runTaken s t i = .next u) :
    ∃ v, exec i t = .next v ∧
      (u = { v with turns := u.turns, cores := u.cores } ∨ u = { t with turns := u.turns }) := by
  unfold runTaken at h
  cases hv : exec i t with
  | fault f => simp [hv] at h
  | refused r => simp [hv] at h
  | next v =>
    refine ⟨v, rfl, ?_⟩
    simp only [hv] at h
    split at h
    · split at h
      · rename_i e _
        injection h with h
        subst h
        rcases issueTurn_cases t e i v with h | h
        · exact .inl (by rw [h])
        · exact .inr h
      · injection h with h
        exact .inl (h ▸ rfl)
    · injection h with h
      subst h
      rcases deviceTurn_cases t v with h | h
      · exact .inl h
      · exact .inr (by rw [h])

/-- A step takes nothing, or what it takes has run. -/
theorem step_next {s u : State} (h : step s = .next u) :
    takeNext s = .stay u ∨ ∃ i t v, takeNext s = .run i t ∧ exec i t = .next v ∧
      (u = { v with turns := u.turns, cores := u.cores } ∨ u = { t with turns := u.turns }) := by
  unfold step at h
  cases ht : takeNext s with
  | stay t =>
    simp only [ht] at h
    injection h with h
    exact .inl (by rw [h])
  | run i t =>
    simp only [ht] at h
    obtain ⟨v, hv, hu⟩ := runTaken_next h
    exact .inr ⟨i, t, v, rfl, hv, hu⟩

end Sys2Proof.Machine
end

