-- ==== Sys2Proof/Tests/Slice0.lean ====
section
/-! SUPPORT. The model's own tests: ill-formed instructions that the check refuses, words that spec/ encodes and what they decode to, small steps of
instructions, and for every statement of Certificates/Slice0 with hypotheses a state and operands that meet them, clause by clause. -/

namespace Sys2Proof.Tests

open Sys2Proof Sys2Proof.Machine

/-! ### The small state -/

/-- A full vector register that holds 3 in every lane, under a tag. -/
def reg (t : Nat) : VReg := { lanes := List.replicate 64 3, tag := BitVec.ofNat 4 t, full := true }

/-- A group of 16 vector and 16 scalar registers: v0 to v7 under tag `t`, v8 to v15 under `u`; s0 to s2 are 7, an address of data and 5, s6 and s7 the
geometry and placement of a 2 by 16 F32 tile, s8 and s9 addresses in an array window and on a STASH page; p1 holds lanes 0 and 2. -/
def groupOf (t u : Nat) : Group :=
  { Group.start 0 0 0 false 16 16 0x10000 7 0x20000 5 with
    vregs := List.replicate 8 (reg t) ++ List.replicate 8 (reg u), preds := [5, 0, 0, 0, 0, 0, 0]
    sregs := [7, 0x20000, 5, 0, 0, 0, 0x40_0010_0203, 0, 0x30000, 0x40000, 0, 0, 0, 0, 0, 0].map (fun x => { val := x, full := true }) }

def g0 : Group := groupOf 0 0

def team0 : Team := { placedTeam with launch := { placedLaunch with pV := 16, pS := 16 } }

def ctx0 : Context :=
  { st := .running, desc := placedDesc, raised := [], taken := [], held := [], pendingCmd := none, recreated := false, drained := [], slotsKept := [] }

def sub0 : Sub := Sub.start 0x10000

/-- The pages of code, of data in DRAM, of an array window and of a STASH page, as core 0's TLB holds them. -/
def tlb0 : List Trans :=
  let leaf : Trans := { ctx := 0, also := [], vpn := 2, span := 1, pa := 0x200000, kind := .normal, cache := 0, port := 0, r := true, w := true, x := true, g := false }
  [leaf, { leaf with vpn := 3, pa := 0, kind := .scarab }, { leaf with vpn := 4, pa := 0x300000, kind := .stash }]

/-- One context, one kernel, one team on core 0, one group, whose sub-group `x` issues. -/
def stWith (g : Group) (x : Sub) (tm : Team) (cx : Context) : State :=
  { State.reset with
    status := .ready, cur := (0, x.node), contexts := [(0, cx)], kernels := [(0, placedKernel)], teams := [(0, tm)]
    groups := [(0, { g with subs := x :: g.subs.filter (fun y => y.node != x.node) })], cores := [(0, { Core.reset 0 with tlb := tlb0 })] }

def envWith (g : Group) (x : Sub) (tm : Team) (cx : Context) : Env :=
  { gid := 0, node := x.node, g := { g with subs := x :: g.subs.filter (fun y => y.node != x.node) }, sub := x, team := tm, ctx := cx }

def st0 : State := stWith g0 sub0 team0 ctx0

/-- `Ready`, as a check. -/
def readyB (s : State) (e : Env) (op : Op) (f : Fields) : Bool :=
  decide (envOf s = some e) && (takeDeferred s e).isNone && wfWord op f && !overBudget e op f && (!e.inHandler || handlerAllows op f) &&
  !setsTag15 e.g op f && !mustWait s e op f false && !emptySource e op f && !badTag e op f && !writesProtected e op f

theorem ready_of_check {s : State} {e : Env} {op : Op} {f : Fields} (h : readyB s e op f = true) : Ready s e op f := by
  simp only [readyB, Bool.and_eq_true, decide_eq_true_eq, Option.isNone_iff_eq_none, Bool.not_eq_true', Bool.or_eq_true] at h
  obtain ⟨⟨⟨⟨⟨⟨⟨⟨⟨h1, h2⟩, h3⟩, h4⟩, h5⟩, hc⟩, h6⟩, h7⟩, h8⟩, h9⟩ := h
  exact ⟨h1, h2, h3, h4, fun hh => by rcases h5 with h5 | h5 <;> simp_all, hc, h6, h7, h8, h9⟩

/-- `Legal`, as a check. -/
def legalB (s : State) (e : Env) (op : Op) (f : Fields) : Bool :=
  decide (envOf s = some e) && (takeDeferred s e).isNone && wfWord op f && !overBudget e op f && (!e.inHandler || handlerAllows op f) &&
  !setsTag15 e.g op f

theorem legal_of_check {s : State} {e : Env} {op : Op} {f : Fields} (h : legalB s e op f = true) : Legal s e op f := by
  simp only [legalB, Bool.and_eq_true, decide_eq_true_eq, Option.isNone_iff_eq_none, Bool.not_eq_true', Bool.or_eq_true] at h
  obtain ⟨⟨⟨⟨⟨h1, h2⟩, h3⟩, h4⟩, h5⟩, h6⟩ := h
  exact ⟨h1, h2, h3, h4, fun hh => by rcases h5 with h5 | h5 <;> simp_all, h6⟩

/-- `Group.sized`, as a check. -/
def sizedB (g : Group) : Bool :=
  g.vregs.length == g.v && g.vregs.all (fun r => r.lanes.length == 64) && g.sregs.length == g.s && g.preds.length == 7 && g.fl.length == 5 &&
  g.queues.length == 5

theorem sized_of_check {g : Group} (h : sizedB g = true) : g.sized := by
  simp only [sizedB, Bool.and_eq_true, beq_iff_eq, List.all_eq_true] at h
  exact ⟨h.1.1.1.1.1, h.1.1.1.1.2, h.1.1.1.2, h.1.1.2, h.1.2, h.2⟩

/-- The word is ready in `stWith g x tm cx`, the group is sized, the instruction expands to the word, and `c` holds there. -/
def at_ (g : Group) (x : Sub) (tm : Team) (cx : Context) (op : Op) (f : Fields) (c : State → Env → Bool) : Bool :=
  readyB (stWith g x tm cx) (envWith g x tm cx) op f && sizedB g && decide (Instr.expand (op.instr f) = some (op, f)) &&
  c (stWith g x tm cx) (envWith g x tm cx)

/-- The same on the small state, with the registers' two tags. -/
def on (t u : Nat) (op : Op) (f : Fields) (c : Env → Bool) : Bool := at_ (groupOf t u) sub0 team0 ctx0 op f (fun _ e => c e)

/-- The same on the small state with a group of its own. -/
def onG (g : Group) (op : Op) (f : Fields) (c : State → Env → Bool) : Bool := at_ g sub0 team0 ctx0 op f c

/-- What a check of the small state says, as a statement's hypotheses have it. -/
theorem hyps_of_check {g : Group} {x : Sub} {tm : Team} {cx : Context} {op : Op} {f : Fields} {c : State → Env → Bool}
    (h : at_ g x tm cx op f c = true) :
    Instr.expand (op.instr f) = some (op, f) ∧ Ready (stWith g x tm cx) (envWith g x tm cx) op f ∧ (envWith g x tm cx).g.sized ∧
      c (stWith g x tm cx) (envWith g x tm cx) = true := by
  simp only [at_, Bool.and_eq_true, decide_eq_true_eq] at h
  exact ⟨h.1.2, ready_of_check h.1.1.1, sized_of_check h.1.1.2, h.2⟩

/-- A row of the tables below: a word that is ready on the group with two tags. -/
def readyRow (x : Op × Fields × Nat × Nat) : Bool := on x.2.2.1 x.2.2.2 x.1 x.2.1 (fun _ => true)

/-! ### A ready word of every instruction -/

def controlWords : List (Op × Fields × Nat × Nat) :=
  [(.nop, {}, 0, 0), (.bra, {}, 0, 0), (.brc, { sa := .p 1 }, 0, 0), (.brd, { sa := .p 1 }, 0, 0), (.fuse, {}, 0, 0),
   (.jmpi, { sa := .s 1 }, 0, 0), (.call, {}, 0, 0), (.call, { dst := .s 4 }, 0, 0), (.ret, {}, 0, 0), (.exit, {}, 0, 0), (.yield, {}, 0, 0),
   (.sleepClk, {}, 0, 0), (.movem, { sa := .s 1 }, 0, 0), (.brk, {}, 0, 0), (.region, {}, 0, 0), (.commit, {}, 0, 0), (.sigchk, {}, 0, 0),
   (.sigrst, {}, 0, 0), (.trap, {}, 0, 0), (.eret, {}, 0, 0), (.rdspec, { dst := .v 4 }, 0, 0), (.rdspec, { dst := .s 4 }, 0, 0),
   (.wrspec, {}, 0, 0), (.laneget, { dst := .s 4, sa := .v 0 }, 0, 0), (.laneset, { dst := .v 4, sa := .s 1 }, 0, 0), (.fmode, {}, 0, 0),
   (.fmode, { dst := .s 4 }, 0, 0), (.flclr, {}, 0, 0)]

theorem witness_ready_control : controlWords.all readyRow = true := by decide

def integerWords : List (Op × Fields × Nat × Nat) :=
  [(.mov, { dst := .v 4, sa := .v 0 }, 0, 0), (.mov, { dst := .s 4, sa := .s 1 }, 0, 0), (.movi, { dst := .v 4 }, 0, 0), (.movi, { dst := .s 4 }, 0, 0), (.add, { dst := .v 4, sa := .v 0, sb := .v 2, ty := .n32 }, 2, 0),
   (.add, { dst := .s 4, sa := .s 1, sb := .s 2, ty := .n32 }, 0, 0), (.sub, { dst := .v 4, sa := .v 0, sb := .v 2, ty := .n32 }, 2, 0),
   (.sub, { dst := .s 4, sa := .s 1, sb := .s 2, ty := .n32 }, 0, 0),
   (.addc, { dst := .v 4, sa := .v 0, sb := .v 2, sc := .p 1, ty := .n32 }, 2, 0),
   (.addc, { dst := .s 4, sa := .s 1, sb := .s 2, sc := .p 1, ty := .n32 }, 0, 0),
   (.mul, { dst := .v 4, sa := .v 0, sb := .v 2, ty := .n32 }, 2, 0), (.mul, { dst := .s 4, sa := .s 1, sb := .s 2, ty := .n32 }, 0, 0),
   (.mulh, { dst := .v 4, sa := .v 0, sb := .v 2, ty := .n32 }, 2, 0), (.mulh, { dst := .s 4, sa := .s 1, sb := .s 2, ty := .n32 }, 0, 0),
   (.mad, { dst := .v 4, sa := .v 0, sb := .v 2, sc := .v 3, ty := .n32 }, 2, 0),
   (.mad, { dst := .s 4, sa := .s 1, sb := .s 2, sc := .s 3, ty := .n32 }, 0, 0), (.neg, { dst := .v 4, sa := .v 0, ty := .n32 }, 2, 0),
   (.neg, { dst := .s 4, sa := .s 1, ty := .n32 }, 0, 0), (.abs, { dst := .v 4, sa := .v 0, ty := .i32 }, 1, 0),
   (.abs, { dst := .s 4, sa := .s 1, ty := .i32 }, 0, 0), (.min, { dst := .v 4, sa := .v 0, sb := .v 2, ty := .n32 }, 2, 0),
   (.min, { dst := .s 4, sa := .s 1, sb := .s 2, ty := .n32 }, 0, 0), (.max, { dst := .v 4, sa := .v 0, sb := .v 2, ty := .n32 }, 2, 0),
   (.max, { dst := .s 4, sa := .s 1, sb := .s 2, ty := .n32 }, 0, 0)]

theorem witness_ready_integer : integerWords.all readyRow = true := by decide

def bitsWords : List (Op × Fields × Nat × Nat) :=
  [(.and, { dst := .v 4, sa := .v 0, sb := .v 2 }, 0, 0), (.and, { dst := .s 4, sa := .s 1, sb := .s 2 }, 0, 0),
   (.or, { dst := .v 4, sa := .v 0, sb := .v 2 }, 0, 0), (.or, { dst := .s 4, sa := .s 1, sb := .s 2 }, 0, 0),
   (.xor, { dst := .v 4, sa := .v 0, sb := .v 2 }, 0, 0), (.xor, { dst := .s 4, sa := .s 1, sb := .s 2 }, 0, 0),
   (.not, { dst := .v 4, sa := .v 0 }, 0, 0), (.not, { dst := .s 4, sa := .s 1 }, 0, 0),
   (.andn, { dst := .v 4, sa := .v 0, sb := .v 2 }, 0, 0), (.andn, { dst := .s 4, sa := .s 1, sb := .s 2 }, 0, 0),
   (.shl, { dst := .v 4, sa := .v 0, sb := .v 2 }, 0, 0), (.shl, { dst := .s 4, sa := .s 1, sb := .s 2 }, 0, 0),
   (.shr, { dst := .v 4, sa := .v 0, sb := .v 2 }, 0, 0), (.shr, { dst := .s 4, sa := .s 1, sb := .s 2 }, 0, 0),
   (.sar, { dst := .v 4, sa := .v 0, sb := .v 2, ty := .i32 }, 1, 0), (.sar, { dst := .s 4, sa := .s 1, sb := .s 2, ty := .i32 }, 0, 0),
   (.rot, { dst := .v 4, sa := .v 0, sb := .v 2 }, 0, 0), (.rot, { dst := .s 4, sa := .s 1, sb := .s 2 }, 0, 0),
   (.clz, { dst := .v 4, sa := .v 0 }, 0, 0), (.clz, { dst := .s 4, sa := .s 1 }, 0, 0), (.popc, { dst := .v 4, sa := .v 0 }, 0, 0),
   (.popc, { dst := .s 4, sa := .s 1 }, 0, 0), (.brev, { dst := .v 4, sa := .v 0 }, 0, 0), (.brev, { dst := .s 4, sa := .s 1 }, 0, 0),
   (.bfe, { dst := .v 4, sa := .v 0, sb := .v 2, sc := .v 3 }, 0, 0), (.bfe, { dst := .s 4, sa := .s 1, sb := .s 2, sc := .s 3 }, 0, 0),
   (.bfi, { dst := .v 4, sa := .v 0, sb := .v 2, sc := .v 3 }, 0, 0), (.bfi, { dst := .s 4, sa := .s 1, sb := .s 2, sc := .s 3 }, 0, 0),
   (.sel, { dst := .v 4, sa := .p 1, sb := .v 2, sc := .v 3 }, 0, 0), (.sel, { dst := .s 4, sa := .p 1, sb := .s 2, sc := .s 3 }, 0, 0),
   (.cmp, { dst := .p 2, sa := .v 0, sb := .v 2, ty := .n32 }, 2, 0), (.lea, { dst := .v 4, sa := .v 0, sb := .v 2, ty := .n32 }, 2, 0),
   (.lea, { dst := .s 4, sa := .s 1, sb := .s 2, ty := .n32 }, 0, 0), (.div, { dst := .v 4, sa := .v 0, sb := .v 2, ty := .n32 }, 2, 0),
   (.div, { dst := .s 4, sa := .s 1, sb := .s 2, ty := .n32 }, 0, 0), (.rem, { dst := .v 4, sa := .v 0, sb := .v 2, ty := .n32 }, 2, 0),
   (.rem, { dst := .s 4, sa := .s 1, sb := .s 2, ty := .n32 }, 0, 0)]

theorem witness_ready_bits : bitsWords.all readyRow = true := by decide

def floatWords : List (Op × Fields × Nat × Nat) :=
  [(.fadd, { dst := .v 4, sa := .v 0, sb := .v 2, ty := .f32 }, 3, 0), (.fsub, { dst := .v 4, sa := .v 0, sb := .v 2, ty := .f32 }, 3, 0),
   (.fmul, { dst := .v 4, sa := .v 0, sb := .v 2, ty := .f32 }, 3, 0),
   (.ffma, { dst := .v 4, sa := .v 0, sb := .v 2, sc := .v 3, ty := .f32 }, 3, 0),
   (.fmin, { dst := .v 4, sa := .v 0, sb := .v 2, ty := .f32 }, 3, 0), (.fmax, { dst := .v 4, sa := .v 0, sb := .v 2, ty := .f32 }, 3, 0),
   (.fabs, { dst := .v 4, sa := .v 0, ty := .f32 }, 3, 0), (.fneg, { dst := .v 4, sa := .v 0, ty := .f32 }, 3, 0),
   (.fcmp, { dst := .p 2, sa := .v 0, sb := .v 2, ty := .f32 }, 3, 0), (.fclass, { dst := .v 4, sa := .v 0, ty := .f32 }, 3, 0),
   (.frnd, { dst := .v 4, sa := .v 0, ty := .f32 }, 3, 0), (.frcp, { dst := .v 4, sa := .v 0, ty := .f32 }, 3, 0),
   (.frsq, { dst := .v 4, sa := .v 0, ty := .f32 }, 3, 0), (.fsqrt, { dst := .v 4, sa := .v 0, ty := .f32 }, 3, 0),
   (.fexp2, { dst := .v 4, sa := .v 0, ty := .f32 }, 3, 0), (.flog2, { dst := .v 4, sa := .v 0, ty := .f32 }, 3, 0),
   (.fsin, { dst := .v 4, sa := .v 0, ty := .f32 }, 3, 0), (.fcos, { dst := .v 4, sa := .v 0, ty := .f32 }, 3, 0),
   (.ftanh, { dst := .v 4, sa := .v 0, ty := .f32 }, 3, 0), (.fdot2, { dst := .v 4, sa := .v 0, sb := .v 2, sc := .v 3, ty := .f32 }, 3, 0),
   (.cvt, { dst := .v 4, sa := .v 0, ty := .n32, aux := 9 }, 3, 0),
   (.pack, { dst := .v 4, sa := .v 0, sb := .v 2, ty := .bf16, aux := 9 }, 3, 0),
   (.unpack, { dst := .v 4, sa := .v 0, ty := .i32, aux := 1 }, 8, 0),
   (.sxq, { dst := .v 4, sa := .v 0, sb := .v 2, ty := .sx2, aux := 9 }, 3, 0),
   (.sxd, { dst := .v 4, sa := .v 0, sb := .v 8, ty := .f32, aux := 12 }, 10, 0), (.tag, { dst := .v 4, sa := .v 0 }, 0, 0),
   (.tagof, { dst := .v 4, sa := .v 0 }, 0, 0), (.tagof, { dst := .s 4, sa := .v 0 }, 0, 0)]

theorem witness_ready_float : floatWords.all readyRow = true := by decide

def crossWords : List (Op × Fields × Nat × Nat) :=
  [(.shfl, { dst := .v 4, sa := .v 0, sb := .s 2 }, 0, 0), (.ballot, { dst := .s 4, sa := .p 1 }, 0, 0),
   (.vote, { dst := .p 2, sa := .p 1 }, 0, 0), (.lred, { dst := .s 4, sa := .v 0, ty := .n32 }, 2, 0),
   (.scan, { dst := .v 4, sa := .v 0, ty := .n32 }, 2, 0), (.matchKeys, { dst := .p 2, sa := .v 0 }, 0, 0),
   (.bcast, { dst := .v 4, sa := .v 0, sb := .s 2 }, 0, 0), (.firstLane, { dst := .s 4, sa := .p 1 }, 0, 0),
   (.pand, { dst := .p 2, sa := .p 1, sb := .p 1 }, 0, 0), (.por, { dst := .p 2, sa := .p 1, sb := .p 1 }, 0, 0),
   (.pxor, { dst := .p 2, sa := .p 1, sb := .p 1 }, 0, 0), (.pnot, { dst := .p 2, sa := .p 1 }, 0, 0),
   (.pmov, { dst := .p 2, sa := .s 1 }, 0, 0), (.pcnt, { dst := .s 4, sa := .p 1 }, 0, 0)]

theorem witness_ready_cross : crossWords.all readyRow = true := by decide

def memoryWords : List (Op × Fields × Nat × Nat) :=
  [(.ld, { dst := .v 4, sa := .v 0 }, 0, 0), (.ld, { dst := .s 4, sa := .s 1 }, 0, 0), (.st, { sa := .v 0, sb := .v 2 }, 0, 0),
   (.lds, { dst := .v 4, sa := .v 0 }, 0, 0), (.lds, { dst := .s 4, sa := .s 1 }, 0, 0), (.sts, { sa := .v 0, sb := .v 2 }, 0, 0),
   (.pref, { sa := .v 0 }, 0, 0), (.clean, { sa := .s 1, sb := .s 2 }, 0, 0), (.inval, { sa := .s 1, sb := .s 2 }, 0, 0),
   (.clinv, { sa := .s 1, sb := .s 2 }, 0, 0), (.fence, {}, 0, 0), (.fprobe, {}, 0, 0), (.atom, { sa := .v 0, sb := .v 2, ty := .n32 }, 0, 0),
   (.atom, { dst := .v 4, sa := .v 0, sb := .v 2, ty := .n32 }, 0, 0), (.atom, { dst := .s 4, sa := .s 1, sb := .s 2, ty := .n32 }, 0, 0),
   (.mred, { sa := .v 0, sb := .v 2, ty := .n32 }, 0, 0), (.waitc, { dst := .s 4, sa := .s 1, sb := .s 2, ty := .n32 }, 0, 0),
   (.bara, { sa := .s 1 }, 0, 0), (.bars, { sa := .s 1 }, 0, 0), (.barq, { dst := .s 4 }, 0, 0)]

theorem witness_ready_memory : memoryWords.all readyRow = true := by decide

def enginesWords : List (Op × Fields × Nat × Nat) :=
  [(.talloc, { sa := .s 1, sb := .s 2 }, 0, 0), (.tfree, {}, 0, 0), (.tstat, { dst := .s 4 }, 0, 0), (.tset, {}, 0, 0),
   (.cpyIn, { sa := .s 1 }, 0, 0), (.cpyOut, { mod := 1, sa := .s 1 }, 0, 0),
   (.cpyMm, { mod := 2, dst := .s 4, sa := .s 1, sb := .s 2 }, 0, 0), (.mma, { ty := .f32 }, 0, 0), (.mzero, {}, 0, 0),
   (.mload, { sa := .s 1 }, 0, 0), (.mdrain, { sa := .s 1 }, 0, 0), (.mdrainAdd, { mod := 1, sa := .s 1 }, 0, 0),
   (.stash, { sa := .s 1, sb := .s 2 }, 0, 0), (.restore, { sa := .s 1, sb := .s 2 }, 0, 0), (.xcfg, { sa := .s 1 }, 0, 0),
   (.xpool, { sa := .s 1 }, 0, 0), (.xration, { sa := .s 1 }, 0, 0), (.xrun, { sa := .s 1, sb := .s 2 }, 0, 0),
   (.xgate, { sa := .s 1, sb := .s 2 }, 0, 0), (.xstat, { dst := .s 4, sa := .s 1 }, 0, 0), (.post, { sa := .s 1 }, 0, 0)]

theorem witness_ready_engines : enginesWords.all readyRow = true := by decide

/-- The instruction expands to a word that is ready on the group with two tags. -/
def readyInstr (i : Instr) (t u : Nat) : Bool :=
  match Instr.expand i with
  | some (op, f) => readyRow (op, f, t, u)
  | none => false

/-- Every 2-byte operation, on vector registers of its type. -/
theorem witness_ready_two : (List.range 32).all (fun k => readyInstr (twoInstr k 4 2) (tagOf (op5Entry k).2.1).toNat 0) = true := by decide

/-- Every 4-byte operation that a group finds ready at its start, with operands v4, v0, v2, s4, s1, s2, p2, p1 (R282). -/
theorem witness_ready_four :
    (List.range 64).all (fun k => [(4, 0, 2), (4, 0, 0x42), (0x44, 0x41, 0x42), (0x72, 0, 2), (0x44, 0x71, 0x7F), (0x72, 0x71, 0x71), (4, 0x71, 2), (0x44, 0, 0x42)].any
      (fun x => readyInstr (fourInstr k { fa := false, fb := false, dst := x.1, sa := x.2.1, sb := x.2.2 }) (tagOf (op6Entry k).2.2).toNat 0)) = true := by
  decide

/-! ### Ill-formed terms, which the check refuses (R277) -/

def everyWord : List (Op × Fields × Nat × Nat) :=
  controlWords ++ integerWords ++ bitsWords ++ floatWords ++ crossWords ++ memoryWords ++ enginesWords

/-- The check refuses the changed word of every row. -/
def refusedWith (ch : Fields → Fields) (l : List (Op × Fields × Nat × Nat)) : Bool := l.all (fun x => !wfWord x.1 (ch x.2.1))

/-- A reserved SCOPE, a reserved TYPE, and MOD and AUX values that no instruction has (R278 to R281). -/
theorem test_refuses_scope : refusedWith (fun f => { f with scope := .rsv7 }) everyWord = true := by decide
theorem test_refuses_type : refusedWith (fun f => { f with ty := .rsv }) everyWord = true := by decide
theorem test_refuses_mod : refusedWith (fun f => { f with mod := 15 }) everyWord = true := by decide
theorem test_refuses_aux : refusedWith (fun f => { f with aux := 15 }) everyWord = true := by decide

def refused (op : Op) (f : Fields) : Bool := Instr.wf (op.instr f) == false

/-- Guards where there is none, selectors of the wrong kind, bits of IMM that are not used (R277, R297 to R314). -/
theorem test_refuses_control :
    (refused .brd { sa := .p 1, pred := 1 } && refused .fuse { pn := true } && refused .commit { imm := 1 } && refused .region { imm := 3 } &&
     refused .region { imm := 132 } && refused .region { imm := 65 * 256 } && refused .sigchk { pred := 1 } && refused .brc { sa := .s 1 } &&
     refused .jmpi { sa := .v 1 } && refused .call { dst := .v 1 } && refused .ret { sa := .s 1, imm := 1 } && refused .sleepClk { sa := .s 1, imm := 1 } &&
     refused .movem { sa := .v 0 } && refused .movem { sa := .p 1, imm := 1 } && refused .rdspec { dst := .s 1, imm := 0x16 } && refused .rdspec { dst := .p 1 } &&
     refused .wrspec { sa := .s 1, imm := 0x111 } && refused .laneget { dst := .s 1, sa := .v 1, ty := .n64 } && refused .laneget { dst := .s 1, sa := .v 1, imm := 128 } &&
     refused .laneset { dst := .s 1, sa := .s 1 } && refused .fmode { imm := 8 } && refused .flclr { imm := 32 } && refused .nop { imm := 1 }) = true := by decide

theorem test_refuses_integer :
    (refused .add { dst := .v 4, sa := .p 1, sb := .v 2, ty := .n32 } && refused .add { dst := .s 4, sa := .v 1, sb := .s 2, ty := .n32 } &&
     refused .add { dst := .s 4, sa := .s 1, sb := .s 2, ty := .i8 } && refused .add { dst := .v 3, sa := .v 0, sb := .v 2, ty := .i64 } &&
     refused .add { dst := .v 4, sa := .v 0, sb := .v 2, ty := .f32 } && refused .add { dst := .v 4, sa := .v 0, sb := .v 2, ty := .n32, imm := 1 } &&
     refused .addc { dst := .v 4, sa := .v 0, sb := .v 2, sc := .p 0, ty := .n32 } && refused .mulh { dst := .v 4, sa := .v 0, sb := .v 2, ty := .i16 } &&
     refused .abs { dst := .v 4, sa := .v 0, ty := .n32 } && refused .sar { dst := .v 4, sa := .v 0, sb := .v 2, ty := .n32 } &&
     refused .and { dst := .v 4, sa := .v 0, sb := .v 2, ty := .n32 } && refused .sel { dst := .v 4, sa := .v 1, sb := .v 2, sc := .v 3 } &&
     refused .cmp { mod := 6, dst := .p 1, sa := .v 0, sb := .v 2, ty := .n32 } && refused .cmp { dst := .v 1, sa := .v 0, sb := .v 2, ty := .n32 } &&
     refused .lea { dst := .v 4, sa := .v 0, sb := .v 2, ty := .n32, imm := 8 } && refused .lea { dst := .v 4, sa := .v 0, sb := .v 2, ty := .n32, imm := 0x10000 } &&
     refused .mov { dst := .v 4, sa := .v 0, ty := .n32 } && refused .movFromQueue { dst := .v 4, sa := .q 0 } && refused .movi { dst := .v 3, ty := .n64 }) = true := by
  decide

theorem test_refuses_float :
    (refused .fadd { dst := .s 4, sa := .v 0, sb := .v 2, ty := .f32 } && refused .fadd { dst := .v 4, sa := .v 0, sb := .v 2, ty := .n32 } &&
     refused .fcmp { dst := .p 2, sa := .v 0, sb := .v 2, ty := .f16 } && refused .frnd { mod := 5, dst := .v 4, sa := .v 0, ty := .f32 } &&
     refused .fdot2 { dst := .v 4, sa := .v 1, sb := .v 2, sc := .v 3, ty := .f32 } && refused .cvt { dst := .v 4, sa := .v 0, ty := .f32, aux := 9 } &&
     refused .cvt { dst := .v 3, sa := .v 0, ty := .i64, aux := 9 } && refused .pack { dst := .v 4, sa := .v 0, sb := .v 2, ty := .f32, aux := 9 } &&
     refused .unpack { dst := .v 4, sa := .v 0, ty := .f32, aux := 10, imm := 2 } && refused .sxq { dst := .v 4, sa := .v 2, sb := .v 8, ty := .sx4, aux := 9 } &&
     refused .sxq { dst := .v 4, sa := .v 0, sb := .v 4, ty := .sx4, aux := 9 } && refused .sxd { dst := .v 2, sa := .v 0, sb := .v 8, ty := .f32, aux := 12 } &&
     refused .tag { dst := .v 4, sa := .v 0, imm := 15 } && refused .tagof { dst := .p 1, sa := .v 0 }) = true := by decide

theorem test_refuses_cross :
    (refused .shfl { dst := .v 4, sa := .v 0, sb := .v 2 } && refused .shfl { dst := .v 3, sa := .v 0, sb := .s 2, ty := .n64 } && refused .ballot { dst := .s 4, sa := .v 0 } &&
     refused .vote { mod := 3, dst := .p 2, sa := .p 1 } && refused .lred { mod := 3, dst := .s 4, sa := .v 0, ty := .f32 } && refused .lred { dst := .s 4, sa := .p 1, ty := .i32 } &&
     refused .scan { dst := .v 4, sa := .v 0, ty := .n32, aux := 2 } && refused .matchKeys { dst := .p 2, sa := .v 0, ty := .f32 } &&
     refused .bcast { dst := .v 4, sa := .v 0, sb := .v 2 } && refused .pand { dst := .em, sa := .p 1, sb := .p 1 } && refused .pmov { dst := .p 2, sa := .v 0 } &&
     refused .pcnt { dst := .v 4, sa := .p 1 }) = true := by decide

theorem test_refuses_memory :
    (refused .ld { dst := .s 4, sa := .v 0, ty := .n32 } && refused .ld { dst := .v 4, sa := .v 1, ty := .n32 } && refused .ld { dst := .s 4, sa := .s 1, ty := .f32 } &&
     refused .ld { dst := .v 3, sa := .s 1, ty := .n64 } && refused .ld { dst := .s 4, sa := .s 1, ty := .n32, scope := .die } && refused .st { sa := .s 1, sb := .s 2, ty := .n32, aux := 1 } &&
     refused .lds { dst := .s 4, sa := .s 1, ty := .n32, imm := 0x100000 } && refused .sts { sa := .s 1, sb := .p 2, ty := .n32 } && refused .pref { sa := .v 1 } &&
     refused .clean { sa := .s 1, sb := .s 2, imm := 1 } && refused .fence { imm := 1 } && refused .fprobe { imm := 16 } && refused .atom { mod := 8, dst := .s 4, sa := .s 1, sb := .s 2, ty := .n32 } &&
     refused .atom { sa := .s 1, sb := .s 2, ty := .n32, aux := 1 } && refused .atom { mod := 3, sa := .s 1, sb := .s 2, ty := .f32 } && refused .atom { dst := .s 4, sa := .v 0, sb := .s 2, ty := .n32 } &&
     refused .mred { mod := 6, sa := .s 1, sb := .s 2, ty := .n32 } && refused .waitc { dst := .s 4, sa := .s 1, sb := .s 2, ty := .i32 } && refused .bara { imm := 3 } &&
     refused .bars { sa := .s 1, imm := 16 } && refused .barq { dst := .s 4, imm := 16 }) = true := by decide

theorem test_refuses_engines :
    (refused .talloc { sa := .s 1, sb := .none } && refused .tfree { imm := 64 } && refused .tset { imm := 0x40 } && refused .cpyIn { sa := .s 1, sc := .v 0 } &&
     refused .cpyOut { sa := .s 1 } && refused .cpyMm { mod := 2, dst := .s 4, sa := .s 1, sb := .s 2, imm := 1 } && refused .mma { ty := .f16 } && refused .mma { ty := .f32, aux := 2 } &&
     refused .mzero { imm := 16 } && refused .mload { sa := .s 1, imm := 0x10 } && refused .mload { sa := .s 1, imm := 0x400 } && refused .mdrainAdd { sa := .s 1 } &&
     refused .stash { sa := .s 1, sb := .s 2, imm := 1 } && refused .xcfg { sa := .s 1, imm := 3 } && refused .xpool { sa := .s 1, imm := 65 * 1024 } &&
     refused .xpool { sa := .s 1, imm := 1023 + 2 * 1024 } && refused .xration { sa := .s 1, imm := 1 } && refused .xrun { sa := .s 1, sb := .s 2, imm := 2 } &&
     refused .xgate { sa := .s 1, sb := .s 2, imm := 1 } && refused .xstat { dst := .s 4, sa := .s 1, imm := 4 } && refused .xstat { dst := .s 4, sa := .s 1, imm := 2 + 64 * 8 } &&
     refused .post { sa := .s 1, imm := 1 }) = true := by decide

/-! ### Words that spec/ writes out, and what the decoder refuses (R273 to R288) -/

def decodesTo (bs : List Byte) (i : Instr) (n : Nat) : Bool :=
  match decode bs with
  | .ok x => x == (i, n)
  | .error _ => false

/-- spec/17_encoding.md, the stream of its example: a 2-byte, a 4-byte, a 6-byte and an 8-byte form, one behind the other. -/
def stream : List Byte := [0x60, 0xA6, 0x8B, 0x10, 0x20, 0x44, 0xC3, 0x00, 0x0C, 0x81, 0x20, 0x7F, 0xE1, 0x28, 0x02, 0x04, 0x00, 0x00, 0x00, 0x01]

theorem test_decode_stream :
    decodesTo stream (.faddF322B 5 6) 2 = true ∧
    decodesTo (stream.drop 2) (.addN644B { dst := 0x40, sa := 0x40, sb := 0x44 }) 4 = true ∧
    decodesTo (stream.drop 6) (.ld { form := .f6a, pred := 2, dst := .v 4, sa := .s 0, ty := .n32 }) 6 = true ∧
    decodesTo (stream.drop 12) (.add { form := .f8a, pred := 2, dst := .v 4, sa := .v 4, sb := .imm, ty := .n32, imm := 1 }) 8 = true := by decide

/-- Control and regions: spec/24_prog_region.md. -/
theorem test_decode_control :
    decodesTo [0xC0, 0x8C, 0x00, 0x10, 0xFF, 0xFF] (.rdspec { form := .f6a, dst := .s 3 }) 6 = true ∧
    decodesTo [0xD1, 0x00, 0x3F, 0xFF, 0x04, 0x08] (.region { form := .f6c, imm := 0x408 }) 6 = true ∧
    decodesTo [0xD0, 0x04, 0x3F, 0xFF, 0xFF, 0xE0] (.bra { form := .f6c, imm := 0xFFFFFFE0 }) 6 = true ∧
    decodesTo [0xC0, 0x82, 0x00, 0x1F, 0xFF, 0xFF] (.commit { form := .f6a }) 6 = true ∧
    decodesTo [0xF0, 0x10, 0x80, 0x3F, 0xFF, 0xFF, 0xFF, 0xC0, 0x00, 0xE1, 0x3B, 0x70, 0xF7] (.sigchk { form := .f13, imm := 0xE13B70F7 }) 13 = true ∧
    decodesTo [0xC0, 0x00, 0x00, 0x1F, 0xFF, 0xFF] (.nop { form := .f6a }) 6 = true := by decide

/-- Selection, fields, votes, loads and atomics. -/
theorem test_decode_values :
    decodesTo [0xC9, 0x34, 0x00, 0x9D, 0x44, 0x06] (.sel { form := .f6b, dst := .v 4, sa := .p 5, sb := .v 8, sc := .v 6 }) 6 = true ∧
    decodesTo [0xF0, 0x26, 0x00, 0x00, 0x81, 0x3C, 0x3C, 0xC0, 0x00, 0x00, 0x01, 0x00, 0x00] (.bfe { form := .f13, dst := .v 2, sa := .v 4, sb := .zero, sc := .immHi, imm := 0x10000 }) 13 = true ∧
    decodesTo [0xBC, 0x15, 0x38, 0xFF] (.ballot4B { dst := 0x54, sa := 0x71, sb := 0x7F }) 4 = true ∧
    decodesTo [0xEB, 0x00, 0x0C, 0xB0, 0xA9, 0x2F, 0xF8, 0x00] (.ld { form := .f8b, dst := .s 20, sa := .s 11, scope := .die, ty := .n32, aux := 1 }) 8 = true ∧
    decodesTo [0xC3, 0x02, 0x0C, 0x1F, 0xE5, 0x45] (.st { form := .f6a, sa := .s 10, sb := .s 5, ty := .n32 }) 6 = true ∧
    decodesTo [0xEB, 0x80, 0x0C, 0x40, 0xA9, 0x2E, 0x28, 0x00] (.atom { form := .f8b, dst := .s 20, sa := .s 11, sb := .s 5, scope := .dev, ty := .n32 }) 8 = true ∧
    decodesTo [0xEB, 0x0A, 0x00, 0x30, 0xFF, 0x22, 0x48, 0x00] (.clean { form := .f8b, sa := .s 8, sb := .s 9, scope := .die }) 8 = true := by decide

/-- Tiles, engines and Cicada: spec/22_prog_matrix.md and spec/23_prog_stash.md. -/
theorem test_decode_engines :
    decodesTo [0xD8, 0x10, 0x3F, 0xCA, 0x00, 0x02] (.cpyIn { form := .f6c, sa := .s 10, imm := 2 }) 6 = true ∧
    decodesTo [0xF0, 0x81, 0x40, 0x3F, 0xFF, 0xFF, 0xFF, 0xC0, 0xD1, 0x00, 0x00, 0x0C, 0x20] (.mma { form := .f13, ty := .sx4, aux := 1, imm := 0xC20 }) 13 = true ∧
    decodesTo [0xC4, 0x10, 0x20, 0x1F, 0xE4, 0x49] (.mdrainAdd { form := .f6a, mod := 1, sa := .s 8, sb := .s 9 }) 6 = true ∧
    decodesTo [0xF0, 0x90, 0x00, 0x3F, 0xE0, 0x7C, 0xBF, 0xC0, 0x01, 0x00, 0x00, 0x00, 0x40] (.stash { form := .f13, sa := .s 1, sb := .immLo, aux := 1, imm := 0x40 }) 13 = true ∧
    decodesTo [0xF0, 0x90, 0x40, 0x3F, 0xE0, 0x3C, 0xBF, 0xC0, 0x01, 0x00, 0x00, 0x00, 0x40] (.restore { form := .f13, sa := .s 0, sb := .immLo, aux := 1, imm := 0x40 }) 13 = true := by decide

def isRefusal : Except DecodeError (Instr × Nat) → Bool
  | .error _ => true
  | .ok _ => false

/-- Reserved first bytes, an unassigned opcode, a reserved bit of a 4-byte form, an ill-formed word, and too few bytes are refused. -/
theorem test_decode_refuses :
    isRefusal (decode [0xF1, 0, 0, 0, 0, 0, 0, 0, 0, 0, 0, 0, 0]) = true ∧ isRefusal (decode [0xDF, 0xFF, 0xFF, 0xFF, 0xFF, 0xFF]) = true ∧
    isRefusal (decode [0x8B, 0x30, 0x20, 0x44]) = true ∧ isRefusal (decode [0xD1, 0x00, 0x3F, 0xFF, 0x04, 0x09]) = true ∧
    isRefusal (decode [0xC3, 0x00]) = true ∧ isRefusal (decode []) = true := by decide

/-! ### Witnesses: integer, floating, cross-lane and predicate instructions -/

theorem witness_IntegerArithmetic :
    (integerWords.filter (fun x => (intRule x.1).isSome)).length ≥ 16 ∧
    on 2 0 .addc { dst := .v 4, sa := .v 0, sb := .v 2, sc := .p 1, ty := .n32 } (fun _ => true) = true ∧
    on 0 0 .addc { dst := .s 4, sa := .s 1, sb := .s 2, sc := .p 1, ty := .n32, pred := 2 } (fun e => !e.guard { pred := 2 }) = true := by decide

theorem witness_SlowArithmeticIssue :
    on 2 0 .div { dst := .v 4, sa := .v 0, sb := .v 2, ty := .n32 } (fun _ => true) = true ∧
    on 0 0 .rem { dst := .s 4, sa := .s 1, sb := .s 2, ty := .n32 } (fun e => e.guard {}) = true ∧
    on 0 0 .div { dst := .s 4, sa := .s 1, sb := .s 2, ty := .n32, pred := 2 } (fun e => !e.guard { pred := 2 }) = true ∧
    on 3 0 .frcp { dst := .v 4, sa := .v 0, ty := .f32 } (fun _ => true) = true ∧
    onG { groupOf 3 0 with vregs := (groupOf 3 0).vregs.set 0 { reg 3 with lanes := List.replicate 64 0 } } .frcp { dst := .v 4, sa := .v 0, ty := .f32 }
      (fun _ e => (specialRule .frcp (fmtF32.read (e.g.fpm.getLsbD 2) (elemAt 32 (readLane e.g {} (.v 0) 0).toNat 0))).isSome) = true := by decide

theorem witness_BitwiseAndFields : (bitsWords.filter (fun x =>
    decide (x.1 ∈ [Op.and, .or, .xor, .andn, .not, .shl, .shr, .rot, .clz, .popc, .brev, .bfe, .bfi]))).length = 26 := by decide

theorem witness_MovesAndSelection :
    (bitsWords.filter (fun x => decide (x.1 ∈ [Op.sel, .lea, .sar]))).length = 6 ∧
    (integerWords.filter (fun x => decide (x.1 ∈ [Op.mov, .movi]))).length = 4 := by decide

theorem witness_Compares :
    on 2 0 .cmp { dst := .p 2, sa := .v 0, sb := .v 2, ty := .n32 } (fun _ => true) = true ∧
    on 0 0 .cmp { mod := 5, dst := .p 2, sa := .s 1, sb := .s 2, ty := .n64 } (fun e => e.guard {}) = true ∧
    on 0 0 .cmp { dst := .p 2, sa := .s 1, sb := .s 2, ty := .n32, pred := 2 } (fun e => !e.guard { pred := 2 }) = true ∧
    on 3 0 .fcmp { mod := 2, dst := .p 2, sa := .v 0, sb := .v 2, ty := .f32 } (fun _ => true) = true := by decide

theorem witness_FloatArithmetic : (floatWords.filter (fun x => (fpRule x.2.1.mod x.1).isSome)).length = 9 := by decide

theorem witness_ConversionsAll : (floatWords.filter (fun x => decide (x.1 ∈ [Op.cvt, .pack, .unpack, .sxq, .sxd]))).length = 5 := by decide

theorem witness_TagsAndSpecialRegisters :
    on 0 0 .rdspec { dst := .s 4, imm := 1 } (fun e => e.guard {}) = true ∧
    on 0 0 .rdspec { dst := .v 4, imm := 0x10 } (fun _ => true) = true ∧
    on 0 0 .rdspec { dst := .v 4, imm := 1 } (fun _ => true) = true ∧
    on 0 0 .wrspec { imm := 0x10 } (fun _ => true) = true ∧
    on 0 0 .wrspec { sa := .s 2, imm := 0x11 } (fun e => e.guard {} && !e.team.cont) = true ∧
    at_ g0 sub0 { team0 with cont := true } ctx0 .rdspec { dst := .s 4, imm := 8 } (fun s e => e.guard {} && e.team.cont && !s.failing && !holding s) = true := by decide

theorem witness_LaneMoves :
    (List.range 4).all (fun m => on 2 2 .shfl { mod := BitVec.ofNat 4 m, dst := .v 4, sa := .v 0, sb := .s 2 } (fun _ => true)) = true := by decide

theorem witness_VotesAndMatch :
    (List.range 3).all (fun m => on 0 0 .vote { mod := BitVec.ofNat 4 m, dst := .p 2, sa := .p 1 } (fun _ => true)) = true ∧
    on 3 0 .matchKeys { dst := .p 2, sa := .v 0, ty := .f32, aux := 1 } (fun _ => true) = true := by decide

theorem witness_ReductionsAndScans :
    on 2 0 .lred { dst := .s 4, sa := .v 0, ty := .n32, pred := 2 } (fun e => e.active { pred := 2 } == 0) = true ∧
    on 2 0 .scan { dst := .v 4, sa := .v 0, ty := .n32, aux := 1 } (fun _ => true) = true := by decide

theorem witness_PredicateInstructions :
    [Op.pand, .por, .pxor, .pnot, .pmov, .pcnt].all (fun op =>
      let f : Fields := { dst := if op == .pcnt then .s 4 else .p 2, sa := .p 1, sb := if op == .pand || op == .por || op == .pxor then .p 1 else .none }
      on 0 0 op f (fun e => e.guard f) && on 0 0 op { f with pred := 2 } (fun e => !e.guard { f with pred := 2 })) = true := by decide

/-! ### Witnesses: control, regions, traps -/

def quiet : Fields := { pred := 2 }

/-- Node 2 of a split, with its sibling and the parent's lanes. -/
def child (n : Nat) (m : Mask) : Sub := { sub0 with node := n, em := m, live := m }

def splitGroup (b : Sub) : Group := { g0 with subs := [child 2 5, b], splits := [(1, BitVec.allOnes 64)] }

theorem witness_NoEffectAndSleep :
    on 0 0 .sleepClk { imm := 0 } (fun e => e.guard {}) = true ∧ on 0 0 .sleepClk { imm := 1 } (fun e => e.guard {}) = true ∧
    on 0 0 .sleepClk { pred := 2, imm := 1 } (fun e => !e.guard quiet) = true ∧
    on 0 0 .movem { sa := .s 1, pred := 2 } (fun e => !e.guard quiet) = true ∧
    onG { g0 with region := { Region.closed with isOpen := true } } .movem { sa := .s 1 } (fun _ e => e.guard {}) = true ∧
    on 0 0 .movem { sa := .p 1 } (fun e => e.guard {} && !e.g.region.isOpen) = true := by decide

theorem witness_Branches :
    on 0 0 .bra { imm := 0xFFFFFFE0 } (fun e => e.guard {}) = true ∧ on 0 0 .bra { pred := 2 } (fun e => !e.guard quiet) = true ∧
    on 0 0 .brc { sa := .p 2 } (fun _ => true) = true ∧ on 0 0 .jmpi { sa := .s 1 } (fun _ => true) = true ∧
    on 0 0 .ret { sa := .s 1 } (fun _ => true) = true ∧ on 0 0 .call { dst := .s 4 } (fun _ => true) = true := by decide

theorem witness_Split :
    on 0 0 .brd { sa := .p 2 } (fun e => e.sub.em &&& maskRead e.g e.sub.em (.p 2) == 0) = true ∧
    on 0 0 .brd { sa := .p 0 } (fun e => e.sub.em &&& ~~~maskRead e.g e.sub.em (.p 0) == 0) = true ∧
    on 0 0 .brd { sa := .p 1 } (fun e => decide (e.sub.em &&& maskRead e.g e.sub.em (.p 1) ≠ 0 ∧ e.sub.em &&& ~~~maskRead e.g e.sub.em (.p 1) ≠ 0 ∧
      Nat.log2 e.node < 8 ∧ e.g.subs.length < 16)) = true ∧
    at_ g0 (child 256 7) team0 ctx0 .brd { sa := .p 1 } (fun _ e => decide (e.sub.em &&& maskRead e.g e.sub.em (.p 1) ≠ 0 ∧
      e.sub.em &&& ~~~maskRead e.g e.sub.em (.p 1) ≠ 0 ∧ Nat.log2 e.node ≥ 8)) = true := by decide

theorem witness_Fuse :
    on 0 0 .fuse {} (fun e => e.node == 1) = true ∧
    at_ (splitGroup (child 3 2)) (child 2 5) team0 ctx0 .fuse {} (fun _ e => e.node != 1 && (subOf e.g 3).any (fun b => b.st == .runnable)) = true ∧
    at_ { splitGroup { child 3 (~~~5) with st := .atFuse 6 } with splits := [(1, BitVec.allOnes 64)] } (child 2 5) team0 ctx0 .fuse {}
      (fun _ e => (subOf e.g 3).any (fun b => b.st == .atFuse 6 && b.pc == e.sub.pc && e.sub.live &&& b.live == 0 &&
        e.g.splits.find (e.node / 2) == some (e.sub.live ||| b.live))) = true ∧
    at_ (splitGroup { child 3 2 with st := .atFuse 6, pc := 0x10006 }) (child 2 5) team0 ctx0 .fuse {}
      (fun _ e => (subOf e.g 3).any (fun b => b.st == .atFuse 6 && b.pc != e.sub.pc)) = true ∧
    at_ (splitGroup { child 3 4 with st := .exited }) (child 2 5) team0 ctx0 .fuse {}
      (fun _ e => (subOf e.g 3).any (fun b => b.st == .exited && e.sub.live &&& b.live != 0)) = true ∧
    at_ (splitGroup { child 3 4 with st := .atFuse 6 }) (child 2 5) team0 ctx0 .fuse {}
      (fun _ e => (subOf e.g 3).any (fun b => b.st == .atFuse 6 && b.pc == e.sub.pc && e.sub.live &&& b.live != 0)) = true ∧
    at_ (splitGroup { child 3 2 with st := .exited }) (child 2 5) team0 ctx0 .fuse {}
      (fun _ e => (subOf e.g 3).any (fun b => b.st == .exited && e.sub.live &&& b.live == 0 &&
        e.g.splits.find (e.node / 2) != some (e.sub.live ||| b.live))) = true := by decide

def openGroup : Group := { g0 with region := { Region.closed with isOpen := true } }

/-- A producer of the open region in flight. -/
def busyGroup : Group :=
  { openGroup with inflight := [{ seq := 3, node := 1, pc := 0x10000, dst := .s 9, ty := .n32, size := 4, region := true, retrying := false, what := .values [(0, 1)] [] }] }

/-- An atomic in flight outside any region, in a group to whose node 1 Commit() owes a region (log 67). -/
def owedGroup : Group :=
  { g0 with region := { Region.closed with reopen := some (1, 0, 0) }
            inflight := [{ seq := 3, node := 1, pc := 0x10000, dst := .s 9, ty := .n32, size := 4, region := false, retrying := false, what := .atomic [] [] .none none }] }

/-- The first `k` nodes above the issuing sub-group have EXITED siblings, as a check. -/
def exitedUpB (subs : List Sub) (n k : Nat) : Bool :=
  decide (k ≤ 8) && (List.range k).all (fun j => decide (1 < n / 2 ^ j) && (subs.find? (fun x => x.node == (n / 2 ^ j) ^^^ 1)).any (fun b => b.st == .exited))

theorem witness_Exit :
    on 0 0 .exit { pred := 2 } (fun e => !e.guard quiet) = true ∧
    onG owedGroup .exit {} (fun _ e => e.guard {} && !e.g.region.isOpen && owedRegion e.g e.node && closedAtoms e.g) = true ∧
    onG busyGroup .exit {} (fun _ e => e.guard {} && e.g.region.isOpen && commitWaits e.g) = true ∧
    onG openGroup .exit {} (fun _ e => e.guard {} && e.g.region.isOpen && !commitWaits e.g && e.node == 1) = true ∧
    on 0 0 .exit {} (fun e => e.guard {} && !e.g.region.isOpen && e.node == 1) = true := by decide

/-- Beside a sibling that goes on, one that is EXITED, and one at its `fuse` whose lanes with these are the parent's, or are not, or whose form is
not known. -/
theorem witness_Exit_siblings :
    at_ (splitGroup (child 3 2)) (child 2 5) team0 ctx0 .exit {}
      (fun s e => e.guard {} && exitedUpB e.g.subs e.node 0 && (subOf e.g 3).any (fun b => b.st == .runnable) && (s.kernels.find e.team.kernel).isSome) = true ∧
    at_ (splitGroup { child 3 (~~~5) with st := .exited }) (child 2 5) team0 ctx0 .exit {} (fun _ e => e.guard {} && exitedUpB e.g.subs e.node 1) = true ∧
    at_ (splitGroup { child 3 (~~~5) with st := .atFuse 6 }) (child 2 5) team0 ctx0 .exit {}
      (fun _ e => e.guard {} && (subOf e.g 3).any (fun b => b.st == .atFuse 6 && b.live &&& e.sub.live == 0 &&
        e.g.splits.find (e.node / 2) == some (b.live ||| e.sub.live))) = true ∧
    at_ (splitGroup { child 3 2 with st := .atFuse 6 }) (child 2 5) team0 ctx0 .exit {}
      (fun _ e => e.guard {} && (subOf e.g 3).any (fun b => b.st == .atFuse 6 && e.g.splits.find (e.node / 2) != some (b.live ||| e.sub.live))) = true ∧
    at_ (splitGroup { child 3 2 with st := .atFuse 0 }) (child 2 5) team0 ctx0 .exit {}
      (fun _ e => e.guard {} && (subOf e.g 3).any (fun b => b.st == .atFuse 0)) = true := by decide

theorem witness_RegionOpens :
    on 0 0 .region { imm := 20 } (fun e => decide (20 > e.g.v)) = true ∧ on 0 0 .region { imm := 17 * 256 } (fun e => decide (17 > e.g.s)) = true ∧
    onG owedGroup .region { imm := 0x1010 } (fun _ e => betweenRegions e.g) = true ∧
    on 0 0 .region { imm := 0x1010 } (fun e => decide (16 ≤ e.g.v ∧ 16 ≤ e.g.s ∧ betweenRegions e.g = false ∧ e.g.region.isOpen = false)) = true ∧
    onG busyGroup .region { imm := 0x1010 } (fun _ e => !betweenRegions e.g && e.g.region.isOpen && commitWaits e.g) = true ∧
    onG openGroup .region { imm := 0x1010 } (fun _ e => !betweenRegions e.g && e.g.region.isOpen && !commitWaits e.g) = true := by decide

theorem witness_CommitCloses :
    onG owedGroup .commit {} (fun _ e => !e.g.region.isOpen && owedRegion e.g e.node && closedAtoms e.g) = true ∧
    on 0 0 .commit {} (fun e => !e.g.region.isOpen && !(owedRegion e.g e.node && closedAtoms e.g)) = true ∧
    onG openGroup .commit {} (fun _ e => e.g.region.isOpen && !commitWaits e.g) = true ∧
    onG busyGroup .commit {} (fun _ e => e.g.region.isOpen && commitWaits e.g) = true := by decide

def checkedTeam : Team := { team0 with launch := { team0.launch with sigEn := true } }

theorem witness_Signatures :
    on 0 0 .sigrst {} (fun _ => true) = true ∧
    at_ (splitGroup (child 3 2)) (child 2 5) team0 ctx0 .sigchk {} (fun _ e => e.node != 1) = true ∧
    at_ g0 sub0 checkedTeam ctx0 .sigchk {} (fun _ e => e.node == 1 && e.g.sig == 0) = true ∧
    at_ g0 sub0 team0 ctx0 .sigchk { imm := 1 } (fun _ e => !e.team.launch.sigEn && e.g.sig != 1) = true ∧
    at_ g0 sub0 checkedTeam ctx0 .sigchk { imm := 1 }
      (fun _ e => e.team.launch.sigEn && e.g.sig != 1 && decide (e.g.subs = [e.sub]) && !e.g.region.isOpen) = true := by decide

def trapCtx : Context := { ctx0 with desc := { placedDesc with trapBase := 0x40000, trapEnable := 0x400 } }

theorem witness_SoftwareTraps :
    [Op.trap, .brk].all (fun op =>
      at_ g0 sub0 team0 ctx0 op { pred := 2 } (fun _ e => decide (4 ≤ e.g.s) && !e.guard quiet) &&
      at_ g0 sub0 team0 trapCtx op {} (fun _ e => e.guard {} && e.sub.handler.isNone && e.ctx.desc.trapEnable.getLsbD 0x0A) &&
      at_ g0 sub0 team0 ctx0 op {} (fun _ e => e.guard {} && !e.ctx.desc.trapEnable.getLsbD 0x0A) &&
      at_ g0 { sub0 with handler := some { sigAtEntry := 0, trapPc := 0x10000 } } team0 trapCtx op {}
        (fun _ e => e.guard {} && e.sub.handler.isSome)) = true := by decide

/-- An issue that the checks of R295 meet. -/
def met (g : Group) (x : Sub) (op : Op) (f : Fields) (c : State → Env → Bool) : Bool :=
  decide (envOf (stWith g x team0 ctx0) = some (envWith g x team0 ctx0)) && (takeDeferred (stWith g x team0 ctx0) (envWith g x team0 ctx0)).isNone &&
  decide (Instr.expand (op.instr f) = some (op, f)) && c (stWith g x team0 ctx0) (envWith g x team0 ctx0)

def handlerSub : Sub := { sub0 with handler := some { sigAtEntry := 0, trapPc := 0x10000 } }

theorem witness_ChecksAtIssue :
    let add : Fields := { dst := .v 4, sa := .v 0, sb := .v 2, ty := .n32 }
    let far : Fields := { add with dst := .v 16 }
    let trap_ : Fields := { add with fep := 4 }
    let empty := { groupOf 2 0 with vregs := (groupOf 2 0).vregs.set 0 { reg 2 with full := false } }
    met g0 sub0 .add { add with scope := .dev } (fun _ _ => !wfWord .add { add with scope := .dev }) = true ∧
    met g0 sub0 .add far (fun _ e => overBudget e .add far) = true ∧
    met g0 handlerSub .add add (fun _ e => e.inHandler && !handlerAllows .add add) = true ∧
    (let g := groupOf 15 15
     let mov : Fields := { dst := .v 4, sa := .v 0 }
     met g sub0 .mov mov (fun _ e => setsTag15 e.g .mov mov) = true ∧
     met g sub0 .sel { dst := .v 4, sa := .p 1, sb := .v 0, sc := .v 1 } (fun _ e => setsTag15 e.g .sel { dst := .v 4, sa := .p 1, sb := .v 0, sc := .v 1 }) = true ∧
     met g0 sub0 .mov mov (fun _ e => !setsTag15 e.g .mov mov) = true) ∧
    met empty sub0 .add add (fun s e => wfWord .add add && !overBudget e .add add && !e.inHandler && mustWait s e .add add false) = true ∧
    met empty sub0 .add trap_ (fun s e => wfWord .add trap_ && !overBudget e .add trap_ && !mustWait s e .add trap_ false && emptySource e .add trap_) = true ∧
    met g0 sub0 .add add (fun s e => wfWord .add add && !overBudget e .add add && !mustWait s e .add add false && !emptySource e .add add &&
      badTag e .add add) = true ∧
    met { groupOf 2 0 with region := { Region.closed with isOpen := true, p := 8 } } sub0 .add add (fun s e => !mustWait s e .add add false &&
      !emptySource e .add add && !badTag e .add add && writesProtected e .add add) = true := by decide

/-- The register that `eret` reads is empty. -/
def emptyS13 : Group := { g0 with sregs := g0.sregs.set 13 { val := 0, full := false } }

theorem witness_ReturnFromTrap :
    met g0 sub0 .eret {} (fun _ e => e.sub.handler.isNone) = true ∧
    legalB (stWith emptyS13 handlerSub team0 ctx0) (envWith emptyS13 handlerSub team0 ctx0) .eret {} = true ∧
    mustWait (stWith emptyS13 handlerSub team0 ctx0) (envWith emptyS13 handlerSub team0 ctx0) .eret {} false = true ∧
    at_ g0 handlerSub team0 ctx0 .eret {} (fun _ e => e.sub.handler.isSome) = true := by decide

theorem witness_LanesModeAndFlags :
    on 0 0 .laneget { dst := .s 4, sa := .v 0, imm := 63 } (fun e => e.guard {}) = true ∧
    on 0 0 .laneget { dst := .s 4, sa := .v 0, imm := 64 } (fun e => e.guard {}) = true ∧
    on 0 0 .laneget { dst := .s 4, sa := .v 0, pred := 2 } (fun e => !e.guard quiet) = true ∧
    on 0 0 .laneset { dst := .v 4, sa := .s 1, imm := 63 } (fun e => e.guard {} && !e.g.region.isOpen) = true ∧
    on 0 0 .laneset { dst := .v 4, sa := .s 1, imm := 64 } (fun e => e.guard {}) = true ∧
    onG { g0 with region := { Region.closed with isOpen := true, p := 5 } } .laneset { dst := .v 4, sa := .s 1 } (fun _ e => e.guard {} &&
      (dests e.g.s .laneset { dst := .v 4, sa := .s 1 }).any (fun r => r.protectedBy 5 0)) = true ∧
    on 0 0 .fmode { imm := 7 } (fun e => e.guard {}) = true ∧ on 0 0 .fmode { sa := .s 0 } (fun e => e.guard {} && decide ((readS e.g {} (.s 0)).toNat < 8)) = true ∧
    on 0 0 .fmode { sa := .s 1 } (fun e => e.guard {} && decide ((readS e.g {} (.s 1)).toNat ≥ 8)) = true ∧
    on 0 0 .flclr { imm := 31 } (fun _ => true) = true := by decide

/-! ### Witnesses: memory -/

/-- How a translation ends, with its accesses. -/
def xok (s : State) : Xlat → Option (List Acc)
  | .ok t l => if t = s then some l else none
  | _ => none

def xstop : Xlat → Bool
  | .stop _ => true
  | _ => false

def xwait : Xlat → Bool
  | .wait _ => true
  | _ => false

/-- `ld s4, [s1]` on a page that its imm chooses. -/
def ld_ (n : W32) : Fields := { dst := .s 4, sa := .s 1, ty := .n32, imm := n }

/-- A range operation under way over the first bytes of the data page. -/
def rangeGroup : Group :=
  { g0 with rangeOps := [{ seq := 1, node := 1, op := .clean, scope := .die, spans := [(.dram, 0x200000, 64)], sectors := [] }] }

theorem witness_AddressesAndLoadIssue :
    onG g0 .ld (ld_ 0) (fun s e => e.guard {} && (xok s (xlat s e .read (accesses e (ld_ 0) true false))).any (fun l => !l.isEmpty &&
      !rangeCovers e.g (accLocs l))) = true ∧
    onG rangeGroup .ld (ld_ 0) (fun s e => (xok s (xlat s e .read (accesses e (ld_ 0) true false))).any (fun l => rangeCovers e.g (accLocs l))) = true ∧
    onG g0 .ld (ld_ 2) (fun s e => e.guard {} && !xwait (xlat s e .read (accesses e (ld_ 2) true false))) = true ∧
    onG g0 .ld (ld_ 0x100000) (fun s e => xwait (xlat s e .read (accesses e (ld_ 0x100000) true false))) = true ∧
    onG g0 .ld { ld_ 0 with pred := 2 } (fun _ e => !e.guard quiet) = true ∧
    on 2 0 .ld { dst := .v 4, sa := .s 1, ty := .n32 } (fun e => decide (e.team.hi < 2 ^ 16)) = true ∧
    on 2 0 .ld { dst := .v 4, sa := .v 0, ty := .n32 } (fun _ => true) = true := by decide +kernel

/-- The four bytes at 0x200000. -/
def loc0 : Loc := { space := .dram, addr := 0x200000, cache := 0, comp := false }
def locs4 : List Loc := (List.range 4).map (fun i => { loc0 with addr := 0x200000 + i })
def acc0 : Acc := { lane := 0, off := 0, va := 0x20000, locs := locs4 }

def loading : Inflight :=
  { seq := 3, node := 1, pc := 0x10000, dst := .s 9, ty := .n32, size := 4, region := false, retrying := false, what := .load [acc0] [] .none }

/-- `Plain`, as a check of a state that no line, store or monitor fills. -/
def plainB (s : State) (l : Loc) : Bool :=
  s.copies.isEmpty && s.past.isEmpty && s.flights.isEmpty && s.monitors.isEmpty && decide (codeOf s (l.addr / 256) = 3)

theorem plain_of_check {s : State} {l : Loc} (core : Nat) (h : plainB s l = true) : Plain s core l ∧ LineClear s l := by
  simp only [plainB, Bool.and_eq_true, List.isEmpty_iff, decide_eq_true_eq] at h
  obtain ⟨⟨⟨⟨hc, hp⟩, hf⟩, hm⟩, h3⟩ := h
  exact ⟨⟨by simp [hc], by simp [hc], by simp [hp], by simp [hf], fun _ => h3, by simp [hm]⟩, by simp [LineClear, hc]⟩

/-- `AtomFree`, as a check of such a state. -/
def atomFreeB (s : State) (core : Nat) (o : AtomOp) (l : Loc) (n : Nat) : Bool :=
  Memory.wf s.dram && Memory.wf s.hostMem && s.peerMem.isEmpty &&
  decide (o.acc.locs = (List.range n).map (fun k => { l with addr := l.addr + k })) && decide (0 < n ∧ l.addr % 64 + n ≤ 64) &&
  decide (l.space ≠ .array) && plainB s l && !atomWaits s core o && !badLoc s l

theorem atomFree_of_check {s : State} {core : Nat} {o : AtomOp} {l : Loc} {n : Nat} (h : atomFreeB s core o l n = true) : AtomFree s core o l n := by
  simp only [atomFreeB, Bool.and_eq_true, List.isEmpty_iff, decide_eq_true_eq, Bool.not_eq_true'] at h
  obtain ⟨⟨⟨⟨⟨⟨⟨⟨hd, hh⟩, hp⟩, hl⟩, hb⟩, ha⟩, hc⟩, hw⟩, hg⟩ := h
  exact ⟨⟨hd, hh, by simp [hp]⟩, hl, hb, ha, (plain_of_check core hc).2, (plain_of_check core hc).1, hw, hg⟩

/-- The small state with a group of its own. -/
def stG (g : Group) : State := stWith g sub0 team0 ctx0

/-- An addition of 5 to the first word of the data page. -/
def atom4 : AtomOp := { acc := acc0, mod := 0, ty := .n32, b := 5, c := 0 }

theorem witness_LoadPerforms :
    (let g : Group := { g0 with inflight := [loading] }
     let s := stG g
     (inMonitor g 3 || earlierFirst g loading locs4 || atomBefore g 3 false locs4) = false ∧ (s.groups.find 0).map (·.inflight) = some [loading] ∧
     locs4.all (fun l => !lineHeld s l.space (l.addr / 256) 0 && !accessHeld s 0 l && !sectorWaits s l.space (locSector l) && !badLoc s l) = true ∧
     plainB s loc0 = true) ∧
    (let i : Inflight := { loading with what := .lds [(0, 4)] none }
     let g : Group := { g0 with inflight := [i] }
     inMonitor g 3 = false ∧ earlierFirst g i [] = false ∧ Memory.wf team0.scratch = true ∧ g.inflight.find? (fun j => j.seq == 3) = some i) ∧
    (let i : Inflight := { loading with what := .atomic [atom4] [] .none none }
     let g : Group := { g0 with inflight := [i] }
     inMonitor g 3 = false ∧ earlierFirst g i locs4 = false ∧ atomBefore g i.seq true locs4 = false ∧ g.storeQ = [] ∧
     g.inflight.find? (fun j => j.seq == 3) = some i ∧ sub0.st = .runnable ∧ atomFreeB (stG g) 0 atom4 loc0 4 = true) := by decide

theorem witness_ProducerWriteback :
    let i : Inflight := { loading with dst := .v 4, what := .values [(0, 1), (63, 2)] [0, 0, 0, 0, 1] }
    let g : Group := { g0 with inflight := [i] }
    inMonitor g 3 = false ∧ sizedB g = true ∧ (regsFrom (tyRegs i.ty) i.dst).all (fun r => r.inBudget g) = true ∧
    ([(0, (1 : W64)), (63, 2)].map (·.1)).Nodup ∧ (g.inflight.find? (fun j => j.seq == 3)) = some i := by decide

def st_ : Fields := { sa := .s 1, sb := .s 2, ty := .n32 }

def heldEntry : StoreEntry := { seq := 0, node := 1, held := true, kind := .scratch [], pin := false, rel := none, commit := 0, acq := none }

theorem witness_StoreIssue :
    let ok : Op → Group → Bool := fun op g => onG g op st_ (fun s e => e.guard {} && (releaseScope e.g false .none).isNone &&
      (xok s (xlat s e (if op = .st then .write else .atomic) (accesses e st_ true (op != .st)))).any (fun l => !l.isEmpty && (hostUncached l).isNone))
    ok .st g0 = true ∧ ok .st openGroup = true ∧
    ok .st { openGroup with storeQ := List.replicate 48 heldEntry } = true ∧
    ok .st { openGroup with region := { openGroup.region with lines := [.mem .dram (0x200000 / 64)] } } = true ∧
    ok .mred g0 = true ∧ on 0 2 .mred { sa := .v 0, sb := .v 8, ty := .n32, pred := 1 } (fun _ => true) = true ∧
    ok .atom g0 = true := by decide +kernel

theorem witness_StorePerforms :
    let u : Nat → List (Loc × Byte) := fun c => locs4.map (fun l => ({ l with cache := c }, 1))
    let y : StoreEntry := { heldEntry with held := false, seq := 1 }
    let st (x : StoreEntry) : State := stG { g0 with storeQ := [x, y] }
    [StoreKind.bytes [u 0], .bytes [u 2], .scratch [(8, 1)], .atomics [atom4]].all (fun k =>
      let x : StoreEntry := { heldEntry with held := false, kind := k }
      let s := st x
      !storeWaits { g0 with storeQ := [x, y] } x && x.seq != y.seq && plainB s loc0 && Memory.wf s.dram && Memory.wf s.hostMem && s.peerMem.isEmpty &&
      Memory.wf team0.scratch && atomFreeB s 0 atom4 loc0 4 && sub0.st == .runnable &&
      [0, 2].all (fun c => (u c).all (fun w => locSector w.1 == locSector loc0 && w.1.space == .dram && w.1.cache == c && !storeHeld s 0 w.1 &&
        !peerFails s w.1))) = true ∧
    [0, 2].all (fun c => decide (((u c).map (fun w => w.1.addr)).Nodup)) = true ∧ throughL1 loc0 = true ∧ throughL1 { loc0 with cache := 2 } = false ∧
    directStore { loc0 with space := .peer 3 } = true ∧ directStore loc0 = false := by decide

/-- A team whose tile 0 holds a 2 by 16 F32 tile at 0, in a state. -/
def f32Tile (st : TileState) : Tile :=
  { Tile.freed with st := st, tag := 3, rows := 2, cols := 16, data := 0, scale := 0, pitch := 64 }

def tileTeam (st : TileState) : Team := { team0 with tiles := f32Tile st :: List.replicate 7 Tile.freed }

/-- `lds s4, [s0]` and `sts [s0], s2`; with a tile handle where `h` says so. -/
def lds_ (h : Nat) : Fields := { dst := .s 4, sa := .s 0, ty := .n32, imm := BitVec.ofNat 32 h }
def sts_ (h : Nat) : Fields := { sa := .s 0, sb := .s 2, ty := .n32, imm := BitVec.ofNat 32 h }

def tile0 : Nat := 2 ^ 26
def tile8 : Nat := 2 ^ 26 + 2 ^ 23

theorem witness_ScratchpadIssue :
    let l : Nat → Team → (Env → Bool) → Bool := fun h tm c => at_ g0 sub0 tm ctx0 .lds (lds_ h) (fun _ e => c e)
    let t : Nat → Team → (Env → Bool) → Bool := fun h tm c => at_ g0 sub0 tm ctx0 .sts (sts_ h) (fun _ e => c e)
    let okL : Nat → Env → Bool := fun h e => scratchOk e (lds_ h) 8 (scratchAccs e (lds_ h) true)
    l tile8 team0 (fun e => badHandle e (scratchHandle (lds_ tile8))) = true ∧
    l tile0 (tileTeam .empty) (fun e => !badHandle e (some 0) && tileNot e .ready (some 0)) = true ∧
    l tile0 (tileTeam .ready) (fun e => !tileNot e .ready (some 0) && e.guard {}) = true ∧
    l 1 team0 (fun e => okL 1 e && e.guard {}) = true ∧ l 0xFFFF team0 (fun e => !okL 0xFFFF e) = true ∧
    at_ g0 sub0 team0 ctx0 .lds { lds_ 1 with pred := 2 } (fun _ e => !e.guard quiet) = true ∧
    t tile8 team0 (fun e => badHandle e (scratchHandle (sts_ tile8))) = true ∧
    at_ g0 sub0 team0 ctx0 .sts { sts_ 1 with pred := 2 } (fun _ e => decide (scratchAccs e { sts_ 1 with pred := 2 } true = [])) = true ∧
    t tile0 (tileTeam .ready) (fun e => tileNot e .empty (some 0) && decide (scratchAccs e (sts_ tile0) true ≠ [])) = true ∧
    t 1 team0 (fun e => scratchOk e (sts_ 1) 8 (scratchAccs e (sts_ 1) true)) = true ∧
    t 0xFFFF team0 (fun e => !scratchOk e (sts_ 0xFFFF) 8 (scratchAccs e (sts_ 0xFFFF) true)) = true := by decide

theorem witness_Atomics :
    let f : Fields := { dst := .s 4, sa := .s 1, sb := .s 2, ty := .n32 }
    onG g0 .atom f (fun s e => e.guard {} && e.g.fenceRel.isNone && !e.g.region.isOpen && e.g.region.reopen.isNone &&
      (xok s (xlat s e .atomic (accesses e f true true))).any (fun l => (hostUncached l).isNone)) = true ∧
    onG g0 .atom { f with aux := 1 } (fun _ _ => true) = true := by decide +kernel

def len_ (n : W32) : Fields := { sa := .s 1, imm := n, scope := .die }

theorem witness_RangesAndFences :
    onG g0 .pref { sa := .s 1 } (fun s e => e.g.rangeOps.isEmpty && (prefVas e { sa := .s 1 }).all (fun v => (pageAt s e v.toNat).isSome) &&
      decide ((prefVas e { sa := .s 1 }).length = 1) && s.copies.isEmpty) = true ∧
    (prefLoc st0 (envWith g0 sub0 team0 ctx0) 0x20000).any (fun l => !lineHeld st0 l.space (l.addr / 256) 0 && !portHeld st0 (dieOfCore 0) l &&
      !sectorWaits st0 l.space (locSector l) && !badLoc st0 l && decide (codeOf st0 (l.addr / 256) = 3) && l.cache == 0) = true ∧
    [Op.clean, .inval, .clinv].all (fun op =>
      let f : Fields := { sa := .s 1, sb := .s 2, scope := .die }
      onG g0 op { f with pred := 2 } (fun _ e => !e.guard quiet) &&
      onG g0 op f (fun s e => e.guard {} && (rangePages s e op f (e.va 0x20000).toNat 5).all (fun p => match p with
        | .stop _ => false
        | _ => true)) &&
      onG { g0 with sregs := g0.sregs.set 2 { val := 2 ^ 40 + 1, full := true } } op f (fun _ e => decide ((readS e.g f (.s 2)).toNat > 2 ^ 40)) &&
      onG { g0 with sregs := g0.sregs.set 1 { val := 2 ^ 64 - 4, full := true } } op f (fun _ e =>
        decide ((readS e.g f (.s 1)).toNat + (readS e.g f (.s 2)).toNat > 2 ^ 64)) &&
      onG { g0 with sregs := g0.sregs.set 2 { val := 0, full := true } } op f (fun _ e => e.guard {})) = true ∧
    on 0 0 .fence { scope := .dev } (fun e => e.guard {} && e.g.storeQ.isEmpty && e.g.inflight.isEmpty && e.g.rangeOps.isEmpty) = true ∧ homeFlights st0 0 = false ∧
    on 0 0 .fence { scope := .dev, aux := 1 } (fun e => e.guard {}) = true ∧ on 0 0 .fence { scope := .grp, aux := 2 } (fun _ => true) = true ∧
    on 0 0 .fence { pred := 2 } (fun e => !e.guard quiet) = true := by decide

/-! ### Witnesses: barriers, monitors, waits -/

def arriving (c : Nat) (w : Bool) : Sub := { sub0 with st := .arriving 3 c w 6 }

def barTeam (c a : Nat) : Team :=
  { team0 with barriers := team0.barriers.set 3 { count := BitVec.ofNat 8 c, arrived := BitVec.ofNat 8 a, par := false } }

/-- The place of the small state's parts, with the sub-group as it is. -/
def found (s : State) (x : Sub) (tm : Team) : Bool :=
  (match s.groups.find 0 with
   | some g => decide (subOf g x.node = some x) && decide (s.teams.find g.team = some tm)
   | none => false)

theorem witness_Barriers :
    [Op.bara, .bars].all (fun op =>
      onG g0 op { imm := 0x104 } (fun _ e => decide (4 ≥ e.team.barriers.length)) && onG openGroup op { imm := 0x103 } (fun _ e => e.g.region.isOpen) &&
      onG g0 op { sa := .s 5, imm := 3 } (fun _ e => decide (3 < e.team.barriers.length) && (readS e.g {} (.s 5)).toNat % 256 == 0) && onG g0 op { imm := 0x203 } (fun _ e => !e.g.region.isOpen)) = true ∧
    on 0 0 .barq { dst := .s 4, imm := 4 } (fun _ => true) = true ∧ on 0 0 .barq { dst := .s 4, imm := 3 } (fun _ => true) = true ∧
    found (stWith g0 (arriving 2 true) (barTeam 0 0) ctx0) (arriving 2 true) (barTeam 0 0) = true ∧
    found (stWith g0 (arriving 2 true) (barTeam 3 1) ctx0) (arriving 2 true) (barTeam 3 1) = true ∧
    found (stWith g0 (arriving 2 true) (barTeam 2 1) ctx0) (arriving 2 true) (barTeam 2 1) = true ∧ releaseHeldUp st0 0 g0 .team = false := by decide

def wait_ (m : BitVec 4) : Fields := { mod := m, dst := .s 4, sa := .s 1, sb := .s 2, ty := .n32 }

def monitoring : Sub := { sub0 with st := .monitor 3 false 6 0 }

theorem witness_ConditionMonitors :
    onG g0 .waitc { wait_ 0 with pred := 2 } (fun _ e => !e.guard quiet) = true ∧
    [(0 : BitVec 4), 1].all (fun m => onG g0 .waitc (wait_ m) (fun s e => e.guard {} && e.g.storeQ.isEmpty && e.g.inflight.isEmpty && plainB s loc0 &&
      (xok s (xlat s e .read [{ lane := 0, va := 0x20000, size := 4 }])).any (fun l => l.any (fun a => a.locs.head?.any (fun x => x.space == .dram &&
        !lineHeld s .dram (x.addr / 256) 0 && !portHeld s (dieOfCore 0) x && !badLoc s x && compareMem m 32 (newestLe s .dram x.addr 4) 5 == (m == 1)))))) = true ∧
    (let g : Group := { g0 with inflight := [{ loading with what := .values [(0, 5)] [] }] }
     found (stWith g monitoring team0 ctx0) monitoring team0 = true ∧ ctxIssues ctx0 = true) ∧
    (let g : Group := { g0 with inflight := [{ loading with what := .wait acc0 0 5 .none }] }
     found (stWith g monitoring team0 ctx0) monitoring team0 = true ∧ lineHeld (stG g) .dram (0x200000 / 256) 0 = false ∧
     portHeld (stG g) (dieOfCore 0) loc0 = false ∧ badLoc (stG g) loc0 = false ∧ plainB (stG g) loc0 = true ∧ acc0.locs.head? = some loc0) := by decide +kernel

theorem witness_ProbeAndWaitsEnd :
    on 0 0 .fprobe { imm := 15 } (fun e => e.guard {}) = true ∧ on 0 0 .fprobe { pred := 2 } (fun e => !e.guard quiet) = true ∧
    (let x : Sub := { sub0 with st := .probing 0 6 }
     found (stWith g0 x team0 ctx0) x team0 = true ∧ committedStores g0 = false ∧ st0.flights = []) ∧
    (let x : Sub := { sub0 with st := .committing }
     found (stWith openGroup x team0 ctx0) x team0 = true ∧ commitWaits openGroup = false) ∧
    [0, 256, 300].all (fun n => found (stWith g0 { sub0 with st := .sleeping n } team0 ctx0) { sub0 with st := .sleeping n } team0) = true ∧
    (let r : RangeOp := { seq := 1, node := 1, op := .clinv, scope := .sys, spans := [], sectors := [loc0] }
     let g : Group := { g0 with rangeOps := [r] }
     acquirePending g 1 = false ∧ writeParked (stG g) r.spans = false ∧ g.storeQ = [] ∧ (stG g).monitors = [] ∧ g.rangeOps.find? (fun x => x.seq == 1) = some r ∧
     pinnedAway (stG g) .dram (locSector loc0) (some 0) = false ∧ lineHeld (stG g) .dram (0x200000 / 256) 0 = false ∧ homeFlights (stG g) 0 = false ∧ rangeHeld (stG g) .sys 0 loc0 = false ∧
     codeOf (stG g) 0x2000 = 3 ∧ (stG g).copies = [] ∧ Memory.wf (stG g).dram = true) := by decide

/-! ### Witnesses: queues, tiles, commands -/

def cmdOf (op : Op) (f : Fields) (st : CmdState) : Command :=
  { seq := 3, pc := 0x10000, node := 1, op := op, fields := f, vd := 0, va := 0, vb := 0, tag := 0, pages := [], region := false, waitCommit := false
    popped := false, owed := false, st := st, status := 0, payload := 0, progress := 0, holding := false, tilesAt := [], buf := [], bad := [], ops := [], before := [] }

/-- The small group with these entries in queue `q`. -/
def queued (q : Nat) (l : List Command) : Group := { g0 with queues := g0.queues.set q l }

def pop_ (q : Fin 8) : Fields := { dst := .s 4, sa := .q q }

theorem witness_QueuePops :
    (let e : Group → Env := fun g => envWith g sub0 team0 ctx0
     let late : Group := queued 0 [cmdOf .mzero {} .queued]
     legalB st0 (e g0) .movFromQueue (pop_ 5) = true ∧
     (legalB st0 (e g0) .movFromQueue (pop_ 4) && !mustWait st0 (e g0) .movFromQueue (pop_ 4) false && (e g0).guard (pop_ 4) &&
       (oldestCmd (e g0).g 4).isNone) = true ∧
     (legalB (stG late) (e late) .movFromQueue { pop_ 0 with fep := 4 } && !mustWait (stG late) (e late) .movFromQueue { pop_ 0 with fep := 4 } false &&
       (oldestCmd (e late).g 0).any (fun c => c.st != .done)) = true) ∧
    on 0 0 .movFromQueue { pop_ 0 with pred := 2 } (fun e => !e.guard quiet) = true ∧
    onG (queued 0 [{ cmdOf .mdrain {} .done with waitCommit := true }]) .movFromQueue (pop_ 0) (fun _ e => (oldestCmd e.g 0).any (·.waitCommit)) = true ∧
    onG (queued 0 [cmdOf .mzero {} .done]) .movFromQueue (pop_ 0) (fun _ e => e.guard {} && (oldestCmd e.g 0).any (fun c => !c.waitCommit)) = true ∧
    onG (queued 0 [cmdOf .mzero {} .done]) .movFromQueue (Four.fields { dst := 0x44, sa := 0x68 } 0 .none) (fun _ _ => true) = true ∧
    (let i : Inflight := { loading with dst := .s 9, what := .pop 0 3 }
     inMonitor { queued 0 [cmdOf .mzero {} .done] with inflight := [i] } 3 = false ∧ sizedB { queued 0 [cmdOf .mzero {} .done] with inflight := [i] } = true ∧
     popBefore { queued 0 [cmdOf .mzero {} .done] with inflight := [i] } i 0 = false ∧ popBefore { g0 with inflight := [{ i with seq := 2 }] } i 0 = true) := by
  decide

def talloc_ : Fields := { sa := .s 6, sb := .s 7 }

/-- A team with no scratchpad. -/
def bareTeam : Team := { team0 with launch := { team0.launch with scratch := 0 } }

theorem witness_TileInstructions :
    [Op.talloc, .tfree, .tstat, .tset].all (fun op =>
      let f : Fields := if op == .talloc then talloc_ else { dst := if op == .tstat then .s 4 else .none }
      on 0 0 op { f with imm := 8 } (fun e => decide (8 ≥ e.team.tiles.length)) && on 0 0 op { f with pred := 2 } (fun e => !e.guard quiet)) = true ∧
    at_ g0 sub0 (tileTeam .empty) ctx0 .talloc talloc_ (fun _ e => (e.team.tiles.getD 0 Tile.freed).st == .empty) = true ∧
    on 0 0 .talloc talloc_ (fun e => e.guard {} && (e.team.tiles.getD 0 Tile.freed).st == .free && decide (32 ≤ e.team.launch.scratch * 1024)) = true ∧
    on 0 0 .talloc { sa := .s 1, sb := .s 7 } (fun e => decide (bits (readS e.g {} (.s 1)).toNat 15 8 = 0)) = true ∧
    at_ g0 sub0 bareTeam ctx0 .talloc talloc_ (fun _ e => e.guard {} && e.team.launch.scratch == 0) = true ∧
    onG openGroup .tset {} (fun _ e => e.g.region.isOpen) = true ∧
    at_ g0 sub0 (tileTeam .empty) ctx0 .tset { imm := 0x100 } (fun _ e => !e.g.region.isOpen && e.guard {}) = true ∧
    at_ g0 sub0 (tileTeam .ready) ctx0 .tset {} (fun _ e => (e.team.tiles.getD 0 Tile.freed).st != .empty) = true ∧
    at_ g0 sub0 (tileTeam .empty) ctx0 .tset { sa := .s 1 } (fun _ e => e.guard {}) = true ∧
    on 0 0 .tfree {} (fun e => (e.team.tiles.getD 0 Tile.freed).st == .free) = true ∧
    at_ g0 sub0 (tileTeam .filling) ctx0 .tfree {} (fun _ e => e.guard {}) = true ∧
    at_ g0 sub0 (tileTeam .ready) ctx0 .tfree {} (fun s _ => !tileUsed s 0 0) = true ∧
    at_ openGroup sub0 (tileTeam .ready) ctx0 .tfree {} (fun s e => !tileUsed s 0 0 && e.g.region.isOpen) = true ∧
    at_ g0 sub0 (tileTeam .ready) ctx0 .tstat { dst := .s 4 } (fun _ e => e.guard {}) = true := by decide

def eok : EngX → Bool
  | .ok _ => true
  | _ => false

def ewait : EngX → Bool
  | .wait _ => true
  | _ => false

def estop : EngX → Bool
  | .stop _ => true
  | _ => false

/-- An engine command of the small state with tile 0 in a state. -/
def eng (st : TileState) (op : Op) (f : Fields) (c : State → Env → Bool) : Bool := at_ g0 sub0 (tileTeam st) ctx0 op f c

def cin : Fields := { sa := .s 1, sb := .s 2 }

theorem witness_EngineCommandIssue_copies :
    let cp : W32 → Fields := fun i => { sa := .s 1, imm := i }
    let out : Fields := { mod := 1, sa := .s 1 }
    let mm : Fields := { mod := 2, dst := .s 1, sa := .s 1, sb := .s 2 }
    eng .empty .cpyIn (cp 8) (fun _ e => decide (8 ≥ e.team.tiles.length)) = true ∧ eng .empty .cpyIn { cp 0 with pred := 2 } (fun _ e => !e.guard quiet) = true ∧
    at_ (queued 1 (List.replicate 16 (cmdOf .cpyIn {} .queued))) sub0 (tileTeam .empty) ctx0 .cpyIn (cp 0)
      (fun _ e => decide ((e.g.queues.getD 1 []).length ≥ 16)) = true ∧
    eng .empty .cpyIn { sa := .s 10 } (fun s e => ewait (engTranslate s e .engineRead allow [(e.va 0, 128)])) = true ∧
    eng .empty .cpyIn (cp 0) (fun s e => e.guard {} && eok (engTranslate s e .engineRead allow ([(e.va 0x20000, 128)]))) = true ∧
    eng .ready .cpyIn cin (fun s e => !tileRead s 0 0 && decide ((readS e.g {} (.s 2)).toNat < 64)) = true ∧
    eng .empty .cpyOut out (fun _ e => (e.team.tiles.getD 0 Tile.freed).st != .ready) = true ∧
    eng .ready .cpyOut out (fun s e => eok (engTranslate s e .engineWrite allow ([(e.va 0x20000, 128)]))) = true ∧
    eng .ready .cpyMm mm (fun s e => eok (engTranslate s e .engineRead allow [(e.va 0x20000, 5)])) = true ∧
    at_ { g0 with sregs := g0.sregs.set 2 { val := 2 ^ 32, full := true } } sub0 team0 ctx0 .cpyMm mm (fun _ e => decide ((readS e.g {} (.s 2)).toNat ≥ 2 ^ 32)) = true := by
  decide

theorem witness_EngineCommandIssue_matrix :
    let mma : Fields := { ty := .f32 }
    eng .empty .mma mma (fun _ _ => true) = true ∧ eng .ready .mma { ty := .bf16 } (fun _ _ => true) = true ∧
    eng .ready .mma mma (fun _ e => !mmaIllegal .f32 0 (e.team.tiles.getD 0 Tile.freed) (e.team.tiles.getD 0 Tile.freed)) = true ∧
    eng .ready .mma { ty := .f32, sa := .s 2 } (fun _ e => mmaIllegal .f32 5 (e.team.tiles.getD 0 Tile.freed) (e.team.tiles.getD 0 Tile.freed)) = true ∧
    eng .ready .mzero { imm := 4 } (fun _ e => decide (4 ≥ e.team.accs.length)) = true ∧ eng .ready .mzero {} (fun _ e => e.guard {}) = true ∧
    [Op.mload, .mdrain, .mdrainAdd].all (fun op =>
      let f : Fields := { mod := if op == .mdrainAdd then 1 else 0, sa := .s 1 }
      eng .ready op f (fun s e => e.guard {} && !rectIllegal f 0 0x20000 &&
        eok (engTranslate s e (if op == .mload then .engineRead else .engineWrite) allow (rowSegs (e.va 0x20000) 64 256 256)))) = true ∧
    (let f : Fields := { sb := .s 10, imm := 0x400 }
     let tm : Team := { team0 with tiles := { f32Tile .ready with rows := 1, cols := 1 } :: List.replicate 7 Tile.freed }
     [Op.mload, .mdrain, .mdrainAdd].all (fun op => at_ g0 sub0 tm ctx0 op { f with mod := if op == .mdrainAdd then 1 else 0 } (fun _ e =>
       !rectIllegal f 0 0 && decide ((rectOf f 0).rows ≤ (e.team.tiles.getD 0 Tile.freed).rows) && decide ((rectOf f 0).cols ≤ 1)))) = true ∧
    (let f : Fields := { sa := .s 9, sb := .immLo, imm := 64 }
     eng .ready .stash f (fun s e => eok (engTranslate s e .engineWrite notStash [(e.va 0x40000, 64)])) = true ∧
     eng .empty .restore f (fun s e => eok (engTranslate s e .engineRead notStash [(e.va 0x40000, 64)])) = true ∧
     eng .ready .stash { f with sa := .s 1 } (fun s e => estop (engTranslate s e .engineWrite notStash [(e.va 0x20000, 64)])) = true ∧
     eng .empty .restore { f with imm := 32 } (fun _ _ => true) = true ∧
     at_ g0 sub0 { team0 with tiles := { f32Tile .ready with tag := 5 } :: List.replicate 7 Tile.freed } ctx0 .stash f (fun _ _ => true)) = true := by
  decide

/-- The page of an address is known to the sub-group. -/
def leafAt (s : State) (e : Env) (a : W64) : Bool :=
  match pageAt s e (e.va a).toNat with
  | some (.leaf _) => true
  | _ => false

/-- A word of each instruction that commits. -/
def committing : List (Op × Fields) :=
  [(.cpyOut, { mod := 1, sa := .s 1 }), (.cpyMm, { mod := 2, dst := .s 1, sa := .s 1, sb := .s 2 }), (.stash, { sa := .s 9, sb := .immLo, imm := 64 }),
   (.xrun, { sa := .s 8, sb := .s 2, imm := 1 }), (.xgate, { sa := .s 8, sb := .s 2 }), (.post, { sa := .s 11 }), (.mdrain, { sa := .s 1 }),
   (.mdrainAdd, { mod := 1, sa := .s 1 }), (.st, { sa := .s 1, sb := .s 2, ty := .n32, aux := 2 }),
   (.atom, { dst := .s 4, sa := .s 1, sb := .s 2, ty := .n32 })]

/-- Where each can issue: `g` with the address of data in s12 too, the tile READY. -/
def commits (g : Group) (c : State → Env → Op → Fields → Bool) : Bool :=
  committing.all (fun x => at_ { g with sregs := g.sregs.set 12 { val := 0x20000, full := true } } sub0 (tileTeam .ready) ctx0 x.1 x.2 (fun s e =>
    e.guard x.2 && decide (0 < e.team.accs.length) && (x.1 != .post || leafAt s e (sreg e.g 12).val) &&
    (x.1 != .st || (releaseScope e.g true .none).isSome) && c s e x.1 x.2))

/-- A group between two regions, whose sub-group opens the next one, under 4 and 4. -/
def reopens : Group := { g0 with region := { Region.closed with reopen := some (1, 4, 4) } }

theorem witness_CommittingCommands :
    commits openGroup (fun _ e _ _ => e.g.region.isOpen && !commitWaits e.g) = true ∧
    commits busyGroup (fun _ e _ _ => e.g.region.isOpen && commitWaits e.g) = true := by decide

theorem witness_CommittingCommands_after :
    commits openGroup (fun s _ op f => (envOf (commitNow s 0 1)).any (fun e => readyB (commitNow s 0 1) e op f && e.guard f && !closedAtoms e.g)) = true := by decide

theorem witness_CommittingCommands_reopens :
    commits reopens (fun s e op f => op == .atom || (match exec (op.instr f) s with
      | .next t => (t.groups.find 0).any (fun g => g.queues != e.g.queues || g.storeQ != e.g.storeQ)
      | _ => false)) = true := by decide +kernel

theorem witness_CommittingCommands_atom :
    onG reopens .atom { dst := .s 4, sa := .s 1, sb := .s 2, ty := .n32 } (fun s e => !e.g.region.isOpen && e.g.region.reopen == some (1, 4, 4) &&
      e.g.fenceRel.isNone && !closedAtoms e.g && (xok s (xlat s e .atomic (accesses e { dst := .s 4, sa := .s 1, sb := .s 2, ty := .n32 } true true))).any (fun l =>
        (hostUncached l).isNone && !l.isEmpty)) = true ∧
    (let i : Inflight := { loading with what := .atomic [atom4] [] .none none }
     let x : Sub := { sub0 with st := .performing 3 6 }
     let s := stWith { reopens with inflight := [i] } x team0 ctx0
     found s x team0 = true ∧ inMonitor { reopens with inflight := [i] } 3 = false ∧ earlierFirst { reopens with inflight := [i] } i locs4 = false ∧
     atomBefore { reopens with inflight := [i] } 3 true locs4 = false ∧ closedAtoms reopens = false ∧ atomFreeB s 0 atom4 loc0 4 = true) := by decide +kernel

/-- The small state with an array window of die 1 in core 0's TLB, and one link in training. -/
def stAway (l : Nat) : State :=
  { st0 with
    cores := [(0, { Core.reset 0 with tlb := tlb0.map (fun t => if t.kind == .scarab then { t with pa := 2 ^ 30 } else t) })]
    links := [(l, { Link.reset with st := .training })] }

/-- The first link on the way from die 0 to die 1. -/
def firstLink : Nat := 17 + (Config.route [] 0 1).1.1 % Config.dieLinks + (if (Config.route [] 0 1).1.2 then reverseBase else 0)

theorem held_away : arrayHeld (stAway firstLink) 0 8192 = true := by
  have h17 : 17 ≤ firstLink := by unfold firstLink; omega
  have hf : failedLinks (stAway firstLink) = [] := by simp [failedLinks, stAway]
  have hl : (linkOf (stAway firstLink) firstLink).st = .training := by simp [linkOf, stAway, Map.find]
  have hr : firstLink ∈ dieRoute (stAway firstLink) 0 1 := by
    unfold dieRoute
    rw [hf]
    simp only [List.mem_filter, List.map_cons, List.mem_cons, show (0 == 1 || decide (0 > 32) || decide (1 > 32)) = false from by decide, Bool.false_eq_true, if_false]
    exact ⟨.inl rfl, by rw [hl]; decide⟩
  simp only [arrayHeld, routeHeld, dieOfCore, Bool.and_eq_true, List.any_eq_true]
  exact ⟨⟨(firstLink, _), .head _, by simp [h17]⟩, firstLink, hr, by rw [hl]; decide⟩

theorem witness_ArrayCommandIssue_held : [Op.xcfg, .xstat].all (fun op =>
    let f : Fields := { dst := if op == .xstat then .s 4 else .none, sa := .s 8 }
    readyB (stAway firstLink) (envWith g0 sub0 team0 ctx0) op f && match engTranslate (stAway firstLink) (envWith g0 sub0 team0 ctx0) .engineRead notScarab [(0x30000, 1)] with
      | .ok ts => arrayAt ts 0x30000 == 8192
      | _ => false) = true := by decide +kernel

theorem witness_ArrayCommandIssue :
    let w : Op → Fields → (State → Env → Bool) → Bool := fun op f c => onG g0 op f (fun s e => e.guard {} &&
      eok (engTranslate s e (if op = .xstat then .engineRead else .engineWrite) notScarab [(e.va (readS e.g f f.sa), 1)]) && c s e)
    [Op.xcfg, .xpool, .xration].all (fun op => w op { sa := .s 8 } (fun _ _ => true)) = true ∧
    w .xstat { dst := .s 4, sa := .s 8, imm := 2 } (fun s _ => (arrayOf s 0).run.isNone && !configWaits (arrayOf s 0)) = true ∧
    w .xgate { sa := .s 8, sb := .s 2 } (fun _ e => e.g.region.reopen.isNone) = true ∧ w .xrun { sa := .s 8, sb := .s 2, imm := 1 } (fun _ _ => true) = true ∧
    w .xrun { sa := .s 8, sb := .s 2 } (fun _ e => decide ((readS e.g {} (.s 2)).toNat % 8 ≠ 0)) = true ∧
    w .xrun { sa := .s 8, sb := .s 1 } (fun s e => match engTranslate s e .engineRead allow [(e.va 0x20000, 8)] with
      | .ok hs => (headerWaits s e (headerLocs hs (e.va 0x20000))).isNone
      | _ => false) = true ∧
    onG g0 .xcfg { sa := .s 1 } (fun s e => estop (engTranslate s e .engineWrite notScarab [(e.va 0x20000, 1)])) = true ∧
    onG g0 .xcfg { sa := .s 10 } (fun s e => ewait (engTranslate s e .engineWrite notScarab [(e.va 0, 1)])) = true ∧
    onG g0 .xcfg { sa := .s 8, pred := 2 } (fun _ e => !e.guard quiet) = true ∧
    arrayHeld st0 0 0 = false ∧
    onG g0 .post { sa := .s 2 } (fun _ e => decide ((sreg e.g 2).val.toNat % 128 ≠ 0)) = true ∧
    onG { g0 with sregs := g0.sregs.set 12 { val := 0x20000, full := true } } .post { sa := .s 11 } (fun s e => e.guard {} && decide (11 + 3 < e.g.s) &&
      (sreg e.g 11).val.toNat % 128 == 0 && leafAt s e (sreg e.g 12).val && e.g.queues.length == 5) = true ∧
    onG g0 .post { sa := .s 10, pred := 2 } (fun _ e => !e.guard quiet) = true := by decide

/-! ### Witnesses: fetch, walks, evictions, engines, arrays -/

/-- The small state with the tables of context 0 in DRAM; `flags` are those of the leaf that maps the code's page. -/
def stTables (flags : Nat) : State :=
  { st0 with
    dram := [(0x100000, tableEntry 0x120000 1), (0x120000, tableEntry 0x140000 1), (0x140000, tableEntry 0x160000 1), (0x160000, tableEntry 0x180000 1),
      (0x180010, tableEntry 0x200000 flags), (0x200000, [0xC0, 0, 0, 0x1F, 0xFF, 0xFF])].foldl (fun m x => m.writeBytes x.1 x.2) [] }

def filled : FillEnd → Nat
  | .word _ => 0
  | .miss _ _ => 1
  | .denied _ _ _ => 2
  | .asks _ => 3
  | .poisoned _ _ => 4

/-- How the fill at the small state's PC ends, with a page of code in core 0's TLB. -/
def fillOf (t : Trans) (bad : List (Space × Nat)) : Nat :=
  let s := { stTables 0x1F with cores := [(0, { Core.reset 0 with tlb := [t] })], poisoned := bad }
  filled (fillWord s 0 (pageFor s 0 0 [] 0x10000) 0x10000)

def homeCopy (sp : Space) (sector : Nat) (dirty : Bool) : Copy :=
  { place := .home, space := sp, sector := sector, bytes := List.replicate 64 7, dirty := dirty, cw := false, pin := none, pinAt := 0, stale := [] }

theorem witness_FetchWalksAndEvictions :
    (envOf st0).isSome = true ∧ (envOf (stTables 0x1F)).isSome = true ∧ (stTables 0x1F).codes = [] ∧ fillOf placedTrans [] = 0 ∧
    filled (fillWord st0 0 (pageFor st0 0 0 [] 0x10000) 0x10000) = 1 ∧ fillOf { placedTrans with x := false } [] = 2 ∧
    fillOf placedTrans [(.dram, 0x200000 / 64)] = 4 ∧
    (let a : ArrayUnit := { ArrayUnit.reset with st := .running }
     let s := { st0 with cores := [(0, { Core.reset 0 with tlb := [{ placedTrans with kind := .scarab, pa := 0 }] })], arrays := [(0, a)] }
     filled (fillWord s 0 (pageFor s 0 0 [] 0x10000) 0x10000)) = 3 ∧
    (cachedWord st0 0 0 0x10000).isNone = true ∧ (st0.contexts.find 0).isSome = true ∧
    (match walk (stTables 0x1F) 0 0x10000 with
     | .leaf _ => true
     | _ => false) = true ∧
    usablePointers (dieOf (stTables 0x1F) 0) 0 0x10000 = [] ∧ found st0 sub0 team0 = true ∧
    codeOf st0 0x2000 = 3 ∧ (homeCopy .dram 0x8000 true).bytes.length = 64 ∧ lineHeld { st0 with copies := [homeCopy .dram 0x8000 true] } .dram 0x2000 0 = false := by decide

/-- R144: a walk over five levels caches the pointers of levels 4 to 1, and one of them serves a page below the same tables. -/
theorem test_walk_caches_pointers :
    let ps := walkPointers (stTables 0x1F) 0 0x10000 placedDesc.ptRoot walkLevels
    ps.map (fun p => (p.level, p.table)) = [(4, 0x120000), (3, 0x140000), (2, 0x160000), (1, 0x180000)] ∧
    (usablePointers { Die.reset with pointers := ps } 0 0x30000).length = 4 ∧ usablePointers { Die.reset with pointers := ps } 0 (2 ^ 79) = [] := by
  decide

/-- The small state with one command at the head of queue `q`, and tile 0 in a state. -/
def stCmd (q : Nat) (c : Command) (st : TileState) : State := stWith (queued q [c]) sub0 (tileTeam st) ctx0

def job (q : Nat) (c : Command) (st : TileState) (p : State → Job → Bool) : Bool := (jobOf (stCmd q c st) 0 q).any (p (stCmd q c st))

def isOk : EngRead → Bool
  | .ok _ _ => true
  | _ => false

def isBad : EngRead → Bool
  | .bad _ => true
  | _ => false

def wrote : EngWrite → Bool
  | .ok _ => true
  | _ => false

def page2 : Trans :=
  { ctx := 0, also := [], vpn := 2, span := 1, pa := 0x200000, kind := .normal, cache := 0, port := 0, r := true, w := true, x := true, g := false }

def going (op : Op) (f : Fields) : Command := { cmdOf op f .started with va := 0x20000, vb := 64, pages := [page2] }

def adding : Command := { going .mdrainAdd { sb := .s 10 } with vb := 0 }

/-- The lines of a rectangle, before they are put in order. -/
def unsortedLines (j : Job) : List (Space × Nat) :=
  (((List.range (jobRect j).rows).flatMap (rectRow j)).map (fun l => (l.space, l.addr / 256))).eraseDups

theorem witness_MatrixEngine :
    [(Op.mzero, ({} : Fields)), (.mma, { ty := .f32 }), (.mload, { imm := 0x400 }), (.mdrain, { imm := 0x400 }), (.mdrainAdd, { imm := 0x400 })].all (fun x =>
      job 0 (cmdOf x.1 x.2 .queued) .ready (fun s j => forkReady s j.g j.team j.c && !engineBusy s j.team.core [0] &&
        decide (allowLevel s j.team.core < 3) && !drainTileWaits j && !shadowAway s j)) = true ∧
    job 0 (cmdOf .mzero {} .started) .ready (fun s j => cmdRuns s j) = true ∧
    job 0 { cmdOf .mma { ty := .f32 } .started with tilesAt := [f32Tile .ready, f32Tile .ready] } .ready (fun s j => cmdRuns s j &&
      decide ((j.c.tilesAt.getD 0 Tile.freed).rows ≤ 64)) = true ∧
    job 0 { cmdOf .mload { sb := .s 10 } .started with vb := 0 } .ready (fun s j => cmdRuns s j && decide ((jobRect j).row0 + j.c.progress < 64 ∧
      (jobRect j).col0 + (jobRect j).cols ≤ 64)) = true ∧
    job 0 (cmdOf .mdrain { sb := .s 10, imm := 0x400 } .started) .ready (fun s j => cmdRuns s j && Memory.wf j.team.scratch && j.team.freeing.isEmpty &&
      decide ((jobRect j).cols * 4 ≤ (j.team.tiles.getD 0 Tile.freed).pitch) && (j.team.tiles.getD 0 Tile.freed).tag == 3) = true ∧
    (let c : Command := { going .mdrain { sb := .s 10 } with vb := 0 }
     job 0 c .ready (fun s j => cmdRuns s j && wrote (engWrite s j ((rectRow j 0).map (fun l => (l, 1)))) && !(rectRow j 0).isEmpty)) = true ∧
    job 0 adding .ready (fun s j => !j.c.holding && (unsortedLines j).all (fun l => l == (.dram, 0x2000)) && !(unsortedLines j).isEmpty &&
      !lineHeld s .dram 0x2000 1 && s.lineHolds.isEmpty && s.copies.isEmpty && s.flights.isEmpty &&
      !portHeld s (dieOfCore j.team.core) { loc0 with cache := 1 } && decide (codeOf s 0x2000 = 3)) = true ∧
    (jobOf { stCmd 0 adding .ready with lineHolds := [(.dram, 0x2000, 1)] } 0 0).any (fun j =>
      (unsortedLines j).all (fun l => l == (.dram, 0x2000))) = true := by decide

/-- The lines of the witness above are those of `rectLines`. -/
theorem lines_of_unsorted (j : Job) (l : Space × Nat) : l ∈ rectLines j ↔ l ∈ unsortedLines j := by
  simp [rectLines, unsortedLines]

theorem witness_CopyEngineAndCicada :
    let start : Nat → Op → TileState → Bool := fun q op st => job q (cmdOf op {} .queued) st (fun s j => forkReady s j.g j.team j.c &&
      !engineBusy s j.team.core [1, 2] && decide (allowLevel s j.team.core < 4) && decide (0 < j.team.tiles.length) &&
      (op == .cpyOut || op == .stash || !tileRead s 0 0))
    start 1 .cpyIn .empty = true ∧ start 1 .cpyIn .ready = true ∧ start 1 .cpyOut .ready = true ∧ start 2 .restore .empty = true ∧ start 2 .stash .ready = true ∧
    job 1 { cmdOf .cpyMm {} .queued with va := 0x20000, vb := 4, pages := [page2] } .empty (fun s j =>
      let ls := cmdLocs j 0x20000 4
      (engWaits s j false ls ls).isNone && ls.all (fun l => !engLost s l && !sectorBad (fillCodes s j.team.ctx ls) l.space (locSector l))) = true ∧
    job 1 (going .cpyIn {}) .free (fun s j => cmdRuns s j) = true ∧ job 2 (going .stash {}) .free (fun s j => cmdRuns s j) = true ∧
    [0, 1].all (fun p => job 1 { going .cpyIn {} with progress := p } .filling (fun s j => cmdRuns s j && isOk (engRead s j (cmdLocs j 0x20000 64)))) = true ∧
    (jobOf { stCmd 1 (going .cpyIn {}) .filling with poisoned := [(.dram, 0x8000)] } 0 1).any (fun j =>
      !j.c.region && isBad (engRead { stCmd 1 (going .cpyIn {}) .filling with poisoned := [(.dram, 0x8000)] } j (cmdLocs j 0x20000 64))) = true ∧
    job 2 (going .restore {}) .filling (fun s j => match engRead s j (cmdLocs j 0x20000 64) with
      | .ok _ bs => blockGood false bs
      | _ => false) = true ∧
    (jobOf { stCmd 2 (going .restore {}) .filling with dram := [(0x200000, 1)] } 0 2).any (fun j =>
      match engRead { stCmd 2 (going .restore {}) .filling with dram := [(0x200000, 1)] } j (cmdLocs j 0x20000 64) with
      | .ok _ bs => !blockGood false bs
      | _ => false) = true ∧
    job 1 (going .cpyOut {}) .draining (fun s j => wrote (engWrite s j ((cmdLocs j 0x20000 64).map (fun l => (l, 1))))) = true ∧
    job 2 (going .stash {}) .draining (fun s j => wrote (engWrite s j ((cmdLocs j 0x20000 64).map (fun l => (l, 1))))) = true ∧
    job 1 { going .cpyMm {} with vd := 0x20000, buf := [(0, 1)] } .empty (fun _ j => j.c.bad.isEmpty && decide (min 64 (j.c.vb.toNat - 0) ≠ 0)) = true ∧
    job 1 { going .cpyMm {} with vd := 0x20000, progress := 64 } .empty (fun _ j => j.c.vb.toNat == 64) = true := by decide +kernel

def task0 : TaskRec := { ctx := 0, kid := 0x20000, arg0 := 1, arg1 := 2, arg2 := 3 }

/-- The small state with a continuation at die 0, and a page-table path to the kernel entry's page. -/
def stTask (entry : List Byte) : State :=
  { stTables 0x1F with
    dies := [(0, { Die.reset with tasks := [task0] })], groups := [], teams := []
    dram := (((stTables 0x1F).dram.writeBytes 0x180020 (tableEntry 0x240000 0x1F)).writeBytes 0x240000 entry) }

/-- A launch record of 128 bytes as R78 lays it out: code, a grid of one team, one producer group with V 16 and S 16. -/
def entry0 : List Byte :=
  leBytes 16 0x10000 ++ leBytes 4 1 ++ leBytes 4 1 ++ leBytes 4 1 ++ [1, 0, 16, 0, 16, 0] ++ List.replicate 94 0

def launchOk : LaunchRead → Bool
  | .ok _ _ => true
  | _ => false

theorem witness_Continuations :
    (jobOf (stCmd 4 (cmdOf .post {} .queued) .empty) 0 4).any (fun j => forkReady (stCmd 4 (cmdOf .post {} .queued) .empty) j.g j.team j.c &&
      decide ((dieOf (stCmd 4 (cmdOf .post {} .queued) .empty) j.c.payload).tasks.length < 65536) &&
      !routeHeld (stCmd 4 (cmdOf .post {} .queued) .empty) (dieOfCore j.team.core) j.c.payload) = true ∧
    nextTask (stTask []) 0 = some (0, task0) ∧ launchOk (fetchLaunch (stTask []) 0 0x20000 true) = false ∧ ((stTask []).contexts.find 0).isSome = true ∧
    nextTask (stTask entry0) 0 = some (0, task0) ∧ launchOk (fetchLaunch (stTask entry0) 0 0x20000 true) = true ∧
    (stTask entry0).kernels.length < 4096 := by decide +kernel

/-- An assignment that fits is found whatever the free choice picks. -/
theorem fit_any {loads : List (Nat × Nat × Nat)} {p c : List (Nat × Nat)} (h : (fitParts loads 0 p c).isSome = true) (k : Nat) :
    ∃ parts, fitParts loads k p c = some parts := by
  have pick : ∀ (good : List (List Nat)), good[0 % good.length]?.isSome = true → good[k % good.length]?.isSome = true := by
    intro good hg
    cases good with
    | nil => simp at hg
    | cons a t => simpa using Nat.mod_lt k (Nat.succ_pos t.length)
  rw [← Option.isSome_iff_exists]
  simp only [fitParts, Option.isSome_map] at h ⊢
  exact pick _ h

/-- A core has room, whatever assignment the free choice takes. -/
theorem room_of_check {s : State} {core : Nat} {r : LaunchRec} {cont : Bool}
    (h : (let res := (residentOn s core []).map (·.2)
          let sum : (Team → Nat) → Nat := fun fn => (res.map fn).foldl (· + ·) 0
          core ≥ 4096 || (coreOf s core).logical.isNone || sum (fun t => t.launch.scratch) + r.scratch > 512 || sum (fun t => t.tiles.length) + r.tiles > 64 ||
          decide ((freeAccs s core []).length < r.acc) || sum (fun t => t.barriers.length) + r.barriers > 64) = false)
    (hp : (fitParts ((List.range 4).map (fun p => partLoad s core p [])) 0 (producerBudgets r cont) (consumerBudgets r cont)).isSome = true) :
    ∃ parts, roomOn s core r cont [] = some parts := by
  unfold roomOn
  simp only [] at h ⊢
  rw [h]
  exact fit_any hp _

/-- The small state with no team placed yet. -/
def stQueued : State :=
  { st0 with kernels := [(0, { placedKernel with st := .queued, next := 0, cores := [] })], teams := [], groups := [] }

theorem witness_Continuations_room : ∃ parts, roomOn (stTask entry0) 0 placedLaunch true [] = some parts :=
  room_of_check (by decide) (by decide)

/-- A core under test takes no team: with every core of the home die so, a continuation has no room. -/
theorem witness_Continuations_full (k : Kernel) (h : k.home = some 0) (hs : k.saved = []) :
    hasRoom { stTask entry0 with cores := (List.range 128).map (fun c => (c, { Core.reset c with scan := true })) } k [] = false := by
  have hall : ∀ c, c < 128 → (coreOf { stTask entry0 with cores := (List.range 128).map (fun c => (c, { Core.reset c with scan := true })) } c).scan = true := by
    decide +kernel
  unfold hasRoom
  rw [List.any_eq_false]
  intro c _ hc
  simp only [coreServes, h, hs, Bool.and_eq_true] at hc
  by_cases hlt : c < 128
  · simp [hall c hlt] at hc
  · have hne : (0 == c / 128) = false := by
      have : c / 128 ≠ 0 := by omega
      simpa using fun e => this e.symm
    simp [hne] at hc

def gateRun (w : W64) : Run :=
  { Run.start { gid := 0, cmd := 3, ctx := 0, rom := none, gates := [w], lo := 0, hi := 1023, passes := 1, scrub := false, arrival := 0, words := none } with
    checkLeft := 0 }

/-- A state with array 0 as given, and an `xgate` command waiting in q3. -/
def stArray (a : ArrayUnit) : State := { stCmd 3 (cmdOf .xgate {} .queued) .empty with arrays := [(0, a)] }

def sched0 (lo : Nat) : Schedule :=
  { gid := 0, cmd := 3, ctx := 0, rom := none, gates := [0], lo := lo, hi := 5, passes := 1, scrub := false, arrival := 0, words := none }

theorem witness_ArraySequencer :
    [4, 6].all (fun lo =>
      let s := stArray { ArrayUnit.reset with waiting := [.schedule (sched0 lo)] }
      (owedSchedule s 0).isNone && (unfetched s (arrayOf s 0)).isNone && headSchedule (arrayOf s 0) == some (sched0 lo) && (scheduleJob s (sched0 lo)).any (fun j => j.c.op == .xgate) && decide (slotsBusy s 0 < 8) &&
      allowLevel s 0 == 0 && scheduleReady s (sched0 lo) && oldestOnCore s 0 (sched0 lo)) = true ∧
    (let x : Schedule := { sched0 0 with gates := [] }
     let s : State := { stCmd 3 { cmdOf .xrun {} .queued with vb := 0x20000, payload := 16, pages := [page2] } .empty with
       arrays := [(0, { ArrayUnit.reset with waiting := [.schedule x] })] }
     owedSchedule s 0 = none ∧ unfetched s (arrayOf s 0) = some x ∧ (scheduleJob s x).any (fun j => isOk (engRead s j (cmdLocs j (jobVa j j.c.vb) j.c.payload))) = true) ∧
    (let a : ArrayUnit := { ArrayUnit.reset with st := .suspended, run := some (gateRun 0) }
     (suspendedReady (stArray a) a).any (fun x => slotFree (stArray a) 0 x && !x.scrub) = true) ∧
    (arrayOf (stArray { ArrayUnit.reset with st := .paused, run := some (gateRun 0), owed := 1 }) 0).owed = 1 ∧
    (let w : W64 := BitVec.ofNat 64 (3 * 2 ^ 59 + 9 * 2 ^ 49 + 1 * 2 ^ 39 + 2 * 2 ^ 29)
     let s := stArray { ArrayUnit.reset with st := .running, run := some (gateRun w) }
     allowLevel s 0 = 0 ∧ isEnd w = false ∧ gateOut w = 9 ∧ (gateIns w).take (gateArity (gateOp w)) = [1, 2] ∧ (gateRun w).endLeft = 0 ∧
     (gateRun w).stop = none ∧ (gateRun w).checkLeft = 0 ∧ (gateRun w).sched.hi < 1024) ∧
    allowLevel { stArray { ArrayUnit.reset with st := .running, run := some (gateRun 0) } with cores := [(0, { Core.reset 0 with level := 1 })] } 0 = 1 ∧
    (scheduleJob (stArray { ArrayUnit.reset with st := .running, run := some { gateRun 0 with stop := some 0 } }) (gateRun 0).sched).isSome = true ∧
    (let s := stArray { ArrayUnit.reset with st := .running, run := some (gateRun 0), reads := [0] }
     sectorWaits s .array 0 = true ∧ (arrayOf s 0).reads.contains 0 = true ∧ writeAsked (arrayOf s 0) 0 = false ∧ (arrayOf s 0).admits < 4 ∧
     s.copies.length < 15) ∧
    [ArrayCmd.xration 5, .xcfg 2, .xpool 1 100 64].all (fun c => (arrayOf (stArray { ArrayUnit.reset with waiting := [c] }) 0).waiting == [c] &&
      (arrayOf (stArray { ArrayUnit.reset with waiting := [c] }) 0).run.isNone) = true := by decide

/-! ### Witnesses: teams, kernels, contexts, queues -/

def slotDesc : CtxDesc := { placedDesc with saveBase := 0x400000, teamSlot := 1000, slots := 2 }

def evictCtx : Context := { ctx0 with st := .evicting, desc := slotDesc }

theorem witness_Teams_place :
    (∃ parts, roomOn stQueued 0 placedLaunch false [] = some parts) ∧
    (let k : Kernel := { placedKernel with st := .queued, next := 0, cores := [] }
     headTeam k = some (0, none) ∧ placeable stQueued k = true ∧ coreServes stQueued k 0 = true ∧
     stQueued.kernels.all (fun e => !servedBefore e.2 k) = true ∧ stQueued.kernels.find 0 = some k ∧ k.cont = none) :=
  ⟨room_of_check (by decide) (by decide), by decide⟩

theorem witness_Teams_delay : ((stWith g0 sub0 { team0 with delay := 1 } ctx0).teams.find 0).map (·.delay) = some 1 := by decide

def evictable (tm : Team) : Bool :=
  let s := stWith g0 sub0 tm evictCtx
  s.teams.find 0 == some tm && !teamExited s 0 && !tm.evicting && (s.kernels.find 0).isSome && (freeSlot s 0 evictCtx).isSome &&
  s.groups.all (fun e => e.2.subs.all (fun x => x.handler.isNone))

theorem witness_Teams_evict : evictable { bareTeam with fresh := true, delay := 3 } = true ∧ evictable bareTeam = true := by decide +kernel

def emptySaved : Team := { bareTeam with accs := [], barriers := [] }

def tinyGroup : Group := { g0 with v := 0, s := 0, vregs := [], sregs := [] }

theorem leBytes_size (n x : Nat) : (leBytes n x).length = n := by
  induction n generalizing x with
  | zero => rfl
  | succ n ih => simp [leBytes, ih]

theorem flatMap_size {α β : Type} (fn : α → List β) (n : Nat) (h : ∀ x, (fn x).length = n) (l : List α) : (l.flatMap fn).length = l.length * n := by
  induction l with
  | nil => simp
  | cons a t ih => simp [ih, h, Nat.succ_mul, Nat.add_comm]

theorem blank_image (s : State) (t : Team) (ht : heldTiles t = []) (ha : t.accs = []) (hs : t.launch.scratch = 0) :
    imageLen s 0 t = 35200 + (((teamGroups s 0).map (·.2)).flatMap groupRecord).length := by
  unfold imageLen teamImage
  simp only [ht, ha, hs, List.length_append, leBytes_size, List.flatMap_nil, List.length_nil, Memory.readBytes, List.length_replicate, List.contains_nil,
    Bool.false_eq_true, if_false, Nat.zero_mul, List.range_zero, List.map_nil]
  rw [flatMap_size _ 8 (fun _ => leBytes_size _ _), flatMap_size _ 32 (fun _ => List.length_replicate), flatMap_size _ 512 (fun _ => List.length_replicate)]
  simp only [List.length_range]
  omega

theorem tiny_records : (((teamGroups (stWith tinyGroup sub0 emptySaved evictCtx) 0).map (fun x => x.2)).flatMap groupRecord).length ≤ 4000 := by
  decide +kernel

theorem witness_Teams_image : evictable emptySaved = true ∧ imageLen (stWith tinyGroup sub0 emptySaved evictCtx) 0 emptySaved ≤ 1000 * 4096 := by
  refine ⟨by decide, ?_⟩
  rw [blank_image _ _ (by decide) (by decide) (by decide)]
  have := tiny_records
  omega

/-- A stopped team of one small group, whose context has team slots of `n` pages of 4,096 bytes. -/
def stEvicting (n : Nat) : State :=
  stWith tinyGroup sub0 { emptySaved with evicting := true } { evictCtx with desc := { slotDesc with teamSlot := n } }

/-- The state whose image is written. -/
def recorded (s : State) : State :=
  (teamGroups s 0).foldl (fun s e => onGroup s e.1 recordPcs) (clearChannels (deliverCore (endPins s 0) 0) 0)

theorem recorded_records (n : Nat) (h : n = 1 ∨ n = 1000) :
    (((teamGroups (recorded (stEvicting n)) 0).map (fun x => x.2)).flatMap groupRecord).length ≤ 4000 := by
  rcases h with rfl | rfl <;> decide +kernel

theorem witness_Teams_written :
    [1, 1000].all (fun n =>
      let s := stEvicting n
      !teamExited s 0 && ctxIssues evictCtx && (freeSlot s 0 { evictCtx with desc := { slotDesc with teamSlot := n } }) == some 0 && s.flights.isEmpty &&
      (s.kernels.find 0).isSome && s.copies.isEmpty && s.codes.isEmpty && Memory.wf s.dram && Memory.wf s.hostMem && s.peerMem.isEmpty &&
      !inHandlers s 0 && !undelivered (deliverCore (endPins s 0) 0) 0 &&
      s.groups.all (fun e => e.2.inflight.isEmpty && e.2.storeQ.isEmpty && e.2.rangeOps.isEmpty && e.2.deferred.isEmpty &&
        e.2.queues.all (fun q => q.isEmpty))) = true := by decide +kernel

/-- With no line, hold and link in the way the hub's writes to DRAM wait for nothing. -/
theorem hub_goes (s : State) (hc : s.copies = []) (hh : s.lineHolds = []) (hl : s.links = []) (bs : List Byte) (pa : Nat) (hd : pa + bs.length ≤ dramEnd) :
    ({ who := .hub, team := none, bytes := bs.mapIdx (fun j b => (hubLoc (pa + j), b)), rel := none } : Flight).waits s = false := by
  unfold Flight.waits
  rw [List.any_eq_false]
  intro w hw
  obtain ⟨j, hj, rfl⟩ := List.mem_mapIdx.mp hw
  have hlt : physAddr (pa + j) < dramEnd := by unfold physAddr dramEnd at *; omega
  have hs : hubSpace (pa + j) = .dram := by simp [hubSpace, hlt]
  simp [directStore, direct, hubLoc, hs, homeBusy, linePinned, lineHeld, sectorWaits, pathHeld, routeHeld, recallHeld, behindHeld, backHeld, linkOf, hc, hh, hl,
    Link.reset]

theorem witness_Teams_written_clear :
    let s := recorded (stEvicting 1000)
    s.copies = [] ∧ s.lineHolds = [] ∧ s.links = [] ∧ s.flights = [] ∧ s.codes = [] ∧ Memory.wf s.dram = true ∧ Memory.wf s.hostMem = true ∧ s.peerMem = [] := by
  decide +kernel

theorem witness_Teams_written_fits :
    (teamImage (recorded (stEvicting 1000)) 0 { emptySaved with evicting := true } .saved []).length ≤ 1000 * 4096 ∧
    slotAddr { slotDesc with teamSlot := 1000 } 0 + (teamImage (recorded (stEvicting 1000)) 0 { emptySaved with evicting := true } .saved []).length ≤ 2 ^ 52 := by
  have h : imageLen _ _ _ = _ := blank_image (recorded (stEvicting 1000)) { emptySaved with evicting := true } (by decide) (by decide) (by decide)
  have := recorded_records 1000 (.inr rfl)
  unfold imageLen at h
  rw [h]
  refine ⟨by omega, ?_⟩
  have : slotAddr { slotDesc with teamSlot := 1000 } 0 = 0x400000 := by decide
  omega

theorem witness_Teams_written_long :
    (teamImage (recorded (stEvicting 1)) 0 { emptySaved with evicting := true } .saved []).length > 1 * 4096 := by
  have h : imageLen _ _ _ = _ := blank_image (recorded (stEvicting 1)) { emptySaved with evicting := true } (by decide) (by decide) (by decide)
  unfold imageLen at h
  rw [h]
  omega

/-- The kernel of the small state, with a DONE address. -/
def doneKernel (st : KernelState) (a : VAddr) : Kernel :=
  { placedKernel with st := st, exited := 1, cores := [0], launch := { placedLaunch with done := a, doneValue := 9 } }

def stKernel (k : Kernel) : State := { stTask entry0 with kernels := [(0, k)] }

def hostLoc : Loc := { space := .host, addr := 2 ^ 41, cache := 2, comp := false }

/-- The state in which a kernel's DONE write to an address is made. -/
def doneAt (a : VAddr) : State :=
  hubWalkCodes (joinParty (clearChannels (deliverCore (stKernel (doneKernel .retiring a)) 0) 0) .hub (.core 0)) 0 a.toNat

theorem witness_Kernels :
    (let s := stKernel (doneKernel .running 0x20000)
     decide ((doneKernel .running 0x20000).exited ≥ kernelTeams (doneKernel .running 0x20000)) && commandsDone s 0 && ctxIssues ctx0) = true ∧
    [(0 : VAddr), 0x20000, 0x90000].all (fun a => storesDone (stKernel (doneKernel .retiring a)) 0 && (doneKernel .retiring a).cores == [0] &&
      !undelivered (deliverCore (stKernel (doneKernel .retiring a)) 0) 0) = true ∧
    (let u : State := { stKernel (doneKernel .retiring 0) with
       flights := [{ who := .core 0, team := some 0, bytes := [(hostLoc, 1)], rel := none }], links := [(16, { Link.reset with st := .training })] }
     storesDone u 0 = true ∧ undelivered (deliverCore u 0) 0 = true) ∧
    (match hubXlat (doneAt 0x90000) 0 0x90000 .write with
     | .bad => true
     | _ => false) = true ∧
    (match hubXlat (doneAt 0x20000) 0 0x20000 .write with
     | .ok l => (hubWaits (doneAt 0x20000) l (l.cache != 2)).isNone && plainB (doneAt 0x20000) l && l.space == .dram && l.addr % 8 == 0
     | _ => false) = true ∧
    Memory.wf (doneAt 0x20000).dram = true ∧ Memory.wf (doneAt 0x20000).hostMem = true ∧ (doneAt 0x20000).peerMem = [] := by decide +kernel

/-- The hub with one command at the head of its ring: an opcode, a context, and the bytes behind them; the argument names `desc`. -/
def stHub (op ctx : Nat) (args : List Byte) (cs : Map Context) (desc : List Byte) : State :=
  { st0 with
    contexts := cs, cmdq := { ring := 0x500000, logSize := 4, pi := 1, ci := 0, acted := false }
    dram := ((Memory.writeBytes [] 0x500000 ([BitVec.ofNat 8 op, 0] ++ leBytes 2 ctx ++ leBytes 4 0 ++ leBytes 8 0x600000 ++ leBytes 8 0x700000 ++ leBytes 8 1 ++
      args)).writeBytes 0x600000 desc) }

def inState (st : CtxState) : Map Context := [(0, { ctx0 with st := st })]

def is_ (s : State) (op : Nat) : Bool := cmdReady s && cmdOpcode s == op

def desc0 : List Byte := leBytes 8 0x100000 ++ leBytes 8 0x400000 ++ leBytes 4 1 ++ leBytes 4 0 ++ leBytes 8 0 ++ leBytes 4 2 ++ List.replicate 92 0

def queueDesc : List Byte := leBytes 8 0x800000 ++ leBytes 8 0x900000 ++ [4, 0, 0xFF, 0xFF] ++ List.replicate 12 0

/-- A SERVING queue with one entry in its ring. -/
def wq0 : WorkQueue :=
  { ctx := 0, st := .serving, ring := 0x800000, ciAddr := 0x900000, logSize := 4, prio := 0, vector := 0xFFFF, pi := 1, ci := 0, launched := []
    signals := [], waiting := none, satisfied := false }

/-- The bytes that the head command of `s` names, as the hub reads `n` of them, are good. -/
def goodAt (ok : (Nat → Byte) → Bool) (n : Nat) (s : State) : Bool :=
  let u := readCmd s
  !hubHeld u (cmdArg u) && ok (fun o => hubByte (hubFetch u (cmdCtx u) (cmdArg u) n) (cmdArg u + o))

/-- The same command with its argument in host memory, whose port trains. -/
def heldHub (s : State) : State :=
  { s with dram := s.dram.writeBytes 0x500008 (leBytes 8 (2 ^ 41)), links := [(16, { Link.reset with st := .training })] }

def argHeld (s : State) (op : Nat) : Bool := is_ s op && hubHeld (readCmd s) (cmdArg (readCmd s))

theorem witness_ContextCommands :
    (stHub 1 0 [] [] []).codes = [] ∧
    is_ (stHub 0x30 0 [] [] []) 0x30 = true ∧ (is_ (stHub 1 0 [] [] []) 1 && !hubHeld (readCmd (stHub 1 0 [] [] [])) 0x600000 && !goodAt descGood 128 (stHub 1 0 [] [] [])) = true ∧
    argHeld (heldHub (stHub 1 0 [] [] [])) 1 = true ∧ argHeld (heldHub (stHub 8 0 [] (inState .running) [])) 8 = true ∧
    (let s := stHub 1 0 [] (inState .running) desc0
     is_ s 1 && goodAt descGood 128 s && ((readCmd s).contexts.find 1).isNone && ((readCmd s).contexts.find 0).isSome) = true ∧
    [(2, CtxState.loaded), (3, .running), (4, .saved), (5, .running), (5, .evicting), (5, .restoring), (6, .stopped), (8, .loaded)].all (fun x =>
      let s := stHub x.1 0 [] (inState x.2) queueDesc
      is_ s x.1 && ((readCmd s).contexts.find (cmdCtx (readCmd s))).any (fun c => c.st == x.2)) = true ∧
    [2, 3, 4, 5, 6, 8].all (fun op => is_ (stHub op 0 [] (inState .free) []) op) = true ∧
    teamBusy (readCmd (stHub 3 0 [] (inState .running) [])) 0 = true ∧ (is_ { stHub 3 0 [] (inState .running) [] with teams := [] } 3) = true ∧
    (let s := stHub 8 0 [] (inState .running) queueDesc
     goodAt queueGood 32 s && decide (cmdQueueNo (readCmd s) < 16384) && ((readCmd s).wqs.find 0).isNone && !goodAt queueGood 32 (stHub 8 0 [] (inState .running) [1])) = true ∧
    is_ (stHub 9 0 [] (inState .running) []) 9 = true ∧
    [none, some (hostLoc, true)].all (fun x => (is_ { stHub 9 0 [] (inState .running) [] with wqs := [(0, { wq0 with waiting := x })] } 9)) = true := by decide +kernel

/-- The first `n` identifiers in use: with 1,024 of them none is free. -/
def contextsTo (n : Nat) : Map Context := (List.range n).map (fun i => (i, ctx0))

theorem find_tabulated {α : Type} (fn : Nat → α) (k : Nat) : ∀ l : List Nat, k ∈ l → (Map.find (l.map (fun i => (i, fn i))) k).isSome = true := by
  intro l
  induction l with
  | nil => intro h; cases h
  | cons a t ih =>
    intro h
    simp only [List.map_cons, Map.find]
    split
    · rfl
    · rename_i hne
      rcases List.mem_cons.mp h with rfl | h
      · simp at hne
      · exact ih h

theorem witness_ContextCommands_full (n k : Nat) (h : k < n) : ((stHub 1 0 [] (contextsTo n) desc0).contexts.find k).isSome = true :=
  find_tabulated (fun _ => ctx0) k _ (List.mem_range.mpr h)

theorem witness_ManagementCommands :
    let hubS : Nat → List Byte → State := fun op a => stHub op 0 a (inState .running) []
    let hub : Nat → List Byte → State := fun op a => readCmd (hubS op a)
    let z : Nat → List Byte := fun n => List.replicate n 0
    (is_ (hubS 0x10 (leBytes 8 0x7000)) 0x10 && cmdArg (hub 0x10 []) % 4096 == 0 && cmdLe (hub 0x10 [4]) 0x20 8 % 8 == 4) = true ∧
    (let s := { hubS 0x11 (leBytes 8 2) with faultq := { st0.faultq with declared := true, seq := 2 } }
     is_ s 0x11 && decide (cmdLe (readCmd s) 0x20 8 ≤ (readCmd s).faultq.seq)) = true ∧
    (is_ (hubS 0x12 []) 0x12 && cmdLe (hub 0x12 []) 0x30 1 % 2 == 0) = true ∧ is_ { hubS 0x13 [] with groups := [] } 0x13 = true ∧
    (hub 0x12 []).groups.all (fun e => e.2.queues.all (fun l => l.all (fun x => !x.owed))) = true ∧ (hub 0x13 []).flights = [] ∧ (hub 0x13 []).cmdq.acted = false ∧
    (hub 0x12 []).faultq.kept = [] ∧
    (is_ (hubS 0x20 [0xFF, 15, 8]) 0x20 && is_ (hubS 0x20 [31, 1, 2]) 0x20 && is_ (hubS 0x21 [7]) 0x21 && is_ (hubS 0x22 [1, 48]) 0x22 && is_ (hubS 0x22 [1, 49]) 0x22) = true ∧
    (let s := { hubS 0x22 [1, 48] with arrays := [(0, { ArrayUnit.reset with st := .running })] }
     is_ s 0x22 && (readCmd s).arrays.any (fun e => arrayBusy e.2 && decide (e.1 % 64 ≥ 0))) = true ∧
    (let s : State := { hubS 0x22 ([1, 48, 0, 0, 0, 0, 0, 0] ++ leBytes 8 (2 ^ 41) ++ [1]) with links := [(16, { Link.reset with st := .training })] }
     is_ s 0x22 && hubHeld (readCmd s) (cmdLe (readCmd s) 0x28 8)) = true ∧ hubHeld (hub 0x22 [1, 48]) 0 = false ∧
    (bits (cmdLe (hub 0x22 [1, 48]) 0x20 8) 13 8 = 48 ∧ cmdLe (hub 0x22 [1, 48]) 0x30 8 = 0) ∧
    (is_ (hubS 0x23 ([0, 31, 127, 0, 7, 13, 0, 0] ++ [0xFF, 0xFF])) 0x23 && cmdLe (hub 0x23 ([0, 31, 127, 0, 7, 13, 0, 0] ++ [0xFF, 0xFF])) 0x28 2 == 0xFFFF) = true ∧
    (is_ (hubS 0x24 [2]) 0x24 && cmdArg (hub 0x24 [2]) % 64 == 0 && is_ (hubS 0x24 [3]) 0x24 ) = true ∧
    (is_ (hubS 0x25 []) 0x25 && physicalCore (hub 0x25 []) 0 0 == some 0 && !(residentOn (hub 0x25 []) 0 []).isEmpty) = true ∧
    (residentOn { hub 0x25 [] with teams := [] } 0 []).isEmpty = true ∧
    allowLevel { st0 with scanning := some (0, 0x700000, 1) } 0 = 0 ∧ is_ (hubS 0x26 []) 0x26 = true ∧ is_ (hubS 0x27 [23]) 0x27 = true ∧
    z 0 = [] := by decide +kernel

def stQueue (w : WorkQueue) (e : List Byte) : State :=
  { stTask entry0 with wqs := [(5, w)], dram := (stTask entry0).dram.writeBytes 0x800000 e }

def sig0 (add : Bool) : Signal := { loc := { loc0 with cache := 2 }, value := 3, add := add, after := [] }

/-- What a fetch of a launch record by the LAUNCH at the head of queue 5 gives. -/
def launchEnd (s : State) : Nat :=
  match fetchLaunch (takeTurn s 5 wq0) 0 (entryVa (takeTurn s 5 wq0) wq0) false with
  | .ok _ _ => 0
  | .wait _ => 1
  | .bad _ => 2
  | .beyond => 3

theorem witness_WorkQueues :
    let addr := leBytes 16 0x20000
    let launch := stQueue wq0 (leBytes 8 1 ++ addr)
    let good : State → Bool := fun s => entryClean (takeTurn s 5 wq0) wq0 0x18 && entryVaGood (takeTurn s 5 wq0) wq0 128
    let held : State := { launch with lineHolds := [(.dram, 0x2400, 1)] }
    (served launch 5 wq0 && headType launch wq0 == 1 && good launch && launchEnd launch == 0) = true ∧
    (served held 5 wq0 && headType held wq0 == 1 && good held && launchEnd held == 1) = true ∧
    (let bad := stQueue wq0 (leBytes 8 1 ++ leBytes 16 0x10000)
     served bad 5 wq0 && good bad && launchEnd bad == 2) = true ∧
    (let bad := stQueue wq0 (leBytes 8 1 ++ leBytes 16 0x20001)
     served bad 5 wq0 && !entryVaGood (takeTurn bad 5 wq0) wq0 128) = true ∧
    (served (stQueue wq0 [5]) 5 wq0 && headType (stQueue wq0 [5]) wq0 == 5) = true ∧
    (served (stQueue wq0 [4]) 5 wq0 && entryClean (takeTurn (stQueue wq0 [4]) 5 wq0) wq0 8 && served (stQueue wq0 [4, 1]) 5 wq0 &&
      !entryClean (takeTurn (stQueue wq0 [4, 1]) 5 wq0) wq0 8) = true := by decide +kernel

theorem witness_WorkQueues_signal :
    let addr := leBytes 16 0x20000
    let ends : State → Nat := fun s =>
      let t := takeTurn s 5 wq0
      let u := hubWalkCodes t 0 (entryVa t wq0).toNat
      let add := entryLe t wq0 0x28 1 == 1
      if !(served s 5 wq0 && headType s wq0 == 3 && entryClean t wq0 0x29 && entryVaGood t wq0 8 && entryLe t wq0 0x20 8 == 0) then 9
      else
        match hubXlat u 0 (entryVa u wq0) (if add then .atomic else .write) with
        | .ok l => (addDenied add l).toNat
        | .bad => 2
        | .beyond => 3
    ends (stQueue wq0 (leBytes 8 3 ++ addr ++ leBytes 8 7)) = 0 ∧ ends (stQueue wq0 (leBytes 8 3 ++ leBytes 16 0x90000)) = 2 ∧
    addDenied true hostLoc = true := by decide +kernel

theorem witness_WorkQueues_wait :
    let addr := leBytes 16 0x20000
    let wait := stQueue wq0 (leBytes 8 2 ++ addr ++ leBytes 8 7 ++ leBytes 8 0xFF ++ [1])
    let poisonedWait : State := { wait with poisoned := [(.dram, 0x240000 / 64)] }
    [(wait, false), (poisonedWait, true)].all (fun x => served x.1 5 wq0 && headType x.1 wq0 == 2 && entryClean x.1 wq0 0x29 && entryLe x.1 wq0 0x28 1 == 1 &&
      entryVaGood x.1 wq0 8 &&
      (match hubXlat x.1 0 (entryVa x.1 wq0) .read with
       | .ok l => (hubWaits x.1 l true).isNone && badLoc (hubWalkCodes (takeTurn x.1 5 wq0) 0 (entryVa x.1 wq0).toNat) l == x.2
       | _ => false)) = true ∧
    (let w := { wq0 with waiting := some (hostLoc, false) }
     (hubWaits (stQueue w []) hostLoc true).isNone && !badLoc (stQueue w []) hostLoc && direct hostLoc) = true ∧
    [(0 : Byte), 1].all (fun c => let w := { wq0 with waiting := some (hostLoc, false) }
      waitHolds (hubFresh (stQueue w (List.replicate 40 0 ++ [c])) 0 hostLoc) w hostLoc == (c == 0)) = true ∧
    [true, false].all (fun add => let s := stQueue { wq0 with signals := [sig0 add] } []
      (signalWaits s (sig0 add)).isNone && !peerFails s loc0 && !sectorBad s .dram (locSector loc0) && s.orphans.isEmpty) = true := by decide +kernel

theorem witness_ContextSteps :
    [CtxState.running, .evicting, .restoring].all (fun st => ((stHub 0 0 [] [(0, { ctx0 with st := st, raised := [hubEvent 0x20 0] })] []).contexts.find 0).any
      (fun c => c.st == st && !c.raised.isEmpty && c.pendingCmd.isNone)) = true ∧
    (let c : Context := { ctx0 with st := .halting, taken := [hubEvent 0x20 0] }
     let s := stHub 0 0 [] [(0, c)] []
     !draining s c && !unitsWork s 0) = true ∧
    (let c : Context := { ctx0 with st := .restoring }
     (imageOf (stHub 0 0 [] [(0, c)] []) c 0 0 none).isNone && placedKernel.saved.isEmpty) = true ∧
    (let s := stHub 0 0 [] [(0, { ctx0 with st := .destroyed })] []
     (ctxGroups s 0).all (fun e => !committedStores e.2) && !unitsWork s 0) = true ∧
    (let s := { st0 with teams := [], dies := [(0, { Die.reset with stale := true })] }
     (dieOf s 0).stale && (List.range 128).all (fun k => (residentOn s k []).isEmpty)) = true := by decide +kernel

/-! ### Witnesses: power, links, the host -/

theorem witness_SupplyBootAndPower :
    (!st0.failing && !st0.drain.enable && (st0.contexts.find 0).any (fun c => c.st == .running)) = true ∧
    (let s := { st0 with failing := true, contexts := inState .stopped }
     s.failing && !s.drain.enable && s.contexts.all (fun e => e.2.st == .stopped)) = true ∧
    (State.reset.status == .booting && bootSlot State.reset == some 0 && State.reset.drainIndex.isNone && State.reset.arrays.isEmpty) = true ∧
    State.reset.booted = none ∧ bootSlot { State.reset with minVersion := 1 } = none ∧
    (let up : LinkState → State := fun st => { State.reset with booted := some 0, links := [(17, { Link.reset with st := st })] }
     (linkOf (up .training) 17).st = .training ∧ (linkOf (up .up) 17).st = .up ∧ (linkOf (up .up) 16).st = .down ∧ (linkOf (up .up) 18).st ≠ .training ∧
     (up .up).drainIndex = none ∧ (up .up).arrays = [] ∧
     (linkOf { up .up with links := [(16, { Link.reset with st := .up })] } 16).st = .up) ∧
    (List.replicate 32 (0 : Byte)).length = 32 ∧ st0.attest.busy = false ∧ st0.status = .ready ∧
    { st0.attest with busy := true }.busy = true ∧
    (let s := { st0 with power := { st0.power with measured := 10201 } }
     s.power.sinceWrite == 0 && !s.failing && overSet s) = true ∧
    (let s := { st0 with power := { st0.power with lowTime := 1000 } }
     decide (s.power.lowTime ≥ 1000) && !s.power.powerStep.getLsbD 48 && !s.failing) = true ∧
    (dieOf { st0 with dies := [(0, { Die.reset with stepTarget := some 3 })] } 0).stepTarget = some 3 ∧
    (let s := { st0 with power := { st0.power with powerStep := 10000 + 100 * 2 ^ 32, setNow := 5000, rampTime := 1700 } }
     let r := bits s.power.powerStep.toNat 47 32
     !s.failing && r != 0 && s.power.rampTime / 1000 != 0 && decide (s.power.setNow < target s)) = true ∧
    (BitVec.ofNat 64 (2 ^ 48)).getLsbD 48 = true ∧ { st0 with failing := true }.failing = true := by decide +kernel

/-- A package has at least 32 die-to-die links. -/
theorem witness_dieLinks : 0 < Config.dieLinks := Nat.succ_pos _

def stLink (x : Link) : State := { st0 with links := [(3, x), (16, { x with st := .training })] }

/-- An all-zero payload under sequence number 0 with its CRC. -/
def beats : List (BitVec 144) := [0, 0, 0, BitVec.ofNat 144 (crc32c (List.replicate 68 0) * 2 ^ 112)]

theorem witness_LinksAndHost :
    linkExists 3 = true ∧ flitLink 3 = true ∧ flitLink 17 = true ∧ (linkOf (stLink Link.reset) 16).st = .training ∧
    [LinkState.down, .up, .degraded, .failed, .training].all (fun st => (linkOf (stLink { Link.reset with st := st }) 3).st == st) = true ∧
    unlocked 31 = [] ∧ unlocked 23 = [3] ∧
    (let x := linkOf (stLink { Link.reset with st := .replay, replays := 1 }) 3
     x.st == .replay && x.replays != 0 && !x.resent) = true ∧
    (let x := linkOf (stLink { Link.reset with st := .up }) 3
     x.st == .up && x.lost.isNone && x.replays == 0 && x.asked != some 5 && x.badBeats == [[], [], [], [], []] && flitGood (flitBytes beats) && flitSeq (flitBytes beats) == x.expect &&
       !flitGood (flitBytes [0, 0, 0, 0])) = true ∧
    (let s := stLink { Link.reset with st := .up, windows := [(0x200000, 0x2FFFFF), (dramEnd - 64, dramEnd + 64)] }
     inWindow (linkOf s 3) 0x200000 64 && inWindow (linkOf s 3) (dramEnd - 1) 2 && !outsideWaits s (outsideLocs 0x200000 64) && s.status == .ready &&
       !inWindow (linkOf s 3) 0x1FFFFF 2 && s.copies.isEmpty && (outsideLocs 0x200000 64).all (fun l => !badLoc s l && !inMeta l.addr) && s.monitors.isEmpty &&
       Memory.wf s.dram && Memory.wf s.hostMem && s.peerMem.isEmpty && decide (codeOf s 0x2000 = 3) && inWindow (linkOf s 3) 0x200000 4 &&
       (outsideLocs (dramEnd - 64) 64).any (fun l => inMeta l.addr)) = true ∧
    (let s := { st0 with links := [(16, { Link.reset with st := .up })] }
     hostLinkUp s = true ∧ (outsideLocs 0x200000 64).all (fun l => hostReaches s l && !inMeta l.addr) = true ∧ outsideWaits s (outsideLocs 0x200000 64) = false ∧
     s.status = .ready ∧ hostLinkUp st0 = false ∧ { s with status := .recovery }.status = .recovery) ∧
    (let s := { st0 with copies := [homeCopy .host (dramEnd / 64) true], links := [(16, { Link.reset with st := .up })] }
     Memory.wf s.dram && Memory.wf s.hostMem && !pinnedAway s .host (dramEnd / 64) none && !lineHeld s .host (dramEnd / 256) 0 &&
       !portHeld s hubDie (hubLoc dramEnd) && hostLinkUp s) = true ∧
    (stLink { Link.reset with st := .up }).flights = [] := by decide +kernel

/-! ### Witnesses: the whole machine -/

/-- Some word of each form is well formed and encodable. -/
theorem witness_RoundTrip :
    [Form.f6a, .f6b, .f6c, .f8a, .f8b, .f13].all (fun m =>
      let i : Instr := if m == .f6b then .bfe { form := m, dst := .v 4, sa := .v 0, sb := .v 2, sc := .v 3 }
        else if m == .f6c then .region { form := m, imm := 0x408 } else if m == .f8a then .add { form := m, dst := .v 4, sa := .v 4, sb := .imm, ty := .n32, imm := 1 }
        else .ld { form := m, dst := .v 4, sa := .s 0, ty := .n32 }
      i.wf && i.encodable) = true ∧ (Instr.wf (.faddF322B 5 6) && Instr.encodable (.faddF322B 5 6)) = true := by decide

/-- The small state with `nop` in core 0's I-cache, in the turn of its sub-group. -/
def stNop : State :=
  { st0 with cores := [(0, { Core.reset 0 with icache := [{ ctx := 0, pc := 0x10000, word := .instr (.nop {}) 13, stamp := 0 }] })] }

/-- The candidate of the slot of `nop` at `s`. -/
def nopTurn (s : State) : Option (Nat × Nat) :=
  candidate s (waitingNow s 0 0 (readyOthers s 0 0 0 1 ++ [(0, 1, instrSlot (.nop {}))])) 0 0 (instrSlot (.nop {})) (partClock (coreOf s 0) 0)

def issuedBy (s : State) (i : Instr) : Option Bool :=
  match exec i s with
  | .next t => some (issued s t 0 0 1)
  | _ => none

theorem witness_StepRunsInstruction :
    (envOf stNop).any (fun e => cachedWord stNop e.core e.team.ctx e.pc == some (.instr (.nop {}) 13)) = true ∧
    (let s := stTables 0x1F
     let look := pageFor s 0 0 [{ pc := 0x10000, vpn := 1, found := .leaf placedTrans }] 0x10000
     (cachedWord s 0 0 0x10000).isNone && (match fetchWord s 0 look 0x10000 with
       | (_, .word (.instr i n)) => i == .nop { form := .f6a } && n == 6
       | _ => false) && (match fillPages s look 0x10000 6 (codePages 0x10000 6) with
       | .ok ts => (match fetchBytes s 0 ts 0x10000 6 with
         | .ok bs => (match decode bs with
           | .ok (i, n) => i == .nop { form := .f6a } && n == 6
           | _ => false)
         | _ => false)
       | _ => false)) = true := by decide +kernel

/-- An attempt that issues in its turn, one whose slot has had its clock, one that waits; a clk that may end, one that may not, and a step of no clk. -/
theorem witness_StepRunsInstruction_turns :
    issuedBy stNop (.nop {}) = some true ∧ nopTurn stNop = some (0, 1) ∧
    nopTurn { stNop with turns := { stNop.turns with slots := [(slotKey 0 0 (instrSlot (.nop {})), partClock (coreOf stNop 0) 0)] } } = none ∧
    issuedBy (stWith g0 sub0 (tileTeam .empty) ctx0) (.cpyOut { mod := 1, sa := .s 1 }) = some false ∧
    (match exec (.allowanceTick 0) st0, exec .pwrfail st0 with
     | .next t, .next u => ticked st0 t == some 0 && ticked st0 u == none
     | _, _ => false) = true ∧
    (clockEnds st0 0).isSome = true ∧ clockEnds stNop 0 = none ∧
    Machine.Instr.deviceStep (.allowanceTick 0) = true := by decide +kernel

theorem witness_invariants : State.reset.canonical ∧ State.reset.scratchCanonical ∧ State.reset.sized :=
  ⟨⟨by decide, by decide, by simp [State.reset]⟩, by simp [State.scratchCanonical, State.reset], by simp [State.sized, State.reset]⟩

/-! ### One small step of an instruction, with the result by hand from its rule -/

/-- The group after an instruction on the small state with a group of its own. -/
def after (g : Group) (i : Instr) : Option Group :=
  match exec i (stG g) with
  | .next t => t.groups.find 0
  | _ => none

/-- s4 afterwards. -/
def s4After (g : Group) (i : Instr) : Option Nat := (after g i).map (fun g => (sreg g 4).val.toNat)

/-- Lane `l` of v4 afterwards. -/
def v4After (g : Group) (i : Instr) (l : Nat) : Option Nat := (after g i).map (fun g => (laneOf (vreg g 4) l).toNat)

/-- The group with a value in s10 and s11. -/
def withS (x y : W64) : Group := { g0 with sregs := (g0.sregs.set 10 { val := x, full := true }).set 11 { val := y, full := true } }

/-- The group with a word in every lane of v0 and of v1, under a tag. -/
def withV (t : Nat) (x y : W32) : Group :=
  { groupOf t t with vregs := { reg t with lanes := List.replicate 64 x } :: { reg t with lanes := List.replicate 64 y } :: ((groupOf t t).vregs.drop 2) }

/-- R320: modulo 2^32, a scalar result zero-extended for an unsigned type and sign-extended for a signed one. -/
theorem test_add_wraps : s4After (withS 0xFFFFFFFF 5) (.add { dst := .s 4, sa := .s 10, sb := .s 11, ty := .n32 }) = some 4 := by decide
theorem test_add_signed : s4After (withS 0x7FFFFFFF 1) (.add { dst := .s 4, sa := .s 10, sb := .s 11, ty := .i32 }) = some 0xFFFFFFFF80000000 := by decide
theorem test_sub_packed : v4After (withV 8 0x00010203 0x01010101) (.sub { dst := .v 4, sa := .v 0, sb := .v 1, ty := .i8 }) 9 = some 0xFF000102 := by decide
theorem test_mulh_top : s4After (withS 0xFFFFFFFF 0xFFFFFFFF) (.mulh { dst := .s 4, sa := .s 10, sb := .s 11, ty := .n32 }) = some 0xFFFFFFFE := by decide
theorem test_abs_most_negative : v4After (withV 1 0x80000000 0) (.abs { dst := .v 4, sa := .v 0, ty := .i32 }) 0 = some 0x80000000 := by decide
/-- R322: a shift by the width or more gives 0, an arithmetic one the sign. -/
theorem test_shl_width : v4After (withV 0 1 32) (.shl { dst := .v 4, sa := .v 0, sb := .v 1 }) 0 = some 0 := by decide
theorem test_sar_width : v4After (withV 1 0x80000000 40) (.sar { dst := .v 4, sa := .v 0, sb := .v 1, ty := .i32 }) 63 = some 0xFFFFFFFF := by decide
theorem test_rot : v4After (withV 0 0x80000001 33) (.rot { dst := .v 4, sa := .v 0, sb := .v 1 }) 0 = some 3 := by decide
theorem test_clz_zero : s4After (withS 0 0) (.clz { dst := .s 4, sa := .s 10 }) = some 64 := by decide
/-- R325: the scalar comparison fills its predicate. -/
theorem test_cmp_signed :
    (after (withS 0xFFFFFFFF 5) (.cmp { mod := 2, dst := .p 2, sa := .s 10, sb := .s 11, ty := .i32 })).map (predOf · 2) = some (BitVec.allOnes 64) := by decide
/-- R327: 1.5 + 2.25 = 3.75; the product of the two greatest numbers is +Inf, with OF and NX. -/
theorem test_fadd : v4After (withV 3 0x3FC00000 0x40100000) (.fadd { dst := .v 4, sa := .v 0, sb := .v 1, ty := .f32 }) 0 = some 0x40700000 := by decide +kernel
theorem test_fmul_overflow :
    (after (withV 3 0x7F7FFFFF 0x7F7FFFFF) (.fmul { dst := .v 4, sa := .v 0, sb := .v 1, ty := .f32 })).map
      (fun g => ((laneOf (vreg g 4) 0).toNat, g.fl.map (fun m => m.getLsbD 0))) = some (0x7F800000, [false, false, true, false, true]) := by decide +kernel
/-- R334: 2.5 to I32 is 2, to nearest even. -/
theorem test_cvt_even : v4After (withV 3 0x40200000 0) (.cvt { dst := .v 4, sa := .v 0, ty := .i32, aux := 9 }) 0 = some 2 := by decide +kernel
/-- R342, R343: the lanes of p1, and the sum of 3 over 64 lanes. -/
theorem test_ballot : s4After g0 (.ballot { dst := .s 4, sa := .p 1 }) = some 5 := by decide
theorem test_lred : s4After (withV 2 3 0) (.lred { dst := .s 4, sa := .v 0, ty := .n32 }) = some 192 := by decide
/-- R122: from 0, `nop` leaves SIG at 0 and `exit` gives 0xE13B_70F7 (spec/07_region.md). -/
theorem test_sig_nop : (after g0 (.nop {})).map (·.sig) = some 0 := by decide
theorem test_sig_exit : (after g0 (.exit {})).map (·.sig) = some 0xE13B70F7 := by decide
/-- R297: `bra` to its own first byte minus 32. -/
theorem test_bra : (after g0 (.bra { form := .f6c, imm := 0xFFFFFFE0 })).bind (fun g => (subOf g 1).map (·.pc)) = some 0xFFE0 := by decide
/-- R298: the lanes of p1 go to node 2, the others to node 3. -/
theorem test_brd : (after g0 (.brd { sa := .p 1, imm := 64 })).map (fun g => (g.subs.map (fun x => (x.node, x.em)))) =
    some [(2, 5), (3, ~~~5)] ∨ (after g0 (.brd { sa := .p 1, imm := 64 })).map (fun g => (g.subs.map (fun x => (x.node, x.em)))) = some [(3, ~~~5), (2, 5)] := by
  decide
/-- R53: the handler's address is TRAP_BASE + 256 x 0x0A, and s(S-2) holds the cause. -/
theorem test_trap_enters :
    (match exec (.trap { imm := 7 }) (stWith g0 sub0 team0 trapCtx) with
     | .next t => (t.groups.find 0).map (fun g => ((subOf g 1).map (·.pc), (sreg g 13).val, (sreg g 14).val, (sreg g 15).val))
     | _ => none) = some (some 0x40A00, 0x1000D, 0x0A, 7) := by decide
/-- R115, R351: a store of 4 bytes waits in the queue, lowest byte first, and memory reads as before. -/
theorem test_store :
    (match exec (.st st_) st0 with
     | .next t => (t.groups.find 0).map (fun g => (g.storeQ.map (fun x => match x.kind with
       | .bytes us => us.map (fun u => u.map (fun w => (w.1.addr, w.2)))
       | _ => []), newestLe t .dram 0x200000 4))
     | _ => none) = some ([[[(0x200000, 5), (0x200001, 0), (0x200002, 0), (0x200003, 0)]]], 0) := by decide
/-- R367, R368: the entry takes its geometry from s6. -/
theorem test_talloc : (match exec (.talloc talloc_) st0 with
    | .next t => (t.teams.find 0).map (fun x => let e := x.tiles.getD 0 Tile.freed
                                                (e.st, e.tag, e.rows, e.cols, e.pitch))
    | _ => none) = some (.empty, 3, 2, 16, 64) := by decide

/-- The worked W3 block of spec/13_stash.md: what is stashed, and what a restore gives. -/
def w3Block : List Byte := [0x38, 0x9C, 0x23, 0xFF, 0xFF, 0xFF, 0x0F, 0x80] ++ List.replicate 22 0 ++ [0x20, 0xC4]

theorem test_cicada_encodes :
    encodeBlock true (List.replicate 60 (FpNum.fin false 0 0) ++ [0x3FE0, 0xBF00, 0x3F40, 0xBFC0].map (fun x => fmtBF16.read false x)) = w3Block := by
  decide +kernel

theorem test_cicada_restores :
    [59, 60, 61, 62, 63].map (fun j => fmtBF16.write (blockNum true w3Block j)) = [0, 0x4000, 0, 0x3F80, 0xC000] ∧ blockGood true w3Block = true ∧
    blockGood true (w3Block.set 31 0xC5) = false := by decide +kernel

/-- FIPS 180-4: the digest of the three bytes abc (R1, R247). -/
theorem test_sha256 :
    sha256 [0x61, 0x62, 0x63] = beBytes 32 0xBA7816BF8F01CFEA414140DE5DAE2223B00361A396177A9CB410FF61F20015AD := by decide +kernel

/-- R332: the reciprocal of a subnormal below 2^-128 that is no power of two has no finite F32 within 1 ulp: the infinity of its sign, with OF and NX. -/
theorem test_frcp_subnormal : ∀ sign : Bool, ∀ k : Fin 4,
    specialF32 .frcp (fun _ => k.val) false (fmtF32.read false (if sign then 0x80000003 else 3)) =
      (if sign then 0xFF800000 else 0x7F800000, { of := true, nx := true }) := by decide +kernel

end Sys2Proof.Tests
end

section
/-! DeviceStepsAnswer (O60): each step of the machine outside the groups' instructions answers a next state; the seven that reach memory by an address
from outside may instead end in the fault of an address beyond the DRAM (log 12). One lemma per step, over the branches of its definition; where a
branch is named, its address is beyond the DRAM. -/

namespace Sys2Proof.Machine

/-- The outcome is a next state: neither a fault nor a refusal. -/
def Answers (o : Out) : Prop := ∃ t, o = .next t

/-- The outcome is a next state, or the fault of an address beyond the DRAM (log 12). -/
def AnswersOrFaults (o : Out) : Prop := Answers o ∨ o = .fault .noSuchAddress

@[simp] theorem answers_next (t : State) : Answers (.next t) := ⟨t, rfl⟩

@[simp] theorem answersOrFaults_next (t : State) : AnswersOrFaults (.next t) := .inl (answers_next t)

@[simp] theorem answersOrFaults_fault : AnswersOrFaults (.fault .noSuchAddress) := .inr rfl

theorem answers_ite {c : Prop} [Decidable c] {a b : Out} (ha : Answers a) (hb : Answers b) : Answers (if c then a else b) := by
  split
  · exact ha
  · exact hb

/-! ### The frames that the hub's commands share (R44, R66, R67) -/

@[simp] theorem answers_statusOnly (s : State) (status : Nat) : Answers (statusOnly s status) := answers_next _

theorem command_answers {s : State} {op : Nat} {body : State → Out} (h : ∀ t, Answers (body t)) : Answers (command s op body) :=
  answers_ite (h _) (answers_next _)

theorem withBlock_answers {s : State} {pa n : Nat} {body : State → Out} (h : ∀ t, Answers (body t)) : Answers (withBlock s pa n body) :=
  answers_ite (answers_next _) (h _)

theorem onState_answers {s : State} {op : Nat} {sts : List CtxState} {body : State → Context → Out} (h : ∀ t c, Answers (body t c)) :
    Answers (onState s op sts body) :=
  command_answers fun t => by
    cases cmdContext t with
    | none => exact answers_statusOnly _ _
    | some c => exact answers_ite (h t c) (answers_statusOnly _ _)

/-! ### The groups, their stores and their waits -/

theorem execIcacheFill_answers (core ctx : Nat) (pc : VAddr) (s : State) : Answers (execIcacheFill core ctx pc s) := by
  fun_cases execIcacheFill <;> exact answers_next _

theorem execLongLatencyWriteback_answers (gid id : Nat) (s : State) : Answers (execLongLatencyWriteback gid id s) := by
  fun_cases execLongLatencyWriteback <;> exact answers_next _

theorem execCommitProceed_answers (gid node : Nat) (s : State) : Answers (execCommitProceed gid node s) := by
  fun_cases execCommitProceed <;> exact answers_next _

theorem execStoreQueueRetire_answers (gid : Nat) (s : State) : Answers (execStoreQueueRetire gid s) := by
  fun_cases execStoreQueueRetire <;> exact answers_next _

theorem execMonitorWake_answers (gid node : Nat) (s : State) : Answers (execMonitorWake gid node s) := by
  fun_cases execMonitorWake <;> exact answers_next _

theorem execMonitorRecheck_answers (gid node : Nat) (s : State) : Answers (execMonitorRecheck gid node s) := by
  fun_cases execMonitorRecheck <;> exact answers_next _

theorem execBarrierArrive_answers (gid node : Nat) (s : State) : Answers (execBarrierArrive gid node s) := by
  fun_cases execBarrierArrive <;> exact answers_next _

theorem execProbeComplete_answers (gid node : Nat) (s : State) : Answers (execProbeComplete gid node s) := by
  fun_cases execProbeComplete <;> exact answers_next _

theorem execSleepExpire_answers (gid node : Nat) (s : State) : Answers (execSleepExpire gid node s) := answers_next _

theorem execRangeOpComplete_answers (gid id : Nat) (s : State) : Answers (execRangeOpComplete gid id s) := by
  fun_cases execRangeOpComplete <;> exact answers_next _

theorem execRetryResend_answers (gid id : Nat) (s : State) : Answers (execRetryResend gid id s) := answers_next _

/-! ### Page walks and the L2 -/

theorem execPageWalkComplete_answersOrFaults (die idx : Nat) (s : State) : AnswersOrFaults (execPageWalkComplete die idx s) := by
  fun_cases execPageWalkComplete
  case case3 => exact answersOrFaults_fault
  all_goals exact answersOrFaults_next _

theorem execL2Eviction_answers (line : Nat) (guest : Option Nat) (drop : Bool) (code : BitVec 2) (bad : Bool) (s : State) :
    Answers (execL2Eviction line guest drop code bad s) := by
  fun_cases execL2Eviction <;> exact answers_next _

/-! ### The engines -/

theorem execMatrixCmdStart_answers (gid : Nat) (s : State) : Answers (execMatrixCmdStart gid s) := by
  fun_cases execMatrixCmdStart <;> exact answers_next _

theorem execMdrainHoldGrant_answers (gid : Nat) (s : State) : Answers (execMdrainHoldGrant gid s) := by
  fun_cases execMdrainHoldGrant <;> exact answers_next _

theorem execMatrixCmdComplete_answers (gid : Nat) (s : State) : Answers (execMatrixCmdComplete gid s) := by
  fun_cases execMatrixCmdComplete <;> exact answers_next _

theorem execCopyCmdStart_answers (gid : Nat) (s : State) : Answers (execCopyCmdStart gid s) := by
  fun_cases execCopyCmdStart <;> exact answers_next _

theorem execCopyCmdComplete_answers (gid : Nat) (s : State) : Answers (execCopyCmdComplete gid s) := by
  fun_cases execCopyCmdComplete <;> exact answers_next _

theorem execCicadaCmdStart_answers (gid : Nat) (s : State) : Answers (execCicadaCmdStart gid s) := by
  fun_cases execCicadaCmdStart <;> exact answers_next _

theorem execCicadaCmdComplete_answers (gid : Nat) (s : State) : Answers (execCicadaCmdComplete gid s) := by
  fun_cases execCicadaCmdComplete <;> exact answers_next _

theorem execTaskRecordStore_answers (gid : Nat) (s : State) : Answers (execTaskRecordStore gid s) := by
  fun_cases execTaskRecordStore <;> exact answers_next _

/-! ### Continuations -/

theorem execContinuationStart_answersOrFaults (die core : Nat) (s : State) : AnswersOrFaults (execContinuationStart die core s) := by
  fun_cases execContinuationStart
  case case2 => exact answersOrFaults_fault
  all_goals exact answersOrFaults_next _

/-! ### Arrays -/

theorem execScheduleStart_answers (arr : Nat) (s : State) : Answers (execScheduleStart arr s) := by
  fun_cases execScheduleStart <;> exact answers_next _

theorem execGateStep_answers (arr : Nat) (s : State) : Answers (execGateStep arr s) := by
  fun_cases execGateStep <;> exact answers_next _

theorem execScheduleResume_answers (arr : Nat) (s : State) : Answers (execScheduleResume arr s) := by
  fun_cases execScheduleResume <;> exact answers_next _

theorem execScheduleEnd_answers (arr : Nat) (s : State) : Answers (execScheduleEnd arr s) := by
  fun_cases execScheduleEnd <;> exact answers_next _

theorem execArrayReadAdmit_answers (arr idx : Nat) (s : State) : Answers (execArrayReadAdmit arr idx s) := by
  fun_cases execArrayReadAdmit <;> exact answers_next _

theorem execArrayConfigApply_answers (arr : Nat) (s : State) : Answers (execArrayConfigApply arr s) := by
  fun_cases execArrayConfigApply <;> exact answers_next _

/-! ### Teams and kernels -/

theorem execTeamPlace_answers (kernel core : Nat) (s : State) : Answers (execTeamPlace kernel core s) := by
  fun_cases execTeamPlace <;> exact answers_next _

theorem execTeamStartDelayExpire_answers (team : Nat) (s : State) : Answers (execTeamStartDelayExpire team s) := by
  fun_cases execTeamStartDelayExpire <;> exact answers_next _

theorem execTeamEvict_answers (team : Nat) (s : State) : Answers (execTeamEvict team s) := by
  fun_cases execTeamEvict <;> exact answers_next _

theorem execTeamImageWritten_answers (team : Nat) (s : State) : Answers (execTeamImageWritten team s) := by
  fun_cases execTeamImageWritten <;> exact answers_next _

theorem execKernelRetiring_answers (kernel : Nat) (s : State) : Answers (execKernelRetiring kernel s) := by
  fun_cases execKernelRetiring <;> exact answers_next _

theorem execKernelRetire_answersOrFaults (kernel : Nat) (s : State) : AnswersOrFaults (execKernelRetire kernel s) := by
  fun_cases execKernelRetire
  case case5 => exact answersOrFaults_fault
  all_goals exact answersOrFaults_next _

/-! ### The command queue -/

theorem execCommandDoorbell_answers (pi : BitVec 32) (s : State) : Answers (execCommandDoorbell pi s) := by
  fun_cases execCommandDoorbell <;> exact answers_next _

theorem execCmdCreate_answers (s : State) : Answers (execCmdCreate s) :=
  command_answers fun _ => withBlock_answers fun _ => answers_ite (answers_statusOnly _ _) <| by
    split
    · exact answers_statusOnly _ _
    · exact answers_next _

theorem execCmdStart_answers (s : State) : Answers (execCmdStart s) := onState_answers fun _ _ => answers_statusOnly _ _

theorem execCmdSave_answers (s : State) : Answers (execCmdSave s) := onState_answers fun _ _ => answers_next _

theorem execCtxRestore_answers (s : State) : Answers (execCtxRestore s) := onState_answers fun _ _ => answers_next _

theorem execCmdHalt_answers (s : State) : Answers (execCmdHalt s) := onState_answers fun _ _ => answers_statusOnly _ _

theorem execCmdDestroy_answers (s : State) : Answers (execCmdDestroy s) := onState_answers fun _ _ => answers_next _

theorem execCmdBind_answers (s : State) : Answers (execCmdBind s) :=
  onState_answers fun _ _ => withBlock_answers fun _ => answers_ite (answers_statusOnly _ _) (answers_statusOnly _ _)

theorem execCmdUnbind_answers (s : State) : Answers (execCmdUnbind s) :=
  command_answers fun s => by
    dsimp only
    cases s.wqs.find (cmdQueueNo s) with
    | none => exact answers_statusOnly _ _
    | some w => exact answers_ite (answers_statusOnly _ _) (answers_ite (answers_next _) (answers_statusOnly _ _))

theorem execCmdFaultq_answers (s : State) : Answers (execCmdFaultq s) :=
  command_answers fun _ => answers_ite (answers_statusOnly _ _) (answers_statusOnly _ _)

theorem execCmdFqConsume_answers (s : State) : Answers (execCmdFqConsume s) :=
  command_answers fun _ => answers_ite (answers_statusOnly _ _) (answers_ite (answers_statusOnly _ _) (answers_statusOnly _ _))

theorem execCmdResolve_answers (s : State) : Answers (execCmdResolve s) :=
  command_answers fun s => by
    dsimp only
    cases s.contexts.find (cmdCtx s) with
    | none => exact answers_statusOnly _ _
    | some c => exact answers_ite (answers_statusOnly _ _) (answers_statusOnly _ _)

theorem execCmdShootdown_answers (s : State) : Answers (execCmdShootdown s) :=
  command_answers fun _ => answers_ite (answers_next _) (answers_statusOnly _ _)

theorem execCmdRatio_answers (s : State) : Answers (execCmdRatio s) :=
  command_answers fun _ => answers_ite (answers_statusOnly _ _) (answers_statusOnly _ _)

theorem execCmdPhase_answers (s : State) : Answers (execCmdPhase s) :=
  command_answers fun _ => answers_ite (answers_statusOnly _ _) (answers_statusOnly _ _)

theorem execCmdDrain_answers (s : State) : Answers (execCmdDrain s) :=
  command_answers fun _ => answers_ite (answers_statusOnly _ _)
    (answers_ite (answers_statusOnly _ _) (withBlock_answers fun _ => answers_statusOnly _ _))

theorem execCmdCntCfg_answers (s : State) : Answers (execCmdCntCfg s) :=
  command_answers fun _ => answers_ite (answers_statusOnly _ _) (answers_statusOnly _ _)

theorem execCmdCntDump_answers (s : State) : Answers (execCmdCntDump s) :=
  command_answers fun _ => answers_ite (answers_statusOnly _ _) (answers_statusOnly _ _)

theorem execInfieldScan_answers (s : State) : Answers (execInfieldScan s) :=
  command_answers fun s => answers_ite (answers_statusOnly _ _) <| by
    cases physicalCore s (cmdLe s 0x20 1) (cmdLe s 0x22 2) with
    | none => exact answers_statusOnly _ _
    | some c => exact answers_ite (answers_next _) (answers_next _)

theorem execScanTestComplete_answers (result : BitVec 16) (s : State) : Answers (execScanTestComplete result s) := by
  fun_cases execScanTestComplete <;> exact answers_next _

theorem execCmdClksample_answers (s : State) : Answers (execCmdClksample s) :=
  command_answers fun _ => answers_ite (answers_statusOnly _ _) (answers_statusOnly _ _)

theorem execCmdFreqCap_answers (s : State) : Answers (execCmdFreqCap s) :=
  command_answers fun _ => answers_ite (answers_statusOnly _ _) (answers_statusOnly _ _)

theorem execReservedCommand_answers (s : State) : Answers (execReservedCommand s) := by
  fun_cases execReservedCommand <;> exact answers_next _

/-! ### Contexts and the core map -/

theorem execHaltLineAssert_answers (ctx : Nat) (s : State) : Answers (execHaltLineAssert ctx s) := by
  fun_cases execHaltLineAssert <;> exact answers_next _

theorem execContextStopComplete_answers (ctx : Nat) (s : State) : Answers (execContextStopComplete ctx s) := by
  fun_cases execContextStopComplete <;> exact answers_next _

theorem execRestoreImagesChecked_answers (ctx : Nat) (s : State) : Answers (execRestoreImagesChecked ctx s) := by
  fun_cases execRestoreImagesChecked <;> exact answers_next _

theorem execContextTeardownComplete_answers (ctx : Nat) (s : State) : Answers (execContextTeardownComplete ctx s) := by
  fun_cases execContextTeardownComplete <;> exact answers_next _

theorem execCoreMapRebuild_answers (die : Nat) (s : State) : Answers (execCoreMapRebuild die s) := by
  fun_cases execCoreMapRebuild <;> exact answers_next _

/-! ### Work queues -/

theorem execWorkQueueDoorbell_answers (q : Nat) (pi : BitVec 32) (s : State) : Answers (execWorkQueueDoorbell q pi s) := by
  fun_cases execWorkQueueDoorbell <;> exact answers_next _

theorem execWqLaunch_answersOrFaults (q : Nat) (s : State) : AnswersOrFaults (execWqLaunch q s) := by
  fun_cases execWqLaunch
  case case4 => exact answersOrFaults_fault
  all_goals exact answersOrFaults_next _

theorem execWqWaitValue_answersOrFaults (q : Nat) (s : State) : AnswersOrFaults (execWqWaitValue q s) := by
  fun_cases execWqWaitValue
  case case4 => exact answersOrFaults_fault
  all_goals exact answersOrFaults_next _

theorem execWaitValueSatisfied_answers (q : Nat) (s : State) : Answers (execWaitValueSatisfied q s) := by
  fun_cases execWaitValueSatisfied <;> exact answers_next _

theorem execWaitValueRecheck_answers (q : Nat) (s : State) : Answers (execWaitValueRecheck q s) := by
  fun_cases execWaitValueRecheck <;> exact answers_next _

theorem execWqSignal_answersOrFaults (q : Nat) (s : State) : AnswersOrFaults (execWqSignal q s) := by
  fun_cases execWqSignal
  case case4 => exact answersOrFaults_fault
  all_goals exact answersOrFaults_next _

theorem execSignalExecute_answers (q : Nat) (s : State) : Answers (execSignalExecute q s) := by
  fun_cases execSignalExecute <;> exact answers_next _

theorem execWqFence_answers (q : Nat) (s : State) : Answers (execWqFence q s) := by
  fun_cases execWqFence <;> exact answers_next _

/-! ### Power and frequency -/

theorem execAllowanceTick_answers (core : Nat) (s : State) : Answers (execAllowanceTick core s) := by
  fun_cases execAllowanceTick <;> exact answers_next _

theorem execMeasurementWindow_answers (pkg rails dramW other : BitVec 16) (s : State) :
    Answers (execMeasurementWindow pkg rails dramW other s) := answers_next _

theorem execFreqStepAdjust_answers (s : State) : Answers (execFreqStepAdjust s) := by
  fun_cases execFreqStepAdjust <;> exact answers_next _

theorem execFreqStepRaise_answers (s : State) : Answers (execFreqStepRaise s) := by
  fun_cases execFreqStepRaise <;> exact answers_next _

theorem execBoostTick_answers (die : Nat) (s : State) : Answers (execBoostTick die s) := by
  fun_cases execBoostTick <;> exact answers_next _

theorem execTempBandChange_answers (die : Nat) (band : BitVec 3) (s : State) : Answers (execTempBandChange die band s) := by
  fun_cases execTempBandChange <;> exact answers_next _

theorem execPowerStepSet_answers (value : W64) (s : State) : Answers (execPowerStepSet value s) := by
  fun_cases execPowerStepSet <;> exact answers_next _

theorem execPowerHold_answers (value : W64) (s : State) : Answers (execPowerHold value s) := by
  fun_cases execPowerHold <;> exact answers_next _

theorem execPwrfail_answers (s : State) : Answers (execPwrfail s) := by
  fun_cases execPwrfail <;> exact answers_next _

theorem execPowerUp_answers (s : State) : Answers (execPowerUp s) := by
  fun_cases execPowerUp <;> exact answers_next _

/-! ### Attestation -/

theorem execAttestationDoorbell_answers (nonce : List Byte) (s : State) : Answers (execAttestationDoorbell nonce s) := by
  fun_cases execAttestationDoorbell <;> exact answers_next _

theorem execAttestationReportComplete_answers (s : State) : Answers (execAttestationReportComplete s) := by
  fun_cases execAttestationReportComplete <;> exact answers_next _

/-! ### Links, peers and the host -/

theorem execRetrain_answers (link : Nat) (s : State) : Answers (execRetrain link s) := by
  fun_cases execRetrain <;> exact answers_next _

theorem execLinkFlitReceive_answers (link : Nat) (beats : List (Option (BitVec 144))) (s : State) : Answers (execLinkFlitReceive link beats s) := by
  fun_cases execLinkFlitReceive <;> exact answers_next _

theorem execReplayRequest_answers (req : ReplayReq) (s : State) : Answers (execReplayRequest req s) := by
  fun_cases execReplayRequest <;> exact answers_next _

theorem execRailLockLoss_answers (link rail : Nat) (s : State) : Answers (execRailLockLoss link rail s) := by
  fun_cases execRailLockLoss <;> exact answers_next _

theorem execLinkTrainComplete_answers (link : Nat) (rails : BitVec 5) (s : State) : Answers (execLinkTrainComplete link rails s) := by
  fun_cases execLinkTrainComplete <;> exact answers_next _

theorem execLinkTrainTimeout_answers (link : Nat) (rails : BitVec 5) (s : State) : Answers (execLinkTrainTimeout link rails s) := by
  fun_cases execLinkTrainTimeout <;> exact answers_next _

theorem execPeerInboundRequest_answersOrFaults (port : Nat) (req : PeerReq) (addr : Nat) (data : List Byte) (s : State) :
    AnswersOrFaults (execPeerInboundRequest port req addr data s) := by
  fun_cases execPeerInboundRequest
  case case2 => exact answersOrFaults_fault
  all_goals exact answersOrFaults_next _

theorem execHostMemAccess_answers (write : Bool) (addr : Nat) (data : List Byte) (s : State) : Answers (execHostMemAccess write addr data s) := by
  fun_cases execHostMemAccess <;> exact answers_next _

theorem execRegisterWrite_answers (cap offset : Nat) (value : W64) (s : State) : Answers (execRegisterWrite cap offset value s) := by
  fun_cases execRegisterWrite <;> exact answers_next _

theorem execCxlCacheSnoop_answers (line : Nat) (invalidate : Bool) (s : State) : Answers (execCxlCacheSnoop line invalidate s) := by
  fun_cases execCxlCacheSnoop <;> exact answers_next _

/-! ### The set point and frequency steps -/

theorem execSetPointRamp_answers (s : State) : Answers (execSetPointRamp s) := by
  fun_cases execSetPointRamp <;> exact answers_next _

theorem execStepChangeComplete_answers (die : Nat) (s : State) : Answers (execStepChangeComplete die s) := by
  fun_cases execStepChangeComplete <;> exact answers_next _

/-! ### All device steps -/

/-- What the obligation says of a step, from a next state of it, whether or not it reaches memory from outside. -/
theorem conclusion_of_answers {o : Out} {reaches : Bool} (h : Answers o) :
    (reaches = false → ∃ t, o = .next t) ∧ (reaches = true → (∃ t, o = .next t) ∨ o = .fault .noSuchAddress) :=
  ⟨fun _ => h, fun _ => .inl h⟩

/-- What the obligation says of a step that reaches memory from outside. -/
theorem conclusion_of_answersOrFaults {o : Out} (h : AnswersOrFaults o) :
    (true = false → ∃ t, o = .next t) ∧ (true = true → (∃ t, o = .next t) ∨ o = .fault .noSuchAddress) :=
  ⟨nofun, fun _ => h⟩

/-- Settles O60, by the kinds of device step: the lemma of each step's own meaning gives its outcome, and an instruction of
a group is no device step. -/
theorem deviceStepsAnswer : Obligations.DeviceStepsAnswer := by
  unfold Obligations.DeviceStepsAnswer
  intro i s hdev
  cases i with
  | icacheFill core ctx pc => exact conclusion_of_answers (execIcacheFill_answers core ctx pc s)
  | longLatencyWriteback gid id => exact conclusion_of_answers (execLongLatencyWriteback_answers gid id s)
  | commitProceed gid node => exact conclusion_of_answers (execCommitProceed_answers gid node s)
  | storeQueueRetire gid => exact conclusion_of_answers (execStoreQueueRetire_answers gid s)
  | monitorWake gid node => exact conclusion_of_answers (execMonitorWake_answers gid node s)
  | monitorRecheck gid node => exact conclusion_of_answers (execMonitorRecheck_answers gid node s)
  | barrierArrive gid node => exact conclusion_of_answers (execBarrierArrive_answers gid node s)
  | probeComplete gid node => exact conclusion_of_answers (execProbeComplete_answers gid node s)
  | sleepExpire gid node => exact conclusion_of_answers (execSleepExpire_answers gid node s)
  | rangeOpComplete gid id => exact conclusion_of_answers (execRangeOpComplete_answers gid id s)
  | retryResend gid id => exact conclusion_of_answers (execRetryResend_answers gid id s)
  | pageWalkComplete die idx => exact conclusion_of_answersOrFaults (execPageWalkComplete_answersOrFaults die idx s)
  | l2Eviction line guest drop code bad => exact conclusion_of_answers (execL2Eviction_answers line guest drop code bad s)
  | matrixCmdStart gid => exact conclusion_of_answers (execMatrixCmdStart_answers gid s)
  | mdrainHoldGrant gid => exact conclusion_of_answers (execMdrainHoldGrant_answers gid s)
  | matrixCmdComplete gid => exact conclusion_of_answers (execMatrixCmdComplete_answers gid s)
  | copyCmdStart gid => exact conclusion_of_answers (execCopyCmdStart_answers gid s)
  | copyCmdComplete gid => exact conclusion_of_answers (execCopyCmdComplete_answers gid s)
  | cicadaCmdStart gid => exact conclusion_of_answers (execCicadaCmdStart_answers gid s)
  | cicadaCmdComplete gid => exact conclusion_of_answers (execCicadaCmdComplete_answers gid s)
  | taskRecordStore gid => exact conclusion_of_answers (execTaskRecordStore_answers gid s)
  | continuationStart die core => exact conclusion_of_answersOrFaults (execContinuationStart_answersOrFaults die core s)
  | scheduleStart arr => exact conclusion_of_answers (execScheduleStart_answers arr s)
  | gateStep arr => exact conclusion_of_answers (execGateStep_answers arr s)
  | scheduleResume arr => exact conclusion_of_answers (execScheduleResume_answers arr s)
  | scheduleEnd arr => exact conclusion_of_answers (execScheduleEnd_answers arr s)
  | arrayReadAdmit arr idx => exact conclusion_of_answers (execArrayReadAdmit_answers arr idx s)
  | arrayConfigApply arr => exact conclusion_of_answers (execArrayConfigApply_answers arr s)
  | teamPlace kernel core => exact conclusion_of_answers (execTeamPlace_answers kernel core s)
  | teamStartDelayExpire team => exact conclusion_of_answers (execTeamStartDelayExpire_answers team s)
  | teamEvict team => exact conclusion_of_answers (execTeamEvict_answers team s)
  | teamImageWritten team => exact conclusion_of_answers (execTeamImageWritten_answers team s)
  | kernelRetiring kernel => exact conclusion_of_answers (execKernelRetiring_answers kernel s)
  | kernelRetire kernel => exact conclusion_of_answersOrFaults (execKernelRetire_answersOrFaults kernel s)
  | commandDoorbell pi => exact conclusion_of_answers (execCommandDoorbell_answers pi s)
  | cmdCreate => exact conclusion_of_answers (execCmdCreate_answers s)
  | cmdStart => exact conclusion_of_answers (execCmdStart_answers s)
  | cmdSave => exact conclusion_of_answers (execCmdSave_answers s)
  | ctxRestore => exact conclusion_of_answers (execCtxRestore_answers s)
  | cmdHalt => exact conclusion_of_answers (execCmdHalt_answers s)
  | cmdDestroy => exact conclusion_of_answers (execCmdDestroy_answers s)
  | cmdBind => exact conclusion_of_answers (execCmdBind_answers s)
  | cmdUnbind => exact conclusion_of_answers (execCmdUnbind_answers s)
  | cmdFaultq => exact conclusion_of_answers (execCmdFaultq_answers s)
  | cmdFqConsume => exact conclusion_of_answers (execCmdFqConsume_answers s)
  | cmdResolve => exact conclusion_of_answers (execCmdResolve_answers s)
  | cmdShootdown => exact conclusion_of_answers (execCmdShootdown_answers s)
  | cmdRatio => exact conclusion_of_answers (execCmdRatio_answers s)
  | cmdPhase => exact conclusion_of_answers (execCmdPhase_answers s)
  | cmdDrain => exact conclusion_of_answers (execCmdDrain_answers s)
  | cmdCntCfg => exact conclusion_of_answers (execCmdCntCfg_answers s)
  | cmdCntDump => exact conclusion_of_answers (execCmdCntDump_answers s)
  | infieldScan => exact conclusion_of_answers (execInfieldScan_answers s)
  | scanTestComplete result => exact conclusion_of_answers (execScanTestComplete_answers result s)
  | cmdClksample => exact conclusion_of_answers (execCmdClksample_answers s)
  | cmdFreqCap => exact conclusion_of_answers (execCmdFreqCap_answers s)
  | reservedCommand => exact conclusion_of_answers (execReservedCommand_answers s)
  | haltLineAssert ctx => exact conclusion_of_answers (execHaltLineAssert_answers ctx s)
  | contextStopComplete ctx => exact conclusion_of_answers (execContextStopComplete_answers ctx s)
  | restoreImagesChecked ctx => exact conclusion_of_answers (execRestoreImagesChecked_answers ctx s)
  | contextTeardownComplete ctx => exact conclusion_of_answers (execContextTeardownComplete_answers ctx s)
  | coreMapRebuild die => exact conclusion_of_answers (execCoreMapRebuild_answers die s)
  | workQueueDoorbell q pi => exact conclusion_of_answers (execWorkQueueDoorbell_answers q pi s)
  | wqLaunch q => exact conclusion_of_answersOrFaults (execWqLaunch_answersOrFaults q s)
  | wqWaitValue q => exact conclusion_of_answersOrFaults (execWqWaitValue_answersOrFaults q s)
  | waitValueSatisfied q => exact conclusion_of_answers (execWaitValueSatisfied_answers q s)
  | waitValueRecheck q => exact conclusion_of_answers (execWaitValueRecheck_answers q s)
  | wqSignal q => exact conclusion_of_answersOrFaults (execWqSignal_answersOrFaults q s)
  | signalExecute q => exact conclusion_of_answers (execSignalExecute_answers q s)
  | wqFence q => exact conclusion_of_answers (execWqFence_answers q s)
  | allowanceTick core => exact conclusion_of_answers (execAllowanceTick_answers core s)
  | measurementWindow pkg rails dramW other => exact conclusion_of_answers (execMeasurementWindow_answers pkg rails dramW other s)
  | freqStepAdjust => exact conclusion_of_answers (execFreqStepAdjust_answers s)
  | freqStepRaise => exact conclusion_of_answers (execFreqStepRaise_answers s)
  | boostTick die => exact conclusion_of_answers (execBoostTick_answers die s)
  | tempBandChange die band => exact conclusion_of_answers (execTempBandChange_answers die band s)
  | powerStepSet value => exact conclusion_of_answers (execPowerStepSet_answers value s)
  | powerHold value => exact conclusion_of_answers (execPowerHold_answers value s)
  | pwrfail => exact conclusion_of_answers (execPwrfail_answers s)
  | powerUp => exact conclusion_of_answers (execPowerUp_answers s)
  | attestationDoorbell nonce => exact conclusion_of_answers (execAttestationDoorbell_answers nonce s)
  | attestationReportComplete => exact conclusion_of_answers (execAttestationReportComplete_answers s)
  | retrain link => exact conclusion_of_answers (execRetrain_answers link s)
  | linkFlitReceive link beats => exact conclusion_of_answers (execLinkFlitReceive_answers link beats s)
  | replayRequest req => exact conclusion_of_answers (execReplayRequest_answers req s)
  | railLockLoss link rail => exact conclusion_of_answers (execRailLockLoss_answers link rail s)
  | linkTrainComplete link rails => exact conclusion_of_answers (execLinkTrainComplete_answers link rails s)
  | linkTrainTimeout link rails => exact conclusion_of_answers (execLinkTrainTimeout_answers link rails s)
  | peerInboundRequest port req addr data => exact conclusion_of_answersOrFaults (execPeerInboundRequest_answersOrFaults port req addr data s)
  | hostMemAccess write addr data => exact conclusion_of_answers (execHostMemAccess_answers write addr data s)
  | registerWrite cap offset value => exact conclusion_of_answers (execRegisterWrite_answers cap offset value s)
  | cxlCacheSnoop line invalidate => exact conclusion_of_answers (execCxlCacheSnoop_answers line invalidate s)
  | setPointRamp => exact conclusion_of_answers (execSetPointRamp_answers s)
  | stepChangeComplete die => exact conclusion_of_answers (execStepChangeComplete_answers die s)
  | _ => exact absurd hdev Bool.false_ne_true

end Sys2Proof.Machine
end

section
/-! Barriers (O33): the arrival of `bara` and `bars`, what counting it makes of the barrier and of the sub-groups that wait in the phase, and what
`barq` reads (spec/08_barrier.md R125 to R128). -/

namespace Sys2Proof.Machine.Sync

/-! ### Instructions with checks of their own (R295) -/

/-- A check that step 2 of R295 adds for the instruction makes it ILLEGAL. -/
theorem issue_of_illegal {s : State} {e : Env} {op : Op} {f : Fields} (h : Ready s e op f) (illegal blocked legality : Env → Bool)
    (body : Env → Out) (hi : illegal e = true) : issue op f s illegal blocked legality body = trap0 s e op f 0x01 := by
  simp [issue, h.env, h.clear, hi]

/-- A check that step 5 of R295 adds for the instruction raises REGION_LEGALITY. -/
theorem issue_of_illegalInRegion {s : State} {e : Env} {op : Op} {f : Fields} (h : Ready s e op f) (illegal blocked legality : Env → Bool)
    (body : Env → Out) (hi : illegal e = false) (hg : guardFirst op = false) (hb : blocked e = false) (hl : legality e = true) :
    issue op f s illegal blocked legality body = trap0 s e op f 0x03 := by
  have hh : (e.inHandler && !handlerAllows op f) = false := by
    cases hi : e.inHandler with
    | false => rfl
    | true => simp [h.allowed hi]
  simp [issue, h.env, h.clear, h.word, h.budget, hh, h.copies, hi, hg, hb, h.go, h.full, h.tags, hl]

/-! ### Sub-groups -/

theorem subOf_congr {g g' : Group} (h : g'.subs = g.subs) (n : Nat) : subOf g' n = subOf g n := by simp [subOf, h]

theorem subOf_onSub_some {g : Group} {n : Nat} {x : Sub} {fn : Sub → Sub} (h : subOf g n = some x) (hfn : ∀ y, (fn y).node = y.node) :
    subOf (onSub g n fn) n = some (fn x) := by rw [subOf_onSub_self _ _ _ hfn, h]; rfl

/-- A sub-group that goes on behind its instruction is RUNNABLE there. -/
theorem subOf_goOn {g : Group} {node : Nat} {x : Sub} (k : Nat) (op : Op) (mod : BitVec 4) (h : subOf g node = some x) :
    subOf (goOn g node k op mod) node = some { x with pc := x.pc + BitVec.ofNat 80 k, st := .runnable } := by
  exact subOf_onSub_some ((subOf_congr (sigAfter_subs g node op _) node).trans h) (fun _ => rfl)

@[simp] theorem goOn_team (g : Group) (node k : Nat) (op : Op) (mod : BitVec 4) : (goOn g node k op mod).team = g.team := by simp [goOn]

/-! ### `bara` and `bars` issue (R126) -/

theorem exec_barrierOp {op : Op} (h : op = .bara ∨ op = .bars) (f : Fields) (s : State) :
    exec (op.instr f) s = arrive op f s (op == .bars) := by
  rcases h with rfl | rfl <;> rfl

theorem barCount_eq (e : Env) (f : Fields) :
    barCount e f = if f.sa = .none then bits f.imm.toNat 15 8 else (readS e.g f f.sa).toNat % 256 := by
  unfold barCount
  cases f.sa <;> simp [Sel.isNone]

section
variable {s : State} {e : Env} {op : Op} {f : Fields} (waits : Bool)

theorem arrive_of_absentBarrier (h : Ready s e op f) (hb : e.team.barriers.length ≤ barNumber f) :
    arrive op f s waits = trap0 s e op f 0x01 :=
  issue_of_illegal h _ _ _ _ (by simp [hb])

theorem arrive_of_openRegion (h : Ready s e op f) (hg : guardFirst op = false) (hb : barNumber f < e.team.barriers.length)
    (hr : e.g.region.isOpen = true) : arrive op f s waits = trap0 s e op f 0x03 :=
  issue_of_illegalInRegion h _ _ _ _ (by simp [hb]) hg rfl hr

/-- Where the barrier's own checks pass, the count decides: 0 is ILLEGAL, and with another the sub-group arrives. -/
theorem arrive_of_closedRegion (h : Ready s e op f) (hg : guardFirst op = false) (hb : barNumber f < e.team.barriers.length)
    (hr : e.g.region.isOpen = false) :
    arrive op f s waits = if barCount e f = 0 then trap0 s e op f 0x01 else
      .next (account (setGroup s e.gid (onSub e.g e.node (fun x =>
        { x with st := .arriving (barNumber f) (barCount e f) waits f.form.length }))) e op f) := by
  unfold arrive
  rw [issue_of_ready h _ _ _ _ (by simp [hb]) (by simp [hg]) rfl hr]
  simp

end

/-! ### A counted arrival (R125, R127) -/

/-- The arrivals of the phase with one more: the first opens it. -/
def arrivalsWith (b : Barrier) : Nat := if b.count = 0 then 1 else b.arrived.toNat + 1

/-- An arrival below the count leaves the phase open. -/
theorem arriveAt_below {b : Barrier} {c : Nat} (hb : b.count = 0 ∨ b.count.toNat = c) (hl : arrivalsWith b < c) :
    arriveAt b c = some ({ count := BitVec.ofNat 8 c, arrived := BitVec.ofNat 8 (arrivalsWith b), par := b.par }, false) := by
  by_cases hz : b.count = 0
  · have hs : arrivalsWith b = 1 := if_pos hz
    have h1 : (c == 1) = false := beq_false_of_ne (by omega)
    simp [arriveAt, hz, hs, h1]
  · have hn : b.count.toNat = c := hb.resolve_left hz
    have hs : arrivalsWith b = b.arrived.toNat + 1 := if_neg hz
    have hcount : BitVec.ofNat 8 c = b.count := by rw [← hn, BitVec.ofNat_toNat, BitVec.setWidth_eq]
    have ha : BitVec.ofNat 8 (b.arrived.toNat + 1) = b.arrived + 1 := by simp [BitVec.ofNat_add]
    have hl' : b.arrived.toNat + 1 < c := by rwa [hs] at hl
    simp only [arriveAt, beq_false_of_ne hz, hn, hs, hl', ha, hcount, beq_self_eq_true, Bool.false_eq_true, if_true, if_false]

/-- The arrival that reaches the count completes the phase. -/
theorem arriveAt_last {b : Barrier} {c : Nat} (h0 : 0 < c) (hb : b.count = 0 ∨ b.count.toNat = c) (hl : ¬arrivalsWith b < c) :
    arriveAt b c = some ({ count := 0, arrived := 0, par := !b.par }, true) := by
  by_cases hz : b.count = 0
  · have hs : arrivalsWith b = 1 := if_pos hz
    have h1 : c = 1 := by omega
    simp [arriveAt, hz, h1]
  · have hn : b.count.toNat = c := hb.resolve_left hz
    have hl' : ¬b.arrived.toNat + 1 < c := by rwa [arrivalsWith, if_neg hz] at hl
    simp only [arriveAt, beq_false_of_ne hz, hn, hl', beq_self_eq_true, Bool.false_eq_true, if_true, if_false]

theorem arriveAt_mismatch {b : Barrier} {c : Nat} (hz : b.count ≠ 0) (hn : b.count.toNat ≠ c) : arriveAt b c = none := by
  simp only [arriveAt, beq_false_of_ne hz, beq_false_of_ne hn, Bool.false_eq_true, if_false]

/-- The group of a counted arrival: its sub-group goes on behind the instruction, or waits there for the rest of its phase. -/
def pastArrival (g : Group) (node k bar : Nat) (waits complete : Bool) (pc : VAddr) : Group :=
  let g := goOn g node k (if waits then .bars else .bara) 0
  if waits && !complete then onSub g node (fun y => { y with st := .waitBars bar, barsPc := pc }) else g

theorem pastArrival_team (g : Group) (node k bar : Nat) (waits complete : Bool) (pc : VAddr) :
    (pastArrival g node k bar waits complete pc).team = g.team := by
  unfold pastArrival
  dsimp only
  split <;> simp

theorem subOf_pastArrival {g : Group} {node : Nat} {x : Sub} (k bar : Nat) (waits complete : Bool) (pc : VAddr) (h : subOf g node = some x) :
    ∃ y, subOf (pastArrival g node k bar waits complete pc) node = some y ∧ y.pc = x.pc + BitVec.ofNat 80 k ∧
      y.st = if waits && !complete then .waitBars bar else .runnable := by
  have hg := subOf_goOn k (if waits then Op.bars else .bara) 0 h
  cases hw : waits && !complete with
  | true =>
    simp only [pastArrival, hw, if_true]
    exact ⟨_, subOf_onSub_some hg (fun _ => rfl), rfl, rfl⟩
  | false =>
    simp only [pastArrival, hw, Bool.false_eq_true, if_false]
    exact ⟨_, hg, rfl, rfl⟩

section
variable {s : State} {gid node : Nat} {g : Group} {team : Team} {x : Sub} {bar c k : Nat} {waits : Bool}
  (hg : s.groups.find gid = some g) (ht : s.teams.find g.team = some team) (hx : subOf g node = some x)
  (hst : x.st = .arriving bar c waits k) (hup : releaseHeldUp s team.core g .team = false)
include hg ht hx hst hup

theorem execBarrierArrive_of_mismatch (h : arriveAt (team.barriers.getD bar { count := 0, arrived := 0, par := false }) c = none) :
    execBarrierArrive gid node s =
      .next (raise (onGroup s gid (fun g => onSub g node (fun x => { x with st := .runnable }))) gid node 0x06 x.pc 0 false) := by
  simp only [execBarrierArrive, hg, ht, hx, hst, hup, h, Bool.false_eq_true, if_false]

theorem execBarrierArrive_of_counted {b : Barrier} {complete : Bool}
    (h : arriveAt (team.barriers.getD bar { count := 0, arrived := 0, par := false }) c = some (b, complete)) :
    let t := setGroup (setTeam s g.team { team with barriers := team.barriers.set bar b }) gid (pastArrival g node k bar waits complete x.pc)
    execBarrierArrive gid node s = .next (if complete then releasePhase t g.team bar else t) := by
  simp only [execBarrierArrive, hg, ht, hx, hst, hup, h, Bool.false_eq_true, if_false]
  have hteam := pastArrival_team g node k bar waits complete x.pc
  unfold pastArrival at hteam ⊢
  rw [hteam]

end

/-! ### The end of a phase (R125) -/

/-- The sub-group, RUNNABLE if it waits in the phase of a barrier. -/
def releasedSub (bar : Nat) (x : Sub) : Sub := if x.st == .waitBars bar then { x with st := .runnable } else x

theorem releasedSub_st_ne (bar : Nat) (x : Sub) : (releasedSub bar x).st ≠ .waitBars bar := by
  by_cases h : x.st = .waitBars bar <;> simp [releasedSub, h]

theorem releasedSub_of_ne {bar : Nat} {x : Sub} (h : x.st ≠ .waitBars bar) : releasedSub bar x = x := by
  simp [releasedSub, h]

theorem releasedSub_node (bar : Nat) (x : Sub) : (releasedSub bar x).node = x.node := by
  unfold releasedSub; split <;> rfl

/-- The group with the sub-groups released that wait in the phase. -/
def releasedFrom (bar : Nat) (g : Group) : Group := { g with subs := g.subs.map (releasedSub bar) }

theorem releasedFrom_noneWait (bar : Nat) (g : Group) : ∀ z ∈ (releasedFrom bar g).subs, z.st ≠ .waitBars bar := by
  intro z hz
  obtain ⟨x, -, rfl⟩ := List.mem_map.1 hz
  exact releasedSub_st_ne bar x

theorem releasedFrom_idem (bar : Nat) (g : Group) : releasedFrom bar (releasedFrom bar g) = releasedFrom bar g := by
  have h : (g.subs.map (releasedSub bar)).map (releasedSub bar) = g.subs.map (releasedSub bar) := by
    rw [List.map_map]
    exact List.map_congr_left fun x _ => releasedSub_of_ne (releasedSub_st_ne bar x)
  simp only [releasedFrom, h]

/-- A sub-group that does not wait in the phase stays as it is. -/
theorem subOf_releasedFrom {bar : Nat} {g : Group} {n : Nat} {y : Sub} (h : subOf g n = some y) (hy : y.st ≠ .waitBars bar) :
    subOf (releasedFrom bar g) n = some y := by
  simp only [subOf, releasedFrom, List.find?_map, Function.comp_def, releasedSub_node] at h ⊢
  rw [h, Option.map_some, releasedSub_of_ne hy]

/-- Changes of several groups by a function that a second use does not change. -/
theorem foldl_onGroup_groups {α : Type} (key : α → Nat) (fn : Group → Group) (hfn : ∀ g, fn (fn g) = fn g) (l : List α) (s : State) :
    (l.foldl (fun s a => onGroup s (key a) fn) s).groups = s.groups.map (fun e => (e.1, if e.1 ∈ l.map key then fn e.2 else e.2)) := by
  induction l generalizing s with
  | nil => simp
  | cons a l ih =>
    rw [List.foldl_cons, ih, onGroup_groups, Map.modify, List.map_map]
    apply List.map_congr_left
    intro e _
    by_cases h1 : e.1 = key a <;> by_cases h2 : e.1 ∈ l.map key <;> simp_all

theorem foldl_onGroup_teams {α : Type} (key : α → Nat) (fn : Group → Group) (l : List α) (s : State) :
    (l.foldl (fun s a => onGroup s (key a) fn) s).teams = s.teams := by
  induction l generalizing s with
  | nil => rfl
  | cons a l ih => rw [List.foldl_cons, ih, onGroup_teams]

theorem releasePhase_groups (s : State) (team bar : Nat) : (releasePhase s team bar).groups =
    s.groups.map (fun e => (e.1, if e.1 ∈ (teamGroups s team).map (·.1) then releasedFrom bar e.2 else e.2)) :=
  foldl_onGroup_groups (fun e : Nat × Group => e.1) (releasedFrom bar) (releasedFrom_idem bar) (teamGroups s team) s

@[simp] theorem releasePhase_teams (s : State) (team bar : Nat) : (releasePhase s team bar).teams = s.teams :=
  foldl_onGroup_teams (fun e : Nat × Group => e.1) (releasedFrom bar) (teamGroups s team) s

theorem Map.find_map_key {α : Type} (m : Map α) (fn : Nat → α → α) (k : Nat) :
    Map.find (m.map (fun e => (e.1, fn e.1 e.2))) k = (m.find k).map (fn k) := by
  induction m with
  | nil => rfl
  | cons e t ih =>
    rw [List.map_cons, Map.find, Map.find]
    by_cases h : e.1 = k
    · simp [h]
    · simp only [beq_iff_eq, h, if_false]; exact ih

/-- When a phase completes, no sub-group of the team waits in it. -/
theorem releasePhase_noneWait (s : State) (team bar : Nat) :
    ∀ p ∈ (releasePhase s team bar).groups, p.2.team = team → ∀ z ∈ p.2.subs, z.st ≠ .waitBars bar := by
  intro p hp hteam
  rw [releasePhase_groups, List.mem_map] at hp
  obtain ⟨e, he, rfl⟩ := hp
  have hkeep : (if e.1 ∈ (teamGroups s team).map (·.1) then releasedFrom bar e.2 else e.2).team = e.2.team := by split <;> rfl
  have hin : e.1 ∈ (teamGroups s team).map (·.1) :=
    List.mem_map.2 ⟨e, List.mem_filter.2 ⟨he, by simpa [hkeep] using hteam⟩, rfl⟩
  simpa only [hin, if_true] using releasedFrom_noneWait bar e.2

/-- A sub-group that does not wait in the phase is found as before when the phase completes. -/
theorem releasePhase_find {s : State} {gid n : Nat} {g : Group} {y : Sub} (team bar : Nat) (hg : s.groups.find gid = some g)
    (hy : subOf g n = some y) (hst : y.st ≠ .waitBars bar) :
    ∃ g', (releasePhase s team bar).groups.find gid = some g' ∧ subOf g' n = some y := by
  rw [releasePhase_groups, Map.find_map_key s.groups (fun k g => if k ∈ (teamGroups s team).map (·.1) then releasedFrom bar g else g), hg]
  refine ⟨_, rfl, ?_⟩
  split
  · exact subOf_releasedFrom hy hst
  · exact hy

/-! ### The obligation -/

/-- `bara` and `bars` at issue: an absent barrier, an open region, a count of 0, or an arrival. -/
theorem barrierOp_issue {op : Op} {f : Fields} {s : State} {e : Env} (hop : op = .bara ∨ op = .bars) (h : Ready s e op f) :
    let b := bits f.imm.toNat 3 0
    let c := if f.sa = .none then bits f.imm.toNat 15 8 else (readS e.g f f.sa).toNat % 256
    (b ≥ e.team.barriers.length → exec (op.instr f) s = trap0 s e op f 0x01) ∧
    (b < e.team.barriers.length → e.g.region.isOpen = true → exec (op.instr f) s = trap0 s e op f 0x03) ∧
    (b < e.team.barriers.length → e.g.region.isOpen = false → c = 0 → exec (op.instr f) s = trap0 s e op f 0x01) ∧
    (b < e.team.barriers.length → e.g.region.isOpen = false → c ≠ 0 → ∃ t g, exec (op.instr f) s = .next t ∧
      EndedAs s t e op f { e.sub with st := .arriving b c (op == .bars) f.form.length } g ∧ g = { e.g with subs := g.subs }) := by
  intro b c
  have hg : guardFirst op = false := by rcases hop with rfl | rfl <;> rfl
  have hc : barCount e f = c := barCount_eq e f
  rw [exec_barrierOp hop]
  refine ⟨arrive_of_absentBarrier _ h, arrive_of_openRegion _ h hg, fun hb hr h0 => ?_, fun hb hr h0 => ?_⟩
  · rw [arrive_of_closedRegion _ h hg hb hr, hc, if_pos h0]
  · rw [arrive_of_closedRegion _ h hg hb hr, hc, if_neg h0]
    exact ⟨_, _, rfl, account_endedAs op f e.g (fun x => { x with st := .arriving b c (op == .bars) f.form.length }) h.env rfl (fun _ => rfl), rfl⟩

/-- What `barq` reads of a barrier: PAR, ARRIVED and COUNT. -/
def barWord (b : Barrier) : W64 := BitVec.ofNat 64 (b.count.toNat + 2 ^ 8 * b.arrived.toNat + 2 ^ 16 * b.par.toNat)

theorem execBarq_of_present {f : Fields} {s : State} {e : Env} (h : Ready s e .barq f) (hb : barNumber f < e.team.barriers.length) :
    execBarq f s = finish e .barq f s (if e.guard f then
      writeS e.g f.dst (barWord (e.team.barriers.getD (barNumber f) { count := 0, arrived := 0, par := false })) else e.g) := by
  unfold execBarq
  rw [issue_of_ready h _ _ _ _ (by simp [hb]) nofun rfl rfl]
  cases e.guard f <;> simp [barWord, Nat.mul_comm]

/-- `barq` at issue: an absent barrier, a false guard, or the barrier's fields as they stand. -/
theorem barq_issue {f : Fields} {s : State} {e : Env} (h : Ready s e .barq f) (hz : e.g.sized) :
    let n := bits f.imm.toNat 3 0
    let b := e.team.barriers.getD n { count := 0, arrived := 0, par := false }
    (n ≥ e.team.barriers.length → exec (.barq f) s = trap0 s e .barq f 0x01) ∧
    (n < e.team.barriers.length → Completes (.barq f) s e .barq f fun g => OnlyRegs e.g g (dests e.g.s .barq f) ∧ SameMasks e.g g ∧
      ∀ k, f.dst = .s k → sreg g k.val = if e.guard f then
        { val := BitVec.ofNat 64 (b.count.toNat + 2 ^ 8 * b.arrived.toNat + 2 ^ 16 * b.par.toNat), full := true } else sreg e.g k.val) := by
  intro n b
  refine ⟨fun hn => issue_of_illegal h _ _ _ _ (decide_eq_true hn), fun hn => ?_⟩
  have hstands : OnlyRegs e.g (if e.guard f then writeS e.g f.dst (barWord b) else e.g) (dests e.g.s .barq f) := by
    split
    · exact writeS_only e.g f.dst (barWord b)
    · exact OnlyRegs.refl e.g _
  obtain ⟨t, hfin, hend⟩ := finishAt_ended .barq f (if e.guard f then writeS e.g f.dst (barWord b) else e.g) (e.next f.form.length) h.env
    (by split <;> simp) (by split <;> simp)
  refine ⟨t, _, (execBarq_of_present h hn).trans hfin, hend, hstands.ended _ _ _ _, ?_, fun k hk => ?_⟩
  · split <;> simp [SameMasks]
  · have hlt : k.val < e.g.sregs.length := by
      have hin := budget_dests h.budget (.s k.val) (mem_regsFrom_s.mpr ⟨k, hk, rfl⟩)
      rw [hz.s]; simpa [Reg.inBudget] using hin
    have hread (g : Group) (fn : Sub → Sub) : sreg (onSub (sigAfter g e.node .barq f) e.node fn) k.val = sreg g k.val := by simp [sreg]
    rw [hread]
    split
    · rw [hk]; exact sreg_setS_self e.g k.val { val := barWord b, full := true } hlt
    · rfl

/-- The arrival whose turn has come: a mismatch, or one counted. -/
theorem barrierArrive_outcome {s : State} {gid node : Nat} {g : Group} {team : Team} {x : Sub} {bar c k : Nat} {waits : Bool}
    (hg : s.groups.find gid = some g) (ht : s.teams.find g.team = some team) (hx : subOf g node = some x) (hst : x.st = .arriving bar c waits k)
    (hup : releaseHeldUp s team.core g .team = false) (h0 : 0 < c) :
    let b := team.barriers.getD bar { count := 0, arrived := 0, par := false }
    (b.count ≠ 0 → b.count.toNat ≠ c → exec (.barrierArrive gid node) s =
      .next (raise (onGroup s gid (fun g => onSub g node (fun x => { x with st := .runnable }))) gid node 0x06 x.pc 0 false)) ∧
    (b.count = 0 ∨ b.count.toNat = c →
      let seen := arrivalsWith b
      ∃ t team' g' y, exec (.barrierArrive gid node) s = .next t ∧ t.teams.find g.team = some team' ∧ t.groups.find gid = some g' ∧
        subOf g' node = some y ∧
        team'.barriers = team.barriers.set bar
          (if seen < c then { count := BitVec.ofNat 8 c, arrived := BitVec.ofNat 8 seen, par := b.par } else { count := 0, arrived := 0, par := !b.par }) ∧
        y.pc = x.pc + BitVec.ofNat 80 k ∧ y.st = (if waits && decide (seen < c) then .waitBars bar else .runnable) ∧
        (seen ≥ c → ∀ p ∈ t.groups, p.2.team = g.team → ∀ z ∈ p.2.subs, z.st ≠ .waitBars bar)) := by
  intro b
  refine ⟨fun hz hn => execBarrierArrive_of_mismatch hg ht hx hst hup (arriveAt_mismatch hz hn), fun hb => ?_⟩
  intro seen
  by_cases hseen : seen < c
  · have hexec := execBarrierArrive_of_counted hg ht hx hst hup (arriveAt_below hb hseen)
    obtain ⟨y, hy, hpc, hyst⟩ := subOf_pastArrival k bar waits false x.pc hx
    exact ⟨_, _, _, y, hexec, Map.find_insert_self _ _ _, Map.find_insert_self _ _ _, hy, by rw [if_pos hseen], hpc,
      by rw [hyst, decide_eq_true hseen]; rfl, fun hge => absurd hseen (Nat.not_lt.mpr hge)⟩
  · have hexec := execBarrierArrive_of_counted hg ht hx hst hup (arriveAt_last h0 hb hseen)
    obtain ⟨y, hy, hpc, hyst⟩ := subOf_pastArrival k bar waits true x.pc hx
    have hruns : y.st = .runnable := by simpa using hyst
    have hfound (u : State) : (setGroup u gid (pastArrival g node k bar waits true x.pc)).groups.find gid = some _ := Map.find_insert_self _ _ _
    obtain ⟨g', hfind, hsub⟩ := releasePhase_find g.team bar (hfound (setTeam s g.team
      { team with barriers := team.barriers.set bar { count := 0, arrived := 0, par := !b.par } })) hy (by simp [hruns])
    exact ⟨_, _, g', y, hexec, by rw [if_pos rfl, releasePhase_teams]; exact Map.find_insert_self _ _ _, hfind, hsub, by rw [if_neg hseen], hpc,
      by rw [hruns, decide_eq_false hseen, Bool.and_false]; rfl, fun _ => releasePhase_noneWait _ _ _⟩

/-- Settles O33, by the three steps that barriers have: the issue of an arrival, the counting of one, and `barq`. -/
theorem barriers : Obligations.Barriers := by
  unfold Obligations.Barriers
  exact ⟨fun _ _ _ _ hop h => barrierOp_issue hop h, fun _ _ _ h hz => barq_issue h hz,
    fun _ _ _ _ _ _ _ _ _ _ hg ht hx hst hup _ h0 _ => barrierArrive_outcome hg ht hx hst hup h0⟩

end Sys2Proof.Machine.Sync
end

section
/-! Condition monitors (O34): a re-check whose bytes lie in two sectors (spec/08_barrier.md R132). -/

namespace Sys2Proof.Machine.Sync

/-! ### A waiter whose bytes straddle two sectors

The statement asks that no copy hold the sector of the first byte, and the value it names is that of all bytes before the re-check. A fresh read drops
a superseded L1 copy of every sector that it reads, so a dirty one of the second sector changes the value that the re-check compares. -/

/-- Four bytes, two at the end of one sector and two at the start of the next. -/
def straddledLocs : List Loc := (List.range 4).map (fun i => { space := .dram, addr := 0x20003E + i, cache := 0, comp := false })

def straddledAcc : Acc := { lane := 0, off := 0, va := 0x2003E, locs := straddledLocs }

/-- A `waitc.eq.n32` of those bytes, for a word whose upper two bytes are 1. -/
def straddlingWait : Inflight :=
  { seq := 3, node := 1, pc := 0x10000, dst := .s 4, ty := .n32, size := 4, region := false, retrying := false
    what := .wait straddledAcc 0 0x01010000 .sys }

/-- Its sub-group, in MONITOR and unarmed. -/
def straddlingSub : Sub := { Sub.start 0x10000 with st := .monitor 3 false 6 0 }

def straddlingGroup : Group := { Group.start 0 0 0 false 16 16 0x10000 0 0 0 with inflight := [straddlingWait], subs := [straddlingSub] }

/-- The waiter's core holds the second sector dirty, with 1 in every byte, in a copy that misses a write. -/
def supersededCopy : Copy :=
  { place := .l1 0, space := .dram, sector := 0x8001, bytes := List.replicate 64 1, dirty := true, cw := false, pin := none, pinAt := 0, stale := [0] }

def runningContext : Context :=
  { st := .running, desc := placedDesc, raised := [], taken := [], held := [], pendingCmd := none, recreated := false, drained := [], slotsKept := [] }

def straddlingState : State :=
  { State.reset with groups := [(0, straddlingGroup)], teams := [(0, placedTeam)], contexts := [(0, runningContext)], copies := [supersededCopy] }

/-- The producers of group 0 after a step. -/
def producersAfter (o : Out) : Option (List Inflight) :=
  match o with
  | .next t => (t.groups.find 0).map (·.inflight)
  | _ => none

/-- The first byte's sector is in no cache, and nothing is on its way. -/
theorem straddling_plain : Plain straddlingState 0 { space := .dram, addr := 0x20003E, cache := 0, comp := false } :=
  ⟨by decide, by decide, nofun, nofun, fun _ => rfl, nofun⟩

/-- The bytes hold the awaited word, as the statement reads them. -/
theorem straddling_holds : newestLe straddlingState .dram 0x20003E 4 = 0x01010000 := by decide

/-- The re-check drops the superseded copy, reads 0 there, and the waiter waits on. -/
theorem straddling_waitsOn : producersAfter (exec (.monitorRecheck 0 1) straddlingState) = some [straddlingWait] := by decide

/-- Refutes O34: a re-check whose bytes straddle two sectors compares another value than the newest one when its core's L1 holds the second sector in a
dirty superseded copy. -/
theorem not_conditionMonitors : ¬ Obligations.ConditionMonitors := by
  unfold Obligations.ConditionMonitors
  rintro ⟨-, -, recheck⟩
  obtain ⟨t, g, hexec, hfind, hg⟩ := recheck straddlingState 0 1 3 6 straddlingGroup placedTeam runningContext straddlingSub 0 straddlingWait
    straddledAcc 0x01010000 .sys { space := .dram, addr := 0x20003E, cache := 0, comp := false }
    rfl rfl rfl rfl rfl rfl rfl rfl rfl rfl (by decide) (by decide) (by decide) straddling_plain
  have hstays : g.inflight = [straddlingWait] := by
    have h := straddling_waitsOn
    rw [hexec] at h
    simpa [producersAfter, hfind] using h
  have hgives : g.inflight = [{ straddlingWait with what := .values [(0, 0x01010000)] [] }] := by
    have hlen : straddledAcc.locs.length = 4 := rfl
    simp only [hlen, straddling_holds] at hg
    rw [hg]
    rfl
  exact absurd (hstays.symm.trans hgives) (by decide)

end Sys2Proof.Machine.Sync
end

section
/-! What a range operation does to one sector (spec/20_ref_memory.md R164, R165, R355, R358): what it leaves alone, which copies leave, and what it
writes behind the caches. -/

namespace Sys2Proof.Machine.Sync

/-! ### What messages leave alone (R135, R237) -/

/-- Only what cores have sent, the links and the counter of free values may differ. -/
def OnlyTraffic (s t : State) : Prop := t = { s with cores := t.cores, links := t.links, free := t.free }

theorem OnlyTraffic.refl (s : State) : OnlyTraffic s s := rfl

theorem OnlyTraffic.trans {s t u : State} (h : OnlyTraffic s t) (k : OnlyTraffic t u) : OnlyTraffic s u := by
  unfold OnlyTraffic at *
  rw [k, h]

theorem OnlyTraffic.foldl {α : Type} {f : State → α → State} (h : ∀ s x, OnlyTraffic s (f s x)) (l : List α) (s : State) :
    OnlyTraffic s (l.foldl f s) := by
  induction l generalizing s with
  | nil => exact .refl s
  | cons x t ih => exact (h s x).trans (ih _)

theorem sendFlits_onlyTraffic (s : State) (ls : List Nat) (vc : Nat) : OnlyTraffic s (sendFlits s ls vc) := by
  unfold sendFlits; split <;> rfl

theorem crossing_onlyTraffic (s : State) (a b : Nat) : OnlyTraffic s (crossing s a b) :=
  (sendFlits_onlyTraffic _ _ _).trans (sendFlits_onlyTraffic _ _ _)

theorem backCrossing_onlyTraffic (s : State) (sp : Space) (a : Nat) : OnlyTraffic s (backCrossing s sp a) := by
  unfold backCrossing
  split
  · exact crossing_onlyTraffic _ _ _
  · exact .refl s

theorem noteSend_onlyTraffic (s : State) (core ch dest : Nat) : OnlyTraffic s (noteSend s core ch dest) := by
  have hif (u v : State) (c : Prop) [Decidable c] (hv : OnlyTraffic u v) : OnlyTraffic u (if c then v else u) := by
    split
    · exact hv
    · exact .refl u
  have hif' (u v : State) (c : Prop) [Decidable c] (hv : OnlyTraffic u v) : OnlyTraffic u (if c then u else v) := by
    split
    · exact .refl u
    · exact hv
  have hset (c : Core) : OnlyTraffic s (setCore s core c) := rfl
  exact (hset _).trans ((sendFlits_onlyTraffic _ _ _).trans ((hif _ _ _ (sendFlits_onlyTraffic _ _ _)).trans (hif' _ _ _ (sendFlits_onlyTraffic _ _ _))))

theorem noteAnswers_onlyTraffic (s : State) (sp : Space) (sec : Nat) (p : Copy → Bool) : OnlyTraffic s (noteAnswers s sp sec p) := by
  unfold noteAnswers
  apply OnlyTraffic.foldl
  intro s c
  split
  · exact noteSend_onlyTraffic _ _ _ _
  · exact crossing_onlyTraffic _ _ _
  · exact .refl s

theorem noteRange_onlyTraffic (s : State) (core : Nat) (sc : Scope) (sp : Space) (sec : Nat) : OnlyTraffic s (noteRange s core sc sp sec) := by
  unfold noteRange
  split
  · exact noteSend_onlyTraffic _ _ _ _
  · split
    · exact noteSend_onlyTraffic _ _ _ _
    · exact .refl s

/-! ### What the movement of copies leaves alone -/

/-- Groups, monitors and arrays stand as they were. -/
structure SameAround (s t : State) : Prop where
  groups : t.groups = s.groups
  monitors : t.monitors = s.monitors
  arrays : t.arrays = s.arrays

theorem SameAround.refl (s : State) : SameAround s s := ⟨rfl, rfl, rfl⟩

theorem SameAround.trans {s t u : State} (h : SameAround s t) (k : SameAround t u) : SameAround s u :=
  ⟨k.groups.trans h.groups, k.monitors.trans h.monitors, k.arrays.trans h.arrays⟩

theorem SameAround.ite {s t u : State} {c : Prop} [Decidable c] (ht : SameAround s t) (hu : SameAround s u) : SameAround s (if c then t else u) := by
  split
  · exact ht
  · exact hu

theorem SameAround.foldl {α : Type} {f : State → α → State} (h : ∀ s x, SameAround s (f s x)) (l : List α) (s : State) :
    SameAround s (l.foldl f s) := by
  induction l generalizing s with
  | nil => exact .refl s
  | cons x t ih => exact (h s x).trans (ih _)

theorem OnlyTraffic.around {s t : State} (h : OnlyTraffic s t) : SameAround s t := by
  unfold OnlyTraffic at h
  rw [h]
  exact ⟨rfl, rfl, rfl⟩

/-- No monitor watches the sector. -/
def Unwatched (s : State) (sp : Space) (sec : Nat) : Prop := ∀ m ∈ s.monitors, ¬(m.space = sp ∧ m.addr / 64 = sec)

theorem SameAround.unwatched {s t : State} {sp : Space} {sec : Nat} (h : SameAround s t) (hs : Unwatched s sp sec) : Unwatched t sp sec := by
  unfold Unwatched; rw [h.monitors]; exact hs

theorem monitorsSee_of_unwatched {s : State} {sp : Space} {sec : Nat} (h : Unwatched s sp sec) : monitorsSee s sp sec = s := by
  have hnone : s.monitors.filter (fun m => m.space == sp && m.addr / 64 == sec) = [] := by
    rw [List.filter_eq_nil_iff]
    intro m hm
    simpa using h m hm
  rw [monitorsSee, hnone, List.foldl_nil]

theorem monitorsSee_around {s t : State} {sp : Space} {sec : Nat} (h : SameAround s t) (hw : Unwatched s sp sec) :
    SameAround s (monitorsSee t sp sec) := by
  rw [monitorsSee_of_unwatched (h.unwatched hw)]
  exact h

theorem putCopy_around (s : State) (c : Copy) : SameAround s (putCopy s c) := by unfold putCopy; dsimp only; split <;> exact ⟨rfl, rfl, rfl⟩

theorem putLine_around (s : State) (c : Copy) : SameAround s (putLine s c) := (putCopy_around s c).trans ⟨rfl, rfl, rfl⟩

theorem dropCopies_around (s : State) (sp : Space) (sec : Nat) (p : Copy → Bool) : SameAround s (dropCopies s sp sec p) := ⟨rfl, rfl, rfl⟩

theorem markBehind_around (s : State) (sp : Space) (sec : Nat) (missing : List Nat) : SameAround s (markBehind s sp sec missing) := ⟨rfl, rfl, rfl⟩

theorem settlePoison_around (s : State) (sp : Space) (line : Nat) : SameAround s (settlePoison s sp line) := by
  unfold settlePoison; split <;> exact ⟨rfl, rfl, rfl⟩

theorem pushL1_around {s : State} {sp : Space} {sec : Nat} (h : Unwatched s sp sec) : SameAround s (pushL1 s sp sec) := by
  unfold pushL1
  split
  · exact .refl s
  · exact monitorsSee_around ((noteAnswers_onlyTraffic _ _ _ _).around.trans
      ((putLine_around _ _).trans ((putCopy_around _ _).trans (settlePoison_around _ _ _)))) h

theorem pushGuest_around {s : State} {sp : Space} {sec : Nat} (h : Unwatched s sp sec) : SameAround s (pushGuest s sp sec) := by
  unfold pushGuest
  split
  · exact .refl s
  · exact monitorsSee_around ((crossing_onlyTraffic _ _ _).around.trans
      ((putLine_around _ _).trans ((putCopy_around _ _).trans (settlePoison_around _ _ _)))) h

theorem appendError_around (s : State) (pa kind die slice : Nat) (cyc : W64) : SameAround s (appendError s pa kind die slice cyc) := by
  unfold appendError; dsimp only; split <;> exact ⟨rfl, rfl, rfl⟩

theorem poisonLine_around (s : State) (sp : Space) (line kind : Nat) : SameAround s (poisonLine s sp line kind) :=
  SameAround.trans (t := poison s sp (lineSectors line)) ⟨rfl, rfl, rfl⟩ (appendError_around _ _ _ _ _ _)

theorem setBacking_around {s : State} {sp : Space} (h : sp ≠ .array) (ws : List Host.Cell) : SameAround s (setBacking s sp ws) := by
  cases sp with
  | dram => exact ⟨rfl, rfl, rfl⟩
  | host =>
    have hk := (backCrossing_onlyTraffic s .host ((ws.head?.map (·.1)).getD 0)).around
    exact ⟨hk.groups, hk.monitors, hk.arrays⟩
  | peer p => exact ⟨rfl, rfl, rfl⟩
  | array => exact absurd rfl h

theorem storeLine_around {s : State} {sp : Space} (h : sp ≠ .array) (line : Nat) (ws : List (List Host.Cell)) (cw : Bool) (code : Nat) (bad : Bool) :
    SameAround s (storeLine s sp line ws cw code bad) := by
  unfold storeLine
  refine .ite (poisonLine_around _ _ _ _) ?_
  have hw : SameAround s (ws.foldl (fun s w => setBacking s sp w) s) := .foldl (fun _ w => setBacking_around h w) ws s
  exact .ite (hw.trans ⟨rfl, rfl, rfl⟩) hw

theorem writeBackLine_around {s : State} {sp : Space} (h : sp ≠ .array) (line : Nat) (secs : List Nat) (code : Nat) (bad : Bool) :
    SameAround s (writeBackLine s sp line secs code bad) := by
  unfold writeBackLine
  dsimp only
  split
  · exact .refl s
  · exact (storeLine_around h _ _ _ _ _).trans (.foldl (fun _ _ => .ite (dropCopies_around _ _ _ _)
      ((putCopy_around _ _).trans (markBehind_around _ _ _ _))) _ _)

theorem writeBackFree_around {s : State} {sp : Space} (h : sp ≠ .array) (line : Nat) (secs : List Nat) : SameAround s (writeBackFree s sp line secs) :=
  SameAround.trans (t := fresh s) ⟨rfl, rfl, rfl⟩ (writeBackLine_around h _ _ _ _)

theorem cleanSector_around {s : State} {sp : Space} {sec : Nat} (sc : Scope) (core : Nat) (hw : Unwatched s sp sec) (h : sp ≠ .array) :
    SameAround s (cleanSector s sc core sp sec) := by
  have h1 : SameAround s (if (dirtyCopy s isL1 sp sec).any (reaches sc core) then pushL1 s sp sec else s) := .ite (pushL1_around hw) (.refl s)
  unfold cleanSector
  dsimp only
  generalize (if (dirtyCopy s isL1 sp sec).any (reaches sc core) then pushL1 s sp sec else s) = t at h1 ⊢
  have h2 : SameAround s (if (dirtyCopy t isGuest sp sec).any (reaches sc core) then pushGuest t sp sec else t) :=
    .ite (h1.trans (pushGuest_around (h1.unwatched hw))) h1
  generalize (if (dirtyCopy t isGuest sp sec).any (reaches sc core) then pushGuest t sp sec else t) = u at h2 ⊢
  split
  · exact .ite (h2.trans (writeBackFree_around h _ _)) h2
  · exact h2

theorem forgetLost_around (s : State) (sp : Space) (sec : Nat) : SameAround s (forgetLost s sp sec) := by
  have h (l : List Past) : SameAround s (l.foldr (fun p s => undoWrite s p) s) := by
    induction l with
    | nil => exact .refl s
    | cons p l ih => exact ih.trans ⟨rfl, rfl, rfl⟩
  exact h _

theorem dropReached_around (s : State) (op : Op) (sc : Scope) (core : Nat) (sp : Space) (sec : Nat) : SameAround s (dropReached s op sc core sp sec) :=
  .ite ((dropCopies_around _ _ _ _).trans (forgetLost_around _ _ _)) (dropCopies_around _ _ _ _)

/-- A range operation on a sector that nothing watches leaves groups, monitors and arrays, where it writes no array. -/
theorem rangeSector_around {s : State} {op : Op} {l : Loc} (sc : Scope) (core : Nat) (hw : Unwatched s l.space (locSector l))
    (ha : op = .inval ∨ l.space ≠ .array) : SameAround s (rangeSector s op sc core l) := by
  have hn := (noteRange_onlyTraffic s core sc l.space (locSector l)).around
  unfold rangeSector
  dsimp only
  split
  · exact hn.trans (cleanSector_around sc core (hn.unwatched hw) (ha.resolve_left (by decide)))
  · exact hn.trans (dropReached_around _ _ _ _ _ _)
  · rename_i hinval
    exact hn.trans ((cleanSector_around sc core (hn.unwatched hw) (ha.resolve_left hinval)).trans (dropReached_around _ _ _ _ _ _))

/-! ### The copies that leave (R164) -/

/-- Undoing writes moves no copy. -/
theorem forgetLost_place (s : State) (sp : Space) (sec : Nat) :
    ∀ c ∈ (forgetLost s sp sec).copies, ∃ d ∈ s.copies, c.space = d.space ∧ c.sector = d.sector := by
  have h (l : List Past) : ∀ c ∈ (l.foldr (fun p s => undoWrite s p) s).copies, ∃ d ∈ s.copies, c.space = d.space ∧ c.sector = d.sector := by
    induction l with
    | nil => exact fun c hc => ⟨c, hc, rfl, rfl⟩
    | cons p l ih =>
      intro c hc
      obtain ⟨d, hd, rfl⟩ := List.mem_map.1 hc
      exact ih d hd
  exact h _

/-- At `.sys` `inval` and `clinv` leave no copy of the sector. -/
theorem dropReached_noCopy (s : State) (op : Op) (core : Nat) (sp : Space) (sec : Nat) :
    ∀ c ∈ (dropReached s op .sys core sp sec).copies, ¬(c.space = sp ∧ c.sector = sec) := by
  have hbehind : writesBehind .sys sp = true := by cases sp <;> rfl
  have hdrop : ∀ c ∈ (dropCopies s sp sec (fun c => reaches .sys core c && (c.place != .home || op == .inval || writesBehind .sys sp))).copies,
      ¬(c.space = sp ∧ c.sector = sec) := by
    intro c hc hcs
    have hreach : reaches .sys core c = true := rfl
    simp [dropCopies, hbehind, hreach, hcs.1, hcs.2] at hc
  intro c hc
  unfold dropReached at hc
  dsimp only at hc
  split at hc
  · obtain ⟨d, hd, hsp, hsec⟩ := forgetLost_place _ _ _ c hc
    rw [hsp, hsec]
    exact hdrop d hd
  · exact hdrop c hc

theorem rangeSector_noCopy {op : Op} (h : op ∈ [Op.inval, .clinv]) (s : State) (core : Nat) (l : Loc) :
    ∀ c ∈ (rangeSector s op .sys core l).copies, ¬(c.space = l.space ∧ c.sector = locSector l) := by
  simp only [List.mem_cons, List.not_mem_nil, or_false] at h
  rcases h with rfl | rfl <;> exact dropReached_noCopy _ _ _ _ _

/-! ### Bytes in a row in a memory -/

theorem foldl_write_mapIdx (m : Memory) (a : Nat) (bs : List Byte) :
    (bs.mapIdx (fun i b => (a + i, b))).foldl (fun m w => m.write w.1 w.2) m = m.writeBytes a bs := by
  induction bs generalizing m a with
  | nil => rfl
  | cons b t ih =>
    have hstep : (fun i (b : Byte) => (a + (i + 1), b)) = fun i b => (a + 1 + i, b) := by funext i b; rw [Nat.add_assoc, Nat.add_comm 1]
    rw [List.mapIdx_cons, List.foldl_cons, hstep, ih]
    rfl

theorem read_writeBytes_before {m : Memory} {a x : Nat} (bs : List Byte) (hm : Memory.wf m = true) (h : x < a) : (m.writeBytes a bs).read x = m.read x := by
  induction bs generalizing m a with
  | nil => rfl
  | cons b t ih =>
    rw [Memory.writeBytes, ih (Memory.wf_write m a b hm) (by omega), Memory.read_write_other m a x b hm (by omega)]

theorem read_writeBytes {m : Memory} {a i : Nat} {bs : List Byte} (hm : Memory.wf m = true) (h : i < bs.length) :
    (m.writeBytes a bs).read (a + i) = bs.getD i 0 := by
  induction bs generalizing m a i with
  | nil => exact absurd h (Nat.not_lt_zero i)
  | cons b t ih =>
    rw [Memory.writeBytes]
    cases i with
    | zero =>
      show ((m.write a b).writeBytes (a + 1) t).read a = b
      rw [read_writeBytes_before t (Memory.wf_write m a b hm) (Nat.lt_succ_self a), Memory.read_write_self m a b hm]
    | succ j =>
      rw [show a + (j + 1) = a + 1 + j by omega, ih (Memory.wf_write m a b hm) (by simpa using h), List.getD_cons_succ]

/-! ### A DRAM sector that only its home slice holds is cleaned (R164) -/

/-- Every copy of the DRAM sector is at its home, dirty and whole. -/
def HomeDirty (s : State) (sec : Nat) : Prop :=
  ∀ c ∈ s.copies, c.space = .dram → c.sector = sec → c.place = .home ∧ c.dirty = true ∧ c.bytes.length = 64

theorem copyAt_spec {s : State} {pl : Place} {sp : Space} {sec : Nat} {c : Copy} (h : copyAt s pl sp sec = some c) :
    c ∈ s.copies ∧ c.place = pl ∧ c.space = sp ∧ c.sector = sec := by
  have hp := List.find?_some h
  simp only [Bool.and_eq_true, beq_iff_eq] at hp
  exact ⟨List.mem_of_find?_eq_some h, hp.1.1, hp.1.2, hp.2⟩

section
variable {s : State} {sp : Space} {sec : Nat} (h : ∀ c ∈ s.copies, c.space = sp → c.sector = sec → c.dirty = true → c.place = .home)
include h

theorem dirtyCopy_of_home {p : Place → Bool} (hp : p .home = false) : dirtyCopy s p sp sec = none := by
  refine List.find?_eq_none.2 fun c hc hcs => ?_
  simp only [Bool.and_eq_true, beq_iff_eq] at hcs
  obtain ⟨⟨⟨hsp, hsec⟩, hd⟩, hpl⟩ := hcs
  rw [h c hc hsp hsec hd, hp] at hpl
  exact Bool.false_ne_true hpl

/-- Where every dirty copy of a sector is at its home, the newest bytes are those of the home slice. -/
theorem newestByte_home {i : Nat} (hi : i < 64) : newestByte s sp (sec * 64 + i) = (homeBytes s sp sec).getD i 0 := by
  rw [newestByte, show (sec * 64 + i) / 64 = sec by omega, show (sec * 64 + i) % 64 = i by omega, newestBytes, dirtyCopy_of_home h (p := isL1) rfl,
    dirtyCopy_of_home h (p := isGuest) rfl]

end

theorem homeBytes_of_none {s : State} {sp : Space} {sec i : Nat} (h : copyAt s .home sp sec = none) (hi : i < 64) :
    (homeBytes s sp sec).getD i 0 = backing s sp (sec * 64 + i) := by
  simp [homeBytes, h, List.getD, hi]

/-- The state after the home copy `c` of a sector has been written behind the caches and stays, clean. -/
def writtenBack (s : State) (c : Copy) : State :=
  markBehind (putCopy { s with dram := s.dram.writeBytes (c.sector * 64) c.bytes } { c with dirty := false }) .dram c.sector c.stale

theorem writeBackLine_homeDirty {s : State} {sec : Nat} {c : Copy} (code : Nat) (bad : Bool) (hcode : codeOf s (sec / 4) = 3)
    (hc : copyAt s .home .dram sec = some c) (hd : c.dirty = true) (hlen : c.bytes.length = 64) :
    writeBackLine s .dram (sec / 4) [sec] code bad = writtenBack s c := by
  obtain ⟨-, -, -, hsec⟩ := copyAt_spec hc
  have hmerge (whole : Bool) : mergeFails s .dram (sec / 4) whole bad = false := by simp [mergeFails, hcode]
  have hheld : backHeld s .dram = false := rfl
  have hcells : c.cells.length = 64 := by simp [Copy.cells, hlen]
  have hstore : storeLine s .dram (sec / 4) [c.cells] c.cw code bad = { s with dram := s.dram.writeBytes (c.sector * 64) c.bytes } := by
    have hset : setBacking s .dram c.cells = { s with dram := s.dram.writeBytes (c.sector * 64) c.bytes } := by
      rw [← foldl_write_mapIdx]; rfl
    simp [storeLine, hmerge, hcells, hcode, hset]
  simp [writeBackLine, hc, hd, hheld, hmerge, hstore, writtenBack, hsec]

section
variable {s : State} {sec : Nat} {c : Copy} (hs : HomeDirty s sec) (hc : copyAt s .home .dram sec = some c)
include hs hc

theorem writtenBack_copies : { c with dirty := false } ∈ (writtenBack s c).copies ∧
    ∀ d ∈ (writtenBack s c).copies, d.space = .dram → d.sector = sec → d = { c with dirty := false } := by
  obtain ⟨hmem, hpl, hsp, hsec⟩ := copyAt_spec hc
  have hany : s.copies.any (fun d => d.place == c.place && d.space == c.space && d.sector == c.sector) = true := List.any_eq_true.2 ⟨c, hmem, by simp⟩
  have hcopies : (writtenBack s c).copies = s.copies.map (fun d =>
      if d.place == c.place && d.space == c.space && d.sector == c.sector then { c with dirty := false } else d) := by
    simp only [writtenBack, markBehind, putCopy, hany, if_true]
  rw [hcopies]
  refine ⟨List.mem_map.2 ⟨c, hmem, by simp⟩, fun d hd hdsp hdsec => ?_⟩
  obtain ⟨e, he, rfl⟩ := List.mem_map.1 hd
  by_cases hsame : e.place == c.place && e.space == c.space && e.sector == c.sector
  · exact if_pos hsame
  · rw [if_neg hsame] at hdsp hdsec
    obtain ⟨hepl, -, -⟩ := hs e he hdsp hdsec
    exact absurd (by simp [hepl, hpl, hdsp, hsp, hdsec, hsec]) hsame

theorem writtenBack_newest {i : Nat} (hi : i < 64) : newestByte (writtenBack s c) .dram (sec * 64 + i) = c.bytes.getD i 0 := by
  obtain ⟨hin, hall⟩ := writtenBack_copies hs hc
  obtain ⟨-, hpl, hsp, hsec⟩ := copyAt_spec hc
  have hhome : copyAt (writtenBack s c) .home .dram sec = some { c with dirty := false } := by
    have hsome : (copyAt (writtenBack s c) .home .dram sec).isSome = true :=
      List.find?_isSome.2 ⟨_, hin, by simp [hpl, hsp, hsec]⟩
    obtain ⟨d, hd⟩ := Option.isSome_iff_exists.1 hsome
    obtain ⟨hmem, -, hdsp, hdsec⟩ := copyAt_spec hd
    rw [hd, hall d hmem hdsp hdsec]
  rw [newestByte_home (fun d hd hdsp hdsec _ => by rw [hall d hd hdsp hdsec]; exact hpl) hi, homeBytes, hhome]

theorem writtenBack_backing {i : Nat} (hcan : s.canonical) (hi : i < 64) :
    backing (writtenBack s c) .dram (sec * 64 + i) = c.bytes.getD i 0 := by
  obtain ⟨hmem, -, hsp, hsec⟩ := copyAt_spec hc
  obtain ⟨-, -, hlen⟩ := hs c hmem hsp hsec
  have hdram : (writtenBack s c).dram = s.dram.writeBytes (c.sector * 64) c.bytes := by
    simp only [writtenBack, markBehind, putCopy]
    split <;> rfl
  rw [backing, hdram, hsec]
  exact read_writeBytes hcan.1 (by omega)

end

/-- The clean leaves no dirty copy of the sector, and the storage holds its newest bytes, which are those of before. -/
theorem cleanSector_homeDirty {s : State} {sec : Nat} (core : Nat) (hcan : s.canonical) (hcode : codeOf s (sec / 4) = 3) (hs : HomeDirty s sec) :
    (∀ c ∈ (cleanSector s .sys core .dram sec).copies, c.space = .dram → c.sector = sec → c.dirty = false) ∧
    ∀ i, i < 64 → newestByte (cleanSector s .sys core .dram sec) .dram (sec * 64 + i) = newestByte s .dram (sec * 64 + i) ∧
      backing (cleanSector s .sys core .dram sec) .dram (sec * 64 + i) = newestByte (cleanSector s .sys core .dram sec) .dram (sec * 64 + i) := by
  have hhome : ∀ c ∈ s.copies, c.space = .dram → c.sector = sec → c.dirty = true → c.place = .home := fun c hc hsp hsec _ => (hs c hc hsp hsec).1
  have hnoL1 := dirtyCopy_of_home hhome (p := isL1) rfl
  have hnoGuest := dirtyCopy_of_home hhome (p := isGuest) rfl
  have hnewest {i : Nat} (hi : i < 64) := newestByte_home hhome hi
  cases hc : copyAt s .home .dram sec with
  | none =>
    have hclean : cleanSector s .sys core .dram sec = s := by simp [cleanSector, hnoL1, hnoGuest, hc]
    rw [hclean]
    refine ⟨fun c hmem hsp hsec => ?_, fun i hi => ⟨rfl, by rw [hnewest hi, homeBytes_of_none hc hi]⟩⟩
    have hno := List.find?_eq_none.1 hc c hmem
    simp [hsp, hsec, (hs c hmem hsp hsec).1] at hno
  | some c =>
    obtain ⟨hmem, -, hsp, hsec⟩ := copyAt_spec hc
    obtain ⟨-, hd, hlen⟩ := hs c hmem hsp hsec
    have hclean : cleanSector s .sys core .dram sec = writtenBack (fresh s) c := by
      have hreach : reaches .sys core c = true := rfl
      have hbehind : writesBehind .sys .dram = true := rfl
      simp only [cleanSector, hnoL1, hnoGuest, hc, Option.any_none, Bool.false_eq_true, if_false, hreach, hbehind, Bool.and_self, if_true]
      exact writeBackLine_homeDirty _ _ hcode hc hd hlen
    rw [hclean]
    refine ⟨fun d hdm hdsp hdsec => by rw [(writtenBack_copies (s := fresh s) hs hc).2 d hdm hdsp hdsec], fun i hi => ?_⟩
    rw [writtenBack_newest (s := fresh s) hs hc hi, writtenBack_backing (s := fresh s) hs hc hcan hi, hnewest hi, homeBytes, hc]
    exact ⟨rfl, rfl⟩

/-- The same of a `clean` at `.sys`, which first sends its message. -/
theorem rangeSector_homeDirty {s : State} {l : Loc} (core : Nat) (hcan : s.canonical) (hl : l.space = .dram) (hcode : codeOf s (l.addr / 256) = 3)
    (hs : HomeDirty s (locSector l)) :
    (∀ c ∈ (rangeSector s .clean .sys core l).copies, c.space = .dram → c.sector = locSector l → c.dirty = false) ∧
    ∀ i, i < 64 → newestByte (rangeSector s .clean .sys core l) .dram (locSector l * 64 + i) = newestByte s .dram (locSector l * 64 + i) ∧
      backing (rangeSector s .clean .sys core l) .dram (locSector l * 64 + i) =
        newestByte (rangeSector s .clean .sys core l) .dram (locSector l * 64 + i) := by
  have hline : locSector l / 4 = l.addr / 256 := by simp [locSector, Nat.div_div_eq_div_mul]
  have hsend := noteRange_onlyTraffic s core .sys .dram (locSector l)
  have hrun : rangeSector s .clean .sys core l = cleanSector (noteRange s core .sys .dram (locSector l)) .sys core .dram (locSector l) := by
    simp only [rangeSector, hl]
  rw [hrun]
  unfold OnlyTraffic at hsend
  generalize noteRange s core .sys .dram (locSector l) = t at hsend ⊢
  rw [← hline] at hcode
  have hnewest (i : Nat) : newestByte t .dram (locSector l * 64 + i) = newestByte s .dram (locSector l * 64 + i) := by
    rw [hsend]; exact newestByte_congr rfl rfl rfl rfl rfl _ _
  obtain ⟨hclean, hbytes⟩ := cleanSector_homeDirty (s := t) core (by rw [hsend]; exact hcan) (by rw [hsend]; exact hcode) (by rw [hsend]; exact hs)
  exact ⟨hclean, fun i hi => ⟨(hbytes i hi).1.trans (hnewest i), (hbytes i hi).2⟩⟩

end Sys2Proof.Machine.Sync
end

section
/-! Waits that end (O35): the probe, Commit(), a sleep, a refused access and a range operation (spec/08_barrier.md R135, spec/07_region.md R113,
spec/18_ref_control.md R301, spec/11_ordering.md R191, spec/10_tile.md R165, spec/20_ref_memory.md R355). -/

namespace Sys2Proof.Machine.Sync

/-! ### `fprobe` (R135) -/

/-- `fprobe` at issue: no effect under a false guard, and else the sub-group stands probing. -/
theorem fprobe_issue {f : Fields} {s : State} {e : Env} (h : Ready s e .fprobe f) :
    (e.guard f = false → Completes (.fprobe f) s e .fprobe f fun g => g = { e.g with subs := g.subs, sig := g.sig }) ∧
    (e.guard f = true → ∃ t g, exec (.fprobe f) s = .next t ∧
      EndedAs s t e .fprobe f { e.sub with st := .probing (f.imm.setWidth 4) f.form.length } g ∧ g = { e.g with subs := g.subs }) := by
  have hrun : exec (.fprobe f) s = if !e.guard f then finish e .fprobe f s e.g else
      .next (account (setGroup s e.gid (onSub e.g e.node (fun x => { x with st := .probing (f.imm.setWidth 4) f.form.length }))) e .fprobe f) :=
    issuePlain_of_ready h _ nofun
  refine ⟨fun hg => ?_, fun hg => ?_⟩
  · obtain ⟨t, hfin, hend⟩ := finishAt_ended .fprobe f e.g (e.next f.form.length) h.env rfl rfl
    refine ⟨t, _, hrun.trans (by rw [hg]; exact hfin), hend, ?_⟩
    unfold sigAfter
    split <;> rfl
  · exact ⟨_, _, hrun.trans (by rw [hg]; rfl),
      account_endedAs .fprobe f e.g (fun x => { x with st := .probing (f.imm.setWidth 4) f.form.length }) h.env rfl (fun _ => rfl), rfl⟩

theorem landFlights_of_none {s : State} {p : Flight → Bool} (h : ∀ f ∈ s.flights, p f = false) : landFlights s p = s := by
  have hnone : flightsFor s p = [] := by
    unfold flightsFor
    generalize s.flights = l at h
    induction l with
    | nil => rfl
    | cons f l ih =>
      rw [List.foldr_cons, ih fun x hx => h x (List.mem_cons_of_mem f hx)]
      simp [h f List.mem_cons_self]
  rw [landFlights, hnone, List.foldl_nil]

/-- With no committed store left and no store of the core on its way, the probe completes. -/
theorem execProbeComplete_of_quiet {s : State} {gid node k : Nat} {g : Group} {team : Team} {x : Sub} {m : BitVec 4}
    (hg : s.groups.find gid = some g) (ht : s.teams.find g.team = some team) (hx : subOf g node = some x) (hst : x.st = .probing m k)
    (hq : committedStores g = false) (hf : ∀ y ∈ s.flights, y.ofCore team.core = false) :
    execProbeComplete gid node s = .next (onGroup (setCore s team.core { coreOf s team.core with
      channels := (coreOf s team.core).channels.mapIdx (fun i l => if probeChannels m i then [] else l) }) gid (fun g => goOn g node k .fprobe 0)) := by
  have hnone : ∀ f ∈ s.flights, (f.ofCore team.core && probed m f) = false := fun f hmem => by rw [hf f hmem]; rfl
  have hany : s.flights.any (fun f => f.ofCore team.core && probed m f) = false := List.any_eq_false.2 fun f hmem => by simp [hnone f hmem]
  simp only [execProbeComplete, hg, hx, ht, hst, hq, Option.map_some, Bool.false_eq_true, if_false, landFlights_of_none hnone, hany, Bool.or_self]

theorem getD_mapIdx_clear (m : BitVec 4) (l : List (List Nat)) (ch : Nat) :
    (l.mapIdx (fun i x => if probeChannels m i then [] else x)).getD ch [] = if m = 0 ∨ m.getLsbD ch = true then [] else l.getD ch [] := by
  have hsel : probeChannels m ch = true ↔ m = 0 ∨ m.getLsbD ch = true := by simp [probeChannels]
  rw [List.getD_eq_getElem?_getD, List.getD_eq_getElem?_getD, List.getElem?_mapIdx]
  cases l[ch]? <;> simp [hsel]

/-- The sub-group goes on behind the `fprobe`, and the destination sets of the channels that it selects are empty. -/
theorem probeComplete_outcome {s : State} {gid node k : Nat} {g : Group} {team : Team} {x : Sub} {m : BitVec 4}
    (hg : s.groups.find gid = some g) (ht : s.teams.find g.team = some team) (hx : subOf g node = some x) (hst : x.st = .probing m k)
    (hq : committedStores g = false) (hf : ∀ y ∈ s.flights, y.ofCore team.core = false) :
    ∃ t g', exec (.probeComplete gid node) s = .next t ∧ t.groups.find gid = some g' ∧
      subOf g' node = some { x with pc := x.pc + BitVec.ofNat 80 k, st := .runnable } ∧
      ∀ ch, (coreOf t team.core).channels.getD ch [] = if m = 0 ∨ m.getLsbD ch = true then [] else (coreOf s team.core).channels.getD ch [] := by
  refine ⟨_, goOn g node k .fprobe 0, execProbeComplete_of_quiet hg ht hx hst hq hf, ?_, subOf_goOn k .fprobe 0 hx, fun ch => ?_⟩
  · simp [hg]
  · rw [← getD_mapIdx_clear]
    have hcore (u : State) (c : Core) (fn : Group → Group) : coreOf (onGroup (setCore u team.core c) gid fn) team.core = c := coreOf_setCore_self u _ c
    rw [hcore]

/-! ### Commit() goes on (R113) -/

/-- The group between two regions that steps 2 to 6 of Commit() leave. -/
def committedGroup (g : Group) (node : Nat) : Group :=
  cutOthers { releaseHeld { g with queues := g.queues.map (fun q => q.filter (fun c => !c.popped || popAwaits g c)) } with
    region := { g.region with isOpen := false, reentry := 0, lines := [], tallocs := [], tfrees := [], reopen := some (node, g.region.p, g.region.q) } } node

theorem freeTiles_only (s : State) (team : Nat) : freeTiles s team = { s with teams := (freeTiles s team).teams } := by
  unfold freeTiles
  split
  · rfl
  · dsimp only; split <;> rfl

/-- Commit() changes its group, teams and cores. -/
theorem commitNow_only {s : State} {gid : Nat} {g : Group} {team : Team} (node : Nat) (hg : s.groups.find gid = some g)
    (ht : s.teams.find g.team = some team) :
    commitNow s gid node = { s with groups := s.groups.insert gid (committedGroup g node), teams := (commitNow s gid node).teams
                                    cores := (commitNow s gid node).cores } := by
  have hfree (u : State) (k c src ctx n : Nat) : countCore (freeTiles u k) c src ctx n =
      { u with teams := (countCore (freeTiles u k) c src ctx n).teams, cores := (countCore (freeTiles u k) c src ctx n).cores } := by
    rw [freeTiles_only]; rfl
  simp only [commitNow, hg, ht]
  exact (hfree _ _ _ _ _ _).trans rfl

/-- The sub-group that performs Commit() stays as it is. -/
theorem subOf_committedGroup (g : Group) (node : Nat) : subOf (committedGroup g node) node = subOf g node := by
  have hnode (x : Sub) : (if x.node == node || x.st == .exited then x else { x with regionPc := cutPoint x, cutAtFuse := x.standsAtFuse }).node = x.node := by
    split <;> rfl
  show List.find? _ (List.map _ g.subs) = List.find? _ g.subs
  rw [List.find?_map]
  simp only [Function.comp_def, hnode]
  cases hx : g.subs.find? (fun x => x.node == node) with
  | none => rfl
  | some x =>
    have hn : x.node = node := by simpa using List.find?_some (p := fun x : Sub => x.node == node) hx
    simp [hn]

theorem execCommitProceed_of_done {s : State} {gid node : Nat} {g : Group} {x : Sub} (hg : s.groups.find gid = some g) (hx : subOf g node = some x)
    (hst : x.st = .committing) (hw : g.region.isOpen = true → commitWaits g = false) :
    execCommitProceed gid node s = .next (onGroup (if g.region.isOpen then commitNow s gid node else s) gid
      (fun g => onSub g node (fun x => { x with st := .runnable }))) := by
  have hready : (x.st != .committing || (g.region.isOpen && commitWaits g)) = false := by
    cases hr : g.region.isOpen with
    | false => simp [hst]
    | true => simp [hst, hw hr]
  simp only [execCommitProceed, hg, hx, hready, Bool.false_eq_true, if_false]

theorem commitProceed_outcome {s : State} {gid node : Nat} {g : Group} {team : Team} {x : Sub} (hg : s.groups.find gid = some g)
    (ht : s.teams.find g.team = some team) (hx : subOf g node = some x) (hst : x.st = .committing)
    (hw : g.region.isOpen = true → commitWaits g = false) :
    ∃ t g', exec (.commitProceed gid node) s = .next t ∧ t.groups.find gid = some g' ∧ g'.region.isOpen = false ∧
      (g.region.isOpen = true → g'.region.reopen = some (node, g.region.p, g.region.q) ∧ g'.region.reentry = 0 ∧
        g'.storeQ = g.storeQ.mapIdx (fun i y => if y.held then { y with held := false, seq := g.seq + i, commit := g.seq } else y)) ∧
      subOf g' node = some { x with st := .runnable } ∧ g'.vregs = g.vregs ∧ g'.sregs = g.sregs ∧ SameMasks g g' ∧
      (∀ k, k ≠ gid → t.groups.find k = s.groups.find k) ∧ ∀ sp a, newestByte t sp a = newestByte s sp a := by
  have hexec := execCommitProceed_of_done hg hx hst hw
  cases hr : g.region.isOpen with
  | false =>
    rw [hr] at hexec
    refine ⟨_, onSub g node (fun x => { x with st := .runnable }), hexec, by simp [hg], hr, nofun, subOf_onSub_some hx (fun _ => rfl), rfl, rfl,
      ⟨rfl, rfl⟩, fun k hk => by simp [hk], newestByte_congr rfl rfl rfl rfl rfl⟩
  | true =>
    rw [hr, if_pos rfl, commitNow_only node hg ht] at hexec
    refine ⟨_, onSub (committedGroup g node) node (fun x => { x with st := .runnable }), hexec, by simp, rfl, fun _ => ⟨rfl, rfl, rfl⟩,
      subOf_onSub_some ((subOf_committedGroup g node).trans hx) (fun _ => rfl), rfl, rfl, ⟨rfl, rfl⟩,
      fun k hk => by simp [hk, Map.find_insert_other], newestByte_congr rfl rfl rfl rfl rfl⟩

/-! ### A sleep and a refused access (R191, R301) -/

theorem sleepExpire_outcome {s : State} {gid node n : Nat} {g : Group} {x : Sub} (hg : s.groups.find gid = some g) (hx : subOf g node = some x)
    (hst : x.st = .sleeping n) :
    ∃ t g', exec (.sleepExpire gid node) s = .next t ∧ t = { s with groups := t.groups } ∧ t.groups.find gid = some g' ∧
      g' = { g with subs := g'.subs } ∧ subOf g' node = some (if n ≤ 256 then { x with st := .runnable } else x) := by
  have hnode (y : Sub) : (if y.slept then { y with st := .runnable } else y).node = y.node := by split <;> rfl
  have hslept : x.slept = decide (n ≤ 256) := by rw [Sub.slept, hst]; rfl
  refine ⟨_, onSub g node (fun y => if y.slept then { y with st := .runnable } else y), rfl, rfl, by simp [hg], rfl, ?_⟩
  rw [subOf_onSub_some hx hnode, hslept]
  simp

theorem retryResend_outcome {s : State} {gid : Nat} {g : Group} (id : Nat) (hg : s.groups.find gid = some g) :
    ∃ t, exec (.retryResend gid id) s = .next t ∧ t = { s with groups := t.groups } ∧ t.groups.find gid = some { g with
      inflight := g.inflight.map (fun i => if i.seq == id then { i with retrying := false } else i) } :=
  ⟨_, rfl, rfl, by simp [hg]⟩

/-! ### A range operation goes on (R165, R355, R358) -/

theorem pickFrom_singleton {α : Type} (s : State) (x : α) : pickFrom s [x] = some (0, x) := by simp [pickFrom, Nat.mod_one]

theorem pickFrom_nil {α : Type} (s : State) : pickFrom s ([] : List α) = none := rfl

/-- The group without a range operation that is complete. -/
def withoutRangeOp (s : State) (gid id : Nat) : State := onGroup s gid (fun g => { g with rangeOps := g.rangeOps.filter (fun x => x.seq != id) })

theorem earlierStores_none {g : Group} {n : Nat} (h : ∀ x ∈ g.storeQ, x.held = true ∨ n ≤ x.seq) :
    g.storeQ.any (fun x => !x.held && decide (x.seq < n)) = false := by
  refine List.any_eq_false.2 fun x hx => ?_
  rcases h x hx with hheld | hseq
  · simp [hheld]
  · simp [Nat.not_lt.2 hseq]

theorem writeParked_congr {s t : State} (h : t.arrays = s.arrays) (spans : List (Space × Nat × Nat)) : writeParked t spans = writeParked s spans := by
  simp only [writeParked, h]

section
variable {s : State} {gid id : Nat} {g : Group} {team : Team} {r : RangeOp} (hg : s.groups.find gid = some g)
  (ht : s.teams.find g.team = some team) (hr : g.rangeOps.find? (fun x => x.seq == id) = some r)
  (hst : ∀ x ∈ g.storeQ, x.held = true ∨ r.seq ≤ x.seq) (hacq : acquirePending g r.seq = false) (hfl : homeFlights s team.core = false)
include hg ht hr hst hacq hfl

theorem execRangeOpComplete_of_noSector (hnil : r.sectors = []) (hparked : (r.op != .inval && writeParked s r.spans) = false) :
    execRangeOpComplete gid id s = .next (withoutRangeOp s gid id) := by
  simp only [execRangeOpComplete, hg, hr, ht, earlierStores_none hst, hacq, hfl, hnil, pickFrom_nil, hparked, Bool.or_self, Bool.false_eq_true, if_false]
  rfl

theorem execRangeOpComplete_of_lastSector {l : Loc} (hone : r.sectors = [l]) (hpin : pinnedAway s l.space (locSector l) (some g.team) = false)
    (hheld : rangeHeld s r.scope team.core l = false)
    (hparked : (r.op != .inval && writeParked (rangeSector (fresh s) r.op r.scope team.core l) r.spans) = false) :
    execRangeOpComplete gid id s = .next (withoutRangeOp (rangeSector (fresh s) r.op r.scope team.core l) gid id) := by
  simp only [execRangeOpComplete, hg, hr, ht, earlierStores_none hst, hacq, hfl, hone, pickFrom_singleton, hpin, hheld, hparked, Bool.or_self,
    Bool.false_eq_true, if_false, List.length_singleton, Nat.le_refl, decide_true, Bool.not_false, Bool.and_self, if_true]
  rfl

end

/-- No array command that a `clean` or `clinv` has to wait for is parked on its range (R161). -/
theorem notParked {s t : State} {r : RangeOp} (h : r.op = .inval ∨ writeParked s r.spans = false) (ha : t.arrays = s.arrays) :
    (r.op != .inval && writeParked t r.spans) = false := by
  rw [writeParked_congr ha]
  rcases h with h | h <;> simp [h]

/-- The range operation is gone from its group. -/
theorem withoutRangeOp_find {s t : State} {gid id : Nat} {g : Group} (hg : s.groups.find gid = some g) (h : t.groups = s.groups) :
    (withoutRangeOp t gid id).groups.find gid = some { g with rangeOps := g.rangeOps.filter (fun x => x.seq != id) } := by
  rw [← h] at hg
  simp [withoutRangeOp, hg]

theorem rangeOpComplete_outcome {s : State} {gid id : Nat} {g : Group} {team : Team} {r : RangeOp} (hg : s.groups.find gid = some g)
    (ht : s.teams.find g.team = some team) (hr : g.rangeOps.find? (fun x => x.seq == id) = some r)
    (hst : ∀ x ∈ g.storeQ, x.held = true ∨ r.seq ≤ x.seq) (hacq : acquirePending g r.seq = false) (hfl : homeFlights s team.core = false)
    (hpark : r.op = .inval ∨ writeParked s r.spans = false) :
    (r.sectors = [] → ∃ t, exec (.rangeOpComplete gid id) s = .next t ∧ t = { s with groups := t.groups } ∧
      t.groups.find gid = some { g with rangeOps := g.rangeOps.filter (fun x => x.seq != id) }) ∧
    (∀ l, r.sectors = [l] → pinnedAway s l.space (locSector l) (some g.team) = false → rangeHeld s .sys team.core l = false →
      Unwatched s l.space (locSector l) → r.scope = .sys → r.op = .inval ∨ l.space ≠ .array → ∃ t, exec (.rangeOpComplete gid id) s = .next t ∧
        t.groups.find gid = some { g with rangeOps := g.rangeOps.filter (fun x => x.seq != id) } ∧
        (r.op ∈ [Op.inval, .clinv] → ∀ c ∈ t.copies, ¬(c.space = l.space ∧ c.sector = locSector l)) ∧
        (r.op = .clean → s.canonical → l.space = .dram → codeOf s (l.addr / 256) = 3 → HomeDirty s (locSector l) →
          (∀ c ∈ t.copies, c.space = .dram → c.sector = locSector l → c.dirty = false) ∧
          ∀ i, i < 64 → newestByte t .dram (locSector l * 64 + i) = newestByte s .dram (locSector l * 64 + i) ∧
            backing t .dram (locSector l * 64 + i) = newestByte t .dram (locSector l * 64 + i))) := by
  refine ⟨fun hnil => ⟨_, execRangeOpComplete_of_noSector hg ht hr hst hacq hfl hnil (notParked hpark rfl), rfl, withoutRangeOp_find hg rfl⟩,
    fun l hone hpin hheld hw hsys harr => ?_⟩
  rw [← hsys] at hheld
  have hsame : SameAround s (rangeSector (fresh s) r.op r.scope team.core l) := .trans (t := fresh s) ⟨rfl, rfl, rfl⟩ (rangeSector_around _ _ hw harr)
  refine ⟨_, execRangeOpComplete_of_lastSector hg ht hr hst hacq hfl hone hpin hheld (notParked hpark hsame.arrays), withoutRangeOp_find hg hsame.groups,
    fun hop => ?_, fun hop hcan hl hcode hs => ?_⟩
  · rw [hsys]
    exact rangeSector_noCopy hop _ _ _
  · rw [hop, hsys]
    exact rangeSector_homeDirty (s := fresh s) team.core hcan hl hcode hs

/-- Settles O35: each wait by the step that ends it. -/
theorem probeAndWaitsEnd : Obligations.ProbeAndWaitsEnd :=
  ⟨⟨fun _ _ _ h => fprobe_issue h, fun _ _ _ _ _ _ _ _ hg ht hx hst hq hf => probeComplete_outcome hg ht hx hst hq hf⟩,
    fun _ _ _ _ _ _ hg ht hx hst hw => commitProceed_outcome hg ht hx hst hw,
    fun _ _ _ _ _ _ hg hx hst => sleepExpire_outcome hg hx hst,
    fun _ id _ _ hg => retryResend_outcome id hg,
    fun _ _ _ _ _ _ hg ht hr hst hacq hfl hpark => rangeOpComplete_outcome hg ht hr hst hacq hfl hpark⟩

end Sys2Proof.Machine.Sync
end
